-- ==== Sys2Proof/Word.lean ====
section
/-! DEFINITION. The word types of the ZM-412: bytes, samples, frames, numbers and identities (00_scope.md 4.2, 4.3, 4.5). -/

namespace Sys2Proof

/-- One byte on the control port or on the air. -/
abbrev Byte := BitVec 8

/-- A 16-bit signed sample (00_scope.md 4.3); its value is `toInt`. -/
abbrev Sample := BitVec 16

/-- A frame of samples in time order; every frame the block holds has 160 of them. -/
abbrev Frame := List Sample

/-- A station number as a burst can carry it, 0..31; a station runs under 1..30, and 0 is "no number". -/
abbrev StationNo := Fin 32

/-- A wearer number, 0..7. -/
abbrev WearerNo := Fin 8

/-- A slot index, 0..15. -/
abbrev SlotIx := Fin 16

/-- A group code; 0 is "no group". -/
abbrev GroupCode := BitVec 24

/-- The 48-bit factory ID. -/
abbrev FactoryId := BitVec 48

/-- A level registered in 0..32767: a gain in Q2.14, or T_act. -/
abbrev Gain := BitVec 15

/-- Silence, a frame of 160 zero samples (00_scope.md 4.3). -/
def silence : Frame := List.replicate 160 0#16

end Sys2Proof
end

