-- ==== Sys2Proof/Config.lean ====
section
/-! DEFINITION. What one device fixes and the manual leaves to it, and the numbers of the manual that several blocks share. -/

namespace Sys2Proof

/-- The factory ID is "fixed per device" (R175): a free value of Config, assumption log 2. -/
opaque Config.factoryId : FactoryId

/-- Whether the inactive level of CBCK is high, under each setting of the data-edge field. R33 and R181 hold CBCK at "its
inactive level" and say nowhere which it is: a free value, assumption log 32. -/
opaque Config.cbckInactiveHigh : Bool → Bool

/-- The level of the MUTE pin at `State.reset`: the world's; DESIGN CHOICE low, assumption log 3. -/
def Config.muteHighAtReset : Bool := false

/-- Ticks of a slot that no correction touches (R1). -/
def Config.slotTicks : Nat := 625

/-- Ticks of a free-running cycle (R1, R20). -/
def Config.cycleTicks : Nat := 10000

/-- Sample frames of a cycle (R31). -/
def Config.frameLength : Nat := 160

/-- Samples a phone queue can hold (R140). -/
def Config.queueLimit : Nat := 640

end Sys2Proof
end

