-- ==== Sys2Proof/Syntax.lean ====
section
/-! DEFINITION. The commands of the block: one constructor of `Instr` for each row of spec/opcode_table.json, with the
operands that the world or the host chooses (the table itself gives no operand bits). -/

namespace Sys2Proof

/-- Join kinds (R7, Table 12-2). -/
inductive JoinKind where
  | newWearer
  | partner
deriving DecidableEq, Repr

/-- The two claims of a station (R62). -/
inductive ClaimId where
  | voice
  | farEnd
deriving DecidableEq, Repr

/-- At one instant a change of station state and the frame-deadline work fall together, and either may come first
(R98, R115, R128, R148); the world chooses. Assumption log 7. -/
inductive DeadlineOrder where
  | stateFirst
  | deadlineFirst
deriving DecidableEq, Repr

/-- The reception of slot 15 and the cycle end fall at one instant, and what the reception changes may come before or
after the cycle end (R30, R75, R82, R144); the world chooses. Assumption log 7. -/
inductive ReceptionOrder where
  | receptionFirst
  | cycleEndFirst
deriving DecidableEq, Repr

/-- The four fields a program writes into a bond place (R159). -/
structure BondValue where
  group : GroupCode
  station : StationNo
  wearer : WearerNo
  seq : BitVec 16
deriving DecidableEq, Repr

/-- The world's choice of what a reset leaves of an operation in flight (Table 10-5): `took` is the mark of the
operation (program: the OPEN mark completed; retire: RETIRED; lock: locked), the others say for each field whether it
holds its new value (program) or its old value (erase) and not 0. -/
structure CutChoice where
  took : Bool
  group : Bool
  station : Bool
  wearer : Bool
  seq : Bool
deriving DecidableEq, Repr

/-- The levels of CDIN over the 32 bit clocks of a sample frame, at the rising edge of CBCK in each and at the falling one;
bit 31 is the first bit clock's (R33). -/
structure CdinLevels where
  onRising : BitVec 32
  onFalling : BitVec 32
deriving DecidableEq, Repr

/-- The 17 argument bytes of WRITE_CONFIG, by field (Table 12-6). -/
structure ConfigArgs where
  format : Byte
  tAct : BitVec 16
  gFar : BitVec 16
  gVoice : BitVec 16
  gUp : BitVec 16
  gSide : BitVec 16
  vol : BitVec 16
  mask : BitVec 32
deriving DecidableEq, Repr

/-- What the air gave the receiver (R12): a burst whose first bit was detected at `arrival` and whose reception ended at
`finish`, with the bytes received; or energy at an instant that never formed a burst. Instants are local time. -/
inductive AirItem where
  | burst (arrival finish : Nat) (bytes : List Byte)
  | energy (instant : Nat)
deriving DecidableEq, Repr

/-- The commands. `t` is the local instant at which the world lets the command fall. START, STOP and JOIN_GROUP written
without one fall at the present instant: an instant already past is brought forward to it (log 1). -/
inductive Instr where
  | readId
  | writeConfig (t : Nat) (args : ConfigArgs)
  | start (place : Byte) (t : Nat := 0)
  | stop (t : Nat := 0)
  | foundGroup (t : Nat)
  | joinGroup (kind : Byte) (t : Nat := 0)
  | openPairing (kind : Byte)
  | closePairing
  | bearCall
  | endCall
  | setLevels (vol gSide : BitVec 16)
  | readStatus
  | readEvents
  | readPeers
  | readBond (place : Byte)
  | retireBond (t : Nat) (place : Byte)
  | lockBond (t : Nat) (place : Byte)
  | eraseBond (t : Nat) (place : Byte)
  | clearFault
  | writeDownlink (n : BitVec 16)
  | readUplink (n : BitVec 16)
  | softReset
  | unknownCommand (code : Byte)
  | downlinkSample (v : Sample)
  | uplinkSamplePosition
  | csnRise (t : Nat) (cut : CutChoice)
  | powerOnReset (cut : CutChoice)
  | rstnFall (cut : CutChoice)
  | resetEnd (t : Nat)
  | muteLineChange (t : Nat)
  | debounceExpiry
  | slotStart
  | slotEnd (order : ReceptionOrder) (air : List AirItem)
  | cycleEnd (order : DeadlineOrder)
  | stepJump
  | peerSilent (n : StationNo)
  | peerLost (n : StationNo)
  | peerRemoved (n : StationNo)
  | listenTimeout
  | tentativeExpiry (claim : ClaimId)
  | claimLost (claim : ClaimId)
  | holdoffExpiry (claim : ClaimId)
  | pairingWindowTimeout
  | lapseMemoryExpiry
  | seekTimeout
  | joinHoldExpiry
  | joinAttemptsExhausted
  | pendingWriteStart
  | programDone (held : Option BondValue)
  | erasePartDone
  | retireDone
  | lockDone
  | eraseDone
  | scanRetireDone
  | sampleFrameStart (cdin : CdinLevels)
  | csnFall
deriving DecidableEq, Repr

end Sys2Proof
end

