-- ==== Sys2Proof/WellFormed.lean ====
section
/-! DEFINITION. Which commands the world can give: the checks on operands that the manual's ranges set. -/

namespace Sys2Proof

/-- The codes that name a command (Table 12-4). -/
def commandCodes : List Nat :=
  [0x01, 0x02, 0x10, 0x11, 0x12, 0x13, 0x14, 0x15, 0x20, 0x21, 0x22, 0x30, 0x31, 0x32, 0x40, 0x41, 0x42, 0x43, 0x44,
    0x50, 0x51, 0x7F]

/-- A station number that a station can run under, 1..30 (00_scope.md Table 3). -/
def StationNo.valid (n : StationNo) : Bool := 1 ≤ n.val && n.val ≤ 30

/-- The stretch of local time an item of the air takes. -/
def AirItem.span : AirItem → Nat × Nat
  | .burst a f _ => (a, f)
  | .energy i => (i, i + 1)

/-- A burst takes some time and less than 400 ticks (R4, R13). -/
def AirItem.wf : AirItem → Bool
  | .burst a f _ => decide (a < f) && decide (f < a + 400)
  | .energy _ => true

/-- Two items of one receiver do not overlap: of two overlapping bursts at most one is detected as a burst (R12). -/
def AirItem.apart (x y : AirItem) : Bool :=
  decide (x.span.2 ≤ y.span.1) || decide (y.span.2 ≤ x.span.1)

/-- Every item is well formed and stands apart from the ones after it. -/
def airWf : List AirItem → Bool
  | [] => true
  | x :: xs => x.wf && xs.all (AirItem.apart x) && airWf xs

/-- A bond value a place can hold (Table 10-1): station number 0..30. -/
def BondValue.wf (v : BondValue) : Bool := decide (v.station.val ≤ 30)

/-- The well-formed commands. -/
def Instr.wf : Instr → Bool
  | .unknownCommand code => !commandCodes.contains code.toNat
  | .slotEnd _ air => airWf air
  | .peerSilent n => n.valid
  | .peerLost n => n.valid
  | .peerRemoved n => n.valid
  | .programDone (some v) => v.wf
  | .programDone none => true
  | .readId | .writeConfig _ _ | .start _ _ | .stop _ | .foundGroup _ | .joinGroup _ _ | .openPairing _ | .closePairing
  | .bearCall | .endCall | .setLevels _ _ | .readStatus | .readEvents | .readPeers | .readBond _ | .retireBond _ _
  | .lockBond _ _ | .eraseBond _ _ | .clearFault | .writeDownlink _ | .readUplink _ | .softReset | .downlinkSample _
  | .uplinkSamplePosition | .csnRise _ _ | .powerOnReset _ | .rstnFall _ | .resetEnd _ | .muteLineChange _
  | .debounceExpiry | .slotStart | .cycleEnd _ | .stepJump | .listenTimeout | .tentativeExpiry _ | .claimLost _
  | .holdoffExpiry _ | .pairingWindowTimeout | .lapseMemoryExpiry | .seekTimeout | .joinHoldExpiry
  | .joinAttemptsExhausted | .pendingWriteStart | .erasePartDone | .retireDone | .lockDone | .eraseDone
  | .scanRetireDone | .sampleFrameStart _ | .csnFall => true

end Sys2Proof
end

