-- ==== Sys2Proof/Decode.lean ====
section
/-! DEFINITION. The control port's bytes (Tables 12-4, 12-6): from the bytes of a transaction to the command taken, and
back; the digit helpers that every layout of the Formats chapter uses; and `decodeTableWord`, which answers none because
the opcode table gives no row any bits. -/

namespace Sys2Proof

/-- The number that digits of a base spell, most significant first. -/
def ofDigits (base : Nat) (ds : List Nat) : Nat := ds.foldl (fun acc d => acc * base + d) 0

/-- The `k` lowest digits of a number in a base, most significant first. -/
def toDigits (base : Nat) : Nat → Nat → List Nat
  | 0, _ => []
  | k + 1, n => toDigits base k (n / base) ++ [n % base]

/-- `k` bytes of a number, most significant byte first (R170, R184). -/
def bytesOfNat (k n : Nat) : List Byte := (toDigits 256 k n).map (BitVec.ofNat 8)

/-- The number that bytes spell, most significant byte first. -/
def natOfBytes (bs : List Byte) : Nat := ofDigits 256 (bs.map BitVec.toNat)

/-- A field of `w` bits read from bytes. -/
def fieldOfBytes (w : Nat) (bs : List Byte) : BitVec w := BitVec.ofNat w (natOfBytes bs)

/-- How many argument bytes follow a command code (Table 12-4); a code that names no command has none (R171). -/
def argumentBytes (code : Nat) : Nat :=
  match code with
  | 0x02 => 17
  | 0x10 => 1
  | 0x13 => 1
  | 0x14 => 1
  | 0x22 => 4
  | 0x40 => 1
  | 0x41 => 1
  | 0x42 => 1
  | 0x43 => 1
  | 0x50 => 2
  | 0x51 => 2
  | _ => 0

/-- The configuration arguments from their 17 bytes (Table 12-6). -/
def configOfBytes (a : List Byte) : ConfigArgs where
  format := fieldOfBytes 8 (a.take 1)
  tAct := fieldOfBytes 16 ((a.drop 1).take 2)
  gFar := fieldOfBytes 16 ((a.drop 3).take 2)
  gVoice := fieldOfBytes 16 ((a.drop 5).take 2)
  gUp := fieldOfBytes 16 ((a.drop 7).take 2)
  gSide := fieldOfBytes 16 ((a.drop 9).take 2)
  vol := fieldOfBytes 16 ((a.drop 11).take 2)
  mask := fieldOfBytes 32 ((a.drop 13).take 4)

/-- The command that a code and its complete argument bytes name (Table 12-4); `t` is the instant of its taking. -/
def commandOf (t : Nat) (code : Byte) (a : List Byte) : Instr :=
  match code.toNat with
  | 0x01 => .readId
  | 0x02 => .writeConfig t (configOfBytes a)
  | 0x10 => .start (fieldOfBytes 8 a) t
  | 0x11 => .stop t
  | 0x12 => .foundGroup t
  | 0x13 => .joinGroup (fieldOfBytes 8 a) t
  | 0x14 => .openPairing (fieldOfBytes 8 a)
  | 0x15 => .closePairing
  | 0x20 => .bearCall
  | 0x21 => .endCall
  | 0x22 => .setLevels (fieldOfBytes 16 (a.take 2)) (fieldOfBytes 16 (a.drop 2))
  | 0x30 => .readStatus
  | 0x31 => .readEvents
  | 0x32 => .readPeers
  | 0x40 => .readBond (fieldOfBytes 8 a)
  | 0x41 => .retireBond t (fieldOfBytes 8 a)
  | 0x42 => .lockBond t (fieldOfBytes 8 a)
  | 0x43 => .eraseBond t (fieldOfBytes 8 a)
  | 0x44 => .clearFault
  | 0x50 => .writeDownlink (fieldOfBytes 16 a)
  | 0x51 => .readUplink (fieldOfBytes 16 a)
  | 0x7F => .softReset
  | _ => .unknownCommand code

/-- The command taken in a transaction whose bytes so far are `bs`, at the instant `t` of the last of them: none while
the code or an argument byte is missing (R171: such a command is not taken); bytes after the last argument do not
count (R170). -/
def commandOfBytes (t : Nat) : List Byte → Option Instr
  | [] => none
  | code :: rest =>
    if rest.length < argumentBytes code.toNat then none
    else some (commandOf t code (rest.take (argumentBytes code.toNat)))

/-- A phone audio sample from its two bytes, most significant byte first (R149, R184). -/
def sampleOfBytes (hi lo : Byte) : Sample := fieldOfBytes 16 [hi, lo]

/-- The samples that the bytes complete: a sample whose second byte is missing is discarded (R149). -/
def samplesOfBytes : List Byte → List Sample
  | hi :: lo :: rest => sampleOfBytes hi lo :: samplesOfBytes rest
  | [_] => []
  | [] => []

/-- The commands that the bytes of one transaction give (R170, R149): the command taken and, for WRITE_DOWNLINK(n), the
samples that complete after the byte in which the result goes out; bytes after the n-th sample are ignored. A position of
READ_UPLINK begins with its first clock, not with a byte (R155), and is given as a row of its own. -/
def commandsOfBytes (t : Nat) (bs : List Byte) : List Instr :=
  match commandOfBytes t bs with
  | none => []
  | some (.writeDownlink n) =>
    .writeDownlink n :: ((samplesOfBytes (bs.drop 4)).take n.toNat).map .downlinkSample
  | some c => [c]

/-- The 17 argument bytes of a configuration (Table 12-6). -/
def bytesOfConfig (c : ConfigArgs) : List Byte :=
  bytesOfNat 1 c.format.toNat ++ bytesOfNat 2 c.tAct.toNat ++ bytesOfNat 2 c.gFar.toNat ++ bytesOfNat 2 c.gVoice.toNat ++
    bytesOfNat 2 c.gUp.toNat ++ bytesOfNat 2 c.gSide.toNat ++ bytesOfNat 2 c.vol.toNat ++ bytesOfNat 4 c.mask.toNat

/-- The bytes by which the host gives a command (Table 12-4); none for what is no host command. -/
def bytesOfCommand : Instr → Option (List Byte)
  | .readId => some [0x01]
  | .writeConfig _ c => some (0x02 :: bytesOfConfig c)
  | .start p _ => some [0x10, p]
  | .stop _ => some [0x11]
  | .foundGroup _ => some [0x12]
  | .joinGroup k _ => some [0x13, k]
  | .openPairing k => some [0x14, k]
  | .closePairing => some [0x15]
  | .bearCall => some [0x20]
  | .endCall => some [0x21]
  | .setLevels v g => some (0x22 :: (bytesOfNat 2 v.toNat ++ bytesOfNat 2 g.toNat))
  | .readStatus => some [0x30]
  | .readEvents => some [0x31]
  | .readPeers => some [0x32]
  | .readBond p => some [0x40, p]
  | .retireBond _ p => some [0x41, p]
  | .lockBond _ p => some [0x42, p]
  | .eraseBond _ p => some [0x43, p]
  | .clearFault => some [0x44]
  | .writeDownlink n => some (0x50 :: bytesOfNat 2 n.toNat)
  | .readUplink n => some (0x51 :: bytesOfNat 2 n.toNat)
  | .softReset => some [0x7F]
  | .unknownCommand c => some [c]
  | .downlinkSample _ | .uplinkSamplePosition | .csnRise _ _ | .powerOnReset _ | .rstnFall _ | .resetEnd _
  | .muteLineChange _ | .debounceExpiry | .slotStart | .slotEnd _ _ | .cycleEnd _ | .stepJump | .peerSilent _
  | .peerLost _ | .peerRemoved _ | .listenTimeout | .tentativeExpiry _ | .claimLost _ | .holdoffExpiry _
  | .pairingWindowTimeout | .lapseMemoryExpiry | .seekTimeout | .joinHoldExpiry | .joinAttemptsExhausted
  | .pendingWriteStart | .programDone _ | .erasePartDone | .retireDone | .lockDone | .eraseDone | .scanRetireDone
  | .sampleFrameStart _ | .csnFall => none

/-- The instant a command carries, if it carries one. -/
def Instr.instant : Instr → Nat
  | .writeConfig t _ | .start _ t | .stop t | .foundGroup t | .joinGroup _ t | .retireBond t _ | .lockBond t _
  | .eraseBond t _ | .csnRise t _ | .resetEnd t | .muteLineChange t => t
  | .readId | .openPairing _ | .closePairing | .bearCall | .endCall | .setLevels _ _
  | .readStatus | .readEvents | .readPeers | .readBond _ | .clearFault | .writeDownlink _ | .readUplink _ | .softReset
  | .unknownCommand _ | .downlinkSample _ | .uplinkSamplePosition | .powerOnReset _ | .rstnFall _ | .debounceExpiry
  | .slotStart | .slotEnd _ _ | .cycleEnd _ | .stepJump | .peerSilent _ | .peerLost _ | .peerRemoved _ | .listenTimeout
  | .tentativeExpiry _ | .claimLost _ | .holdoffExpiry _ | .pairingWindowTimeout | .lapseMemoryExpiry | .seekTimeout
  | .joinHoldExpiry | .joinAttemptsExhausted | .pendingWriteStart | .programDone _ | .erasePartDone | .retireDone
  | .lockDone | .eraseDone | .scanRetireDone | .sampleFrameStart _ | .csnFall => 0

/-- spec/opcode_table.json gives no row of this block any bits, so no word spells a command. -/
def decodeTableWord (_nbits _w : Nat) : Option Instr := none

end Sys2Proof
end

