-- ==== Sys2Proof/Machine/State.lean ====
section
/-! DEFINITION. The state of the ZM-412: the records of its thirteen blocks as plain data, the pins, the queue of
commands, and the state right after reset. INVENTORY.md lists every field with the rule that names it. -/

namespace Sys2Proof.Machine

/-- No rule of the manual stops the device, so there is no fault: the type has no constructor. -/
inductive Fault : Type
deriving DecidableEq, Repr

/-- Refusals of the model. -/
inductive Refusal where
  /-- Raised by an arm of `exec` whose command has no meaning yet; no arm is left so. Safe: the model stops. -/
  | notModelled (mnemonic : String)
deriving DecidableEq, Repr

/-! ### Device and station -/

/-- What holds the device in reset (R181). -/
inductive ResetCause where
  | powerOn
  | rstn
deriving DecidableEq, Repr

/-- Station states (Table 3-1). -/
inductive StationState where
  | unconfigured
  | idle
  | listen
  | seeking
  | joining
  | member
  | leaving
deriving DecidableEq, Repr

/-- Working credentials (R35). -/
structure Credentials where
  group : GroupCode
  number : StationNo
  wearer : WearerNo
deriving DecidableEq, Repr

/-- The station state record (R35); `leavingEnds` counts the cycle ends passed in LEAVING, which R42 needs. -/
structure Station where
  state : StationState
  creds : Credentials
  listenCount : Nat
  leavingEnds : Nat
deriving DecidableEq, Repr

/-! ### Cycle timer -/

/-- How the slots of a cycle are laid out: an ordinary cycle (R1), the jump cycle of a step jump or of an alignment (R3). -/
inductive GridKind where
  | ordinary
  | stepJump
  | aligned
deriving DecidableEq, Repr

/-- A re-spacing of the sample frames by an alignment (R32): its instant T_r, the number j of the frames that had
started, and the new end. -/
structure Respacing where
  instant : Nat
  first : Nat
  finish : Nat
deriving DecidableEq, Repr

/-- The cycle in progress (R19). `length` is the length fixed at its start (R31). `gridInstant` is the start in an
ordinary cycle. `nextPhase` is the phase P from which the following cycle's end is placed (R27 cases B and C).
`respaced` holds the re-spacings of its sample frames, the newest first (R32). -/
structure Cycle where
  start : Nat
  planned : Nat
  length : Nat
  correction : Int
  kind : GridKind
  gridInstant : Nat
  nextPhase : Option Int
  respaced : List Respacing
deriving DecidableEq, Repr

/-- A reception kept for the correction, the step-loss test and the jump reference (R21 to R23): classified OWN when
`inStep`, else STRAY. -/
structure TimerRx where
  inStep : Bool
  sender : StationNo
  offset : Int
  arrival : Nat
  slot : SlotIx
deriving DecidableEq, Repr

/-- The cycle timer (R19). -/
structure Timer where
  cycle : Option Cycle
  lastCorrection : Int
  stepLoss : Nat
  counter : BitVec 32
  log : List TimerRx
deriving DecidableEq, Repr

/-- Which work of the present cycle end rows of their own have already made (assumption log 6): the end E that a step
jump has placed, the entries aged, the claims decided, the window and the lapse memory counted, the newcomer's order
decided, the views set to UNKNOWN at this instant. -/
structure Early where
  jump : Option Nat
  aged : List StationNo
  voiceDecided : Bool
  farDecided : Bool
  windowCounted : Bool
  lapseAged : Bool
  joinDecided : Bool
  viewsSet : Bool
deriving DecidableEq, Repr

/-! ### Bursts and the channel engine -/

/-- One sub-block of a companded frame: an exponent 0..8 and 32 mantissas (R7, R100). -/
structure SubBlock where
  exponent : Fin 9
  mantissas : List (BitVec 8)
deriving DecidableEq, Repr

/-- A companded frame: five sub-blocks in time order (R7). -/
abbrev Payload := List SubBlock

/-- Burst kinds (Table 1-2). -/
inductive BurstKind where
  | voice
  | farend
  | leave
  | join
  | offer
  | confirm
deriving DecidableEq, Repr

/-- What follows the header (R7, Table 12-2). -/
inductive Body where
  | absent
  | frame (p : Payload)
  | join (id : FactoryId) (kind : JoinKind)
  | offer (target : FactoryId) (station : StationNo) (wearer : WearerNo)
  | confirm (id : FactoryId) (offerer station : StationNo)
deriving DecidableEq, Repr

/-- One burst (Table 1-3). -/
structure Burst where
  group : GroupCode
  kind : BurstKind
  sender : StationNo
  wearer : WearerNo
  slot : SlotIx
  lineMute : Bool
  hush : Bool
  pairingOpen : Bool
  bearer : Bool
  age : BitVec 8
  heardMap : List StationNo
  body : Body
deriving DecidableEq, Repr

/-- The voice payload: a frame, or absent with one of two marks (R98). -/
inductive VoicePayload where
  | frame (p : Payload)
  | hush
  | none
deriving DecidableEq, Repr

/-- A burst the station has sent, with the interval of its transmission (R4, R11). -/
structure Sent where
  start : Nat
  finish : Nat
  burst : Burst
deriving DecidableEq, Repr

/-- Effects of slot 15's reception that the world takes after the cycle end (assumption log 7). -/
inductive LateEffect where
  | clashYield
  | electionYield
  | windowYield
deriving DecidableEq, Repr

/-- The channel engine (R9). `nextSlot` is the slot to start next, or the slot in progress while `inSlot`; 16 once slot
15 has ended. `sentInSlot`: the slot in progress holds the station's own transmission. `onSince` is the instant at which
the receiver last came on; `cutSpans` are the stretches for which it was on before a transition turned it off, as far back
as a reception that is still to be classified can have begun. `held` are items of the air that fall in a slot still to end.
`heard` are the senders received OWN in this cycle (R49). -/
structure Channel where
  nextSlot : Nat
  inSlot : Bool
  sent : Option Sent
  sentInSlot : Bool
  onSince : Nat
  cutSpans : List (Nat × Nat)
  held : List AirItem
  heard : List StationNo
  voicePayload : VoicePayload
  farPayload : Option Payload
  late : List LateEffect
deriving DecidableEq, Repr

/-! ### Peer view and claims -/

/-- Slot-view entries (R59). -/
inductive Entry where
  | empty
  | corrupt
  | foreign
  | own (n : StationNo)
  | stray
  | mine
  | unknown
deriving DecidableEq, Repr

/-- The three slot views, 16 entries each (R59). -/
structure Views where
  filling : List Entry
  v1 : List Entry
  v2 : List Entry
deriving DecidableEq, Repr

/-- States of a peer entry (Table 3-6). -/
inductive PeerState where
  | active
  | silent
  | lost
deriving DecidableEq, Repr

/-- A peer table entry (Table 3-6). -/
structure Peer where
  number : StationNo
  wearer : WearerNo
  state : PeerState
  missed : Nat
  voiceSlot : Option SlotIx
  farSlot : Option SlotIx
  offset : Int
  lineMute : Bool
  hush : Bool
  pairingOpen : Bool
  bearer : Bool
  age : BitVec 8
deriving DecidableEq, Repr

/-- Claim states (Table 4-2). -/
inductive ClaimState where
  | none
  | waiting
  | holdoff
  | tentative
  | confirmed
  | releasing
deriving DecidableEq, Repr

/-- A claim record with its two report marks (Table 4-1, R67). -/
structure Claim where
  state : ClaimState
  slot : Option SlotIx
  cycles : Nat
  run : Nat
  clean : Bool
  conflict : Bool
deriving DecidableEq, Repr

/-! ### Pairing -/

/-- Window states (Table 5-2). -/
inductive WindowState where
  | closed
  | opened
deriving DecidableEq, Repr

/-- Causes of a close (Table 5-2). -/
inductive CloseCause where
  | none
  | timeout
  | closed
  | yielded
  | done
deriving DecidableEq, Repr

/-- The pairing window record (Table 5-2). -/
structure Window where
  state : WindowState
  kind : Option JoinKind
  remaining : Nat
  lastCause : CloseCause
deriving DecidableEq, Repr

/-- The outstanding offer (Table 5-2). -/
structure Offer where
  target : FactoryId
  station : StationNo
  wearer : WearerNo
  cycleSent : BitVec 32
  sent : Bool
deriving DecidableEq, Repr

/-- The lapse memory (Table 5-2). -/
structure Lapse where
  number : StationNo
  age : Nat
deriving DecidableEq, Repr

/-- What a newcomer sends in slot 14 of the cycle in progress (Table 5-7). -/
inductive JoinOrder where
  | none
  | join
  | confirm
deriving DecidableEq, Repr

/-- The offer a newcomer has accepted (Table 5-7). -/
structure Accepted where
  group : GroupCode
  offerer : StationNo
  station : StationNo
  wearer : WearerNo
deriving DecidableEq, Repr

/-- The newcomer join context (Table 5-7). -/
structure Newcomer where
  kind : JoinKind
  target : Option GroupCode
  seek : Nat
  attempts : Nat
  hold : Nat
  order : JoinOrder
  accepted : Option Accepted
deriving DecidableEq, Repr

/-- The pairing controller's four records (R79). -/
structure Pairing where
  window : Window
  offer : Option Offer
  lapse : Option Lapse
  newcomer : Option Newcomer
deriving DecidableEq, Repr

/-! ### Mute input, stream unit, bearer unit -/

/-- The mute input (R104): the level of the pin, the debounced state (true: asserted), and the timer's expiry instant
while it runs. -/
structure Mute where
  lineHigh : Bool
  debounced : Bool
  expiry : Option Nat
deriving DecidableEq, Repr

/-- Stream record states (Table 7-2). -/
inductive StreamState where
  | absent
  | fresh
  | borrowed
  | ramp
  | repeat1
  | repeat2
  | muted
  | hushed
deriving DecidableEq, Repr

/-- A stream record (Table 7-1). -/
structure StreamRec where
  state : StreamState
  current : Frame
  lastGood : Frame
  source : Option StationNo
  hang : Nat
  missing : Nat
deriving DecidableEq, Repr

/-- What a reception or a feed brings a record: a hush, or a decoded frame with its energy (R114). -/
inductive RxOutcome where
  | hush
  | frame (f : Frame) (energy : Nat)
deriving DecidableEq, Repr

/-- An entry of the reception list, keyed by sender and kind (R114); `farEnd` for FAREND. -/
structure RxEntry where
  sender : StationNo
  farEnd : Bool
  outcome : RxOutcome
deriving DecidableEq, Repr

/-- The stream unit (R113): records 0..7 of the wearers, the far-end record, the reception list. -/
structure Streams where
  wearers : List StreamRec
  farEnd : StreamRec
  list : List RxEntry
deriving DecidableEq, Repr

/-- Bearer states (Table 9-1). -/
inductive BearerState where
  | none
  | claiming
  | bearing
  | ending
deriving DecidableEq, Repr

/-- Outcome of a take (Table 9-2). -/
inductive TakeOutcome where
  | frame
  | hush
  | none
deriving DecidableEq, Repr

/-- The bearer record and the two phone queues, oldest sample first (R140). -/
structure Bearer where
  state : BearerState
  age : Nat
  primed : Bool
  underrun : Bool
  holdSample : Sample
  lastTake : TakeOutcome
  downlink : List Sample
  uplink : List Sample
deriving DecidableEq, Repr

/-! ### Bond store -/

/-- Place states (Table 10-2). -/
inductive PlaceState where
  | erased
  | opened
  | valid
  | retired
deriving DecidableEq, Repr

/-- A bond place (Table 10-1). -/
structure Place where
  state : PlaceState
  locked : Bool
  value : BondValue
deriving DecidableEq, Repr

/-- Store states (R158). -/
inductive StoreState where
  | idle
  | busy
  | scanning
deriving DecidableEq, Repr

/-- Operations in flight (Table 10-3, R169); an erase then program knows which part it is in. -/
inductive StoreOp where
  | program (v : BondValue)
  | retire
  | lock
  | erase
  | eraseProgram (v : BondValue) (programming : Bool)
  | scanRetire
deriving DecidableEq, Repr

/-- The operation in flight: kind, target place, instant it started (R158). -/
structure Flight where
  op : StoreOp
  place : Nat
  start : Nat
deriving DecidableEq, Repr

/-- Fault causes of the store (R158). -/
inductive FaultCause where
  | none
  | full
  | verify
deriving DecidableEq, Repr

/-- The bond store (R157, R158): the non-volatile places, the place copy, the store state, the operation in flight, the
pending write and the fault cause. -/
structure Store where
  places : List Place
  copy : List Place
  state : StoreState
  flight : Option Flight
  waiting : Option Credentials
  cause : FaultCause
deriving DecidableEq, Repr

/-! ### Control port and codec port -/

/-- The configuration block (Table 11-3). `syncLow`: frame sync active low; `edgeReversed`: CDOUT changes on the rising
edge; `muteLow`: MUTE active low. -/
structure ConfigBlock where
  syncLow : Bool
  edgeReversed : Bool
  muteLow : Bool
  debounce : BitVec 2
  tAct : Gain
  gFar : Gain
  gVoice : Gain
  gUp : Gain
  gSide : Gain
  vol : Gain
  mask : BitVec 25
deriving DecidableEq, Repr

/-- The 25 event flags (Table 11-4). -/
inductive Flag where
  | stateChanged
  | peerNew
  | peerLost
  | peerLeft
  | peerTableFull
  | numberClash
  | wearerSurplus
  | claimConfirmed
  | claimLost
  | groupFull
  | stepJump
  | paired
  | joined
  | pairingEnded
  | pairTimeout
  | pairingFull
  | bearerUp
  | bearerConflict
  | farendUp
  | farendDown
  | downlinkUnderrun
  | downlinkOverrun
  | uplinkOverrun
  | storeDone
  | storeFault
deriving DecidableEq, Repr

/-- Result codes (Table 11-1). -/
inductive Result where
  | ok
  | wrongState
  | storeBusy
  | noBond
  | locked
  | notAllowed
  | bearerPresent
  | pairingBusy
  | badArgument
deriving DecidableEq, Repr

/-- Where a transaction stands: CSN high; CSN low and no command taken; a command taken; CSN low but its bytes ignored,
because the transaction began before or during a reset (R170 to R172, R182). -/
inductive PortPhase where
  | high
  | waiting
  | taken
  | deaf
deriving DecidableEq, Repr

/-- A sample transfer in progress (R149, R155): downlink samples still admitted, or uplink positions, of the first `a`,
not yet begun. -/
inductive Transfer where
  | none
  | downlink (left : Nat)
  | uplink (left : Nat)
deriving DecidableEq, Repr

/-- The control port: the transaction, the bytes shifted out from the result byte on, the transfer, whether READ_EVENTS
holds IRQN released (R178), whether a SOFT_RESET waits for the rise of CSN (R181). -/
structure Port where
  phase : PortPhase
  reply : List Byte
  transfer : Transfer
  readingEvents : Bool
  softReset : Bool
deriving DecidableEq, Repr

/-- The codec port (R33, R34): the frames, the next sample frame, the format in force, and the speaker sample that the
sample frame in progress shifts out. -/
structure Codec where
  capture : Frame
  playout : Frame
  frameIx : Nat
  syncLow : Bool
  edgeReversed : Bool
  shifting : Option Sample
deriving DecidableEq, Repr

/-- The state of the block. -/
structure State where
  now : Nat
  factoryId : FactoryId
  hold : Option ResetCause
  station : Station
  timer : Timer
  early : Early
  chan : Channel
  views : Views
  peers : List Peer
  surplus : Bool
  voice : Claim
  farEnd : Claim
  pairing : Pairing
  mute : Mute
  streams : Streams
  bearer : Bearer
  store : Store
  config : ConfigBlock
  flags : BitVec 25
  port : Port
  codec : Codec
  pending : List Instr
deriving DecidableEq, Repr

/-! ### Reset values of the records -/

/-- No credentials: group code 0, station number 0, wearer number 0 (R35, R38). -/
def Credentials.zero : Credentials := { group := 0#24, number := 0, wearer := 0 }

/-- R35. -/
def Station.reset : Station :=
  { state := .unconfigured, creds := Credentials.zero, listenCount := 0, leavingEnds := 0 }

/-- R19. -/
def Timer.reset : Timer :=
  { cycle := none, lastCorrection := 0, stepLoss := 0, counter := 0#32, log := [] }

/-- Nothing of the present cycle end made yet. -/
def Early.clear : Early :=
  { jump := none, aged := [], voiceDecided := false, farDecided := false, windowCounted := false, lapseAged := false,
    joinDecided := false, viewsSet := false }

/-- R9. -/
def Channel.reset : Channel :=
  { nextSlot := 0, inSlot := false, sent := none, sentInSlot := false, onSince := 0, cutSpans := [], held := [],
    heard := [], voicePayload := .none, farPayload := none, late := [] }

/-- A view with the same entry in all 16 slots. -/
def viewOf (e : Entry) : List Entry := List.replicate 16 e

/-- All three views UNKNOWN (R59, R60). -/
def Views.unknown : Views :=
  { filling := viewOf .unknown, v1 := viewOf .unknown, v2 := viewOf .unknown }

/-- A claim in a state without a slot, its counts 0 and its marks clear (R62). -/
def Claim.inState (st : ClaimState) : Claim :=
  { state := st, slot := none, cycles := 0, run := 0, clean := false, conflict := false }

/-- R79, R92. -/
def Pairing.reset : Pairing :=
  { window := { state := .closed, kind := none, remaining := 0, lastCause := .none }, offer := none, lapse := none,
    newcomer := none }

/-- R113. -/
def StreamRec.reset : StreamRec :=
  { state := .absent, current := silence, lastGood := silence, source := none, hang := 0, missing := 255 }

/-- R113. -/
def Streams.reset : Streams :=
  { wearers := List.replicate 8 StreamRec.reset, farEnd := StreamRec.reset, list := [] }

/-- R140, R147. -/
def Bearer.none : Bearer :=
  { state := .none, age := 0, primed := false, underrun := false, holdSample := 0#16, lastTake := .none,
    downlink := [], uplink := [] }

/-- Table 11-3. -/
def ConfigBlock.defaults : ConfigBlock :=
  { syncLow := false, edgeReversed := false, muteLow := false, debounce := 2#2, tAct := 300#15, gFar := 16384#15,
    gVoice := 16384#15, gUp := 16384#15, gSide := 2048#15, vol := 16384#15, mask := 0#25 }

/-- An ERASED place: every field 0, locked 0 (Table 10-2). -/
def Place.blank : Place :=
  { state := .erased, locked := false, value := { group := 0#24, station := 0, wearer := 0, seq := 0#16 } }

/-- The control port with CSN high and nothing going on. -/
def Port.quiet : Port :=
  { phase := .high, reply := [], transfer := .none, readingEvents := false, softReset := false }

/-- R34, R173. -/
def Codec.reset : Codec :=
  { capture := silence, playout := silence, frameIx := 0, syncLow := false, edgeReversed := false, shifting := none }

/-- The machine right after a reset has ended (R182), of a device whose store has 16 ERASED places (assumption log 3):
the start-up scan found no OPEN place, so it ended at once with STORE_DONE, bit 23 (R169). -/
def State.reset : State :=
  { now := 0
    factoryId := Config.factoryId
    hold := none
    station := Station.reset
    timer := Timer.reset
    early := Early.clear
    chan := Channel.reset
    views := Views.unknown
    peers := []
    surplus := false
    voice := Claim.inState .none
    farEnd := Claim.inState .none
    pairing := Pairing.reset
    mute := { lineHigh := Config.muteHighAtReset, debounced := Config.muteHighAtReset, expiry := none }
    streams := Streams.reset
    bearer := Bearer.none
    store :=
      { places := List.replicate 16 Place.blank, copy := List.replicate 16 Place.blank, state := .idle, flight := none,
        waiting := none, cause := .none }
    config := ConfigBlock.defaults
    flags := 0x800000#25
    port := Port.quiet
    codec := Codec.reset
    pending := [] }

end Sys2Proof.Machine
end

