-- ==== Sys2Proof/Machine/FrameCoder.lean ====
section
/-! DEFINITION. The arithmetic of 00_scope.md 4.4 and the frame coder: block companding (R100 to R103) and frame energy
(R109). -/

namespace Sys2Proof.Machine

/-- Arithmetic shift right, rounding toward minus infinity (00_scope.md 4.4). -/
def shr (x : Int) (n : Nat) : Int := x / (2 ^ n : Int)

/-- Clamp to a range (00_scope.md 4.4). -/
def clampInt (lo hi x : Int) : Int := max lo (min hi x)

/-- Saturate: a clamp to -32768..32767 (00_scope.md 4.4). -/
def saturate (x : Int) : Sample := BitVec.ofInt 16 (clampInt (-32768) 32767 x)

/-- Round, in the mix: add 8192, then shift right by 14 (00_scope.md 4.4). -/
def round14 (x : Int) : Int := shr (x + 8192) 14

/-- A sample's magnitude in the peak: x when x is at least 0, and -x - 1 when it is below (R101). -/
def peakOf (x : Sample) : Nat := if 0 ≤ x.toInt then x.toInt.toNat else (-x.toInt - 1).toNat

/-- The peak magnitude P of a sub-block (R101). -/
def peakMagnitude (xs : List Sample) : Nat := xs.foldl (fun m x => max m (peakOf x)) 0

/-- The smallest exponent e in 0..8 for which P shifted right by e is at most 127 (R101). -/
def exponentOf (p : Nat) : Fin 9 :=
  (([0, 1, 2, 3, 4, 5, 6, 7, 8] : List (Fin 9)).find? fun e => decide (p / 2 ^ e.val ≤ 127)).getD 8

/-- The rounding offset r (R102). -/
def roundingOffset (e : Nat) : Int := if e = 0 then 0 else 2 ^ (e - 1)

/-- The mantissa of a sample under exponent e (R102). -/
def mantissaOf (e : Nat) (x : Sample) : BitVec 8 :=
  BitVec.ofInt 8 (clampInt (-128) 127 (shr (x.toInt + roundingOffset e) e))

/-- One sub-block encoded (R101, R102). -/
def encodeBlock (xs : List Sample) : SubBlock :=
  let e := exponentOf (peakMagnitude xs)
  { exponent := e, mantissas := xs.map (mantissaOf e.val) }

/-- A frame encoded: five sub-blocks of 32 samples in time order (R100). -/
def encodeFrame (f : Frame) : Payload :=
  (List.range 5).map fun j => encodeBlock ((f.drop (32 * j)).take 32)

/-- A decoded sample, m times 2^e (R103). -/
def decodeSample (e : Nat) (m : BitVec 8) : Sample := BitVec.ofInt 16 (m.toInt * 2 ^ e)

/-- One sub-block decoded (R103). -/
def decodeBlock (b : SubBlock) : List Sample := b.mantissas.map (decodeSample b.exponent.val)

/-- A payload decoded (R103). -/
def decodePayload (p : Payload) : Frame := p.flatMap decodeBlock

/-- The energy of a decoded frame: the sum of absolute values divided by 160, rounded down (R109). -/
def energyOf (f : Frame) : Nat := (f.map fun x => x.toInt.natAbs).sum / 160

/-- What a decoded payload brings the stream unit: the frame with its energy (R103, R109). -/
def decodedOutcome (p : Payload) : RxOutcome := .frame (decodePayload p) (energyOf (decodePayload p))

end Sys2Proof.Machine
end

