-- ==== Sys2Proof/Machine/Flags.lean ====
section
/-! DEFINITION. The event flags and the IRQN line (R176 to R178), and the other pins that are functions of the state. -/

namespace Sys2Proof.Machine

/-- The bit of a flag in the event word (Formats, event word table). -/
def Flag.bit : Flag → Nat
  | .stateChanged => 0
  | .peerNew => 1
  | .peerLost => 2
  | .peerLeft => 3
  | .peerTableFull => 4
  | .numberClash => 5
  | .wearerSurplus => 6
  | .claimConfirmed => 7
  | .claimLost => 8
  | .groupFull => 9
  | .stepJump => 10
  | .paired => 11
  | .joined => 12
  | .pairingEnded => 13
  | .pairTimeout => 14
  | .pairingFull => 15
  | .bearerUp => 16
  | .bearerConflict => 17
  | .farendUp => 18
  | .farendDown => 19
  | .downlinkUnderrun => 20
  | .downlinkOverrun => 21
  | .uplinkOverrun => 22
  | .storeDone => 23
  | .storeFault => 24

/-- The flag's mark alone in a word of 25 flags. -/
def Flag.mark (f : Flag) : BitVec 25 := 1#25 <<< f.bit

/-- Raising sets the flag and leaves a set flag set (R176). -/
def State.raise (s : State) (f : Flag) : State := { s with flags := s.flags ||| f.mark }

/-- Raise a flag when a condition holds. -/
def State.raiseIf (s : State) (b : Bool) (f : Flag) : State := if b then s.raise f else s

/-- Whether a flag is set. -/
def State.flagSet (s : State) (f : Flag) : Bool := s.flags.getLsbD f.bit

/-- The event word: the flags in bits 0..24, bits 31..25 spare (Formats). -/
def State.eventWord (s : State) : BitVec 32 := s.flags.setWidth 32

/-- IRQN is asserted (driven low) while an unmasked flag is set, save in a READ_EVENTS transaction and in reset (R178). -/
def State.irqAsserted (s : State) : Bool :=
  s.hold.isNone && !s.port.readingEvents && (s.flags &&& ~~~s.config.mask) != 0#25

/-- SDO is high impedance while CSN is high and while the device is held in reset (R170, R181). -/
def State.sdoHighImpedance (s : State) : Bool := s.hold.isSome || s.port.phase == .high

/-- Byte `i` of those that the port shifts out in a transaction whose first byte is `code` (R170): zero under the code
and argument bytes, then the reply, then zero. -/
def Port.byteOut (p : Port) (code : Byte) (i : Nat) : Byte :=
  if i ≤ argumentBytes code.toNat then 0x00#8 else p.reply.getD (i - (argumentBytes code.toNat + 1)) 0x00#8

/-- The byte on SDO, none while SDO is high impedance (R170, R181). The model's choice (assumption log 30): in the rest of
a CSN-low period that a reset discarded or that began in a reset the byte is zero once the reset has ended; R182 says only
that the bytes of that period are ignored. -/
def State.sdoByte (s : State) (code : Byte) (i : Nat) : Option Byte :=
  if s.sdoHighImpedance then none else some (s.port.byteOut code i)

/-! ### The codec port's lines (R33, R181) -/

/-- The codec port stands idle: the timer is stopped or the device is held in reset (R33, R181). -/
def State.codecIdle (s : State) : Bool := s.hold.isSome || s.timer.cycle.isNone

/-- The sample that the sample frame in progress shifts out; none while the port is idle, or while no sample frame of the
cycle has begun. -/
def State.shiftingNow (s : State) : Option Sample := if s.codecIdle then none else s.codec.shifting

/-- The level of CFSY where it is active or inactive, by its polarity (R33). -/
def Codec.cfsyLevel (c : Codec) (active : Bool) : Bool := active != c.syncLow

/-- The level of CFSY in each of the 32 bit clocks of a sample frame: active in the first alone; held inactive while no
sample is shifted (R33). -/
def State.cfsyLevels (s : State) : List Bool :=
  (List.range 32).map fun i => s.codec.cfsyLevel (s.shiftingNow.isSome && i == 0)

/-- CDOUT in the 32 bit clocks of a sample frame: 16 bits of the speaker sample, most significant first, then low; held low
while no sample is shifted (R33). -/
def State.cdoutBits (s : State) : List Bool :=
  match s.shiftingNow with
  | none => List.replicate 32 false
  | some v => (List.range 16).map (fun i => v.getLsbD (15 - i)) ++ List.replicate 16 false

/-- The level at which CBCK is held, high or low; none while its bit clocks run (R33). Which level is the inactive one is a
free value (assumption log 32). -/
def State.cbckHeld (s : State) : Option Bool :=
  if s.shiftingNow.isSome then none else some (Config.cbckInactiveHigh s.codec.edgeReversed)

/-- CDOUT changes on the rising edge of CBCK, else on the falling one (R33, R173). -/
def State.cdoutOnRising (s : State) : Bool := s.codec.edgeReversed

end Sys2Proof.Machine
end

