-- ==== Sys2Proof/Machine/Operands.lean ====
section
/-! DEFINITION. The operand forms of the host commands: how an argument is read, refused or registered (R173, R184). -/

namespace Sys2Proof.Machine

/-- A level written in 16 bits: above 32767 it is registered as 32767 (R129, R130, R173). -/
def registerLevel (v : BitVec 16) : Gain := if 32767 < v.toNat then 32767#15 else v.setWidth 15

/-- The debounce code in bits 2..0 of the first configuration byte, above 3 registered as 3 (R106, Table 12-6). -/
def registerDebounce (b : Byte) : BitVec 2 :=
  let code := b.toNat % 8
  if 3 < code then 3#2 else BitVec.ofNat 2 code

/-- The configuration block as WRITE_CONFIG registers it (Tables 11-3, 12-6). -/
def registerConfig (a : ConfigArgs) : ConfigBlock where
  syncLow := a.format.getLsbD 7
  edgeReversed := a.format.getLsbD 6
  muteLow := a.format.getLsbD 5
  debounce := registerDebounce a.format
  tAct := registerLevel a.tAct
  gFar := registerLevel a.gFar
  gVoice := registerLevel a.gVoice
  gUp := registerLevel a.gUp
  gSide := registerLevel a.gSide
  vol := registerLevel a.vol
  mask := a.mask.setWidth 25

/-- The debounce period in ticks (Table 6-6). -/
def debouncePeriod (code : BitVec 2) : Nat :=
  match code.toNat with
  | 0 => 0
  | 1 => 4000
  | 2 => 16000
  | _ => 64000

/-- The join kind a byte names (Table 12-4). -/
def joinKindOf (b : Byte) : Option JoinKind :=
  match b.toNat with
  | 1 => some .newWearer
  | 2 => some .partner
  | _ => none

/-- The byte of a join kind (Table 12-2). -/
def joinKindCode : JoinKind → Byte
  | .newWearer => 1#8
  | .partner => 2#8

/-- START's argument: a place 0..15, "newest" for 0xFF, or neither (R37, Table 12-4). -/
inductive StartArg where
  | place (i : Nat)
  | newest
  | bad
deriving DecidableEq, Repr

/-- Reading START's argument byte. -/
def startArgOf (b : Byte) : StartArg :=
  if b.toNat < 16 then .place b.toNat else if b = 0xFF#8 then .newest else .bad

/-- The code of a result (Table 12-5). -/
def Result.code : Result → Byte
  | .ok => 0x00#8
  | .wrongState => 0x01#8
  | .storeBusy => 0x02#8
  | .noBond => 0x03#8
  | .locked => 0x04#8
  | .notAllowed => 0x05#8
  | .bearerPresent => 0x06#8
  | .pairingBusy => 0x07#8
  | .badArgument => 0x08#8

end Sys2Proof.Machine
end

