-- ==== Sys2Proof/Machine/Formats.lean ====
section
/-! DEFINITION. The layouts a peer or the host sees: bursts with their CRC (R8, R183) and the header checks (R12), and
the records of READ_STATUS, READ_PEERS, READ_BOND and READ_UPLINK (R184). -/

namespace Sys2Proof.Machine

/-! ### CRC (R8) -/

/-- One bit into the CRC register, generator x^16 + x^12 + x^5 + 1. -/
def crcBit (reg : BitVec 16) (b : Bool) : BitVec 16 :=
  if reg.msb != b then (reg <<< 1) ^^^ 0x1021#16 else reg <<< 1

/-- One byte, most significant bit first. -/
def crcByte (reg : BitVec 16) (b : Byte) : BitVec 16 :=
  [7, 6, 5, 4, 3, 2, 1, 0].foldl (fun r i => crcBit r (b.getLsbD i)) reg

/-- The register after every bit, preset to all ones, without inversion. -/
def crc16 (bs : List Byte) : BitVec 16 := bs.foldl crcByte 0xFFFF#16

/-! ### Bursts as sent (Tables 12-1 to 12-3) -/

/-- Kind codes. -/
def BurstKind.code : BurstKind → Nat
  | .voice => 1
  | .farend => 2
  | .leave => 3
  | .join => 4
  | .offer => 5
  | .confirm => 6

/-- The kind a code names; a code outside 1..6 names none. -/
def burstKindOf (c : Nat) : Option BurstKind :=
  match c with
  | 1 => some .voice
  | 2 => some .farend
  | 3 => some .leave
  | 4 => some .join
  | 5 => some .offer
  | 6 => some .confirm
  | _ => none

/-- A flag as a digit. -/
def bitOf (b : Bool) : Nat := if b then 1 else 0

/-- The 17 header bytes (Table 12-1); spare bits 0. -/
def headerBytes (b : Burst) : List Byte :=
  bytesOfNat 3 b.group.toNat ++
    bytesOfNat 1 (b.kind.code * 16 + bitOf b.lineMute * 8 + bitOf b.hush * 4 + bitOf b.pairingOpen * 2 + bitOf b.bearer) ++
    bytesOfNat 1 (b.sender.val * 8 + b.wearer.val) ++
    bytesOfNat 1 (b.slot.val * 16) ++
    [b.age] ++
    bytesOfNat 10 (ofDigits 32 (b.heardMap.map Fin.val))

/-- One sub-block: an exponent byte, then the mantissa bytes. -/
def blockBytes (sb : SubBlock) : List Byte := BitVec.ofNat 8 sb.exponent.val :: sb.mantissas

/-- The payload bytes (Table 12-2). -/
def bodyBytes : Body → List Byte
  | .absent => []
  | .frame p => p.flatMap blockBytes
  | .join id kind => bytesOfNat 6 id.toNat ++ [joinKindCode kind]
  | .offer id n w => bytesOfNat 6 id.toNat ++ bytesOfNat 1 n.val ++ bytesOfNat 1 w.val
  | .confirm id o n => bytesOfNat 6 id.toNat ++ bytesOfNat 1 o.val ++ bytesOfNat 1 n.val

/-- The bytes a CRC covers. -/
def coveredBytes (b : Burst) : List Byte := headerBytes b ++ bodyBytes b.body

/-- A burst as sent: header, payload, CRC (R183). -/
def burstBytes (b : Burst) : List Byte := coveredBytes b ++ bytesOfNat 2 (crc16 (coveredBytes b)).toNat

/-- Air time in ticks: 8 bits a byte at 4 Mbit/s, 2 ticks a byte (R4, Table 12-3). -/
def airTime (b : Burst) : Nat := 2 * (burstBytes b).length

/-! ### Bursts as received (R8, R12, R183) -/

/-- Payload length called for by the kind and the hush flag (Table 12-3). -/
def payloadLength (k : BurstKind) (hush : Bool) : Nat :=
  match k with
  | .voice => if hush then 0 else 165
  | .farend => if hush then 0 else 165
  | .leave => 0
  | .join => 7
  | .offer => 8
  | .confirm => 8

/-- `k` sub-blocks read from bytes; an exponent above 8 fails. -/
def blocksOfBytes : Nat → List Byte → Option Payload
  | 0, _ => some []
  | _ + 1, [] => none
  | k + 1, e :: rest =>
    if h : e.toNat < 9 then
      (blocksOfBytes k (rest.drop 32)).map (fun more => ⟨⟨e.toNat, h⟩, rest.take 32⟩ :: more)
    else none

/-- A station number that a payload byte carries, 1..30 (Table 1-7). -/
def stationOfByte (b : Nat) : Option StationNo :=
  if h : b < 32 then (if StationNo.valid ⟨b, h⟩ then some ⟨b, h⟩ else none) else none

/-- The payload read by kind and hush flag, with the payload checks of Table 1-7. -/
def bodyOfBytes (k : BurstKind) (hush : Bool) (p : List Byte) : Option Body :=
  match k with
  | .voice => if hush then some .absent else (blocksOfBytes 5 p).map .frame
  | .farend => if hush then some .absent else (blocksOfBytes 5 p).map .frame
  | .leave => some .absent
  | .join => (joinKindOf (fieldOfBytes 8 (p.drop 6))).map (.join (fieldOfBytes 48 (p.take 6)))
  | .offer =>
    (stationOfByte (natOfBytes ((p.drop 6).take 1))).map fun n =>
      .offer (fieldOfBytes 48 (p.take 6)) n (Fin.ofNat 8 (natOfBytes (p.drop 7)))
  | .confirm =>
    (stationOfByte (natOfBytes ((p.drop 6).take 1))).bind fun o =>
      (stationOfByte (natOfBytes (p.drop 7))).map fun n => .confirm (fieldOfBytes 48 (p.take 6)) o n

/-- The checks of Table 1-7 on group code, sender number and slot index. -/
def headerOk (b : Burst) : Bool :=
  match b.kind with
  | .voice => b.group != 0#24 && b.sender.valid && decide (b.slot.val ≤ 13)
  | .farend => b.group != 0#24 && b.sender.valid && decide (b.slot.val ≤ 13)
  | .leave => b.group != 0#24 && b.sender.valid && decide (b.slot.val ≤ 13)
  | .offer => b.group != 0#24 && b.sender.valid && b.slot == 15
  | .join => b.group == 0#24 && b.sender == 0 && b.slot == 14
  | .confirm => b.group != 0#24 && b.sender == 0 && b.slot == 14

/-- The heard map from its ten bytes, entry 0 first (Table 12-1). -/
def heardMapOfBytes (bs : List Byte) : List StationNo := (toDigits 32 16 (natOfBytes bs)).map (Fin.ofNat 32)

/-- Header and payload of the bytes that the CRC covers, or nothing when a check of R12 fails; spare bits are not
checked. -/
def burstOfCovered (c : List Byte) : Option Burst :=
  let flags := natOfBytes ((c.drop 3).take 1)
  let who := natOfBytes ((c.drop 4).take 1)
  match burstKindOf (flags / 16) with
  | none => none
  | some k =>
    let hush := flags / 4 % 2 == 1
    if c.length ≠ 17 + payloadLength k hush then none
    else
      match bodyOfBytes k hush (c.drop 17) with
      | none => none
      | some body =>
        let b : Burst :=
          { group := fieldOfBytes 24 (c.take 3)
            kind := k
            sender := Fin.ofNat 32 (who / 8)
            wearer := Fin.ofNat 8 who
            slot := Fin.ofNat 16 (natOfBytes ((c.drop 5).take 1) / 16)
            lineMute := flags / 8 % 2 == 1
            hush := hush
            pairingOpen := flags / 2 % 2 == 1
            bearer := flags % 2 == 1
            age := fieldOfBytes 8 ((c.drop 6).take 1)
            heardMap := heardMapOfBytes ((c.drop 7).take 10)
            body := body }
        if headerOk b then some b else none

/-- A received burst, clean and well formed, or nothing: the CRC is compared first (R8), then the checks of R12. -/
def parseBurst (bs : List Byte) : Option Burst :=
  if bs.length < 19 then none
  else if natOfBytes (bs.drop (bs.length - 2)) ≠ (crc16 (bs.take (bs.length - 2))).toNat then none
  else burstOfCovered (bs.take (bs.length - 2))

/-! ### Records for the host -/

/-- A slot in a record: 0xFF when absent (R184). -/
def slotByte : Option SlotIx → Byte
  | none => 0xFF#8
  | some k => BitVec.ofNat 8 k.val

/-- Table 12-7 byte 0. -/
def StationState.code : StationState → Byte
  | .unconfigured => 0#8
  | .idle => 1#8
  | .listen => 2#8
  | .seeking => 3#8
  | .joining => 4#8
  | .member => 5#8
  | .leaving => 6#8

/-- Table 12-7 bytes 6 and 8. -/
def ClaimState.code : ClaimState → Byte
  | .none => 0#8
  | .waiting => 1#8
  | .holdoff => 2#8
  | .tentative => 3#8
  | .confirmed => 4#8
  | .releasing => 5#8

/-- Table 12-7 byte 10. -/
def BearerState.code : BearerState → Nat
  | .none => 0
  | .claiming => 1
  | .bearing => 2
  | .ending => 3

/-- Table 12-7 byte 12. -/
def WindowState.code : WindowState → Byte
  | .closed => 0#8
  | .opened => 1#8

/-- Table 12-7 byte 15. -/
def CloseCause.code : CloseCause → Byte
  | .none => 0#8
  | .timeout => 1#8
  | .closed => 2#8
  | .yielded => 3#8
  | .done => 4#8

/-- Table 12-7 byte 16. -/
def StoreState.code : StoreState → Byte
  | .idle => 0#8
  | .busy => 1#8
  | .scanning => 2#8

/-- Table 12-7 byte 18. -/
def FaultCause.code : FaultCause → Byte
  | .none => 0#8
  | .full => 1#8
  | .verify => 2#8

/-- Table 12-8 byte 2. -/
def PeerState.code : PeerState → Byte
  | .active => 0#8
  | .silent => 1#8
  | .lost => 2#8

/-- Table 12-9 byte 0, without BUSY. -/
def PlaceState.code : PlaceState → Byte
  | .erased => 0#8
  | .opened => 1#8
  | .valid => 2#8
  | .retired => 3#8

/-- A signed byte (Tables 12-7, 12-8). -/
def signedByte (x : Int) : Byte := BitVec.ofInt 8 x

/-- The status record, 29 bytes (Table 12-7, R179). -/
def statusRecord (s : State) : List Byte :=
  [s.station.state.code] ++
    bytesOfNat 1 s.station.creds.number.val ++ bytesOfNat 1 s.station.creds.wearer.val ++
    bytesOfNat 3 s.station.creds.group.toNat ++
    [s.voice.state.code, slotByte s.voice.slot, s.farEnd.state.code, slotByte s.farEnd.slot] ++
    bytesOfNat 1 s.bearer.state.code ++ bytesOfNat 1 s.bearer.age ++
    [s.pairing.window.state.code] ++ bytesOfNat 2 s.pairing.window.remaining ++
    [s.pairing.window.lastCause.code, s.store.state.code] ++ bytesOfNat 1 (bitOf s.store.waiting.isSome) ++
    [s.store.cause.code] ++
    bytesOfNat 2 s.bearer.downlink.length ++ bytesOfNat 2 s.bearer.uplink.length ++
    bytesOfNat 4 s.timer.counter.toNat ++
    [signedByte s.timer.lastCorrection] ++ bytesOfNat 1 s.peers.length

/-- One peer record, 10 bytes (Table 12-8). -/
def peerRecord (p : Peer) : List Byte :=
  bytesOfNat 1 p.number.val ++ bytesOfNat 1 p.wearer.val ++ [p.state.code] ++ bytesOfNat 2 p.missed ++
    [slotByte p.voiceSlot, slotByte p.farSlot, signedByte p.offset] ++
    bytesOfNat 1 (bitOf p.lineMute * 8 + bitOf p.hush * 4 + bitOf p.pairingOpen * 2 + bitOf p.bearer) ++ [p.age]

/-- READ_PEERS: the count, then the records in ascending station number (R180); the table is held in that order. -/
def peersRecord (ps : List Peer) : List Byte := bytesOfNat 1 ps.length ++ ps.flatMap peerRecord

/-- A bond record, 9 bytes (Table 12-9); `busy` for the target of the operation in flight (R163). -/
def bondRecord (busy : Bool) (p : Place) : List Byte :=
  [if busy then 4#8 else p.state.code] ++ bytesOfNat 1 (bitOf p.locked) ++ bytesOfNat 3 p.value.group.toNat ++
    bytesOfNat 1 p.value.station.val ++ bytesOfNat 1 p.value.wearer.val ++ bytesOfNat 2 p.value.seq.toNat

/-- The status word of READ_UPLINK (Table 12-10). -/
def uplinkWord (b : Bearer) (a : Nat) : List Byte :=
  bytesOfNat 2 (b.state.code * 16384 + bitOf b.primed * 8192 + a)

/-- A phone audio sample, two bytes, most significant first (Formats). -/
def sampleBytes (v : Sample) : List Byte := bytesOfNat 2 v.toNat

end Sys2Proof.Machine
end

