-- ==== Sys2Proof/Machine/Ops.lean ====
section
/-! DEFINITION. The shared operations: time, the control port's answers, station transitions, and the ends and changes
that several commands make to claims, the bearer record, the pairing window and the stream records. -/

namespace Sys2Proof.Machine

/-! ### Time and guards -/

/-- Local time never goes back: an event at instant `t` (assumption log 1). -/
def State.atInstant (s : State) (t : Nat) : State := { s with now := max s.now t }

/-- An event that cannot occur in the present state leaves the state unchanged (assumption log 5). -/
def State.whenever (s : State) (possible : Bool) (t : State) : Host.Outcome State Fault Refusal :=
  .next (if possible then t else s)

/-- The device runs: it is not held in reset (R181). -/
def State.running (s : State) : Bool := s.hold.isNone

/-! ### The control port (R170 to R172) -/

/-- The port takes a command: CSN is low, no command has been taken in this transaction, the device is not in reset. -/
def State.portReady (s : State) : Bool := s.running && s.port.phase == .waiting

/-- The command of a transaction is taken; its sample transfer and its response are still to be set. -/
def State.markTaken (s : State) : State := { s with port := { s.port with phase := .taken } }

/-- A command's answer: the result byte, then read data (R170). -/
def State.answer (s : State) (r : Result) (data : List Byte) : State :=
  { s with port := { s.port with reply := r.code :: data } }

/-- Answered OK without read data. -/
def State.ok (s : State) : State := s.answer .ok []

/-- Refused: the result code and no other effect (00_scope.md 4.6, R171). -/
def State.refuse (s : State) (r : Result) : State := s.answer r []

/-- A host command: taken when the port takes one, and otherwise its bytes are ignored (R170, assumption log 8). -/
def State.hostCommand (s : State) (body : State → State) : Host.Outcome State Fault Refusal :=
  s.whenever s.portReady (body s.markTaken)

/-! ### Station states (Table 1-5, R35) -/

/-- The receiver is on (Table 1-5). -/
def StationState.receiverOn : StationState → Bool
  | .unconfigured => false
  | .idle => false
  | .listen => true
  | .seeking => true
  | .joining => true
  | .member => true
  | .leaving => true

/-- The wide window applies (R14). -/
def StationState.wide : StationState → Bool
  | .listen => true
  | .seeking => true
  | .unconfigured => false
  | .idle => false
  | .joining => false
  | .member => false
  | .leaving => false

/-- MEMBER or LEAVING. -/
def StationState.inGroup : StationState → Bool
  | .member => true
  | .leaving => true
  | .unconfigured => false
  | .idle => false
  | .listen => false
  | .seeking => false
  | .joining => false

/-- LISTEN, MEMBER or LEAVING: the states in which the peer table is aged and the records are fed from the air. -/
def StationState.listening : StationState → Bool
  | .listen => true
  | .member => true
  | .leaving => true
  | .unconfigured => false
  | .idle => false
  | .seeking => false
  | .joining => false

/-- The own group code (Table 1-5). -/
def State.ownGroup (s : State) : GroupCode :=
  match s.station.state with
  | .seeking => 0#24
  | .joining => 0#24
  | .unconfigured => s.station.creds.group
  | .idle => s.station.creds.group
  | .listen => s.station.creds.group
  | .member => s.station.creds.group
  | .leaving => s.station.creds.group

/-- The receiver as a transition at instant `t` turns it: from off to on, or from on to off (R9). -/
def Channel.turn (ch : Channel) (was now : Bool) (t : Nat) : Channel :=
  match was, now with
  | false, true => { ch with onSince := t }
  | true, false => { ch with cutSpans := ch.cutSpans ++ [(ch.onSince, t)] }
  | false, false => ch
  | true, true => ch

/-- A transition at the present instant: the new state, STATE_CHANGED (R35); the receiver follows (R9); a surplus episode
ends outside MEMBER and LEAVING (R53). -/
def State.enter (s : State) (st : StationState) : State :=
  { s with
      station := { s.station with state := st, leavingEnds := 0 }
      chan := s.chan.turn s.station.state.receiverOn st.receiverOn s.now
      surplus := st.inGroup && s.surplus }.raise .stateChanged

/-- All three views UNKNOWN (R60). -/
def State.forgetViews (s : State) : State := { s with views := Views.unknown }

/-- The entry to MEMBER (R40, R53, R63): voice claim WAITING, views UNKNOWN, counted as admitted so far. -/
def State.enterMember (s : State) : State :=
  { (s.enter .member).forgetViews with voice := Claim.inState .waiting, surplus := false }

/-- START, FOUND_GROUP: LISTEN with the peer table emptied and the listen count 0 (R37, R38); the views hold nothing from
an earlier session (R37, assumption log 28). -/
def State.enterListen (s : State) (c : Credentials) : State :=
  ({ s with peers := [], station := { s.station with creds := c, listenCount := 0 } }.enter .listen).forgetViews

/-! ### Claims -/

/-- A claim holds its slot in TENTATIVE or CONFIRMED. -/
def Claim.sending (c : Claim) : Bool :=
  match c.state with
  | .tentative => true
  | .confirmed => true
  | .none => false
  | .waiting => false
  | .holdoff => false
  | .releasing => false

/-- A release (R72). -/
def Claim.release (c : Claim) : Claim :=
  match c.state with
  | .tentative => { Claim.inState .releasing with slot := c.slot }
  | .confirmed => { Claim.inState .releasing with slot := c.slot }
  | .waiting => Claim.inState .none
  | .holdoff => Claim.inState .none
  | .none => c
  | .releasing => c

/-- What a step jump makes of a claim (R24, R76). -/
def Claim.jump (c : Claim) : Claim :=
  match c.state with
  | .none => c
  | .releasing => Claim.inState .none
  | .waiting => Claim.inState .waiting
  | .holdoff => Claim.inState .waiting
  | .tentative => Claim.inState .waiting
  | .confirmed => Claim.inState .waiting

/-! ### Stream records at a reception -/

/-- The ABSENT row of Table 7-6, the hang counter kept (R121, R125). -/
def StreamRec.toAbsent (r : StreamRec) : StreamRec :=
  { r with state := .absent, current := silence, source := none, missing := 255 }

/-- The far-end record becomes ABSENT at once, FAREND_DOWN raised when it was present (R125, R127). -/
def State.farRecordAbsent (s : State) : State :=
  { s with streams := { s.streams with farEnd := s.streams.farEnd.toAbsent } }.raiseIf
    (s.streams.farEnd.state != StreamState.absent) .farendDown

/-- The far-end record becomes ABSENT when `n` was its source (R125). -/
def State.farSourceGone (s : State) (n : StationNo) : State :=
  if s.streams.farEnd.source = some n then s.farRecordAbsent else s

/-- The record of wearer `w` after its source may have been removed; the own-wearer record is spared (R121). -/
def StreamRec.afterLoss (n : StationNo) (own : WearerNo) (r : StreamRec) (w : Nat) : StreamRec :=
  if r.source = some n ∧ w ≠ own.val then r.toAbsent else r

/-- Every wearer record but the own-wearer record whose source is `n` becomes ABSENT (R121). -/
def State.wearersLose (s : State) (n : StationNo) : State :=
  { s with streams := { s.streams with
      wearers := s.streams.wearers.mapIdx fun w r => r.afterLoss n s.station.creds.wearer w } }

/-! ### The bearer's role -/

/-- The bearer record is CLAIMING or BEARING. -/
def BearerState.claims : BearerState → Bool
  | .claiming => true
  | .bearing => true
  | .none => false
  | .ending => false

/-- The entry of the bearer record to NONE: the flush, and the own far-end record ABSENT (R147). -/
def State.bearerToNone (s : State) : State := { s with bearer := Bearer.none }.farRecordAbsent

/-- END_CALL or STOP ends the role (R145): the far-end claim is released; ENDING when it holds its slot, else NONE. -/
def State.endRole (s : State) : State :=
  if s.bearer.state.claims then
    if s.farEnd.sending then
      { s with farEnd := s.farEnd.release, bearer := { s.bearer with state := .ending } }
    else { s with farEnd := s.farEnd.release }.bearerToNone
  else s

/-- The yield of the election (R144): far-end claim dropped, record NONE, BEARER_CONFLICT. -/
def State.electionYield (s : State) : State :=
  ({ s with farEnd := Claim.inState .none }.bearerToNone).raise .bearerConflict

/-! ### The pairing window -/

/-- The event of a close (Table 5-4). -/
def CloseCause.flag : CloseCause → Flag
  | .done => .paired
  | .none => .pairingEnded
  | .timeout => .pairingEnded
  | .closed => .pairingEnded
  | .yielded => .pairingEnded

/-- The window is OPEN. -/
def State.windowOpen (s : State) : Bool := s.pairing.window.state == .opened

/-- A close of an OPEN window (R81); a CLOSED one is left as it is. -/
def State.closeWindow (s : State) (c : CloseCause) : State :=
  if s.windowOpen then
    { s with pairing :=
        { s.pairing with
            window := { state := .closed, kind := none, remaining := 0, lastCause := c }
            offer := none
            lapse := none } }.raise c.flag
  else s

/-! ### Leaving -/

/-- The yield of a number clash (R56, R57, R58, R75): at every yield the bearer record goes to NONE and the far-end record
to ABSENT. -/
def State.clashYield (s : State) : State :=
  ((({ s with voice := Claim.inState .none, farEnd := Claim.inState .none }.bearerToNone).closeWindow .yielded).enter
    .idle).raise .numberClash

/-- The newcomer join context is discarded (R92). -/
def State.dropNewcomer (s : State) : State := { s with pairing := { s.pairing with newcomer := none } }

/-- SEEKING or JOINING ends without success (R43, R93, R94). -/
def State.pairTimeout (s : State) : State := (s.dropNewcomer.enter .idle).raise .pairTimeout

end Sys2Proof.Machine
end

