-- ==== Sys2Proof/Machine/Grid.lean ====
section
/-! DEFINITION. The slot grid and the sample frames of a cycle, the correction and step-loss counts, the step jump's
phase, and the alignment (R1, R3, R20 to R23, R27, R28, R31, R32). -/

namespace Sys2Proof.Machine

/-! ### The grid (R1, R3) -/

/-- Start of slot `k`: forward from the cycle start in an ordinary cycle, backward from the end in a jump cycle. -/
def Cycle.slotStart (c : Cycle) (k : Nat) : Int :=
  match c.kind with
  | .ordinary => (c.start : Int) + 625 * k
  | .stepJump => (c.planned : Int) - 10000 + 625 * k
  | .aligned => (c.planned : Int) - 10000 + 625 * k

/-- End of slot `k`; slot 15 ends at the cycle end. -/
def Cycle.slotEnd (c : Cycle) (k : Nat) : Int := if 15 ≤ k then (c.planned : Int) else c.slotStart (k + 1)

/-- Slot `k` occurs: in a jump cycle its extent lies between the grid instant and the cycle's end (R3). -/
def Cycle.occurs (c : Cycle) (k : Nat) : Bool :=
  decide (k < 16) && (c.kind == .ordinary || decide ((c.gridInstant : Int) ≤ c.slotStart k))

/-- The first slot that occurs, 16 when none does. -/
def Cycle.firstSlot (c : Cycle) : Nat := ((List.range 16).find? c.occurs).getD 16

/-- `p` moved by whole 10,000-tick steps to lie 5,000..14,999 ticks after `base` (R23, R27). -/
def placeEnd (p base : Int) : Int := base + 5000 + (p - base - 5000) % 10000

/-! ### Cycles as they begin (R20, R23, R27) -/

/-- An ordinary cycle from `t` with correction `corr` (R20). -/
def ordinaryCycle (t : Nat) (corr : Int) : Cycle :=
  let finish := ((t : Int) + 10000 + corr).toNat
  { start := t, planned := finish, length := finish - t, correction := corr, kind := .ordinary, gridInstant := t,
    nextPhase := none, respaced := [] }

/-- A jump cycle from `t` to `finish`, its grid instant at its start (R23; R27 cases B and C). -/
def jumpCycle (kind : GridKind) (t finish : Nat) : Cycle :=
  { start := t, planned := finish, length := finish - t, correction := 0, kind := kind, gridInstant := t,
    nextPhase := none, respaced := [] }

/-! ### Sample frames (R31, R32) -/

/-- Start of sample frame `k` under a re-spacing that had not started it (R32). -/
def Respacing.frameStart (r : Respacing) (k : Nat) : Nat :=
  r.instant + (k - r.first) * (r.finish - r.instant) / (160 - r.first)

/-- Start of sample frame `k`: by the newest re-spacing before which it had not started, else by R31 (R31, R32). -/
def Cycle.sampleStart (c : Cycle) (k : Nat) : Nat :=
  match c.respaced.find? fun r => decide (r.first ≤ k) with
  | some r => r.frameStart k
  | none => c.start + k * c.length / 160

/-- Start of bit clock `i` of sample frame `k`, in 32nds of a tick: 32 bit clocks spread evenly over its span (R33). -/
def Cycle.bitClockStart (c : Cycle) (k i : Nat) : Nat :=
  32 * c.sampleStart k + i * (c.sampleStart (k + 1) - c.sampleStart k)

/-- The number j of R32: how many sample frames started before `t` (assumption log 16). -/
def Cycle.framesStarted (c : Cycle) (t : Nat) : Nat :=
  ((List.range 160).filter fun k => decide (c.sampleStart k < t)).length

/-! ### Correction and step loss (R21, R22) -/

/-- The receptions that count: in a jump cycle those before the grid instant are left out. -/
def Cycle.counted (c : Cycle) (rs : List TimerRx) : List TimerRx :=
  match c.kind with
  | .ordinary => rs
  | .stepJump => rs.filter fun r => decide (c.gridInstant ≤ r.arrival)
  | .aligned => rs.filter fun r => decide (c.gridInstant ≤ r.arrival)

/-- The receptions classified OWN. -/
def ownRx (rs : List TimerRx) : List TimerRx := rs.filter fun r => r.inStep

/-- The receptions classified STRAY. -/
def strayRx (rs : List TimerRx) : List TimerRx := rs.filter fun r => !r.inStep

/-- The correction: the sum of the offsets over n + 1, truncated toward zero, clamped to -6..+6 (R21). -/
def correctionOf (rs : List TimerRx) : Int :=
  clampInt (-6) 6 (Int.tdiv (((ownRx rs).map fun r => r.offset).sum) ((ownRx rs).length + 1))

/-- The cycle was outnumbered (R22). -/
def outnumbered (own : StationNo) (rs : List TimerRx) : Bool :=
  let i := (ownRx rs).length + 1
  let o := (strayRx rs).length
  decide (i < o) || (decide (o = i) && (strayRx rs).any fun r => decide (r.sender < own))

/-- The earlier choice of two for the jump reference: the lower sender, then the earlier arrival (R23). -/
def betterReference (x y : TimerRx) : TimerRx :=
  if y.sender < x.sender ∨ (y.sender = x.sender ∧ y.arrival < x.arrival) then y else x

/-- The reference of a step jump among the STRAY receptions (R23). -/
def jumpReference (rs : List TimerRx) : Option TimerRx :=
  match strayRx rs with
  | [] => none
  | r :: rest => some (rest.foldl betterReference r)

/-- The cycle start that a reference implies: arrival minus 625 times the header slot index (R23, R27). -/
def phaseOf (arrival : Nat) (slot : SlotIx) : Int := (arrival : Int) - 625 * slot.val

/-! ### The alignment (R27, R28, R32) -/

/-- The cycle in progress re-spaced and its end replaced, its grid instant at the reception `tr` (cases A and B). -/
def Cycle.endAt (c : Cycle) (tr finish : Nat) (next : Option Int) : Cycle :=
  { c with
      planned := finish
      correction := 0
      kind := .aligned
      gridInstant := tr
      nextPhase := next
      respaced := { instant := tr, first := c.framesStarted tr, finish := finish } :: c.respaced }

/-- The cycle in progress after an alignment to phase `p` at the reception `tr` (Table 2-3). -/
def Cycle.align (c : Cycle) (p : Int) (tr : Nat) : Cycle :=
  let e := placeEnd p c.start
  if tr < c.planned then
    if (tr : Int) + 625 ≤ e then c.endAt tr e.toNat none else c.endAt tr (tr + 625) (some p)
  else { c with nextPhase := some p }

/-- The slot to start next after an alignment at `tr`: none is left in case C. -/
def Cycle.slotAfterAlign (c : Cycle) (tr : Nat) : Nat := if tr < c.planned then c.firstSlot else 16

/-- An alignment (R27): the new phase, the views UNKNOWN, the step-loss counter 0, and the counts of the cycle's earlier
receptions left out (R28). In case C the cycle in progress ends at `tr` as planned; that the receptions which the station
took in it as a member, before it left for IDLE and came back to LISTEN, are left out of R22's count there too is the
model's choice (assumption log 31). -/
def State.align (s : State) (c : Cycle) (p : Int) (tr : Nat) : State :=
  { s with
      timer := { s.timer with cycle := some (c.align p tr), stepLoss := 0, log := [] }
      chan := { s.chan with nextSlot := (c.align p tr).slotAfterAlign tr } }.forgetViews

end Sys2Proof.Machine
end

