-- ==== Sys2Proof/Machine/CodecPort.lean ====
section
/-! DEFINITION. The codec port: the microphone sample on CDIN, and SAMPLE_FRAME_START (R31 to R34). -/

namespace Sys2Proof.Machine

/-- The 32 bits that the codec port meets on CDIN: sampled on the falling edge when CDOUT changes on the rising one, else on
the rising edge (R33). -/
def Codec.cdinBits (c : Codec) (d : CdinLevels) : BitVec 32 := if c.edgeReversed then d.onFalling else d.onRising

/-- The microphone sample: the bits of the first 16 bit clocks, most significant first; the last 16 are ignored (R33). -/
def Codec.micSample (c : Codec) (d : CdinLevels) : Sample := (c.cdinBits d).extractLsb' 16 16

/-- One sample frame: the microphone sample becomes sample k of the capture frame, sample k of the playout frame is
shifted out (R34). -/
def Codec.frame (c : Codec) (d : CdinLevels) : Codec :=
  { c with
      capture := c.capture.set c.frameIx (c.micSample d)
      shifting := some (c.playout.getD c.frameIx 0#16)
      frameIx := c.frameIx + 1 }

/-- SAMPLE_FRAME_START (R34), at the instant of R31 or R32, with what CDIN holds over its 32 bit clocks (R33). -/
def execSampleFrameStart (cdin : CdinLevels) (s : State) : Host.Outcome State Fault Refusal :=
  match s.timer.cycle with
  | none => .next s
  | some c =>
    s.whenever (s.running && decide (s.codec.frameIx < 160))
      { s.atInstant (c.sampleStart s.codec.frameIx) with codec := s.codec.frame cdin }

end Sys2Proof.Machine
end

