-- ==== Sys2Proof/Machine/Peers.lean ====
section
/-! DEFINITION. The peer table: creation, eviction, refresh, LEAVE, ageing (R44 to R49), admission (R50 to R53), effective
mute (R107). The table is held in ascending station number, the order of READ_PEERS. -/

namespace Sys2Proof.Machine

/-! ### The table -/

/-- The entry of a station number. -/
def findPeer (n : StationNo) (ps : List Peer) : Option Peer := ps.find? fun p => p.number == n

/-- A new entry in its place by number. -/
def insertPeer (p : Peer) : List Peer → List Peer
  | [] => [p]
  | q :: qs => if p.number < q.number then p :: q :: qs else q :: insertPeer p qs

/-- The table without the entry of a number. -/
def removePeer (n : StationNo) (ps : List Peer) : List Peer := ps.filter fun p => p.number != n

/-- The table with the entry of a number changed. -/
def updatePeer (n : StationNo) (f : Peer → Peer) (ps : List Peer) : List Peer :=
  ps.map fun p => if p.number = n then f p else p

/-! ### Creation and refresh (R45, R47, R48) -/

/-- The entry that a VOICE or FAREND creates (R45). -/
def peerOfBurst (b : Burst) (d : Int) : Peer where
  number := b.sender
  wearer := b.wearer
  state := .active
  missed := 0
  voiceSlot := if b.kind = .voice then some b.slot else none
  farSlot := if b.kind = .farend ∧ b.bearer then some b.slot else none
  offset := d
  lineMute := b.lineMute
  hush := b.hush
  pairingOpen := b.pairingOpen
  bearer := b.bearer
  age := b.age

/-- The fields that every refresh copies (Table 3-7). -/
def Peer.heardAgain (p : Peer) (b : Burst) (d : Int) : Peer :=
  { p with
      wearer := b.wearer
      state := .active
      missed := 0
      offset := d
      lineMute := b.lineMute
      hush := b.hush
      pairingOpen := b.pairingOpen
      bearer := b.bearer
      age := b.age }

/-- A slot that a newer burst names for the other claim is cleared (Table 3-7). -/
def clearSlot (o : Option SlotIx) (k : SlotIx) : Option SlotIx := if o = some k then none else o

/-- The slots as a burst of a kind leaves them (Table 3-7). -/
def Peer.takeSlots (p : Peer) (kind : BurstKind) (k : SlotIx) : Peer :=
  match kind with
  | .voice => { p with voiceSlot := some k, farSlot := clearSlot p.farSlot k }
  | .farend => { p with voiceSlot := clearSlot p.voiceSlot k, farSlot := some k }
  | .leave => p
  | .join => p
  | .offer => p
  | .confirm => p

/-- A refresh (R47): after the copy, a burst whose bearer flag is 0 clears the far-end slot. -/
def Peer.refresh (p : Peer) (b : Burst) (d : Int) : Peer :=
  let q := (p.heardAgain b d).takeSlots b.kind b.slot
  if b.bearer then q else { q with farSlot := none }

/-- A far-end LEAVE (R48): refreshed as for an OFFER, the far-end slot cleared. -/
def Peer.farLeave (p : Peer) (b : Burst) (d : Int) : Peer := { p.heardAgain b d with farSlot := none }

/-- The LOST entry to evict: the greatest missed count, then the lowest number (R46). -/
def evictee (ps : List Peer) : Option Peer :=
  (ps.filter fun p => p.state == .lost).foldl
    (fun best p =>
      match best with
      | none => some p
      | some q => if q.missed < p.missed ∨ (q.missed = p.missed ∧ p.number < q.number) then some p else some q)
    none

/-- An entry has been created: it may complete a lapsed offer by inference (R90). -/
def State.peerCreated (s : State) (n : StationNo) : State :=
  let t := s.raise .peerNew
  match s.pairing.lapse with
  | none => t
  | some l => if l.number = n then t.closeWindow .done else t

/-- A creation, with an eviction when the table is full (R45, R46). -/
def State.createPeer (s : State) (b : Burst) (d : Int) : State :=
  if s.peers.length < 15 then { s with peers := insertPeer (peerOfBurst b d) s.peers }.peerCreated b.sender
  else
    match evictee s.peers with
    | none => s.raise .peerTableFull
    | some v =>
      { s with peers := insertPeer (peerOfBurst b d) (removePeer v.number s.peers) }.peerCreated b.sender

/-- A LEAVE from a sender with an entry (R48). -/
def State.peerLeave (s : State) (p : Peer) (b : Burst) (d : Int) : State :=
  if p.farSlot = some b.slot then
    { s with peers := updatePeer b.sender (fun q => q.farLeave b d) s.peers }.farSourceGone b.sender
  else
    ((({ s with peers := removePeer b.sender s.peers }.raise .peerLeft).wearersLose b.sender).farSourceGone b.sender)

/-- The peer view's work at an OWN reception of another station (R45 to R48). -/
def State.peerView (s : State) (b : Burst) (d : Int) : State :=
  match findPeer b.sender s.peers with
  | none =>
    match b.kind with
    | .voice => s.createPeer b d
    | .farend => s.createPeer b d
    | .leave => s
    | .join => s
    | .offer => s
    | .confirm => s
  | some p =>
    if b.kind = .leave then s.peerLeave p b d
    else { s with peers := updatePeer b.sender (fun q => q.refresh b d) s.peers }

/-! ### Ageing (R49, R52) -/

/-- One more cycle end without a reception (Table 3-8). -/
def Peer.older (p : Peer) : Peer :=
  let m := min (p.missed + 1) 3000
  { p with missed := m, state := if m = 5 then .silent else if m = 100 then .lost else p.state }

/-- One entry at the cycle end: untouched when heard or already aged, else older, and removed at 3000. -/
def agePeer (skip : List StationNo) (p : Peer) : Option Peer :=
  if skip.contains p.number then some p else if p.older.missed = 3000 then none else some p.older

/-- The entry becomes LOST at this cycle end. -/
def losesPeer (skip : List StationNo) (p : Peer) : Bool := !skip.contains p.number && p.missed == 99

/-- The station numbers whose entries the ageing of this cycle end leaves alone. -/
def State.ageSkip (s : State) : List StationNo := s.chan.heard ++ s.early.aged

/-- The table with the cycle just ended counted in every missed count (R52). -/
def State.countedPeers (s : State) : List Peer := s.peers.filterMap (agePeer s.ageSkip)

/-- The ageing of a cycle end (R49). -/
def State.agePeers (s : State) : State :=
  { s with peers := s.countedPeers }.raiseIf (s.peers.any (losesPeer s.ageSkip)) .peerLost

/-! ### Admission (R50, R51) -/

/-- A number in its place in an ascending list. -/
def insertNumber (n : StationNo) : List StationNo → List StationNo
  | [] => [n]
  | m :: ms => if n < m then n :: m :: ms else m :: insertNumber n ms

/-- The candidates of a wearer in ascending number: entries not LOST, and the station itself for its own wearer. -/
def candidates (c : Credentials) (ps : List Peer) (w : WearerNo) : List StationNo :=
  let heard := (ps.filter fun p => p.wearer == w && p.state != .lost).map fun p => p.number
  if c.wearer = w then insertNumber c.number heard else heard

/-- The admitted stations of a wearer, the preferred bud first, then the partner. -/
def admitted (c : Credentials) (ps : List Peer) (w : WearerNo) : List StationNo := (candidates c ps w).take 2

/-- The station is admitted for its own wearer. -/
def ownAdmitted (c : Credentials) (ps : List Peer) : Bool := (admitted c ps c.wearer).contains c.number

/-- The own partner. -/
def ownPartner (c : Credentials) (ps : List Peer) : Option StationNo :=
  if ownAdmitted c ps then (admitted c ps c.wearer).find? fun n => n != c.number else none

/-- The surplus episode at a cycle end in MEMBER or LEAVING (R53). -/
def State.deriveSurplus (s : State) (ps : List Peer) : State :=
  let surplus := !ownAdmitted s.station.creds ps
  { s with surplus := surplus }.raiseIf (surplus && !s.surplus) .wearerSurplus

/-- The own partner's line-mute flag, false when there is no own partner. -/
def partnerMuted (c : Credentials) (ps : List Peer) : Bool :=
  match ownPartner c ps with
  | none => false
  | some n =>
    match findPeer n ps with
    | none => false
    | some p => p.lineMute

/-- Effective mute at a frame deadline, from the table with the cycle just ended counted (R107). -/
def State.effectiveMute (s : State) (ps : List Peer) : Bool :=
  s.mute.debounced || (s.station.state.inGroup && partnerMuted s.station.creds ps)

end Sys2Proof.Machine
end

