-- ==== Sys2Proof/Machine/Claims.lean ====
section
/-! DEFINITION. The claim unit: report marks (R67), the FREE test (R61), the decisions of a cycle end (R64 to R70, R73),
and what the bearer record follows (R71, R143). -/

namespace Sys2Proof.Machine

/-! ### Report marks (R67, Table 4-3) -/

/-- The marks of a claim in TENTATIVE or CONFIRMED after the report `r` on its slot; `counts`: a report of the own
number tells of the claim's own sending. -/
def Claim.report (c : Claim) (own r : StationNo) (counts : Bool) : Claim :=
  if r = 0 then c
  else if r = own then (if counts then { c with clean := true } else c)
  else { c with conflict := true }

/-- A claim reads its slot's entry in a heard map. -/
def Claim.readMap (c : Claim) (own : StationNo) (map : List StationNo) : Claim :=
  match c.slot with
  | none => c
  | some k =>
    match c.state with
    | .tentative => c.report own (map.getD k.val 0) (decide (1 ≤ c.cycles))
    | .confirmed => c.report own (map.getD k.val 0) true
    | .none => c
    | .waiting => c
    | .holdoff => c
    | .releasing => c

/-- Both claims read a heard map. -/
def State.readMap (s : State) (map : List StationNo) : State :=
  { s with
      voice := s.voice.readMap s.station.creds.number map
      farEnd := s.farEnd.readMap s.station.creds.number map }

/-! ### The FREE test (R61) -/

/-- A voice slot's entry is EMPTY in a view. -/
def emptyIn (v : List Entry) (k : Nat) : Bool := v.getD k .unknown == .empty

/-- The lowest FREE slot, given both views after the rotation and the other claim's slot. -/
def freeSlot (v1 v2 : List Entry) (other : Option SlotIx) : Option SlotIx :=
  (List.finRange 16).find? fun k =>
    decide (k.val ≤ 13) && emptyIn v1 k.val && emptyIn v2 k.val && decide (other ≠ some k)

/-- The picture is complete: no entry 0..13 of either view is UNKNOWN. -/
def pictureComplete (v1 v2 : List Entry) : Bool :=
  (List.range 14).all fun k => v1.getD k .unknown != .unknown && v2.getD k .unknown != .unknown

/-- What every decision reads. -/
structure ClaimFacts where
  v1 : List Entry
  v2 : List Entry
  alone : Bool
  hold : Nat
deriving DecidableEq, Repr

/-! ### Decisions (R65, R66, R68 to R70, R73) -/

/-- A TENTATIVE claim that is confirmed. -/
def Claim.confirm (c : Claim) : Claim := { Claim.inState .confirmed with slot := c.slot }

/-- The decision on a WAITING claim (R65, R66). -/
def Claim.decideWaiting (c : Claim) (f : ClaimFacts) (other : Option SlotIx) : Claim × List Flag :=
  match freeSlot f.v1 f.v2 other with
  | some k => ({ Claim.inState .tentative with slot := some k }, [])
  | none =>
    if pictureComplete f.v1 f.v2 then
      ({ c with cycles := min (c.cycles + 1) 255 }, if c.cycles = 0 then [.groupFull] else [])
    else (c, [])

/-- The decision on a TENTATIVE claim (Table 4-4). -/
def Claim.decideTentative (c : Claim) (f : ClaimFacts) : Claim × List Flag :=
  if c.conflict then (Claim.inState .holdoff, [])
  else if c.clean then (c.confirm, [.claimConfirmed])
  else if f.alone then (c.confirm, [.claimConfirmed])
  else if 8 ≤ c.cycles + 1 then (Claim.inState .holdoff, [])
  else ({ c with cycles := c.cycles + 1 }, [])

/-- The decision on a CONFIRMED claim (R69). -/
def Claim.decideConfirmed (c : Claim) : Claim × List Flag :=
  if c.conflict then
    if 2 ≤ c.run + 1 then (Claim.inState .holdoff, [.claimLost]) else ({ c with run := c.run + 1 }, [])
  else ({ c with run := 0 }, [])

/-- The decision on a HOLDOFF claim (R70). -/
def Claim.decideHoldoff (c : Claim) (f : ClaimFacts) : Claim × List Flag :=
  if f.hold ≤ c.cycles + 1 then (Claim.inState .waiting, []) else ({ c with cycles := c.cycles + 1 }, [])

/-- The decision on a claim and the events it raises. -/
def Claim.decideOn (c : Claim) (f : ClaimFacts) (other : Option SlotIx) : Claim × List Flag :=
  match c.state with
  | .none => (c, [])
  | .waiting => c.decideWaiting f other
  | .holdoff => c.decideHoldoff f
  | .tentative => c.decideTentative f
  | .confirmed => c.decideConfirmed
  | .releasing => ({ c with cycles := 1 }, [])

/-- After the decisions both marks are cleared (R64). -/
def Claim.clearMarks (c : Claim) : Claim := { c with clean := false, conflict := false }

/-- The hold length by own station number (R70). -/
def holdLength (n : StationNo) : Nat := n.val % 4 + 1

/-- The views as this cycle end leaves V1 and V2 (R59, R60). -/
def State.viewsAfter (s : State) : List Entry × List Entry :=
  if s.early.viewsSet || (s.timer.cycle.bind fun c => c.nextPhase).isSome then (viewOf .unknown, viewOf .unknown)
  else (s.views.filling, s.views.v1)

/-- What the decisions of this cycle end read: the views after the rotation, and the peer table with the cycle just
ended counted (R64). -/
def State.claimFacts (s : State) (ps : List Peer) : ClaimFacts where
  v1 := s.viewsAfter.1
  v2 := s.viewsAfter.2
  alone := ps.all fun p => p.state == .lost
  hold := holdLength s.station.creds.number

/-- Several flags raised. -/
def State.raiseAll (s : State) (fs : List Flag) : State := fs.foldl State.raise s

/-- The voice claim is decided (R64). -/
def State.decideVoice (s : State) (f : ClaimFacts) : State :=
  let r := s.voice.decideOn f s.farEnd.slot
  { s with voice := r.1.clearMarks, early := { s.early with voiceDecided := true } }.raiseAll r.2

/-- The bearer record follows the far-end claim (R143): TENTATIVE to CONFIRMED, CONFIRMED to HOLDOFF. -/
def State.bearerFollows (s : State) (old new : ClaimState) : State :=
  if s.bearer.state = .claiming ∧ old = .tentative ∧ new = .confirmed then
    { s with bearer := { s.bearer with state := .bearing } }.raise .bearerUp
  else if s.bearer.state = .bearing ∧ old = .confirmed ∧ new = .holdoff then
    { s with bearer := { s.bearer with state := .claiming } }
  else s

/-- The far-end claim is decided, and the bearer record follows (R64, R143). -/
def State.decideFar (s : State) (f : ClaimFacts) : State :=
  let r := s.farEnd.decideOn f s.voice.slot
  ({ s with farEnd := r.1.clearMarks, early := { s.early with farDecided := true } }.raiseAll r.2).bearerFollows
    s.farEnd.state r.1.state

/-- The claim decisions that no row of its own has made yet at this cycle end, voice first (R64). -/
def State.decideClaims (s : State) (f : ClaimFacts) : State :=
  let t := if s.early.voiceDecided then s else s.decideVoice f
  if t.early.farDecided then t else t.decideFar f

/-- What a step jump makes of the claims and of the bearer record (R24, R143). -/
def State.jumpClaims (s : State) : State :=
  { s with
      voice := s.voice.jump
      farEnd := s.farEnd.jump
      bearer := { s.bearer with state := if s.bearer.state = .bearing then .claiming else s.bearer.state } }

end Sys2Proof.Machine
end

