-- ==== Sys2Proof/Machine/Streams.lean ====
section
/-! DEFINITION. The stream unit: the reception list (R114) and the update of the nine records at a frame deadline (R111,
R115 to R120, R122 to R124, R126, R127). -/

namespace Sys2Proof.Machine

/-! ### The reception list (R114) -/

/-- An entry is under a sender and kind. -/
def RxEntry.under (n : StationNo) (far : Bool) (e : RxEntry) : Bool := e.sender == n && e.farEnd == far

/-- The outcome stored under a sender and kind. -/
def rxLookup (n : StationNo) (far : Bool) (l : List RxEntry) : Option RxOutcome :=
  (l.find? (RxEntry.under n far)).map fun e => e.outcome

/-- A reception stored; a second one of the same sender and kind replaces the first. -/
def rxStore (n : StationNo) (far : Bool) (o : RxOutcome) (l : List RxEntry) : List RxEntry :=
  l.filter (fun e => !e.under n far) ++ [{ sender := n, farEnd := far, outcome := o }]

/-- The outcome of a VOICE or FAREND burst: a hush, or the frame decoded with its energy (R103, R109, R114). -/
def outcomeOf (b : Burst) : Option RxOutcome :=
  match b.body with
  | .frame p => some (decodedOutcome p)
  | .absent => some .hush
  | .join _ _ => none
  | .offer _ _ _ => none
  | .confirm _ _ _ => none

/-- The stream unit's work at an OWN reception (R114). -/
def State.storeReception (s : State) (b : Burst) : State :=
  match b.kind, outcomeOf b with
  | .voice, some o => { s with streams := { s.streams with list := rxStore b.sender false o s.streams.list } }
  | .farend, some o => { s with streams := { s.streams with list := rxStore b.sender true o s.streams.list } }
  | _, _ => s

/-! ### One record (R116 to R119) -/

/-- The ramp of one sample (R118). -/
def rampSample (i : Nat) (x : Sample) : Sample := BitVec.ofInt 16 (Int.tdiv (x.toInt * (i + 1)) 160)

/-- A frame faded in (R118). -/
def rampFrame (f : Frame) : Frame := f.mapIdx rampSample

/-- Half level (R119). -/
def halfFrame (f : Frame) : Frame := f.map fun x => BitVec.ofInt 16 (shr x.toInt 1)

/-- A frame taken now is faded in: the previous state was silence (R118). -/
def StreamState.silent : StreamState → Bool
  | .muted => true
  | .hushed => true
  | .absent => true
  | .fresh => false
  | .borrowed => false
  | .ramp => false
  | .repeat1 => false
  | .repeat2 => false

/-- A frame is taken from a station (R116, R118, R119). -/
def StreamRec.take (r : StreamRec) (f : Frame) (src : StationNo) (borrowed : Bool) : StreamRec :=
  if r.state.silent then
    { r with state := .ramp, current := rampFrame f, lastGood := f, source := some src, missing := 0 }
  else
    { r with state := if borrowed then .borrowed else .fresh, current := f, lastGood := f, source := some src,
             missing := 0 }

/-- A hush is taken from a station (R116, R119). -/
def StreamRec.hushed (r : StreamRec) (src : StationNo) : StreamRec :=
  { r with state := .hushed, current := silence, source := some src, missing := min (r.missing + 1) 255 }

/-- Nothing arrived (R117, Table 7-4). -/
def StreamRec.nothing (r : StreamRec) : StreamRec :=
  let m := min (r.missing + 1) 255
  match r.state with
  | .absent => r.toAbsent
  | .hushed => { r with current := silence, missing := m }
  | .fresh | .borrowed | .ramp | .repeat1 | .repeat2 | .muted =>
    if m ≤ 1 then { r with state := .repeat1, current := r.lastGood, missing := m }
    else if m = 2 then { r with state := .repeat2, current := halfFrame r.lastGood, missing := m }
    else { r with state := .muted, current := silence, missing := m }

/-- A record after an outcome from a station (R116, R123). -/
def StreamRec.outcome (r : StreamRec) (o : RxOutcome) (src : StationNo) (borrowed : Bool) : StreamRec :=
  match o with
  | .hush => r.hushed src
  | .frame f _ => r.take f src borrowed

/-- The energy of an outcome's frame. -/
def RxOutcome.energy : RxOutcome → Option Nat
  | .hush => none
  | .frame _ e => some e

/-- The record took a frame at this deadline. -/
def StreamState.tookFrame : StreamState → Bool
  | .fresh => true
  | .borrowed => true
  | .ramp => true
  | .absent => false
  | .repeat1 => false
  | .repeat2 => false
  | .muted => false
  | .hushed => false

/-- The frame taken is above threshold (R110). -/
def aboveThreshold (tAct : Nat) : Option Nat → Bool
  | none => false
  | some e => decide (tAct ≤ e)

/-- The hang counter after a deadline (R111, Table 6-10); `e` is the energy of the frame taken. -/
def StreamRec.hangUpdate (r : StreamRec) (tAct : Nat) (e : Option Nat) : StreamRec :=
  { r with hang := if r.state.tookFrame && aboveThreshold tAct e then 3 else r.hang - 1 }

/-! ### Wearer records (R116, R120) -/

/-- What a wearer record reads: the first case of R116 that applies, as a station, an outcome and whether it is the
partner's; none when nothing arrived. -/
def wearerChoice (l : List RxEntry) (pref : StationNo) (partner : Option StationNo) :
    Option (StationNo × RxOutcome × Bool) :=
  let fromPref := rxLookup pref false l
  let fromPartner := partner.bind fun n => (rxLookup n false l).map fun o => (n, o, true)
  match fromPref, fromPartner with
  | some .hush, _ => some (pref, .hush, false)
  | _, some (n, .hush, b) => some (n, .hush, b)
  | some (.frame f e), _ => some (pref, .frame f e, false)
  | none, p => p

/-- A wearer record fed from the air, and the energy of the frame it took (R116). -/
def updateWearer (l : List RxEntry) (who : List StationNo) (r : StreamRec) : StreamRec × Option Nat :=
  match who with
  | [] => (r.toAbsent, none)
  | pref :: rest =>
    match wearerChoice l pref rest.head? with
    | some (n, o, b) => (r.outcome o n b, o.energy)
    | none => (r.nothing, none)

/-- The own-wearer record, fed from the voice payload that served the cycle just ended (R99, R120). -/
def updateOwnWearer (p : VoicePayload) (own : StationNo) (r : StreamRec) : StreamRec × Option Nat :=
  match p with
  | .frame q => (r.outcome (decodedOutcome q) own false, (decodedOutcome q).energy)
  | .hush => (r.hushed own, none)
  | .none => (r.toAbsent, none)

/-- One of the eight wearer records at a deadline in LISTEN, MEMBER or LEAVING, its hang counter included. -/
def State.wearerAtDeadline (s : State) (ps : List Peer) (w : Nat) (r : StreamRec) : StreamRec :=
  let u :=
    if w = s.station.creds.wearer.val then updateOwnWearer s.chan.voicePayload s.station.creds.number r
    else updateWearer s.streams.list (admitted s.station.creds ps (Fin.ofNat 8 w)) r
  u.1.hangUpdate s.config.tAct.toNat u.2

/-! ### The far-end record (R122 to R124, R126) -/

/-- A candidate for the far-end source (R122). -/
def Peer.farCandidate (p : Peer) : Bool := p.state != .lost && p.farSlot.isSome && p.bearer

/-- The better of two candidates: the greater age, then the lower number (R122). -/
def betterSource (p q : Peer) : Peer :=
  if p.age.toNat < q.age.toNat ∨ (p.age = q.age ∧ q.number < p.number) then q else p

/-- The far-end source among the peers (R122). -/
def farSource (ps : List Peer) : Option StationNo :=
  match ps.filter Peer.farCandidate with
  | [] => none
  | p :: rest => some (rest.foldl betterSource p).number

/-- The entry of a station is LOST or absent for this deadline (R126). -/
def peerGone (ps : List Peer) (n : StationNo) : Bool :=
  match findPeer n ps with
  | none => true
  | some p => p.state == .lost

/-- The test of R126: the source station's entry is LOST or absent. A bearer that follows itself (R124) has no entry and is
not meant (assumption log 14). -/
def State.farSourceLost (s : State) (ps : List Peer) : Bool :=
  match s.streams.farEnd.source with
  | none => false
  | some n => !(s.bearer.state != .none && n == s.station.creds.number) && peerGone ps n

/-- Nothing arrived from the chosen peer: by R117, with that peer as source unless the record stays ABSENT (R123,
assumption log 15). -/
def StreamRec.nothingFrom (r : StreamRec) (n : StationNo) : StreamRec :=
  { r.nothing with source := if r.state = .absent then none else some n }

/-- The far-end record fed from the bearer's own take (R124). -/
def ownFarFeed (take : TakeOutcome) (payload : Option Payload) (own : StationNo) (r : StreamRec) :
    StreamRec × Option Nat :=
  match take, payload with
  | .frame, some p => (r.outcome (decodedOutcome p) own false, (decodedOutcome p).energy)
  | .frame, none => (r.nothing, none)
  | .hush, _ => (r.hushed own, none)
  | .none, _ => (r.nothing, none)

/-- The far-end record with a peer as source, or none (R122, R123). -/
def peerFarFeed (l : List RxEntry) (src : Option StationNo) (r : StreamRec) : StreamRec × Option Nat :=
  match src with
  | none => (r.toAbsent, none)
  | some n =>
    match rxLookup n true l with
    | some o => (r.outcome o n false, o.energy)
    | none => (r.nothingFrom n, none)

/-- The far-end record after the LOST test of R126. -/
def State.farTested (s : State) (ps : List Peer) : StreamRec :=
  if s.farSourceLost ps then s.streams.farEnd.toAbsent else s.streams.farEnd

/-- The far-end record decided, with the energy of the frame taken. -/
def State.farDecided (s : State) (ps : List Peer) : StreamRec × Option Nat :=
  if s.bearer.state = .none then peerFarFeed s.streams.list (farSource ps) (s.farTested ps)
  else ownFarFeed s.bearer.lastTake s.chan.farPayload s.station.creds.number (s.farTested ps)

/-- FAREND_DOWN and FAREND_UP by the passage of the record through its states (R127). -/
def State.raiseFarEvents (s : State) (before tested after : StreamState) : State :=
  (s.raiseIf ((before != .absent && tested == .absent) || (tested != .absent && after == .absent)) .farendDown).raiseIf
    (tested == .absent && after != .absent) .farendUp

/-! ### The update (R115) -/

/-- The update in LISTEN, MEMBER and LEAVING. -/
def State.updateFromAir (s : State) (ps : List Peer) : State :=
  let far := s.farDecided ps
  { s with streams :=
      { wearers := s.streams.wearers.mapIdx (s.wearerAtDeadline ps)
        farEnd := far.1.hangUpdate s.config.tAct.toNat far.2
        list := [] } }.raiseFarEvents s.streams.farEnd.state (s.farTested ps).state far.1.state

/-- A record decided ABSENT, its hang counter updated. -/
def StreamRec.silenced (r : StreamRec) : StreamRec := r.toAbsent.hangUpdate 0 none

/-- The update in IDLE, SEEKING and JOINING: every record ABSENT (Table 7-3). -/
def State.silenceStreams (s : State) : State :=
  { s with streams :=
      { wearers := s.streams.wearers.map StreamRec.silenced, farEnd := s.streams.farEnd.silenced, list := [] } }.raiseIf
    (s.streams.farEnd.state != StreamState.absent) .farendDown

/-- The update at a frame deadline, by the station state it meets (R115). -/
def State.updateStreams (s : State) (ps : List Peer) : State :=
  if s.station.state.listening then s.updateFromAir ps else s.silenceStreams

end Sys2Proof.Machine
end

