-- ==== Sys2Proof/Machine/Mix.lean ====
section
/-! DEFINITION. The mix engine: headroom, the speaker frame and the uplink frame (R129 to R139), and SET_LEVELS. -/

namespace Sys2Proof.Machine

/-- Headroom by the count of active sources (Table 8-3). -/
def headroom (k : Nat) : Nat := if k ≤ 1 then 16384 else if k = 2 then 12288 else if k = 3 then 10240 else 8192

/-- The effective gain of a source with a level (R132). -/
def effectiveGain (level : Gain) (k : Nat) : Int := round14 ((level.toNat : Int) * headroom k)

/-- A stream is active while its hang counter is above 0 (R112). -/
def StreamRec.active (r : StreamRec) : Bool := decide (0 < r.hang)

/-- The sum before any source is added. -/
def emptySum : List Int := List.replicate 160 0

/-- A source added into the sum at its effective gain (R133). -/
def addScaled (e : Int) (acc : List Int) (r : StreamRec) : List Int :=
  List.zipWith (fun a x => a + BitVec.toInt x * e) acc r.current

/-- The sum of several sources at one effective gain. -/
def mixInto (e : Int) (rs : List StreamRec) (acc : List Int) : List Int := rs.foldl (addScaled e) acc

/-- A sum reduced to a sample: round, then saturate once (R133). -/
def mixedSample (acc : Int) : Sample := saturate (round14 acc)

/-- The wearer records other than the own-wearer record (R131). -/
def State.otherWearers (s : State) : List StreamRec := s.streams.wearers.eraseIdx s.station.creds.wearer.val

/-- The speaker count (R131). -/
def State.speakerCount (s : State) : Nat := ((s.streams.farEnd :: s.otherWearers).filter StreamRec.active).length

/-- Volume (R134). -/
def volumeSample (vol : Gain) (y : Sample) : Sample := saturate (round14 (y.toInt * vol.toNat))

/-- Sidetone (R135): not saturated by itself. -/
def sidetone (gSide : Gain) (mic : Sample) : Int := round14 (mic.toInt * gSide.toNat)

/-- One speaker sample from the sum and the capture sample (R133 to R135). -/
def speakerSample (c : ConfigBlock) (acc : Int) (mic : Sample) : Sample :=
  saturate ((volumeSample c.vol (mixedSample acc)).toInt + sidetone c.gSide mic)

/-- The speaker sum (R131, R133). -/
def State.speakerSum (s : State) : List Int :=
  let k := s.speakerCount
  mixInto (effectiveGain s.config.gVoice k) s.otherWearers
    (mixInto (effectiveGain s.config.gFar k) [s.streams.farEnd] emptySum)

/-- The speaker frame (R133 to R135). -/
def State.speakerFrame (s : State) : Frame := List.zipWith (speakerSample s.config) s.speakerSum s.codec.capture

/-- The uplink frame (R136). -/
def State.uplinkFrame (s : State) : Frame :=
  let k := (s.streams.wearers.filter StreamRec.active).length
  (mixInto (effectiveGain s.config.gUp k) s.streams.wearers emptySum).map mixedSample

/-- SET_LEVELS(vol, g_side) (R130). -/
def execSetLevels (vol gSide : BitVec 16) (s : State) : Host.Outcome State Fault Refusal :=
  s.hostCommand fun s =>
    { s with config := { s.config with vol := registerLevel vol, gSide := registerLevel gSide } }.ok

end Sys2Proof.Machine
end

