-- ==== Sys2Proof/Machine/BearerUnit.lean ====
section
/-! DEFINITION. The bearer unit: the take from the downlink queue, the uplink join, the election test, the host commands
of a call and the sample transfers (R140 to R156). -/

namespace Sys2Proof.Machine

/-- Two samples merged into one: their sum shifted right by 1 (R150, R153). -/
def mergeSamples (x y : Sample) : Sample := BitVec.ofInt 16 (shr (x.toInt + y.toInt) 1)

/-! ### The take (R150 to R152) -/

/-- The frame a take produces with primed 1, the fill being `q.length` (Table 9-6). -/
def takeFrame (hold : Sample) (q : List Sample) : Frame :=
  if 400 < q.length then q.take 159 ++ [mergeSamples (q.getD 159 0#16) (q.getD 160 0#16)]
  else if 240 ≤ q.length then q.take 160
  else if 160 ≤ q.length then q.take 159 ++ [q.getD 158 0#16]
  else q ++ List.replicate (160 - q.length) (q.getLastD hold)

/-- How many samples a take with primed 1 removes (Table 9-6). -/
def takeCount (fill : Nat) : Nat :=
  if 400 < fill then 161 else if 240 ≤ fill then 160 else if 160 ≤ fill then 159 else fill

/-- The bearer record after a take that produces a frame (R150, R151). -/
def Bearer.afterFrame (b : Bearer) (f : Frame) : Bearer :=
  { b with
      primed := true
      underrun := decide (b.downlink.length < 160)
      holdSample := f.getD 159 0#16
      lastTake := .frame
      downlink := b.downlink.drop (takeCount b.downlink.length) }

/-- A take (R150 to R152): the hush while not primed, else the frame, encoded into the far-end payload. -/
def State.makeTake (s : State) : State :=
  if s.bearer.primed || decide (240 ≤ s.bearer.downlink.length) then
    let f := takeFrame s.bearer.holdSample s.bearer.downlink
    { s with
        bearer := s.bearer.afterFrame f
        chan := { s.chan with farPayload := some (encodeFrame f) } }.raiseIf
      (decide (s.bearer.downlink.length < 160) && !s.bearer.underrun) .downlinkUnderrun
  else { s with bearer := { s.bearer with lastTake := .hush }, chan := { s.chan with farPayload := none } }

/-- The bearer unit's take at a frame deadline (R150): made while the far-end claim is TENTATIVE or CONFIRMED. -/
def State.takeDownlink (s : State) : State :=
  if s.farEnd.sending then s.makeTake else { s with bearer := { s.bearer with lastTake := .none } }

/-! ### The uplink join (R153, R154) -/

/-- The samples that join for a fill (Table 9-7). -/
def joinSamples (fill : Nat) (u : Frame) : List Sample :=
  if 400 < fill then u.take 158 ++ [mergeSamples (u.getD 158 0#16) (u.getD 159 0#16)]
  else if 240 ≤ fill then u
  else u ++ [u.getD 159 0#16]

/-- The uplink queue after a join (R154): the oldest samples beyond 640 are discarded first. -/
def joinedQueue (q j : List Sample) : List Sample := q.drop (q.length + j.length - 640) ++ j

/-- The uplink frame joins the queue. -/
def State.joinUplink (s : State) (u : Frame) : State :=
  let j := joinSamples s.bearer.uplink.length u
  { s with bearer := { s.bearer with uplink := joinedQueue s.bearer.uplink j } }.raiseIf
    (decide (640 < s.bearer.uplink.length + j.length)) .uplinkOverrun

/-- The uplink work of a frame deadline (R136, R137, R153). -/
def State.uplinkWork (s : State) : State := if s.bearer.state.claims then s.joinUplink s.uplinkFrame else s

/-! ### Age and election (R142, R144) -/

/-- The bearer age at a cycle end (R142). -/
def State.ageBearer (s : State) : State :=
  if s.bearer.state.claims then { s with bearer := { s.bearer with age := min (s.bearer.age + 1) 255 } } else s

/-- The station yields the election to a burst (R144). -/
def State.losesElection (s : State) (b : Burst) : Bool :=
  s.bearer.state.claims && b.bearer &&
    (decide (s.bearer.age < b.age.toNat) || (decide (b.age.toNat = s.bearer.age) && decide (b.sender < s.station.creds.number)))

/-! ### The host commands of a call -/

/-- An ACTIVE peer entry has its bearer flag set (R141). -/
def bearerHeard (ps : List Peer) : Bool := ps.any fun p => p.state == .active && p.bearer

/-- BEAR_CALL (R141). -/
def execBearCall (s : State) : Host.Outcome State Fault Refusal :=
  s.hostCommand fun s =>
    if s.station.state ≠ .member ∨ s.bearer.state ≠ .none then s.refuse .wrongState
    else if bearerHeard s.peers then s.refuse .bearerPresent
    else { s with bearer := { Bearer.none with state := .claiming }, farEnd := Claim.inState .waiting }.ok

/-- END_CALL (R145). -/
def execEndCall (s : State) : Host.Outcome State Fault Refusal :=
  s.hostCommand fun s => if s.bearer.state.claims then s.endRole.ok else s.refuse .wrongState

/-! ### Sample transfers (R149, R155, R156) -/

/-- The sample transfer that follows a command. -/
def State.beginTransfer (s : State) (x : Transfer) : State := { s with port := { s.port with transfer := x } }

/-- WRITE_DOWNLINK(n) (R149). -/
def execWriteDownlink (n : BitVec 16) (s : State) : Host.Outcome State Fault Refusal :=
  s.hostCommand fun s =>
    if !s.bearer.state.claims then s.refuse .wrongState
    else if n.toNat = 0 ∨ 640 < n.toNat then s.refuse .badArgument
    else (s.beginTransfer (.downlink n.toNat)).ok

/-- READ_UPLINK(n) (R155): the count a, the bearer state and the primed flag as they stand. -/
def execReadUplink (n : BitVec 16) (s : State) : Host.Outcome State Fault Refusal :=
  s.hostCommand fun s =>
    if 640 < n.toNat then s.refuse .badArgument
    else
      let a := min n.toNat s.bearer.uplink.length
      (s.beginTransfer (.uplink a)).answer .ok (uplinkWord s.bearer a)

/-- A downlink sample acts (R149). -/
def State.acceptDownlink (s : State) (v : Sample) : State :=
  if s.bearer.state.claims then
    if s.bearer.downlink.length < 640 then
      { s with bearer := { s.bearer with downlink := s.bearer.downlink ++ [v] } }
    else s.raise .downlinkOverrun
  else s

/-- DOWNLINK_SAMPLE: the second byte of a downlink sample completes (R149, R156). Bytes after the n-th sample are
ignored. -/
def execDownlinkSample (v : Sample) (s : State) : Host.Outcome State Fault Refusal :=
  match s.port.transfer with
  | .downlink (left + 1) => s.whenever s.running ((s.beginTransfer (.downlink left)).acceptDownlink v)
  | .downlink 0 => .next s
  | .uplink _ => .next s
  | .none => .next s

/-- A position's sample is shifted out. -/
def State.shiftOut (s : State) (v : Sample) : State :=
  { s with port := { s.port with reply := s.port.reply ++ sampleBytes v } }

/-- An uplink position begins (R155): the oldest sample leaves the queue; zero when the queue is empty. -/
def State.takePosition (s : State) : State :=
  match s.bearer.uplink with
  | v :: rest => { s with bearer := { s.bearer with uplink := rest } }.shiftOut v
  | [] => s.shiftOut 0#16

/-- UPLINK_SAMPLE_POSITION (R155, R156): beyond the a-th position zero is shifted out and nothing leaves. -/
def execUplinkSamplePosition (s : State) : Host.Outcome State Fault Refusal :=
  match s.port.transfer with
  | .uplink (left + 1) => s.whenever s.running (s.beginTransfer (.uplink left)).takePosition
  | .uplink 0 => s.whenever s.running (s.shiftOut 0#16)
  | .downlink _ => .next s
  | .none => .next s

end Sys2Proof.Machine
end

