-- ==== Sys2Proof/Machine/Store.lean ====
section
/-! DEFINITION. The bond store: bond writes, the host's store commands, the ends of operations, the start-up scan, and
what a reset leaves (R157 to R169). -/

namespace Sys2Proof.Machine

/-- The place at an index; a blank one where the list has none (it has 16). -/
def placeAt (ps : List Place) (i : Nat) : Place := ps.getD i Place.blank

/-- The bond value with every field 0. -/
def BondValue.zero : BondValue := { group := 0#24, station := 0, wearer := 0, seq := 0#16 }

/-! ### Bond writes (R164, R165) -/

/-- The highest sequence number among the places that are not ERASED, 0 when there is none (R165). -/
def highestSeq (ps : List Place) : Nat :=
  ps.foldl (fun m p => if p.state = .erased then m else max m p.value.seq.toNat) 0

/-- The sequence number of a bond write: one above the highest, saturating at 65535 (R165). -/
def nextSeq (ps : List Place) : BitVec 16 := BitVec.ofNat 16 (min (highestSeq ps + 1) 65535)

/-- The lowest index of a place in a state. -/
def firstIn (st : PlaceState) (ps : List Place) : Option Nat := ps.findIdx? fun p => p.state == st

/-- What a write of these credentials writes. -/
def writeValue (ps : List Place) (c : Credentials) : BondValue :=
  { group := c.group, station := c.number, wearer := c.wearer, seq := nextSeq ps }

/-- An operation starts at instant `t`. -/
def State.startOp (s : State) (op : StoreOp) (place t : Nat) : State :=
  { s with store := { s.store with state := .busy, flight := some { op := op, place := place, start := t } } }

/-- A fault of the store (R167). -/
def State.storeFault (s : State) (c : FaultCause) : State :=
  { s with store := { s.store with cause := c } }.raise .storeFault

/-- The start of a bond write at instant `t` and its placement (R164). -/
def State.startWrite (s : State) (c : Credentials) (t : Nat) : State :=
  let s1 : State := { s with store := { s.store with waiting := none, state := .idle } }
  match firstIn .erased s.store.copy with
  | some i => s1.startOp (.program (writeValue s.store.copy c)) i t
  | none =>
    match firstIn .retired s.store.copy with
    | some i => s1.startOp (.eraseProgram (writeValue s.store.copy c) false) i t
    | none => s1.storeFault .full

/-- A bond write request (R78, R164): it starts at once when the store is IDLE, else it waits as the pending write. -/
def State.requestWrite (s : State) (c : Credentials) (t : Nat) : State :=
  if s.store.state = .idle then s.startWrite c t else { s with store := { s.store with waiting := some c } }

/-! ### Ends of operations -/

/-- An operation or the scan has ended: no operation in flight; IDLE, or BUSY when a pending write starts at this
instant (R164, assumption log 17); STORE_DONE. -/
def State.storeRelease (s : State) : State :=
  { s with store := { s.store with
      flight := none
      state := if s.store.waiting.isSome then .busy else .idle } }.raise .storeDone

/-- The target takes a new value, in the store and in the copy (R158). -/
def State.setPlace (s : State) (i : Nat) (p : Place) : State :=
  { s with store := { s.store with places := s.store.places.set i p, copy := s.store.copy.set i p } }

/-- Duration of an operation, or of the part in flight, in ticks from the operation's start (Table 10-3). -/
def StoreOp.ticks : StoreOp → Nat
  | .program _ => 6000
  | .retire => 1000
  | .lock => 1000
  | .erase => 80000
  | .eraseProgram _ programming => if programming then 86000 else 80000
  | .scanRetire => 1000

/-- The instant at which the operation in flight ends. -/
def Flight.finish (f : Flight) : Nat := f.start + f.op.ticks

/-- The end of a program (R159): the place holds `held`, or what was to be written when `held` is none. -/
def State.endProgram (s : State) (f : Flight) (v : BondValue) (held : Option BondValue) : State :=
  let w := held.getD v
  if w = v then ((s.atInstant f.finish).setPlace f.place { state := .valid, locked := false, value := v }).storeRelease
  else
    (((s.atInstant f.finish).setPlace f.place { state := .opened, locked := false, value := w }).storeFault
      .verify).storeRelease

/-- The next OPEN place of the scan starts its retire at `t`, or the scan ends (R169). -/
def State.scanNext (s : State) (t : Nat) : State :=
  match firstIn .opened s.store.copy with
  | some i =>
    { s with store := { s.store with state := .scanning, flight := some { op := .scanRetire, place := i, start := t } } }
  | none => s.storeRelease

/-- The start-up scan begins: the places are read into the copy (R169). -/
def State.startScan (s : State) (t : Nat) : State :=
  { s with store := { s.store with copy := s.store.places } }.scanNext t

/-! ### Reset (R168) -/

/-- A field that the cut leaves at its value or at 0. -/
def cutValue (c : CutChoice) (v : BondValue) : BondValue where
  group := if c.group then v.group else 0#24
  station := if c.station then v.station else 0
  wearer := if c.wearer then v.wearer else 0
  seq := if c.seq then v.seq else 0#16

/-- The target of a program cut short: ERASED before its OPEN mark, else OPEN (Table 10-5). -/
def cutProgram (c : CutChoice) (v : BondValue) : Place :=
  if c.took then { state := .opened, locked := false, value := cutValue c v } else Place.blank

/-- The target of an operation that a reset abandons (Table 10-5). -/
def cutPlace (c : CutChoice) (op : StoreOp) (p : Place) : Place :=
  match op with
  | .program v => cutProgram c v
  | .retire => if c.took then { p with state := .retired } else p
  | .scanRetire => if c.took then { p with state := .retired } else p
  | .lock => if c.took then { p with locked := true } else p
  | .erase => { state := .opened, locked := false, value := cutValue c p.value }
  | .eraseProgram v programming =>
    if programming then cutProgram c v
    else { state := .opened, locked := false, value := cutValue c p.value }

/-- The places after a reset. -/
def placesAfterCut (c : CutChoice) (st : Store) : List Place :=
  match st.flight with
  | none => st.places
  | some f => st.places.set f.place (cutPlace c f.op (placeAt st.places f.place))

/-! ### The host's store commands (R162, R163, R167) -/

/-- A host store command finds the store free: IDLE and no pending write. -/
def Store.free (st : Store) : Bool := st.state == .idle && st.waiting.isNone

/-- RETIRE_BOND accepts VALID or OPEN (Table 10-4). -/
def retireAccepts (p : Place) : Bool := p.state == .valid || p.state == .opened

/-- LOCK_BOND accepts VALID and unlocked. -/
def lockAccepts (p : Place) : Bool := p.state == .valid && !p.locked

/-- ERASE_BOND accepts RETIRED or OPEN. -/
def eraseAccepts (p : Place) : Bool := p.state == .retired || p.state == .opened

/-- The checks of Table 10-4 in their order, then the operation. `refuseLocked`: RETIRE_BOND and ERASE_BOND. -/
def State.storeCommand (s : State) (t : Nat) (b : Byte) (refuseLocked : Bool) (accepts : Place → Bool) (op : StoreOp) :
    State :=
  let p := placeAt s.store.copy b.toNat
  if 16 ≤ b.toNat then s.refuse .badArgument
  else if !s.store.free then s.refuse .storeBusy
  else if refuseLocked && p.locked then s.refuse .locked
  else if !accepts p then s.refuse .notAllowed
  else ((s.atInstant t).startOp op b.toNat (max s.now t)).ok

/-- RETIRE_BOND(place). -/
def execRetireBond (t : Nat) (place : Byte) (s : State) : Host.Outcome State Fault Refusal :=
  s.hostCommand fun s => s.storeCommand t place true retireAccepts .retire

/-- LOCK_BOND(place). -/
def execLockBond (t : Nat) (place : Byte) (s : State) : Host.Outcome State Fault Refusal :=
  s.hostCommand fun s => s.storeCommand t place false lockAccepts .lock

/-- ERASE_BOND(place). -/
def execEraseBond (t : Nat) (place : Byte) (s : State) : Host.Outcome State Fault Refusal :=
  s.hostCommand fun s => s.storeCommand t place true eraseAccepts .erase

/-- CLEAR_FAULT (R167). -/
def execClearFault (s : State) : Host.Outcome State Fault Refusal :=
  s.hostCommand fun s =>
    if s.store.free then { s with store := { s.store with cause := .none } }.ok else s.refuse .storeBusy

/-- The place is the target of the operation in flight (R163). -/
def Store.target (st : Store) (i : Nat) : Bool :=
  match st.flight with
  | none => false
  | some f => f.place == i

/-- READ_BOND(place) (R163). -/
def execReadBond (place : Byte) (s : State) : Host.Outcome State Fault Refusal :=
  s.hostCommand fun s =>
    if 16 ≤ place.toNat then s.refuse .badArgument
    else s.answer .ok (bondRecord (s.store.target place.toNat) (placeAt s.store.copy place.toNat))

/-! ### The rows that end or start operations -/

/-- PENDING_WRITE_START: the pending write starts once no operation is in flight (R164). -/
def execPendingWriteStart (s : State) : Host.Outcome State Fault Refusal :=
  match s.store.waiting with
  | none => .next s
  | some c => s.whenever (s.running && s.store.flight.isNone) (s.startWrite c s.now)

/-- PROGRAM_DONE: the end of a program, or of the program part of an erase then program (R159). -/
def execProgramDone (held : Option BondValue) (s : State) : Host.Outcome State Fault Refusal :=
  match s.store.flight with
  | some { op := .program v, place := i, start := b } =>
    s.whenever s.running (s.endProgram { op := .program v, place := i, start := b } v held)
  | some { op := .eraseProgram v true, place := i, start := b } =>
    s.whenever s.running (s.endProgram { op := .eraseProgram v true, place := i, start := b } v held)
  | _ => .next s

/-- ERASE_PART_DONE: the erase part ends, the place is ERASED, the program starts at once; the copy is not updated
(R159, R161). -/
def execErasePartDone (s : State) : Host.Outcome State Fault Refusal :=
  match s.store.flight with
  | some { op := .eraseProgram v false, place := i, start := b } =>
    s.whenever s.running
      { s.atInstant (b + 80000) with
          store := { s.store with
            places := s.store.places.set i Place.blank
            flight := some { op := .eraseProgram v true, place := i, start := b } } }
  | _ => .next s

/-- RETIRE_DONE (R160): the other fields are kept. -/
def execRetireDone (s : State) : Host.Outcome State Fault Refusal :=
  match s.store.flight with
  | some { op := .retire, place := i, start := b } =>
    s.whenever s.running
      (((s.atInstant (b + 1000)).setPlace i { placeAt s.store.places i with state := .retired }).storeRelease)
  | _ => .next s

/-- LOCK_DONE (R160). -/
def execLockDone (s : State) : Host.Outcome State Fault Refusal :=
  match s.store.flight with
  | some { op := .lock, place := i, start := b } =>
    s.whenever s.running
      (((s.atInstant (b + 1000)).setPlace i { placeAt s.store.places i with locked := true }).storeRelease)
  | _ => .next s

/-- ERASE_DONE (R161). -/
def execEraseDone (s : State) : Host.Outcome State Fault Refusal :=
  match s.store.flight with
  | some { op := .erase, place := i, start := b } =>
    s.whenever s.running (((s.atInstant (b + 80000)).setPlace i Place.blank).storeRelease)
  | _ => .next s

/-- SCAN_RETIRE_DONE (R169). -/
def execScanRetireDone (s : State) : Host.Outcome State Fault Refusal :=
  match s.store.flight with
  | some { op := .scanRetire, place := i, start := b } =>
    s.whenever s.running
      (((s.atInstant (b + 1000)).setPlace i { placeAt s.store.places i with state := .retired }).scanNext (b + 1000))
  | _ => .next s

end Sys2Proof.Machine
end

