-- ==== Sys2Proof/Machine/Pairing.lean ====
section
/-! DEFINITION. The pairing controller: the numbers of an offer, JOIN and CONFIRM at the member side, the countdowns, the
newcomer's orders, the entry of a newcomer to MEMBER (R82 to R96), and the host commands of pairing (R77, R80, R81, R92). -/

namespace Sys2Proof.Machine

/-! ### Offers (R84 to R91) -/

/-- The assigned station number: the lowest in 1..30 that neither the station nor an entry bears (R85). -/
def assignStation (own : StationNo) (ps : List Peer) : Option StationNo :=
  (List.finRange 32).find? fun n => n.valid && n != own && ps.all fun p => p.number != n

/-- The assigned wearer number (R86). -/
def assignWearer (kind : JoinKind) (c : Credentials) (ps : List Peer) : Option WearerNo :=
  match kind with
  | .newWearer => (List.finRange 8).find? fun w => w != c.wearer && ps.all fun p => p.wearer != w
  | .partner => if ownAdmitted c ps && (ownPartner c ps).isNone then some c.wearer else none

/-- The offer to a JOIN, when both numbers are found (R84 to R86). -/
def State.offerFor (s : State) (kind : JoinKind) (target : FactoryId) : Option Offer :=
  (assignStation s.station.creds.number s.peers).bind fun n =>
    (assignWearer kind s.station.creds s.peers).map fun w =>
      { target := target, station := n, wearer := w, cycleSent := s.timer.counter, sent := false }

/-- A JOIN handed to the pairing controller (R84). -/
def State.joinHeard (s : State) (target : FactoryId) (kind : JoinKind) : State :=
  if s.windowOpen && decide (s.pairing.window.kind = some kind) && s.pairing.offer.isNone then
    match s.offerFor kind target with
    | some o => { s with pairing := { s.pairing with offer := some o } }
    | none => s.raise .pairingFull
  else s

/-- A CONFIRM matches the outstanding offer (R88). -/
def confirmMatches (c : Credentials) (o : Offer) (group : GroupCode) (id : FactoryId) (offerer station : StationNo) :
    Bool :=
  decide (id = o.target) && decide (offerer = c.number) && decide (station = o.station) && decide (group = c.group)

/-- The outstanding offer lapses with the given age of the memory (R89). -/
def State.lapseOffer (s : State) (o : Offer) : State :=
  { s with pairing := { s.pairing with offer := none, lapse := some { number := o.station, age := 0 } } }

/-- At the reception of slot 14 of the cycle after the one in which the offer was recorded, the offer completes when
`confirmed` holds for it and lapses otherwise (R89). -/
def State.settleOffer (s : State) (confirmed : Offer → Bool) : State :=
  match s.pairing.offer with
  | none => s
  | some o =>
    if s.timer.counter = o.cycleSent + 1 then if confirmed o then s.closeWindow .done else s.lapseOffer o else s

/-- The step jump lapses an outstanding offer; the age stays 0 at this cycle end (R91). -/
def State.jumpLapse (s : State) : State :=
  match s.pairing.offer with
  | none => s
  | some o => { s.lapseOffer o with early := { s.early with lapseAged := true } }

/-! ### Countdowns at a cycle end (R82, R90) -/

/-- The countdown of the window (R82). -/
def State.countWindow (s : State) : State :=
  if s.windowOpen then
    let t : State :=
      { s with pairing := { s.pairing with window :=
          { s.pairing.window with remaining := s.pairing.window.remaining - 1 } } }
    if t.pairing.window.remaining = 0 then t.closeWindow .timeout else t
  else s

/-- The ageing of the lapse memory (R90). -/
def State.ageLapse (s : State) : State :=
  match s.pairing.lapse with
  | none => s
  | some l =>
    { s with pairing := { s.pairing with lapse := if 8 ≤ l.age + 1 then none else some { l with age := l.age + 1 } } }

/-! ### The newcomer (R93 to R96) -/

/-- What the decision of R94 answers. -/
inductive JoinDecision where
  | goOn (nc : Newcomer)
  | timeout
deriving DecidableEq, Repr

/-- The join hold: factory ID mod 8, plus 1 (R94). -/
def joinHold (id : FactoryId) : Nat := id.toNat % 8 + 1

/-- The decision of R94; `jumpNext`: the cycle that begins is a jump cycle. -/
def decideJoin (id : FactoryId) (jumpNext : Bool) (nc : Newcomer) : JoinDecision :=
  if nc.order ≠ .confirm ∧ nc.accepted.isSome then .goOn { nc with order := .confirm }
  else if nc.order = .join ∧ 64 ≤ nc.attempts then .timeout
  else if nc.order = .join then .goOn { nc with hold := joinHold id, order := .none }
  else if 0 < nc.hold ∧ ¬jumpNext then
    .goOn { nc with hold := nc.hold - 1, order := if nc.hold - 1 = 0 then .join else .none }
  else .goOn { nc with order := .none }

/-- The cycle that begins at this cycle end is a jump cycle. -/
def State.jumpNext (s : State) : Bool := s.early.jump.isSome || (s.timer.cycle.bind fun c => c.nextPhase).isSome

/-- The newcomer's work at a cycle end in JOINING (R94). -/
def State.decideNewcomer (s : State) : State :=
  match s.pairing.newcomer with
  | none => s
  | some nc =>
    match decideJoin s.factoryId s.jumpNext nc with
    | .goOn nc' => { s with pairing := { s.pairing with newcomer := some nc' } }
    | .timeout => s.pairTimeout

/-- The newcomer's work at a cycle end in SEEKING (R93). -/
def State.countSeek (s : State) : State :=
  match s.pairing.newcomer with
  | none => s
  | some nc =>
    if 3000 ≤ nc.seek + 1 then s.pairTimeout
    else { s with pairing := { s.pairing with newcomer := some { nc with seek := nc.seek + 1 } } }

/-- An OFFER handed to the newcomer (R95). -/
def acceptOffer (id : FactoryId) (b : Burst) (nc : Newcomer) : Newcomer :=
  match b.body with
  | .offer target n w =>
    if target = id ∧ some b.group = nc.target ∧ nc.order = .join ∧ nc.accepted.isNone then
      { nc with accepted := some { group := b.group, offerer := b.sender, station := n, wearer := w } }
    else nc
  | .absent => nc
  | .frame _ => nc
  | .join _ _ => nc
  | .confirm _ _ _ => nc

/-- An OFFER at a station in JOINING. -/
def State.offerHeard (s : State) (b : Burst) : State :=
  { s with pairing := { s.pairing with newcomer := s.pairing.newcomer.map (acceptOffer s.factoryId b) } }

/-- What the alignment reference records in the join context (R93). -/
def Newcomer.found (group : GroupCode) (nc : Newcomer) : Newcomer := { nc with target := some group, hold := 1 }

/-- The alignment reference of a newcomer: the target group code, hold count 1, JOINING (R93). -/
def State.seekFound (s : State) (group : GroupCode) : State :=
  { s with pairing := { s.pairing with newcomer := s.pairing.newcomer.map (Newcomer.found group) } }.enter .joining

/-- The credentials of an accepted offer (R96). -/
def Accepted.creds (a : Accepted) : Credentials := { group := a.group, number := a.station, wearer := a.wearer }

/-- At the end of the slot 14 of its CONFIRM the newcomer enters the group, at instant `t` (R96). -/
def State.joinDone (s : State) (a : Accepted) (t : Nat) : State :=
  (((({ s with station := { s.station with creds := a.creds } }.requestWrite a.creds t).raise .joined).enterMember).dropNewcomer)

/-! ### The host commands of pairing -/

/-- The credentials of a founded group (R77). -/
def foundedCredentials (id : FactoryId) : Credentials where
  group := if id.setWidth 24 = 0#24 then 1#24 else id.setWidth 24
  number := 1
  wearer := 0

/-- FOUND_GROUP (R77). -/
def execFoundGroup (t : Nat) (s : State) : Host.Outcome State Fault Refusal :=
  s.hostCommand fun s =>
    if s.station.state ≠ .idle then s.refuse .wrongState
    else if s.store.waiting.isSome then s.refuse .storeBusy
    else
      ((((s.atInstant t).requestWrite (foundedCredentials s.factoryId) (max s.now t)).enterListen
        (foundedCredentials s.factoryId)).ok)

/-- A join context as JOIN_GROUP creates it (R92). -/
def Newcomer.fresh (kind : JoinKind) : Newcomer :=
  { kind := kind, target := none, seek := 0, attempts := 0, hold := 0, order := .none, accepted := none }

/-- JOIN_GROUP(kind) at instant `t` (R92). -/
def execJoinGroup (kind : Byte) (s : State) (t : Nat := 0) : Host.Outcome State Fault Refusal :=
  s.hostCommand fun s =>
    if s.station.state ≠ .idle then s.refuse .wrongState
    else
      match joinKindOf kind with
      | none => s.refuse .badArgument
      | some k =>
        if s.store.waiting.isSome then s.refuse .storeBusy
        else
          ({ s.atInstant t with
              peers := []
              station := { s.station with creds := Credentials.zero }
              pairing := { s.pairing with newcomer := some (Newcomer.fresh k) } }.enter .seeking).ok

/-- An ACTIVE peer entry has its pairing-open flag set (R80). -/
def pairingHeard (ps : List Peer) : Bool := ps.any fun p => p.state == .active && p.pairingOpen

/-- The window opens (R80). -/
def State.openWindow (s : State) (kind : JoinKind) : State :=
  { s with pairing :=
      { s.pairing with
          window := { s.pairing.window with state := .opened, kind := some kind, remaining := 3000 }
          offer := none
          lapse := none } }

/-- OPEN_PAIRING(kind) (R80). -/
def execOpenPairing (kind : Byte) (s : State) : Host.Outcome State Fault Refusal :=
  s.hostCommand fun s =>
    if s.station.state ≠ .member then s.refuse .wrongState
    else
      match joinKindOf kind with
      | none => s.refuse .badArgument
      | some k =>
        if s.windowOpen then s.refuse .wrongState
        else if pairingHeard s.peers then s.refuse .pairingBusy
        else (s.openWindow k).ok

/-- CLOSE_PAIRING (R81). -/
def execClosePairing (s : State) : Host.Outcome State Fault Refusal :=
  s.hostCommand fun s => if s.windowOpen then (s.closeWindow .closed).ok else s.refuse .wrongState

end Sys2Proof.Machine
end

