-- ==== Sys2Proof/Machine/Sending.lean ====
section
/-! DEFINITION. Sending: the heard map (R6), the burst headers (R5), the transmit order and SLOT_START (R10, R11). -/

namespace Sys2Proof.Machine

/-! ### Headers (R5, R6) -/

/-- The heard-map report of a slot-view entry (Table 1-4). -/
def Entry.report (own : StationNo) : Entry → StationNo
  | .empty => 0
  | .unknown => 0
  | .own n => n
  | .mine => own
  | .corrupt => 31
  | .foreign => 31
  | .stray => 31

/-- The heard map a member sends (R6). -/
def State.heardMap (s : State) : List StationNo := s.views.v1.map (Entry.report s.station.creds.number)

/-- A burst of a member: VOICE, FAREND, LEAVE or OFFER (Table 1-3). -/
def State.memberBurst (s : State) (kind : BurstKind) (k : SlotIx) (body : Body) (hush : Bool) : Burst where
  group := s.station.creds.group
  kind := kind
  sender := s.station.creds.number
  wearer := s.station.creds.wearer
  slot := k
  lineMute := s.mute.debounced
  hush := hush
  pairingOpen := s.windowOpen
  bearer := s.bearer.state != .none
  age := if s.bearer.state = .none then 0#8 else BitVec.ofNat 8 s.bearer.age
  heardMap := s.heardMap
  body := body

/-- A burst of a newcomer: JOIN or CONFIRM (Table 1-3). -/
def newcomerBurst (kind : BurstKind) (group : GroupCode) (body : Body) : Burst where
  group := group
  kind := kind
  sender := 0
  wearer := 0
  slot := 14
  lineMute := false
  hush := false
  pairingOpen := false
  bearer := false
  age := 0#8
  heardMap := List.replicate 16 0
  body := body

/-! ### The transmit order (R10, Table 1-6) -/

/-- VOICE with the voice payload, or a hush when it is absent. -/
def State.voiceBurst (s : State) (k : SlotIx) : Burst :=
  match s.chan.voicePayload with
  | .frame p => s.memberBurst .voice k (.frame p) false
  | .hush => s.memberBurst .voice k .absent true
  | .none => s.memberBurst .voice k .absent true

/-- FAREND with the far-end payload, or a hush when it is absent. -/
def State.farBurst (s : State) (k : SlotIx) : Burst :=
  match s.chan.farPayload with
  | some p => s.memberBurst .farend k (.frame p) false
  | none => s.memberBurst .farend k .absent true

/-- A claim holds the slot in RELEASING and its LEAVE is due: a cycle end has passed since its entry (R72, R73). -/
def Claim.leaves (c : Claim) (k : SlotIx) : Bool := c.state == .releasing && c.slot == some k && decide (1 ≤ c.cycles)

/-- A claim holds the slot in TENTATIVE or CONFIRMED. -/
def Claim.sendsIn (c : Claim) (k : SlotIx) : Bool := c.sending && c.slot == some k

/-- The order in a voice slot. -/
def State.voiceSlotOrder (s : State) (k : SlotIx) : Option Burst :=
  if s.voice.sendsIn k then some (s.voiceBurst k)
  else if s.farEnd.sendsIn k then some (s.farBurst k)
  else if s.voice.leaves k || s.farEnd.leaves k then some (s.memberBurst .leave k .absent false)
  else none

/-- The order in slot 14 (R94, R96). -/
def State.joinSlotOrder (s : State) : Option Burst :=
  match s.pairing.newcomer with
  | none => none
  | some nc =>
    match nc.order, nc.accepted with
    | .none, _ => none
    | .join, _ => some (newcomerBurst .join 0#24 (.join s.factoryId nc.kind))
    | .confirm, some a => some (newcomerBurst .confirm a.group (.confirm s.factoryId a.offerer a.station))
    | .confirm, none => none

/-- The order in slot 15 (R87). -/
def State.offerSlotOrder (s : State) : Option Burst :=
  match s.pairing.offer with
  | none => none
  | some o =>
    if !o.sent && decide (o.cycleSent = s.timer.counter) then
      some (s.memberBurst .offer 15 (.offer o.target o.station o.wearer) false)
    else none

/-- The transmit order of a slot. -/
def State.transmitOrder (s : State) (k : SlotIx) : Option Burst :=
  if k.val ≤ 13 then s.voiceSlotOrder k else if k.val = 14 then s.joinSlotOrder else s.offerSlotOrder

/-! ### SLOT_START -/

/-- A JOIN sent counts as an attempt (R94). -/
def Newcomer.sentJoin (nc : Newcomer) : Newcomer := { nc with attempts := nc.attempts + 1 }

/-- An offer sent (R87). -/
def Offer.markSent (o : Offer) : Offer := { o with sent := true }

/-- What the pairing controller records of a burst sent (R87, R94). -/
def Pairing.afterSending (p : Pairing) (kind : BurstKind) : Pairing :=
  match kind with
  | .join => { p with newcomer := p.newcomer.map Newcomer.sentJoin }
  | .offer => { p with offer := p.offer.map Offer.markSent }
  | .voice => p
  | .farend => p
  | .leave => p
  | .confirm => p

/-- The start of slot `k` at instant `t`, with nothing sent. -/
def State.openSlot (s : State) (t : Nat) : State :=
  { s.atInstant t with chan := { s.chan with inSlot := true, sentInSlot := false } }

/-- A burst is sent from instant `t` on (R4, R11). -/
def State.sendBurst (s : State) (t : Nat) (b : Burst) : State :=
  { s with
      chan := { s.chan with sent := some { start := t, finish := t + airTime b, burst := b }, sentInSlot := true }
      pairing := s.pairing.afterSending b.kind }

/-- The work of a slot start (R10). -/
def State.startSlot (s : State) (c : Cycle) (k : SlotIx) : State :=
  let t := (c.slotStart k.val).toNat
  match s.transmitOrder k with
  | none => s.openSlot t
  | some b => (s.openSlot t).sendBurst t b

/-- A slot start is due: the timer runs, no slot is in progress, and one is still to come in this cycle. -/
def State.slotStartDue (s : State) : Bool := s.running && !s.chan.inSlot && decide (s.chan.nextSlot < 16)

/-- SLOT_START (R10). -/
def execSlotStart (s : State) : Host.Outcome State Fault Refusal :=
  match s.timer.cycle with
  | none => .next s
  | some c => s.whenever s.slotStartDue (s.startSlot c (Fin.ofNat 16 s.chan.nextSlot))

end Sys2Proof.Machine
end

