-- ==== Sys2Proof/Machine/Reception.lean ====
section
/-! DEFINITION. Reception: which slot a burst falls in (R13), the step test (R14), classification (R15), the hand-off
(R16), the number clash (R54 to R58), the ends of LEAVE and CONFIRM slots, and SLOT_END. -/

namespace Sys2Proof.Machine

/-! ### Where an item falls (R11, R13) -/

/-- The instant by which an item without a near slot start is placed: a burst's end, the energy's instant. -/
def AirItem.placing : AirItem → Nat
  | .burst _ f _ => f
  | .energy i => i

/-- Two instants lie within 24 ticks of each other. -/
def near (x y : Int) : Bool := decide (x - y ≤ 24) && decide (y - x ≤ 24)

/-- The start of the first slot that occurs in the following cycle, as far as the cycle in progress knows it. -/
def Cycle.nextStart (c : Cycle) : Int :=
  match c.nextPhase with
  | none => c.planned
  | some p =>
    let d := jumpCycle .aligned c.planned (placeEnd p c.planned).toNat
    d.slotStart d.firstSlot

/-- The slot that occurs and whose start lies within 24 ticks of an arrival; 16 is the first slot of the next cycle. -/
def nearSlot (c : Cycle) (arrival : Nat) : Option Nat :=
  match (List.range 16).find? fun k => c.occurs k && near arrival (c.slotStart k) with
  | some k => some k
  | none => if near arrival c.nextStart then some 16 else none

/-- The slot that occurs during which an instant lies; an instant from the planned end on lies in the next cycle. A slot
is taken with its end, since a burst that ends with its slot ends in it. -/
def slotDuring (c : Cycle) (t : Nat) : Option Nat :=
  (List.range 16).find? fun k => c.occurs k && decide (c.slotStart k < t) && decide ((t : Int) ≤ c.slotEnd k)

/-- The slot an item falls in (R13), if any (R3: a lead-in and slots that do not occur hold nothing). -/
def fallsIn (c : Cycle) : AirItem → Option Nat
  | .burst a f _ =>
    match nearSlot c a with
    | some k => some k
    | none => slotDuring c f
  | .energy i => slotDuring c (i + 1)

/-- The item overlaps the station's own transmission, during which the receiver is off (R11). -/
def overlapsSent (s : Option Sent) (x : AirItem) : Bool :=
  match s with
  | none => false
  | some b => decide (x.span.1 < b.finish) && decide (b.start < x.span.2)

/-- In a step-jump cycle, a reception whose arrival lies before the jump is discarded (R24). -/
def beforeJump (c : Cycle) (x : AirItem) : Bool := c.kind == .stepJump && decide (x.span.1 < c.gridInstant)

/-- The items of the air, those held and those new, that no transmission of the station's own and no step jump shuts
out. -/
def State.airItems (s : State) (c : Cycle) (air : List AirItem) : List AirItem :=
  (s.chan.held ++ air).filter fun x => !overlapsSent s.chan.sent x && !beforeJump c x

/-- The items that fall in slot `k`. -/
def itemsIn (c : Cycle) (k : Nat) (xs : List AirItem) : List AirItem :=
  xs.filter fun x => fallsIn c x == some k

/-- The items that fall in a slot still to end. -/
def itemsAfter (c : Cycle) (k : Nat) (xs : List AirItem) : List AirItem :=
  xs.filter fun x =>
    match fallsIn c x with
    | none => false
    | some j => decide (k < j)

/-! ### Classification (R14, R15, Table 1-8) -/

/-- A reception: the burst, its arrival, its arrival offset. -/
structure Heard where
  burst : Burst
  arrival : Nat
  offset : Int
deriving DecidableEq, Repr

/-- What a slot held; `lost`: a reception that leaves the slot's entry UNKNOWN. -/
inductive Held where
  | quiet
  | lost
  | broken
  | clean (h : Heard)
deriving DecidableEq, Repr

/-- One item of slot `k` alone. -/
def heldOne (c : Cycle) (k : Nat) : AirItem → Held
  | .energy _ => .broken
  | .burst a _ bytes =>
    match parseBurst bytes with
    | none => .broken
    | some b => .clean { burst := b, arrival := a, offset := (a : Int) - c.slotStart k }

/-- What slot `k` held: two or more items are as a CRC failure. -/
def heldBy (c : Cycle) (k : Nat) (xs : List AirItem) : Held :=
  match xs with
  | [] => .quiet
  | [x] => heldOne c k x
  | _ :: _ :: _ => .broken

/-- The receiver has been on since the item's arrival, so the item is received (R9, R12). -/
def Channel.hears (ch : Channel) (x : AirItem) : Bool := decide (ch.onSince ≤ x.span.1)

/-- The receiver was on at the item's arrival and a transition has turned it off since: the reception is abandoned (R9). -/
def Channel.abandons (ch : Channel) (x : AirItem) : Bool :=
  ch.cutSpans.any fun p => decide (p.1 ≤ x.span.1) && decide (x.span.1 < p.2)

/-- The item arrived inside the lead-in of a jump cycle (R3). -/
def inLeadIn (c : Cycle) (x : AirItem) : Bool :=
  c.kind != .ordinary && decide (c.gridInstant ≤ x.span.1) && decide ((x.span.1 : Int) < c.slotStart c.firstSlot)

/-- The item leaves its slot's entry UNKNOWN: a reception abandoned (R9), or a burst received that arrived inside a
lead-in (R15). -/
def Channel.masks (ch : Channel) (c : Cycle) (x : AirItem) : Bool := ch.abandons x || (ch.hears x && inLeadIn c x)

/-- What slot `k` held, of the items that fall in it. -/
def State.slotHeld (s : State) (c : Cycle) (k : Nat) (xs : List AirItem) : Held :=
  if xs.any (s.chan.masks c) then .lost else heldBy c k (xs.filter s.chan.hears)

/-- The clean burst lies in the step window (R14). -/
def Heard.inWindow (h : Heard) (k : SlotIx) : Bool := near h.offset 0 && h.burst.slot == k

/-- The clean burst is in step by the station's window (R14). -/
def State.inStep (s : State) (h : Heard) (k : SlotIx) : Bool := s.station.state.wide || h.inWindow k

/-- The entry of a slot that held no transmission of its own (Table 1-8). -/
def State.classify (s : State) (k : SlotIx) : Held → Entry
  | .quiet => .empty
  | .lost => .unknown
  | .broken => .corrupt
  | .clean h =>
    if h.burst.group ≠ s.ownGroup ∨ h.burst.sender = 0 then .foreign
    else if s.inStep h k then .own h.burst.sender
    else .stray

/-- The entry of slot `k` (R9, R11, R15). -/
def State.entryOf (s : State) (k : SlotIx) (held : Held) : Entry :=
  if !s.station.state.receiverOn then .unknown
  else if s.chan.sentInSlot then .mine
  else s.classify k held

/-! ### The hand-off of an OWN reception (R16) -/

/-- The order in which slot 15's reception and the cycle end fall matters here: the effect comes after the cycle end
(assumption log 7). -/
def isLate (k : SlotIx) (order : ReceptionOrder) : Bool := k == 15 && order == .cycleEndFirst

/-- An effect made now, or after the cycle end. -/
def State.nowOrLate (s : State) (late : Bool) (e : LateEffect) (t : State) : State :=
  if late then { s with chan := { s.chan with late := s.chan.late ++ [e] } } else t

/-- The station yields at a number clash (R55). -/
def State.yieldsClash (s : State) (slot : SlotIx) : Bool :=
  match s.voice.state, s.voice.slot with
  | .confirmed, some own => decide (slot < own)
  | _, _ => true

/-- The window yields to a peer's (R83). -/
def State.yieldsWindow (s : State) (b : Burst) : Bool :=
  s.windowOpen && b.pairingOpen && decide (b.sender < s.station.creds.number)

/-- The bearer unit at a reception (R144). -/
def State.election (s : State) (late : Bool) (b : Burst) : State :=
  if s.losesElection b then s.nowOrLate late .electionYield s.electionYield else s

/-- The pairing controller at a reception (R83). -/
def State.windowYield (s : State) (late : Bool) (b : Burst) : State :=
  if s.yieldsWindow b then s.nowOrLate late .windowYield (s.closeWindow .yielded) else s

/-- A number clash (R54, R55). -/
def State.clash (s : State) (late : Bool) (b : Burst) : State :=
  if s.yieldsClash b.slot then s.nowOrLate late .clashYield s.clashYield else s

/-- A reception of another station as LISTEN, MEMBER and LEAVING hand it on: peer view, bearer unit, pairing controller,
stream unit (assumption log 12). -/
def State.heardPeer (s : State) (late : Bool) (b : Burst) (d : Int) : State :=
  (((s.peerView b d).election late b).windowYield late b).storeReception b

/-- A reception classified OWN as a station in the group takes it. -/
def State.heardAsMember (s : State) (late : Bool) (b : Burst) (d : Int) : State :=
  let t := s.readMap b.heardMap
  if b.sender = s.station.creds.number then t.clash late b else t.heardPeer late b d

/-- The cycle timer keeps a reception of a member (R21 to R23). -/
def State.logRx (s : State) (own : Bool) (h : Heard) : State :=
  if s.station.state = .member then
    { s with timer := { s.timer with log := s.timer.log ++
        [{ inStep := own, sender := h.burst.sender, offset := h.offset, arrival := h.arrival, slot := h.burst.slot }] } }
  else s

/-- The sender has been received OWN in this cycle (R49). -/
def State.markHeard (s : State) (n : StationNo) : State := { s with chan := { s.chan with heard := s.chan.heard ++ [n] } }

/-- A VOICE or FAREND gives an alignment in LISTEN (R25). -/
def BurstKind.aligns : BurstKind → Bool
  | .voice => true
  | .farend => true
  | .leave => false
  | .join => false
  | .offer => false
  | .confirm => false

/-- An OWN reception in LISTEN at instant `tr` (R25, R39, R58): the reference's offset on the new grid is 0. -/
def State.heardInListen (s : State) (c : Cycle) (tr : Nat) (late : Bool) (h : Heard) : State :=
  if h.burst.kind.aligns then
    (((s.align c (phaseOf h.arrival h.burst.slot) tr).enterMember).heardAsMember late h.burst 0)
  else s

/-- An OWN reception. -/
def State.heardOwn (s : State) (c : Cycle) (tr : Nat) (late : Bool) (h : Heard) : State :=
  let t := s.markHeard h.burst.sender
  match s.station.state with
  | .listen => t.heardInListen c tr late h
  | .member => (t.logRx true h).heardAsMember late h.burst h.offset
  | .leaving => t.heardAsMember late h.burst h.offset
  | .unconfigured => t
  | .idle => t
  | .seeking => t
  | .joining => t

/-! ### The hand-off of a FOREIGN reception (R16) -/

/-- A FOREIGN JOIN in step at a member (R84). -/
def State.foreignAtMember (s : State) (b : Burst) : State :=
  match b.body with
  | .join id kind => s.joinHeard id kind
  | .absent => s
  | .frame _ => s
  | .offer _ _ _ => s
  | .confirm _ _ _ => s

/-- A FOREIGN reception in slot `k`, at instant `tr`. -/
def State.heardForeign (s : State) (c : Cycle) (k : SlotIx) (tr : Nat) (h : Heard) : State :=
  match s.station.state with
  | .member => if h.inWindow k then s.foreignAtMember h.burst else s
  | .joining => if h.inWindow k then s.offerHeard h.burst else s
  | .seeking =>
    if h.burst.pairingOpen then (s.align c (phaseOf h.arrival h.burst.slot) tr).seekFound h.burst.group else s
  | .unconfigured => s
  | .idle => s
  | .listen => s
  | .leaving => s

/-- The hand-off of a slot by its entry (Table 1-9). -/
def State.handOff (s : State) (c : Cycle) (k : SlotIx) (tr : Nat) (late : Bool) (e : Entry) (held : Held) : State :=
  match held with
  | .quiet => s
  | .lost => s
  | .broken => s
  | .clean h =>
    match e with
    | .own _ => s.heardOwn c tr late h
    | .stray => s.logRx false h
    | .foreign => s.heardForeign c k tr h
    | .empty => s
    | .corrupt => s
    | .mine => s
    | .unknown => s

/-! ### What the end of a slot of the station's own makes (R73, R96, R146) -/

/-- The LEAVE of a claim has gone out in slot `k`: the claim goes to NONE (R73). -/
def Claim.left (c : Claim) (k : SlotIx) : Claim := if c.leaves k then Claim.inState .none else c

/-- ENDING lasts until the far-end claim reaches NONE (R146). -/
def State.settleRole (s : State) : State :=
  if s.bearer.state = .ending ∧ s.farEnd.state = .none then s.bearerToNone else s

/-- The end of a slot in which the station sent: LEAVE (R73) or CONFIRM (R96). -/
def State.ownSlotEnd (s : State) (k : SlotIx) (tr : Nat) : State :=
  let t := ({ s with voice := s.voice.left k, farEnd := s.farEnd.left k } : State).settleRole
  match t.pairing.newcomer with
  | none => t
  | some nc =>
    match nc.order, nc.accepted with
    | .confirm, some a => if k = 14 ∧ t.station.state = .joining then t.joinDone a tr else t
    | .confirm, none => t
    | .none, _ => t
    | .join, _ => t

/-- The CONFIRM that slot 14 held completes an offer (R88): handed on at a member, FOREIGN and in step. -/
def State.confirms (s : State) (k : SlotIx) (e : Entry) (held : Held) (o : Offer) : Bool :=
  match held, e with
  | .clean h, .foreign =>
    match h.burst.body with
    | .confirm id offerer station =>
      s.station.state == .member && h.inWindow k &&
        confirmMatches s.station.creds o h.burst.group id offerer station
    | _ => false
  | _, _ => false

/-! ### SLOT_END -/

/-- A burst that is still to be classified at `tr` arrived less than 400 ticks before it (R4, R13). -/
def Channel.recentCuts (ch : Channel) (tr : Nat) : List (Nat × Nat) := ch.cutSpans.filter fun p => decide (tr < p.2 + 400)

/-- The end of slot `k` at instant `tr`: its entry is written, the receptions of the slot in progress are emptied. -/
def State.closeSlot (s : State) (k : SlotIx) (tr : Nat) (e : Entry) (later : List AirItem) : State :=
  { s.atInstant tr with
      chan := { s.chan with
        inSlot := false, sentInSlot := false, nextSlot := k.val + 1, held := later, cutSpans := s.chan.recentCuts tr }
      views := { s.views with filling := s.views.filling.set k.val e } }

/-- The outstanding offer at the reception of slot 14 (R89). -/
def State.settleAt14 (s : State) (k : SlotIx) (confirmed : Offer → Bool) : State :=
  if k = 14 then s.settleOffer confirmed else s

/-- The work of a slot end (R15, R16). -/
def State.endSlot (s : State) (c : Cycle) (k : SlotIx) (order : ReceptionOrder) (air : List AirItem) : State :=
  let tr := (c.slotEnd k.val).toNat
  let xs := s.airItems c air
  let held := s.slotHeld c k.val (itemsIn c k.val xs)
  let e := s.entryOf k held
  let t := s.closeSlot k tr e (itemsAfter c k.val xs)
  if s.chan.sentInSlot then (t.ownSlotEnd k tr).settleAt14 k fun _ => false
  else (t.handOff c k tr (isLate k order) e held).settleAt14 k (s.confirms k e held)

/-- SLOT_END (R15). -/
def execSlotEnd (order : ReceptionOrder) (air : List AirItem) (s : State) : Host.Outcome State Fault Refusal :=
  match s.timer.cycle with
  | none => .next s
  | some c => s.whenever (s.running && s.chan.inSlot) (s.endSlot c (Fin.ofNat 16 s.chan.nextSlot) order air)

end Sys2Proof.Machine
end

