-- ==== Sys2Proof/Machine/CycleEnd.lean ====
section
/-! DEFINITION. The cycle end, which is the frame deadline: the step jump, the correction, the claim decisions, the
ageings, the transitions that fall there, the audio work, the rotation of the views and the cycle that begins; and the
rows that take one piece of it early (assumption log 6). -/

namespace Sys2Proof.Machine

/-! ### The step jump (R22 to R24, R91, R146) -/

/-- The receptions that count at this cycle end. -/
def State.countedRx (s : State) (c : Cycle) : List TimerRx := c.counted s.timer.log

/-- The cycle just ended was outnumbered, in MEMBER (R22). -/
def State.outnumberedNow (s : State) (c : Cycle) : Bool :=
  s.station.state == .member && outnumbered s.station.creds.number (s.countedRx c)

/-- A step jump is to be made at this cycle end: the counter reaches 3 (R22). -/
def State.jumpDue (s : State) (c : Cycle) : Bool :=
  s.early.jump.isNone && s.outnumberedNow c && decide (2 ≤ s.timer.stepLoss)

/-- The end E of the jump cycle from the reference (R23). -/
def State.jumpEnd (s : State) (c : Cycle) : Nat :=
  match jumpReference (s.countedRx c) with
  | none => c.planned + 10000
  | some r => (placeEnd (phaseOf r.arrival r.slot) c.planned).toNat

/-- The step jump's effect on the other blocks (R24, R76, R91). -/
def State.makeJump (s : State) : State :=
  ({ s.jumpClaims.forgetViews.jumpLapse with
      timer := { s.timer with stepLoss := 0, lastCorrection := 0 } } : State).raise .stepJump

/-- The jump, recorded as made with its end E. -/
def State.stepJump (s : State) (c : Cycle) : State :=
  let t := s.makeJump
  { t with early := { t.early with jump := some (s.jumpEnd c), viewsSet := true } }

/-- The step jump, when it is due and no row of its own has made it. -/
def State.jumpIfDue (s : State) (c : Cycle) : State := if s.jumpDue c then s.stepJump c else s

/-! ### Correction and step-loss counter (R21, R22) -/

/-- The correction for the next cycle: none at a step jump, at a cycle end that is followed by a placed cycle, or
outside MEMBER (R20, R21, R23, R27). -/
def State.correctionNow (s : State) (c : Cycle) : Int :=
  if s.station.state = .member ∧ s.early.jump.isNone ∧ c.nextPhase.isNone then correctionOf (s.countedRx c) else 0

/-- The step-loss counter after a cycle end without a jump (R22). -/
def State.stepLossNow (s : State) (c : Cycle) : Nat :=
  if s.early.jump.isSome then 0 else if s.outnumberedNow c then s.timer.stepLoss + 1 else 0

/-- The cycle timer's own work at a cycle end (R21, R22, R29). -/
def State.timerWork (s : State) (c : Cycle) : State :=
  { s with timer := { s.timer with
      lastCorrection := s.correctionNow c
      stepLoss := s.stepLossNow c
      counter := s.timer.counter + 1 } }

/-! ### The work of the other blocks before the transitions -/

/-- The claim decisions, except at a step jump and outside MEMBER and LEAVING (R64). -/
def State.claimWork (s : State) : State :=
  if s.station.state.inGroup && s.early.jump.isNone then s.decideClaims (s.claimFacts s.countedPeers) else s

/-- The peer view's ageing, in LISTEN, MEMBER and LEAVING (R49). -/
def State.peerWork (s : State) : State := if s.station.state.listening then s.agePeers else s

/-- The surplus episode, in MEMBER and LEAVING, from the aged table (R53). -/
def State.surplusWork (s : State) : State := if s.station.state.inGroup then s.deriveSurplus s.peers else s

/-- The countdowns of the pairing controller in MEMBER (R82, R90). -/
def State.pairingWork (s : State) : State :=
  if s.station.state = .member then
    let t := if s.early.windowCounted then s else s.countWindow
    if s.early.lapseAged then t else t.ageLapse
  else s

/-! ### The transitions at a cycle end -/

/-- The entry to MEMBER alone (R39, R60). -/
def State.enterAlone (s : State) : State := { s.enterMember with early := { s.early with viewsSet := true } }

/-- The listen count (R39). -/
def State.countListen (s : State) : State :=
  let t : State := { s with station := { s.station with listenCount := min (s.station.listenCount + 1) 4 } }
  if 4 ≤ s.station.listenCount + 1 then t.enterAlone else t

/-- The cycle ends of LEAVING (R42). -/
def State.countLeaving (s : State) : State :=
  if 2 ≤ s.station.leavingEnds + 1 then s.enter .idle
  else { s with station := { s.station with leavingEnds := s.station.leavingEnds + 1 } }

/-- The changes of station state and the end of an ENDING role that fall at a cycle end. -/
def State.transitions (s : State) : State :=
  match s.station.state with
  | .listen => s.countListen
  | .seeking => s.countSeek
  | .joining => if s.early.joinDecided then s else s.decideNewcomer
  | .member => s.settleRole
  | .leaving => s.countLeaving
  | .unconfigured => s
  | .idle => s

/-! ### The frame deadline (R97, R98, R115, R133, R136, R150, R153) -/

/-- The voice payload prepared at a frame deadline (Table 6-2). -/
def State.voicePayloadNow (s : State) : VoicePayload :=
  if s.station.state = .member then
    if s.effectiveMute s.peers then .hush else .frame (encodeFrame s.codec.capture)
  else .none

/-- The voice payload is replaced (R98). -/
def State.prepareVoice (s : State) : State := { s with chan := { s.chan with voicePayload := s.voicePayloadNow } }

/-- The speaker frame becomes the playout frame and a fresh capture begins (R34, R97, R138). -/
def State.handFrames (s : State) : State :=
  { s with codec := { s.codec with playout := s.speakerFrame, capture := silence, frameIx := 0 } }

/-- The audio work of a frame deadline, on the aged table: the records from the payloads that served the cycle just
ended, then the new payloads, then the mix. -/
def State.deadline (s : State) : State :=
  ((((s.updateStreams s.peers).prepareVoice).takeDownlink).uplinkWork).handFrames

/-- The transitions and the frame-deadline work in the order the world chooses (assumption log 7). -/
def State.deadlineWork (s : State) (order : DeadlineOrder) : State :=
  match order with
  | .stateFirst => s.transitions.deadline
  | .deadlineFirst => s.deadline.transitions

/-! ### The cycle that begins (R20, R23, R27, R59, R60) -/

/-- The rotation of the views, or UNKNOWN where this cycle end sets them so. -/
def State.rotateViews (s : State) : State :=
  if s.early.viewsSet || s.jumpNext then s.forgetViews
  else { s with views := { filling := viewOf .empty, v1 := s.views.filling, v2 := s.views.v1 } }

/-- The cycle that begins at the end of `c`. -/
def State.nextCycle (s : State) (c : Cycle) : Cycle :=
  match s.early.jump with
  | some e => jumpCycle .stepJump c.planned e
  | none =>
    match c.nextPhase with
    | some p => jumpCycle .aligned c.planned (placeEnd p c.planned).toNat
    | none => ordinaryCycle c.planned s.timer.lastCorrection

/-- The next cycle starts: its grid, the codec format (R33), no sample frame begun (R31), and nothing received yet. -/
def State.beginCycle (s : State) (c : Cycle) : State :=
  { s with
      timer := { s.timer with cycle := some (s.nextCycle c), log := [] }
      chan := { s.chan with
        nextSlot := (s.nextCycle c).firstSlot, inSlot := false, sentInSlot := false, heard := [], late := [] }
      codec := { s.codec with syncLow := s.config.syncLow, edgeReversed := s.config.edgeReversed, shifting := none }
      early := Early.clear }

/-! ### Effects of slot 15 that come after the cycle end (assumption log 7) -/

/-- One such effect. -/
def State.lateEffect (s : State) (e : LateEffect) : State :=
  match e with
  | .clashYield => if s.station.state.inGroup then s.clashYield else s
  | .electionYield => if s.bearer.state.claims then s.electionYield else s
  | .windowYield => s.closeWindow .yielded

/-- All of them in the order received. -/
def State.lateEffects (s : State) (es : List LateEffect) : State := es.foldl State.lateEffect s

/-! ### CYCLE_END -/

/-- The cycle end stands: the cycle's slots and its sample frames are over. -/
def State.atCycleEnd (s : State) : Bool := s.running && decide (s.chan.nextSlot = 16) && !s.chan.inSlot

/-- The work before the transitions and the audio work. -/
def State.cycleWork (s : State) (c : Cycle) : State :=
  ((((((s.jumpIfDue c).timerWork c).claimWork).ageBearer).peerWork).surplusWork).pairingWork

/-- The whole cycle end. -/
def State.endCycle (s : State) (c : Cycle) (order : DeadlineOrder) : State :=
  (((((s.atInstant c.planned).cycleWork c).deadlineWork order).rotateViews).beginCycle c).lateEffects s.chan.late

/-- CYCLE_END (R20). -/
def execCycleEnd (order : DeadlineOrder) (s : State) : Host.Outcome State Fault Refusal :=
  match s.timer.cycle with
  | none => .next s
  | some c => s.whenever (s.atCycleEnd && decide (s.codec.frameIx = 160)) (s.endCycle c order)

/-! ### Rows that take one piece of the cycle end early (assumption log 6) -/

/-- A row of the present cycle end: `f` is taken at the planned end of the cycle in progress when `due` holds there. -/
def State.earlyRow (s : State) (due : State → Cycle → Bool) (f : State → Cycle → State) :
    Host.Outcome State Fault Refusal :=
  match s.timer.cycle with
  | none => .next s
  | some c => s.whenever (s.atCycleEnd && due s c) (f (s.atInstant c.planned) c)

/-- STEP_JUMP (R23, R24); an ENDING role ends at once (R146). -/
def execStepJump (s : State) : Host.Outcome State Fault Refusal :=
  s.earlyRow State.jumpDue fun s c => (s.stepJump c).settleRole

/-- The entry of `n` is to be aged at this cycle end, and its missed count reaches `m`. -/
def State.peerReaches (s : State) (n : StationNo) (m : Nat) : Bool :=
  s.station.state.listening && !s.ageSkip.contains n &&
    match findPeer n s.peers with
    | none => false
    | some p => decide (p.missed + 1 = m)

/-- The entry of `n` is aged ahead of the others (R49). -/
def State.agePeerEarly (s : State) (n : StationNo) : State :=
  { s with
      peers := s.peers.filterMap fun p => if p.number = n then agePeer s.ageSkip p else some p
      early := { s.early with aged := s.early.aged ++ [n] } }

/-- PEER_SILENT: the missed count reaches 5 (R49). -/
def execPeerSilent (n : StationNo) (s : State) : Host.Outcome State Fault Refusal :=
  s.earlyRow (fun s _ => s.peerReaches n 5) fun s _ => s.agePeerEarly n

/-- PEER_LOST: the missed count reaches 100 (R49). -/
def execPeerLost (n : StationNo) (s : State) : Host.Outcome State Fault Refusal :=
  s.earlyRow (fun s _ => s.peerReaches n 100) fun s _ => (s.agePeerEarly n).raise .peerLost

/-- PEER_REMOVED: the missed count reaches 3000 (R49). -/
def execPeerRemoved (n : StationNo) (s : State) : Host.Outcome State Fault Refusal :=
  s.earlyRow (fun s _ => s.peerReaches n 3000) fun s _ => s.agePeerEarly n

/-- LISTEN_TIMEOUT: the listen count reaches 4 (R39). -/
def execListenTimeout (s : State) : Host.Outcome State Fault Refusal :=
  s.earlyRow (fun s _ => s.station.state == .listen && decide (4 ≤ s.station.listenCount + 1)) fun s _ => s.countListen

/-- The claim of a row. -/
def State.claim (s : State) : ClaimId → Claim
  | .voice => s.voice
  | .farEnd => s.farEnd

/-- The claim is still to be decided at this cycle end (R64). -/
def State.claimOpen (s : State) (c : Cycle) (id : ClaimId) : Bool :=
  s.station.state.inGroup && s.early.jump.isNone && !s.jumpDue c &&
    match id with
    | .voice => !s.early.voiceDecided
    | .farEnd => !s.early.farDecided

/-- The decision of one claim ahead of the rest of the cycle end. -/
def State.decideEarly (s : State) (id : ClaimId) : State :=
  match id with
  | .voice => s.decideVoice (s.claimFacts s.countedPeers)
  | .farEnd => s.decideFar (s.claimFacts s.countedPeers)

/-- The decision takes the claim from one state to another. -/
def State.claimGoes (s : State) (id : ClaimId) (old new : ClaimState) : Bool :=
  (s.claim id).state == old && ((s.decideEarly id).claim id).state == new

/-- TENTATIVE_EXPIRY: the cycles in state of a TENTATIVE claim reach 8 (R68). -/
def execTentativeExpiry (id : ClaimId) (s : State) : Host.Outcome State Fault Refusal :=
  s.earlyRow
    (fun s c => s.claimOpen c id && s.claimGoes id .tentative .holdoff && !(s.claim id).conflict)
    fun s _ => s.decideEarly id

/-- CLAIM_LOST: the conflict run of a CONFIRMED claim reaches 2 (R69). -/
def execClaimLost (id : ClaimId) (s : State) : Host.Outcome State Fault Refusal :=
  s.earlyRow (fun s c => s.claimOpen c id && s.claimGoes id .confirmed .holdoff) fun s _ => s.decideEarly id

/-- HOLDOFF_EXPIRY: a HOLDOFF claim reaches its hold length (R70). -/
def execHoldoffExpiry (id : ClaimId) (s : State) : Host.Outcome State Fault Refusal :=
  s.earlyRow (fun s c => s.claimOpen c id && s.claimGoes id .holdoff .waiting) fun s _ => s.decideEarly id

/-- JOIN_HOLD_EXPIRY: the hold count reaches 0, and a JOIN is ordered in the cycle that begins (R94). -/
def execJoinHoldExpiry (s : State) : Host.Outcome State Fault Refusal :=
  s.earlyRow
    (fun s _ =>
      s.station.state == .joining && !s.early.joinDecided &&
        match s.pairing.newcomer with
        | none => false
        | some nc =>
          match decideJoin s.factoryId s.jumpNext nc with
          | .goOn nc' => nc'.order == .join
          | .timeout => false)
    fun s _ => { s.decideNewcomer with early := { s.early with joinDecided := true } }

/-- JOIN_ATTEMPTS_EXHAUSTED: the 64th JOIN attempt ends without an offer (R94). -/
def execJoinAttemptsExhausted (s : State) : Host.Outcome State Fault Refusal :=
  s.earlyRow
    (fun s _ =>
      s.station.state == .joining && !s.early.joinDecided &&
        match s.pairing.newcomer with
        | none => false
        | some nc => decideJoin s.factoryId s.jumpNext nc == .timeout)
    fun s _ => { s.decideNewcomer with early := { s.early with joinDecided := true } }

/-! ### Timeouts that may also come before the reception of slot 15 (R82, R90, R93) -/

/-- The cycle end stands, or slot 15 is in progress, its end being the same instant. -/
def State.atCycleEndOrSlot15 (s : State) : Bool :=
  s.atCycleEnd || (s.running && decide (s.chan.nextSlot = 15) && s.chan.inSlot)

/-- A row of the instant of the cycle end, before or after the reception of slot 15. -/
def State.boundaryRow (s : State) (due : State → Bool) (f : State → State) : Host.Outcome State Fault Refusal :=
  match s.timer.cycle with
  | none => .next s
  | some c => s.whenever (s.atCycleEndOrSlot15 && due s) (f (s.atInstant c.planned))

/-- PAIRING_WINDOW_TIMEOUT: the remaining cycles reach 0 (R82). -/
def execPairingWindowTimeout (s : State) : Host.Outcome State Fault Refusal :=
  s.boundaryRow
    (fun s =>
      s.station.state == .member && !s.early.windowCounted && s.windowOpen && decide (s.pairing.window.remaining ≤ 1))
    fun s => { s.countWindow with early := { s.early with windowCounted := true } }

/-- LAPSE_MEMORY_EXPIRY: the age of the lapse memory reaches 8 (R90). -/
def execLapseMemoryExpiry (s : State) : Host.Outcome State Fault Refusal :=
  s.boundaryRow
    (fun s =>
      s.station.state == .member && !s.early.lapseAged &&
        match s.pairing.lapse with
        | none => false
        | some l => decide (8 ≤ l.age + 1))
    fun s => { s.ageLapse with early := { s.early with lapseAged := true } }

/-- SEEK_TIMEOUT: the seek count reaches 3000 (R93). -/
def execSeekTimeout (s : State) : Host.Outcome State Fault Refusal :=
  s.boundaryRow
    (fun s =>
      s.station.state == .seeking &&
        match s.pairing.newcomer with
        | none => false
        | some nc => decide (3000 ≤ nc.seek + 1))
    State.countSeek

end Sys2Proof.Machine
end

