-- ==== Sys2Proof/Machine/MuteInput.lean ====
section
/-! DEFINITION. The mute input: MUTE_LINE_CHANGE and DEBOUNCE_EXPIRY (R104 to R106). -/

namespace Sys2Proof.Machine

/-- The logical level of the line under a polarity: true when asserted (R104). -/
def logicalLevel (muteLow lineHigh : Bool) : Bool := lineHigh != muteLow

/-- A change of the logical level at instant `t` (Table 6-7); `m` already has the new line level. -/
def Mute.change (m : Mute) (muteLow : Bool) (period t : Nat) : Mute :=
  match m.expiry with
  | some _ => { m with expiry := none }
  | none =>
    if period = 0 then { m with debounced := logicalLevel muteLow m.lineHigh }
    else { m with expiry := some (t + period) }

/-- The line's level toggles. -/
def Mute.toggle (m : Mute) : Mute := { m with lineHigh := !m.lineHigh }

/-- The debounce timer expires: the debounced state takes the line's level (R105). -/
def Mute.expire (m : Mute) (muteLow : Bool) : Mute :=
  { m with debounced := logicalLevel muteLow m.lineHigh, expiry := none }

/-- The timer stopped and the debounced state set to the line's logical level (R104, R106). -/
def Mute.settle (m : Mute) (muteLow : Bool) : Mute := m.expire muteLow

/-- MUTE_LINE_CHANGE at instant `t` (R105). While the device is held in reset the level alone changes (R104). -/
def execMuteLineChange (t : Nat) (s : State) : Host.Outcome State Fault Refusal :=
  if s.running then
    .next { s.atInstant t with
      mute := s.mute.toggle.change s.config.muteLow (debouncePeriod s.config.debounce) (max s.now t) }
  else .next { s.atInstant t with mute := s.mute.toggle }

/-- DEBOUNCE_EXPIRY (R105). -/
def execDebounceExpiry (s : State) : Host.Outcome State Fault Refusal :=
  match s.mute.expiry with
  | none => .next s
  | some e => s.whenever s.running { s.atInstant e with mute := s.mute.expire s.config.muteLow }

end Sys2Proof.Machine
end

