-- ==== Sys2Proof/Machine/ControlPort.lean ====
section
/-! DEFINITION. The host commands of the station and the control port's own: identity, configuration, START and STOP, the
reads, SOFT_RESET and an unknown code (R36, R37, R41, R166, R171, R173 to R181). -/

namespace Sys2Proof.Machine

/-! ### Reads -/

/-- READ_ID (R175): six bytes. -/
def execReadId (s : State) : Host.Outcome State Fault Refusal :=
  s.hostCommand fun s => s.answer .ok (bytesOfNat 6 s.factoryId.toNat)

/-- READ_STATUS (R179): one record formed at the taking. -/
def execReadStatus (s : State) : Host.Outcome State Fault Refusal :=
  s.hostCommand fun s => s.answer .ok (statusRecord s)

/-- The event word formed and its flags cleared (R177); IRQN is released until CSN rises (R178). -/
def State.takeEvents (s : State) : State :=
  { s with flags := 0#25, port := { s.port with readingEvents := true } }.answer .ok (bytesOfNat 4 s.eventWord.toNat)

/-- READ_EVENTS (R177). -/
def execReadEvents (s : State) : Host.Outcome State Fault Refusal := s.hostCommand State.takeEvents

/-- READ_PEERS (R180). -/
def execReadPeers (s : State) : Host.Outcome State Fault Refusal :=
  s.hostCommand fun s => s.answer .ok (peersRecord s.peers)

/-! ### WRITE_CONFIG (R36, R173, R174) -/

/-- WRITE_CONFIG's effect in both states: the block, and the mute input under it (R106). -/
def State.configure (s : State) (a : ConfigArgs) : State :=
  { s with config := registerConfig a, mute := s.mute.settle (registerConfig a).muteLow }

/-- The cycle timer starts at `t` (R19), already in the new format (R174). -/
def State.startTimer (s : State) (t : Nat) : State :=
  { s with
      timer := { s.timer with cycle := some (ordinaryCycle t 0), log := [] }
      chan := { s.chan with nextSlot := 0, inSlot := false, sentInSlot := false, heard := [], late := [] }
      codec := { s.codec with
        syncLow := s.config.syncLow, edgeReversed := s.config.edgeReversed, frameIx := 0, shifting := none }
      early := Early.clear }

/-- WRITE_CONFIG at instant `t`. -/
def execWriteConfig (t : Nat) (a : ConfigArgs) (s : State) : Host.Outcome State Fault Refusal :=
  s.hostCommand fun s =>
    match s.station.state with
    | .unconfigured => ((((s.atInstant t).configure a).startTimer (max s.now t)).enter .idle).ok
    | .idle => ((s.atInstant t).configure a).ok
    | .listen => s.refuse .wrongState
    | .seeking => s.refuse .wrongState
    | .joining => s.refuse .wrongState
    | .member => s.refuse .wrongState
    | .leaving => s.refuse .wrongState

/-! ### START and STOP (R37, R41, R166) -/

/-- The better of two candidates for "newest": the higher sequence number, and the earlier on equal numbers. -/
def newerPlace (p q : Place) : Place := if p.value.seq.toNat < q.value.seq.toNat then q else p

/-- The newest VALID place: the highest sequence number, then the lowest index (R166). -/
def newestPlace (ps : List Place) : Option Place :=
  match ps.filter fun p => p.state == .valid with
  | [] => none
  | p :: rest => some (rest.foldl newerPlace p)

/-- The place that START chooses, when it is VALID (R37, R166). -/
def chosenPlace (ps : List Place) : StartArg → Option Place
  | .place i => if (placeAt ps i).state = .valid then some (placeAt ps i) else none
  | .newest => newestPlace ps
  | .bad => none

/-- The credentials of a bond. -/
def Place.creds (p : Place) : Credentials := { group := p.value.group, number := p.value.station, wearer := p.value.wearer }

/-- START(place or "newest") at instant `t` (R37). -/
def execStart (place : Byte) (s : State) (t : Nat := 0) : Host.Outcome State Fault Refusal :=
  s.hostCommand fun s =>
    if s.station.state ≠ .idle then s.refuse .wrongState
    else if startArgOf place = .bad then s.refuse .badArgument
    else if s.store.state = .scanning then s.refuse .storeBusy
    else
      match chosenPlace s.store.copy (startArgOf place) with
      | none => s.refuse .noBond
      | some p => ((s.atInstant t).enterListen p.creds).ok

/-- STOP in MEMBER (R41, R72, R145). -/
def State.stopMember (s : State) : State :=
  let t := (s.closeWindow .closed).endRole
  { t with voice := t.voice.release }.enter .leaving

/-- STOP at instant `t` (Table 3-3). -/
def execStop (s : State) (t : Nat := 0) : Host.Outcome State Fault Refusal :=
  s.hostCommand fun s =>
    match s.station.state with
    | .unconfigured => s.refuse .wrongState
    | .idle => s.refuse .wrongState
    | .leaving => s.refuse .wrongState
    | .listen => ((s.atInstant t).enter .idle).ok
    | .seeking => ((s.atInstant t).dropNewcomer.enter .idle).ok
    | .joining => ((s.atInstant t).dropNewcomer.enter .idle).ok
    | .member => (s.atInstant t).stopMember.ok

/-! ### SOFT_RESET and unknown codes -/

/-- SOFT_RESET: answered OK; the reset is taken at the rise of CSN (R181). -/
def execSoftReset (s : State) : Host.Outcome State Fault Refusal :=
  s.hostCommand fun s => { s with port := { s.port with softReset := true } }.ok

/-- UNKNOWN_COMMAND: a code byte that names no command is refused (R171). -/
def execUnknownCommand (_code : Byte) (s : State) : Host.Outcome State Fault Refusal :=
  s.hostCommand fun s => s.refuse .badArgument

end Sys2Proof.Machine
end

