-- ==== Sys2Proof/Machine/Resets.lean ====
section
/-! DEFINITION. The transaction's edges and the resets: CSN_FALL, CSN_RISE, POWER_ON_RESET, RSTN_FALL, RESET_END (R168,
R170, R172, R181, R182). -/

namespace Sys2Proof.Machine

/-- The port after a reset is taken: a transaction in progress is discarded, and its bytes are ignored until CSN rises
(R181, R182). The model's choice (assumption log 13): a READ_EVENTS transaction that is discarded holds IRQN released no
longer, although CSN has not risen yet (R178). -/
def Port.afterReset (p : Port) : Port := { Port.quiet with phase := if p.phase = .high then .high else .deaf }

/-- The bond store as a reset leaves it until the scan: the places by Table 10-5, every volatile record lost (R168). -/
def Store.afterReset (st : Store) (cut : CutChoice) : Store :=
  { places := placesAfterCut cut st, copy := placesAfterCut cut st, state := .scanning, flight := none, waiting := none,
    cause := .none }

/-- A reset is taken, with `hold` as what holds the device (R181): every block takes its reset state; time, the factory
ID, the levels of the pins and the commands waiting are not the device's to reset. -/
def State.takeReset (s : State) (hold : Option ResetCause) (cut : CutChoice) : State :=
  { State.reset with
      now := s.now
      factoryId := s.factoryId
      hold := hold
      mute := { lineHigh := s.mute.lineHigh, debounced := false, expiry := none }
      store := s.store.afterReset cut
      flags := 0#25
      port := s.port.afterReset
      pending := s.pending }

/-- A reset ends at instant `t` (R182): the debounced state is taken from the line (R104), and the scan begins (R169). -/
def State.endReset (s : State) (t : Nat) : State :=
  { s.atInstant t with hold := none, mute := s.mute.settle s.config.muteLow }.startScan (max s.now t)

/-- POWER_ON_RESET (R181). -/
def execPowerOnReset (cut : CutChoice) (s : State) : Host.Outcome State Fault Refusal :=
  .next (s.takeReset (some .powerOn) cut)

/-- RSTN_FALL (R181). A device that the supply already holds in reset stays held. -/
def execRstnFall (cut : CutChoice) (s : State) : Host.Outcome State Fault Refusal :=
  .next (s.takeReset (some .rstn) cut)

/-- RESET_END at instant `t`: what held the device persists no longer (R181, R182). -/
def execResetEnd (t : Nat) (s : State) : Host.Outcome State Fault Refusal := s.whenever (!s.running) (s.endReset t)

/-- CSN_FALL: a transaction begins (R170); one that begins in a reset is ignored whole (R182). -/
def execCsnFall (s : State) : Host.Outcome State Fault Refusal :=
  s.whenever (s.port.phase == .high)
    { s with port := { Port.quiet with phase := if s.running then .waiting else .deaf } }

/-- The transaction ends: its transfer is cut short, IRQN is evaluated again (R172, R178). -/
def State.endTransaction (s : State) : State := { s with port := Port.quiet }

/-- CSN_RISE at instant `t`: the transaction ends, and a SOFT_RESET taken in it is taken and ends now (R172, R181). -/
def execCsnRise (t : Nat) (cut : CutChoice) (s : State) : Host.Outcome State Fault Refusal :=
  s.whenever (s.port.phase != .high)
    (if s.port.softReset then ((s.endTransaction.takeReset none cut).endReset t) else (s.atInstant t).endTransaction)

end Sys2Proof.Machine
end

