-- ==== Sys2Proof/Machine/Dispatch.lean ====
section
/-! DEFINITION. One arm for each command: its meaning. -/

namespace Sys2Proof.Machine

def exec (i : Instr) (s : State) : Host.Outcome State Fault Refusal :=
  match i with
  | .readId => Sys2Proof.Machine.execReadId s
  | .writeConfig t args => Sys2Proof.Machine.execWriteConfig t args s
  | .start place t => Sys2Proof.Machine.execStart place s t
  | .stop t => Sys2Proof.Machine.execStop s t
  | .foundGroup t => Sys2Proof.Machine.execFoundGroup t s
  | .joinGroup kind t => Sys2Proof.Machine.execJoinGroup kind s t
  | .openPairing kind => Sys2Proof.Machine.execOpenPairing kind s
  | .closePairing => Sys2Proof.Machine.execClosePairing s
  | .bearCall => Sys2Proof.Machine.execBearCall s
  | .endCall => Sys2Proof.Machine.execEndCall s
  | .setLevels vol gSide => Sys2Proof.Machine.execSetLevels vol gSide s
  | .readStatus => Sys2Proof.Machine.execReadStatus s
  | .readEvents => Sys2Proof.Machine.execReadEvents s
  | .readPeers => Sys2Proof.Machine.execReadPeers s
  | .readBond place => Sys2Proof.Machine.execReadBond place s
  | .retireBond t place => Sys2Proof.Machine.execRetireBond t place s
  | .lockBond t place => Sys2Proof.Machine.execLockBond t place s
  | .eraseBond t place => Sys2Proof.Machine.execEraseBond t place s
  | .clearFault => Sys2Proof.Machine.execClearFault s
  | .writeDownlink n => Sys2Proof.Machine.execWriteDownlink n s
  | .readUplink n => Sys2Proof.Machine.execReadUplink n s
  | .softReset => Sys2Proof.Machine.execSoftReset s
  | .unknownCommand code => Sys2Proof.Machine.execUnknownCommand code s
  | .downlinkSample v => Sys2Proof.Machine.execDownlinkSample v s
  | .uplinkSamplePosition => Sys2Proof.Machine.execUplinkSamplePosition s
  | .csnRise t cut => Sys2Proof.Machine.execCsnRise t cut s
  | .powerOnReset cut => Sys2Proof.Machine.execPowerOnReset cut s
  | .rstnFall cut => Sys2Proof.Machine.execRstnFall cut s
  | .resetEnd t => Sys2Proof.Machine.execResetEnd t s
  | .muteLineChange t => Sys2Proof.Machine.execMuteLineChange t s
  | .debounceExpiry => Sys2Proof.Machine.execDebounceExpiry s
  | .slotStart => Sys2Proof.Machine.execSlotStart s
  | .slotEnd order air => Sys2Proof.Machine.execSlotEnd order air s
  | .cycleEnd order => Sys2Proof.Machine.execCycleEnd order s
  | .stepJump => Sys2Proof.Machine.execStepJump s
  | .peerSilent n => Sys2Proof.Machine.execPeerSilent n s
  | .peerLost n => Sys2Proof.Machine.execPeerLost n s
  | .peerRemoved n => Sys2Proof.Machine.execPeerRemoved n s
  | .listenTimeout => Sys2Proof.Machine.execListenTimeout s
  | .tentativeExpiry claim => Sys2Proof.Machine.execTentativeExpiry claim s
  | .claimLost claim => Sys2Proof.Machine.execClaimLost claim s
  | .holdoffExpiry claim => Sys2Proof.Machine.execHoldoffExpiry claim s
  | .pairingWindowTimeout => Sys2Proof.Machine.execPairingWindowTimeout s
  | .lapseMemoryExpiry => Sys2Proof.Machine.execLapseMemoryExpiry s
  | .seekTimeout => Sys2Proof.Machine.execSeekTimeout s
  | .joinHoldExpiry => Sys2Proof.Machine.execJoinHoldExpiry s
  | .joinAttemptsExhausted => Sys2Proof.Machine.execJoinAttemptsExhausted s
  | .pendingWriteStart => Sys2Proof.Machine.execPendingWriteStart s
  | .programDone held => Sys2Proof.Machine.execProgramDone held s
  | .erasePartDone => Sys2Proof.Machine.execErasePartDone s
  | .retireDone => Sys2Proof.Machine.execRetireDone s
  | .lockDone => Sys2Proof.Machine.execLockDone s
  | .eraseDone => Sys2Proof.Machine.execEraseDone s
  | .scanRetireDone => Sys2Proof.Machine.execScanRetireDone s
  | .sampleFrameStart cdin => Sys2Proof.Machine.execSampleFrameStart cdin s
  | .csnFall => Sys2Proof.Machine.execCsnFall s

end Sys2Proof.Machine
end

