-- ==== Sys2Proof/Safety.lean ====
section
/-! DEFINITION. What the statements call a sound state, one part for each kind of state: sizes, peer table, claims with
the bearer's role, pairing window, bond places. Each part is a check that a numeral state decides. -/

namespace Sys2Proof.Machine

/-- The state after a host command has been taken and answered with these bytes, and nothing else has changed. -/
def State.took (s : State) (reply : List Byte) : State :=
  { s with port := { s.port with phase := .taken, reply := reply } }

/-- The port after a host command taken and answered with these bytes. -/
def State.tookPort (s : State) (reply : List Byte) : Port := { s.port with phase := .taken, reply := reply }

/-- A host command is taken now: the device is not in reset, CSN is low and no command has been taken (R170, R181). -/
abbrev State.listensToHost (s : State) : Prop := s.hold = none ∧ s.port.phase = .waiting

/-- All three views UNKNOWN in all 16 slots (R60). -/
def State.viewsUnknown (s : State) : Prop :=
  s.views = { filling := List.replicate 16 .unknown, v1 := List.replicate 16 .unknown, v2 := List.replicate 16 .unknown }

/-- What START at instant `instant` does under a bond: LISTEN under its credentials with the receiver on from then, the peer
table emptied, the listen count 0, views that hold nothing from before, and nothing else: the cycle runs on (R37). -/
def State.startedUnder (s : State) (instant : Nat) (v : BondValue) (t : State) : Prop :=
  t.port = s.tookPort [0x00] ∧ t.station.state = .listen ∧
    t.station.creds = { group := v.group, number := v.station, wearer := v.wearer } ∧ t.station.listenCount = 0 ∧
    t.peers = [] ∧ t.flags = s.flags ||| Flag.stateChanged.mark ∧ t.timer = s.timer ∧ t.viewsUnknown ∧
    t.voice = s.voice ∧ t.farEnd = s.farEnd ∧ t.pairing = s.pairing ∧ t.mute = s.mute ∧ t.streams = s.streams ∧
    t.bearer = s.bearer ∧ t.store = s.store ∧ t.config = s.config ∧ t.codec = s.codec ∧
    t.chan = { s.chan with onSince := max s.now instant } ∧ t.now = max s.now instant ∧ t.pending = s.pending

/-- A claim in NONE. -/
def Claim.gone : Claim :=
  { state := .none, slot := none, cycles := 0, run := 0, clean := false, conflict := false }

/-- A bearer record in NONE with both queues flushed (R147). -/
def Bearer.gone : Bearer :=
  { state := .none, age := 0, primed := false, underrun := false, holdSample := 0, lastTake := .none, downlink := [],
    uplink := [] }

/-- The blocks that a change of station state, a claim or a call leaves alone. -/
def State.sameFrame (s t : State) : Prop :=
  t.hold = s.hold ∧ t.factoryId = s.factoryId ∧ t.mute = s.mute ∧ t.config = s.config ∧ t.codec = s.codec ∧
    t.pending = s.pending

/-- What a bond write of credentials `c`, requested at `instant`, does (R78, R164, R165, R167): the pending write unless the
store is IDLE; else a program on the lowest ERASED place, else an erase then program on the lowest RETIRED place, else the
fault FULL. -/
def State.writeRequested (s : State) (c : Credentials) (instant : Nat) (t : State) : Prop :=
  let v : BondValue := { group := c.group, station := c.number, wearer := c.wearer, seq := nextSeq s.store.copy }
  let erased := s.store.copy.findIdx? fun p => p.state == .erased
  let retired := s.store.copy.findIdx? fun p => p.state == .retired
  let begun := fun (op : StoreOp) (i : Nat) =>
    { s.store with waiting := none, state := .busy, flight := some { op := op, place := i, start := instant } }
  (s.store.state ≠ .idle → t.store = { s.store with waiting := some c }) ∧
    (∀ i, s.store.state = .idle → erased = some i → t.store = begun (.program v) i) ∧
    (∀ i, s.store.state = .idle → erased = none → retired = some i → t.store = begun (.eraseProgram v false) i) ∧
    (s.store.state = .idle → erased = none → retired = none →
      t.store = { s.store with waiting := none, cause := .full }) ∧
    (t.flagSet .storeFault ↔ s.flagSet .storeFault ∨ (s.store.state = .idle ∧ erased = none ∧ retired = none))

/-! ### What a reset leaves of the places (R168, Table 10-5) -/

/-- Each of the four fields holds its value in `v` or 0. -/
def partOf (w v : BondValue) : Prop :=
  (w.group = 0 ∨ w.group = v.group) ∧ (w.station = 0 ∨ w.station = v.station) ∧
    (w.wearer = 0 ∨ w.wearer = v.wearer) ∧ (w.seq = 0 ∨ w.seq = v.seq)

/-- What a reset during an operation may leave of its target, which held `old` (Table 10-5). -/
def StoreOp.mayLeave (op : StoreOp) (old new : Place) : Prop :=
  let openWith := fun v : BondValue => new.state = .opened ∧ new.locked = false ∧ partOf new.value v
  let programCut := fun v : BondValue => new = Place.blank ∨ openWith v
  match op with
  | .program v => programCut v
  | .retire => new = old ∨ new = { old with state := .retired }
  | .scanRetire => new = old ∨ new = { old with state := .retired }
  | .lock => new = old ∨ new = { old with locked := true }
  | .erase => openWith old.value
  | .eraseProgram v programming => if programming then programCut v else openWith old.value

/-- The places that a reset leaves of a store: all of them without an operation in flight, else all but its target, and the
target as the table gives. -/
def Store.mayLeave (st : Store) (ps : List Place) : Prop :=
  ps.length = st.places.length ∧ (st.flight = none → ps = st.places) ∧
    ∀ f, st.flight = some f →
      (∀ j, j ≠ f.place → placeAt ps j = placeAt st.places j) ∧
        (f.place < st.places.length → f.op.mayLeave (placeAt st.places f.place) (placeAt ps f.place))

/-! ### A cycle's end -/

/-- The end of cycle `c` is due: its slots and its sample frames are over. -/
abbrev State.endsCycle (s : State) (c : Cycle) : Prop :=
  s.timer.cycle = some c ∧ s.atCycleEnd = true ∧ s.codec.frameIx = 160

/-- A reception of cycle `c` that the timer counts at its end: in a jump cycle those before its grid instant are left out
(R21, R22). -/
def Cycle.countsRx (c : Cycle) (r : TimerRx) : Bool := c.kind == .ordinary || decide (c.gridInstant ≤ r.arrival)

/-- The offsets that choose the correction at the end of cycle `c`: those of the receptions classified OWN (R21). -/
def State.countedOffsets (s : State) (c : Cycle) : List Int :=
  (s.timer.log.filter fun r => r.inStep && c.countsRx r).map fun r => r.offset

/-- The cycle just ended was outnumbered: more STRAY receptions than OWN ones and the station itself, or as many and the
lowest STRAY sender below the own number (R22). -/
def State.wasOutnumbered (s : State) (c : Cycle) : Prop :=
  let own := (s.timer.log.filter fun r => r.inStep && c.countsRx r).length + 1
  let stray := s.timer.log.filter fun r => !r.inStep && c.countsRx r
  own < stray.length ∨ (stray.length = own ∧ ∃ r ∈ stray, r.sender < s.station.creds.number)

/-- `r` is the reference of a step jump: the earliest reception of the lowest-numbered STRAY sender (R23). -/
def State.jumpReferenceIs (s : State) (c : Cycle) (r : TimerRx) : Prop :=
  let stray := fun q : TimerRx => q ∈ s.timer.log ∧ q.inStep = false ∧ c.countsRx q = true
  stray r ∧ ∀ q, stray q → r.sender < q.sender ∨ (r.sender = q.sender ∧ r.arrival ≤ q.arrival)

/-- No row of this cycle end has decided the claim (R64, assumption log 6). -/
def State.claimUndecided (s : State) : ClaimId → Prop
  | .voice => s.early.voiceDecided = false
  | .farEnd => s.early.farDecided = false

/-- The open window's remaining cycles reach 0 at this cycle end, and no row has counted them (R82). -/
def State.windowTimesOut (s : State) : Bool :=
  s.station.state == .member && !s.early.windowCounted && decide (s.pairing.window.remaining ≤ 1)

/-! ### A slot's end -/

/-- The end of slot `k` of cycle `c` is due: the device runs, and that slot is in progress. -/
def State.endsSlot (s : State) (c : Cycle) (k : SlotIx) : Prop :=
  s.hold = none ∧ s.timer.cycle = some c ∧ s.chan.inSlot = true ∧ s.chan.nextSlot = k.val

/-- The state after the end of slot `k` with its entry written, its receptions emptied, what falls in later slots held, and
nothing else changed. -/
def State.slotOver (s : State) (c : Cycle) (k : SlotIx) (e : Entry) (later : List AirItem) : State :=
  { s with
      now := max s.now (c.slotEnd k.val).toNat
      chan := { s.chan with
        inSlot := false
        sentInSlot := false
        nextSlot := k.val + 1
        held := later
        cutSpans := s.chan.cutSpans.filter fun p => decide ((c.slotEnd k.val).toNat < p.2 + 400) }
      views := { s.views with filling := s.views.filling.set k.val e } }

/-- The receiver takes an item of the air: on from before its arrival, with no transmission of the station's own over it
(R9, R11, R12). -/
def State.takes (s : State) (x : AirItem) : Prop :=
  s.chan.onSince ≤ x.span.1 ∧ (∀ p ∈ s.chan.cutSpans, p.2 ≤ x.span.1) ∧
    ∀ o, s.chan.sent = some o → o.finish ≤ x.span.1 ∨ x.span.2 ≤ o.start

/-- An item that slot `k` receives: taken by the receiver, falling in the slot, and arrived neither in a lead-in nor before
a step jump (R3, R13, R24). -/
def State.receivesIn (s : State) (c : Cycle) (k : SlotIx) (x : AirItem) : Prop :=
  s.takes x ∧ fallsIn c x = some k.val ∧ inLeadIn c x = false ∧ beforeJump c x = false

/-- The items of the air that fall in slot `k`: those held since an earlier slot, then those that come with its end (R13). -/
def State.itemsOf (s : State) (c : Cycle) (k : SlotIx) (air : List AirItem) : List AirItem :=
  (s.chan.held ++ air).filter fun x => decide (fallsIn c x = some k.val)

/-- The items held over the end of slot `k`: all that fall in a slot still to end, the first slot of the next cycle
included (R13, R17), except where a transmission of the station's own or a step jump shuts them out (R11, R24). -/
def State.laterItems (s : State) (c : Cycle) (k : SlotIx) (air : List AirItem) : List AirItem :=
  (s.chan.held ++ air).filter fun x =>
    (match fallsIn c x with
      | some j => decide (k.val < j)
      | none => false) && !overlapsSent s.chan.sent x && !beforeJump c x

/-- Slot `k` ends, in which the station sent nothing and which received one clean burst `b` and nothing else (R12); the
burst may have been held since an earlier slot, and other items may fall in other slots. -/
def State.hearsAlone (s : State) (c : Cycle) (k : SlotIx) (air : List AirItem) (a f : Nat) (bytes : List Byte)
    (b : Burst) : Prop :=
  s.endsSlot c k ∧ s.chan.sentInSlot = false ∧ s.itemsOf c k air = [.burst a f bytes] ∧
    s.receivesIn c k (.burst a f bytes) ∧ parseBurst bytes = some b

/-- The pairing records after the end of slot `k`, where no CONFIRM has answered the offer outstanding: in slot 14 of the
cycle after its own it lapses, whatever the slot held (R89). -/
def State.pairingAfter (s : State) (k : SlotIx) : Pairing :=
  match s.pairing.offer with
  | none => s.pairing
  | some o =>
    if k = 14 ∧ s.timer.counter = o.cycleSent + 1 then
      { s.pairing with offer := none, lapse := some { number := o.station, age := 0 } }
    else s.pairing

/-- The burst is in step under the step window: within 24 ticks of the start of slot `k`, which it names (R14). -/
def Burst.inStepAt (b : Burst) (c : Cycle) (k : SlotIx) (a : Nat) : Prop :=
  b.slot = k ∧ c.slotStart k.val ≤ a + 24 ∧ (a : Int) ≤ c.slotStart k.val + 24

/-- The sender `n` counts as heard in this cycle, beside those that did before (R49). -/
def State.hearsAlso (t s : State) (n : StationNo) : Prop := ∀ m, m ∈ t.chan.heard ↔ m ∈ s.chan.heard ∨ m = n

/-- What an OWN reception of `b`, arrived at `a` in slot `k`, gives the cycle timer and the ageing (R16, R21, R22, R49): in
MEMBER the timer counts it with its arrival offset, in LEAVING nothing of the timer changes; in both the sender is heard. -/
def State.countsOwn (s : State) (c : Cycle) (k : SlotIx) (a : Nat) (b : Burst) (t : State) : Prop :=
  (s.station.state = .member →
    t.timer = { s.timer with log := s.timer.log ++
      [{ inStep := true, sender := b.sender, offset := (a : Int) - c.slotStart k.val, arrival := a, slot := b.slot }] }) ∧
  (s.station.state = .leaving → t.timer = s.timer) ∧ t.hearsAlso s b.sender

/-- What a claim reads at an OWN reception of `b` (R67): in TENTATIVE and CONFIRMED the heard map's entry of its slot sets
its marks; in any other state nothing changes. -/
def State.readsMap (s : State) (id : ClaimId) (b : Burst) (t : State) : Prop :=
  let cl := s.claim id
  (∀ j, cl.slot = some j → cl.state = .tentative ∨ cl.state = .confirmed →
    let r := b.heardMap.getD j.val 0
    t.claim id =
      { cl with
          clean := cl.clean || decide (r ≠ 0 ∧ r = s.station.creds.number ∧ (cl.state = .confirmed ∨ 1 ≤ cl.cycles))
          conflict := cl.conflict || decide (r ≠ 0 ∧ r ≠ s.station.creds.number) }) ∧
  (cl.state ≠ .tentative → cl.state ≠ .confirmed → t.claim id = cl)

/-- What the reception list takes from an OWN reception of `b` (R114): the outcome of a VOICE or FAREND under its sender and
kind, in place of an earlier one; every other outcome stays, and at any other kind the list. -/
def State.storesOutcome (s : State) (b : Burst) (t : State) : Prop :=
  (b.kind = .voice ∨ b.kind = .farend →
    rxLookup b.sender (decide (b.kind = .farend)) t.streams.list = some
      (match b.body with
        | .frame q => .frame (decodePayload q) ((((decodePayload q).map fun x => x.toInt.natAbs).sum) / 160)
        | _ => .hush) ∧
      ∀ n far, n ≠ b.sender ∨ far ≠ decide (b.kind = .farend) →
        rxLookup n far t.streams.list = rxLookup n far s.streams.list) ∧
  (b.kind ≠ .voice → b.kind ≠ .farend → t.streams.list = s.streams.list)

/-- The burst ends the bearer's role at its own reception: the election is lost (R144), and the yield does not wait for the
cycle end (assumption log 7). -/
def State.endsRole (s : State) (k : SlotIx) (order : ReceptionOrder) (b : Burst) : Prop :=
  s.losesElection b = true ∧ ¬(k = 15 ∧ order = .cycleEndFirst)

/-- What an alignment to phase `p` at the reception `tr` makes of the cycle in progress (Table 2-3, R32): `e` is the phase
moved by whole steps to lie 5,000..14,999 ticks after the cycle's start. -/
def Cycle.alignedTo (c : Cycle) (p : Int) (tr : Nat) (d : Cycle) : Prop :=
  ∃ e : Int, c.start + 5000 ≤ e ∧ e ≤ c.start + 14999 ∧ (∃ n : Int, e = p + 10000 * n) ∧
    if tr < c.planned then
      d.start = c.start ∧ d.kind = .aligned ∧ d.gridInstant = tr ∧ d.correction = 0 ∧
        d.respaced = { instant := tr, first := c.framesStarted tr, finish := d.planned } :: c.respaced ∧
        if (tr : Int) + 625 ≤ e then (d.planned : Int) = e ∧ d.nextPhase = none
        else d.planned = tr + 625 ∧ d.nextPhase = some p
    else d = { c with nextPhase := some p }

/-! ### A stream record after a frame deadline (R111, R117 to R119) -/

/-- It took a frame from a station, above threshold when `loud` (R116, R118, Table 7-6). -/
def StreamRec.withFrame (r : StreamRec) (f : Frame) (loud : Bool) (src : StationNo) (borrowed : Bool) : StreamRec :=
  let quiet := r.state = .muted ∨ r.state = .hushed ∨ r.state = .absent
  { state := if quiet then .ramp else if borrowed then .borrowed else .fresh
    current :=
      if quiet then f.mapIdx fun i x => BitVec.ofInt 16 (Int.tdiv (x.toInt * (i + 1)) 160) else f
    lastGood := f
    source := some src
    hang := if loud then 3 else r.hang - 1
    missing := 0 }

/-- It took a hush from a station. -/
def StreamRec.withHush (r : StreamRec) (src : StationNo) : StreamRec :=
  { r with
      state := .hushed, current := List.replicate 160 0, source := some src, hang := r.hang - 1
      missing := min (r.missing + 1) 255 }

/-- It was decided ABSENT. -/
def StreamRec.withoutSource (r : StreamRec) : StreamRec :=
  { r with state := .absent, current := List.replicate 160 0, source := none, hang := r.hang - 1, missing := 255 }

/-- Nothing arrived for it (Table 7-4). -/
def StreamRec.withNothing (r : StreamRec) : StreamRec :=
  let m := min (r.missing + 1) 255
  if r.state = .absent then r.withoutSource
  else if r.state = .hushed then { r with current := List.replicate 160 0, hang := r.hang - 1, missing := m }
  else if m = 1 then { r with state := .repeat1, current := r.lastGood, hang := r.hang - 1, missing := m }
  else if m = 2 then
    { r with
        state := .repeat2, hang := r.hang - 1, missing := m
        current := r.lastGood.map fun x => BitVec.ofInt 16 (x.toInt / 2) }
  else { r with state := .muted, current := List.replicate 160 0, hang := r.hang - 1, missing := m }

/-! ### Sizes (R7, R34, R59, R113, R140) -/

/-- A frame holds 160 samples. -/
def frameOk (f : Frame) : Bool := decide (f.length = 160)

/-- A payload holds five sub-blocks of 32 mantissas (R7). -/
def payloadOk (p : Payload) : Bool := decide (p.length = 5) && p.all fun b => decide (b.mantissas.length = 32)

/-- A stream record's frames. -/
def StreamRec.framesOk (r : StreamRec) : Bool := frameOk r.current && frameOk r.lastGood

/-- An outcome's frame, if it has one. -/
def RxOutcome.frameOk : RxOutcome → Bool
  | .hush => true
  | .frame f _ => Sys2Proof.Machine.frameOk f

/-- The two prepared payloads, where present (R9). -/
def Channel.payloadsOk (ch : Channel) : Bool :=
  (match ch.voicePayload with
    | .frame p => payloadOk p
    | .hush => true
    | .none => true) &&
    match ch.farPayload with
    | some p => payloadOk p
    | none => true

/-- Lists of fixed or bounded length: views of 16 entries, frames of 160 samples wherever one is held, 8 wearer records,
phone queues of at most 640 samples. -/
def State.sizesOk (s : State) : Bool :=
  decide (s.views.filling.length = 16) && decide (s.views.v1.length = 16) && decide (s.views.v2.length = 16) &&
    frameOk s.codec.capture && frameOk s.codec.playout && decide (s.codec.frameIx ≤ 160) &&
    decide (s.streams.wearers.length = 8) && s.streams.wearers.all StreamRec.framesOk && s.streams.farEnd.framesOk &&
    s.streams.list.all (fun e => e.outcome.frameOk) && s.chan.payloadsOk &&
    decide (s.bearer.downlink.length ≤ 640) && decide (s.bearer.uplink.length ≤ 640)

/-! ### Bursts -/

/-- The payload that a kind and hush flag call for (R7, Table 1-7). -/
def bodyFits (k : BurstKind) (hush : Bool) (b : Body) : Bool :=
  match k, hush, b with
  | .voice, true, .absent => true
  | .voice, false, .frame p => payloadOk p
  | .farend, true, .absent => true
  | .farend, false, .frame p => payloadOk p
  | .leave, _, .absent => true
  | .join, _, .join _ _ => true
  | .offer, _, .offer _ n _ => n.valid
  | .confirm, _, .confirm _ o n => o.valid && n.valid
  | _, _, _ => false

/-- A burst that a receiver accepts (R7, R12). -/
def Burst.ok (b : Burst) : Bool := headerOk b && decide (b.heardMap.length = 16) && bodyFits b.kind b.hush b.body

/-! ### The records -/

/-- Entries in strictly ascending station number. -/
def ascending : List Peer → Bool
  | [] => true
  | p :: ps => ps.all (fun q => decide (p.number < q.number)) && ascending ps

/-- The station states in which the peer table is empty (Table 3-1). -/
def StationState.noPeers : StationState → Bool
  | .unconfigured => true
  | .listen => true
  | .seeking => true
  | .joining => true
  | .idle => false
  | .member => false
  | .leaving => false

/-- The peer table (R44): at most 15 entries with distinct station numbers in 1..30, none the station's own. -/
def State.peersOk (s : State) : Bool :=
  decide (s.peers.length ≤ 15) && ascending s.peers &&
    s.peers.all (fun p => p.number.valid && p.number != s.station.creds.number) &&
    (!s.station.state.noPeers || s.peers.isEmpty)

/-- A claim record (Table 4-1): the slot present exactly in TENTATIVE, CONFIRMED and RELEASING, and a voice slot; the
conflict run below 2 and 0 outside CONFIRMED; cycles in state at most 255. -/
def Claim.ok (c : Claim) : Bool :=
  decide (c.cycles ≤ 255) &&
    match c.state, c.slot with
    | .none, none => decide (c.run = 0)
    | .waiting, none => decide (c.run = 0)
    | .holdoff, none => decide (c.run = 0)
    | .tentative, some k => decide (k.val ≤ 13) && decide (c.run = 0)
    | .confirmed, some k => decide (k.val ≤ 13) && decide (c.run ≤ 1)
    | .releasing, some k => decide (k.val ≤ 13) && decide (c.run = 0)
    | _, _ => false

/-- The far-end claim states that go with a bearer state (Table 9-1). -/
def roleMatches : BearerState → ClaimState → Bool
  | .none, .none => true
  | .claiming, .waiting => true
  | .claiming, .holdoff => true
  | .claiming, .tentative => true
  | .bearing, .confirmed => true
  | .ending, .releasing => true
  | _, _ => false

/-- Both claims and the bearer's role (R62, Table 9-1): never both claims in one slot. -/
def State.claimsOk (s : State) : Bool :=
  s.voice.ok && s.farEnd.ok && (s.voice.slot.isNone || s.voice.slot != s.farEnd.slot) &&
    roleMatches s.bearer.state s.farEnd.state

/-- The pairing controller's records (R79): a window open only in MEMBER, an offer and a lapse memory only in an open
window, kind absent and remaining cycles 0 while CLOSED. -/
def State.windowOk (s : State) : Bool :=
  if s.windowOpen then
    s.station.state == .member && s.pairing.window.kind.isSome && decide (s.pairing.window.remaining ≤ 3000)
  else
    s.pairing.offer.isNone && s.pairing.lapse.isNone && s.pairing.window.kind.isNone &&
      decide (s.pairing.window.remaining = 0)

/-- A place is locked only when VALID (R157). -/
def Place.ok (p : Place) : Bool := !p.locked || p.state == .valid

/-- The place an operation may act on (Table 10-3): unlocked, and VALID for a lock. -/
def StoreOp.mayTarget (op : StoreOp) (p : Place) : Bool :=
  match op with
  | .lock => p.state == .valid
  | .program _ => !p.locked
  | .retire => !p.locked
  | .erase => !p.locked
  | .eraseProgram _ _ => !p.locked
  | .scanRetire => !p.locked

/-- The place copy equals the places, but for the target of an erase then program whose erase part has ended (R158). -/
def Store.copyOk (st : Store) : Bool :=
  match st.flight with
  | some { op := .eraseProgram _ true, place := i, start := _ } => decide (st.copy.set i Place.blank = st.places)
  | _ => decide (st.copy = st.places)

/-- The operation in flight, if any, has a place it may act on, and none is in flight while the store is IDLE (R158). -/
def Store.flightOk (st : Store) : Bool :=
  match st.flight with
  | none => true
  | some f => st.state != .idle && f.op.mayTarget (placeAt st.places f.place)

/-- The bond store (R157, R158): 16 places, each sound; the copy and the operation in flight as they should be. -/
def State.bondsOk (s : State) : Bool :=
  decide (s.store.places.length = 16) && s.store.places.all Place.ok && s.store.copyOk && s.store.flightOk

end Sys2Proof.Machine
end

