-- ==== Sys2Proof/Certificates/Slice0/Obligations.lean ====
section
/-! DEFINITION. The statements for the provers. Each docstring names the rules of spec/ it rests on, and says which
clause is a choice of the model (assumption log) and not a rule. Everywhere: local time and the instants that commands
carry are log 1, a host command as one step log 8, the answer's bytes held in port.reply log 9. -/

section Statements

open Sys2Proof Sys2Proof.Machine

/-! ### The machine -/

/-- A step runs the command at the front of the queue on the queue's rest; on an empty queue the block idles (the queue
and the idle step are the model's, assumption log 4). -/
def Obligations.StepRunsTheFrontCommand : Prop :=
  (∀ (c : Instr) (rest : List Instr) (s : State),
    step { s with pending := c :: rest } = exec c { s with pending := rest }) ∧
  ∀ s : State, s.pending = [] → step s = .next s

/-- No command stops the device, and none touches the queue of the commands that wait. That an event which cannot occur
answers the state unchanged, and the queue, are the model's (assumption logs 4 and 5). -/
def Obligations.EveryCommandAnswersANextState : Prop :=
  ∀ (c : Instr) (s : State), ∃ t, exec c s = .next t ∧ t.pending = s.pending

/-- The reset values that the rules state (R9, R19, R34, R35, R44, R59, R62, R79, R92, R104, R113, R140, R158, R173, R176,
R182), and that the state after reset is sound. That the places are ERASED, that the scan has ended, that STORE_DONE is so
the one flag set, the level of MUTE, and that CSN is high, so that the port waits for its fall and not for its rise (R182
allows both), is the model's choice (assumption log 3). -/
def Obligations.ResetLeavesEveryBlockAtItsResetValue : Prop :=
  let s := State.reset
  (s.hold = none ∧ s.station.state = .unconfigured ∧ s.station.creds = { group := 0, number := 0, wearer := 0 } ∧
    s.station.listenCount = 0) ∧
  (s.timer.cycle = none ∧ s.timer.lastCorrection = 0 ∧ s.timer.stepLoss = 0 ∧ s.timer.counter = 0 ∧ s.timer.log = []) ∧
  (s.viewsUnknown ∧ s.peers = [] ∧ s.surplus = false) ∧
  (s.voice = Claim.gone ∧ s.farEnd = Claim.gone ∧ s.bearer = Bearer.gone) ∧
  (s.pairing.window = { state := .closed, kind := none, remaining := 0, lastCause := .none } ∧ s.pairing.offer = none ∧
    s.pairing.lapse = none ∧ s.pairing.newcomer = none) ∧
  (s.mute.expiry = none ∧ s.mute.debounced = s.mute.lineHigh) ∧
  (s.streams.wearers.length = 8 ∧ s.streams.list = [] ∧ ∀ r ∈ s.streams.farEnd :: s.streams.wearers,
    r = { state := .absent, current := List.replicate 160 0, lastGood := List.replicate 160 0, source := none, hang := 0,
          missing := 255 }) ∧
  (s.codec.capture = List.replicate 160 0 ∧ s.codec.playout = List.replicate 160 0 ∧ s.chan.sent = none ∧
    s.chan.inSlot = false ∧ s.chan.held = [] ∧ s.chan.cutSpans = [] ∧ s.chan.voicePayload = .none ∧
    s.chan.farPayload = none) ∧
  (s.store.state = .idle ∧ s.store.flight = none ∧ s.store.waiting = none ∧ s.store.cause = .none ∧
    s.store.copy = s.store.places ∧ s.store.places = List.replicate 16 Place.blank) ∧
  (s.config =
    { syncLow := false, edgeReversed := false, muteLow := false, debounce := 2, tAct := 300, gFar := 16384,
      gVoice := 16384, gUp := 16384, gSide := 2048, vol := 16384, mask := 0 }) ∧
  (∀ f : Flag, s.flagSet f = decide (f = .storeDone)) ∧
  (s.port = { phase := .high, reply := [], transfer := .none, readingEvents := false, softReset := false }) ∧
  (s.sizesOk ∧ s.peersOk ∧ s.claimsOk ∧ s.windowOk ∧ s.bondsOk)

/-! ### The control port -/

/-- A transaction is one period of CSN low (R170); one that begins in a reset is ignored whole (R182); its end undoes no
command (R172). A host command outside an open transaction, after another command of the same transaction, or in a reset
has no effect (R170, R181, R182; as one step: assumption log 8). -/
def Obligations.TransactionsFrameHostCommands : Prop :=
  (∀ s : State, s.port.phase = .high → s.hold = none →
    exec .csnFall s = .next { s with port :=
      { phase := .waiting, reply := [], transfer := .none, readingEvents := false, softReset := false } }) ∧
  (∀ s : State, s.port.phase = .high → s.hold ≠ none →
    exec .csnFall s = .next { s with port :=
      { phase := .deaf, reply := [], transfer := .none, readingEvents := false, softReset := false } }) ∧
  (∀ (t : Nat) (cut : CutChoice) (s : State), s.port.phase ≠ .high → s.port.softReset = false →
    exec (.csnRise t cut) s = .next
      { s with
          now := max s.now t
          port := { phase := .high, reply := [], transfer := .none, readingEvents := false, softReset := false } }) ∧
  ∀ (c : Instr) (s : State), (bytesOfCommand c).isSome → ¬s.listensToHost → exec c s = .next s

/-- A host command that is answered with anything but OK has no effect beyond its result byte, and a code byte that names
no command is answered BAD_ARGUMENT (R171). -/
def Obligations.RefusedCommandsChangeNothing : Prop :=
  (∀ (c : Instr) (s t : State), (bytesOfCommand c).isSome → s.listensToHost →
    exec c s = .next t → t.port.reply.head? ≠ some 0x00 → ∃ code : Byte, t = s.took [code]) ∧
  ∀ (code : Byte) (s : State), (Instr.unknownCommand code).wf → s.listensToHost →
    exec (.unknownCommand code) s = .next (s.took [0x08])

/-- SOFT_RESET is answered OK and waits for the rise of CSN; there the reset is taken and ends: every volatile block in
its reset state, the event flags and the store's volatile records included, the places as the reset leaves them (Table
10-5), and the start-up scan begun (R104, R158, R168, R169, R176, R181, R182). That local time, the level of MUTE and the
device's ID are no part of the reset is the model's (assumption logs 1, 2 and 22). -/
def Obligations.SoftResetIsTakenAtTheRiseOfCsn : Prop :=
  (∀ s : State, s.listensToHost →
    exec .softReset s = .next { s with port := { s.port with phase := .taken, reply := [0x00], softReset := true } }) ∧
  ∀ (t : Nat) (cut : CutChoice) (s : State), s.port.phase ≠ .high → s.port.softReset = true →
    ∃ u, exec (.csnRise t cut) s = .next u ∧
      u.hold = none ∧ u.station = State.reset.station ∧ u.timer = State.reset.timer ∧ u.early = State.reset.early ∧
      u.chan = State.reset.chan ∧ u.views = State.reset.views ∧ u.peers = [] ∧ u.surplus = false ∧
      u.voice = State.reset.voice ∧ u.farEnd = State.reset.farEnd ∧ u.pairing = State.reset.pairing ∧
      u.streams = State.reset.streams ∧ u.bearer = State.reset.bearer ∧ u.config = State.reset.config ∧
      u.codec = State.reset.codec ∧ u.port = State.reset.port ∧
      u.mute = { lineHigh := s.mute.lineHigh, debounced := s.mute.lineHigh, expiry := none } ∧
      (∀ f : Flag, f ≠ .storeDone → u.flagSet f = false) ∧
      s.store.mayLeave u.store.places ∧
      u.store.places = placesAfterCut cut s.store ∧ u.store.copy = u.store.places ∧ u.store.waiting = none ∧
      u.store.cause = .none ∧
      (∀ i, (u.store.places.findIdx? fun p => p.state == .opened) = some i →
        u.store.state = .scanning ∧ u.flags = 0 ∧
          u.store.flight = some { op := .scanRetire, place := i, start := max s.now t }) ∧
      ((∀ p ∈ u.store.places, p.state ≠ .opened) →
        u.store.state = .idle ∧ u.store.flight = none ∧ u.flagSet .storeDone) ∧
      u.now = max s.now t ∧ u.factoryId = s.factoryId ∧ u.pending = s.pending

/-- Power-on and RSTN take the reset and hold the device in it: every volatile block stops, the mute input's timer, the
store's operation and the port's transaction included; the places keep their values but for the target of an operation
cut short, which is left as Table 10-5 gives, and every outcome that the table leaves to the world is the reset's for
some choice of its operand; IRQN is released, SDO is high impedance, CBCK and CFSY are held inactive under the default
format and CDOUT low (R104, R168, R181). That local time, the level of MUTE and whether CSN is low are no part of the
reset, that the debounced state reads released until the reset ends, and that a discarded READ_EVENTS transaction holds
IRQN no longer while CSN stays low, is the model's (assumption logs 1, 13 and 22). -/
def Obligations.ResetPinsStopEveryBlock : Prop :=
  (∀ (c : Instr) (cut : CutChoice) (s : State), c = .powerOnReset cut ∨ c = .rstnFall cut →
    ∃ u, exec c s = .next u ∧
      u.hold ≠ none ∧ u.station = State.reset.station ∧ u.timer = State.reset.timer ∧ u.early = State.reset.early ∧
      u.chan = State.reset.chan ∧ u.views = State.reset.views ∧ u.peers = [] ∧ u.surplus = false ∧
      u.voice = State.reset.voice ∧ u.farEnd = State.reset.farEnd ∧ u.pairing = State.reset.pairing ∧
      u.streams = State.reset.streams ∧ u.bearer = State.reset.bearer ∧ u.config = State.reset.config ∧
      u.codec = State.reset.codec ∧ u.flags = 0 ∧
      u.port =
        { phase := if s.port.phase = .high then .high else .deaf, reply := [], transfer := .none, readingEvents := false,
          softReset := false } ∧
      u.mute = { lineHigh := s.mute.lineHigh, debounced := false, expiry := none } ∧
      s.store.mayLeave u.store.places ∧
      u.store.places = placesAfterCut cut s.store ∧ u.store.flight = none ∧ u.store.waiting = none ∧
      u.store.cause = .none ∧ u.now = s.now ∧ u.factoryId = s.factoryId ∧ u.pending = s.pending ∧
      u.irqAsserted = false ∧ u.sdoHighImpedance = true ∧ u.cbckHeld ≠ none ∧
      u.cfsyLevels = List.replicate 32 false ∧ u.cdoutBits = List.replicate 32 false) ∧
  ∀ (s : State) (f : Flight) (new : Place), s.store.flight = some f → f.place < s.store.places.length →
    f.op.mayLeave (placeAt s.store.places f.place) new →
    ∃ cut, ∀ c : Instr, c = .powerOnReset cut ∨ c = .rstnFall cut →
      ∃ u, exec c s = .next u ∧ u.store.places = s.store.places.set f.place new

/-- The end of a reset: the debounced state is taken from the line, the places are read into the copy, and the scan
retires the first OPEN place or ends at once with STORE_DONE (R104, R169, R182). -/
def Obligations.ResetEndStartsTheScan : Prop :=
  ∀ (t : Nat) (s : State), s.hold ≠ none →
    ∃ u, exec (.resetEnd t) s = .next u ∧ u.hold = none ∧ u.store.places = s.store.places ∧
      u.store.copy = s.store.places ∧ u.store.waiting = s.store.waiting ∧ u.store.cause = s.store.cause ∧
      u.mute = { lineHigh := s.mute.lineHigh, debounced := s.mute.lineHigh != s.config.muteLow, expiry := none } ∧
      u.station = s.station ∧ u.timer = s.timer ∧ u.config = s.config ∧ u.port = s.port ∧ u.pending = s.pending ∧
      (∀ i, (s.store.places.findIdx? fun p => p.state == .opened) = some i →
        u.store.state = .scanning ∧ u.flags = s.flags ∧
          u.store.flight = some { op := .scanRetire, place := i, start := max s.now t }) ∧
      ((∀ p ∈ s.store.places, p.state ≠ .opened) →
        u.store.flight = none ∧ u.flagSet .storeDone ∧ (s.store.waiting = none → u.store.state = .idle))

/-- The four reads answer OK, then one record formed at the taking, and change nothing else (R163, R175, R179, R180).
SDO shifts out zero under the code and argument bytes of a host command, then the result and the data, then zero (R170,
R180), and is high impedance while CSN is high and in a reset (R170, R181). The bytes are held whole in the reply
(assumption log 9). The length of the status record, the peer record and the bond record, and the place of every field in
them (Tables 12-4, 12-7 to 12-9). -/
def Obligations.ReadsReportTheirRecords : Prop :=
  ((∀ s : State, s.listensToHost →
     exec .readId s = .next (s.took (0x00 :: bytesOfNat 6 s.factoryId.toNat)) ∧
     exec .readStatus s = .next (s.took (0x00 :: statusRecord s)) ∧
     exec .readPeers s = .next (s.took (0x00 :: (bytesOfNat 1 s.peers.length ++ s.peers.flatMap peerRecord))) ∧
     ∀ b : Byte,
       exec (.readBond b) s = .next (s.took
         (if b.toNat < 16 then 0x00 :: bondRecord (s.store.target b.toNat) (placeAt s.store.copy b.toNat)
          else [0x08]))) ∧
   (∀ (c : Instr) (code : Byte) (args : List Byte) (s t : State), c.wf → bytesOfCommand c = some (code :: args) →
     s.listensToHost → exec c s = .next t →
     ∀ i, t.sdoByte code i =
       some (if i ≤ args.length then 0x00 else t.port.reply.getD (i - (args.length + 1)) 0x00)) ∧
   ∀ (code : Byte) (i : Nat) (s : State), s.port.phase = .high ∨ s.hold ≠ none → s.sdoByte code i = none) ∧
  (∀ p : Peer, (peerRecord p).length = 10 ∧
    (peerRecord p).take 3 = [BitVec.ofNat 8 p.number.val, BitVec.ofNat 8 p.wearer.val,
      match p.state with
      | .active => 0
      | .silent => 1
      | .lost => 2] ∧
    ((peerRecord p).drop 3).take 2 = bytesOfNat 2 p.missed ∧
    ((peerRecord p).drop 5).take 3 = [slotByte p.voiceSlot, slotByte p.farSlot, BitVec.ofInt 8 p.offset] ∧
    ∃ flags : Byte, (peerRecord p).drop 8 = [flags, p.age] ∧ flags.getLsbD 3 = p.lineMute ∧
      flags.getLsbD 2 = p.hush ∧ flags.getLsbD 1 = p.pairingOpen ∧ flags.getLsbD 0 = p.bearer ∧ flags.toNat < 16) ∧
  (∀ (busy : Bool) (p : Place), (bondRecord busy p).length = 9 ∧
    (bondRecord busy p).take 2 =
      [if busy then 4 else
        match p.state with
        | .erased => 0
        | .opened => 1
        | .valid => 2
        | .retired => 3,
       if p.locked then 1 else 0] ∧
    fieldOfBytes 24 (((bondRecord busy p).drop 2).take 3) = p.value.group ∧
    ((bondRecord busy p).drop 5).take 2 = [BitVec.ofNat 8 p.value.station.val, BitVec.ofNat 8 p.value.wearer.val] ∧
    fieldOfBytes 16 ((bondRecord busy p).drop 7) = p.value.seq) ∧
  ∀ s : State, (statusRecord s).length = 29 ∧
    (statusRecord s).take 3 =
      [s.station.state.code, BitVec.ofNat 8 s.station.creds.number.val, BitVec.ofNat 8 s.station.creds.wearer.val] ∧
    fieldOfBytes 24 (((statusRecord s).drop 3).take 3) = s.station.creds.group ∧
    ((statusRecord s).drop 6).take 7 =
      [s.voice.state.code, slotByte s.voice.slot, s.farEnd.state.code, slotByte s.farEnd.slot,
        BitVec.ofNat 8 s.bearer.state.code, BitVec.ofNat 8 s.bearer.age, s.pairing.window.state.code] ∧
    ((statusRecord s).drop 13).take 2 = bytesOfNat 2 s.pairing.window.remaining ∧
    ((statusRecord s).drop 15).take 4 =
      [s.pairing.window.lastCause.code, s.store.state.code, BitVec.ofNat 8 (if s.store.waiting.isSome then 1 else 0),
        s.store.cause.code] ∧
    ((statusRecord s).drop 19).take 4 = bytesOfNat 2 s.bearer.downlink.length ++ bytesOfNat 2 s.bearer.uplink.length ∧
    fieldOfBytes 32 (((statusRecord s).drop 23).take 4) = s.timer.counter ∧
    (statusRecord s).drop 27 = [BitVec.ofInt 8 s.timer.lastCorrection, BitVec.ofNat 8 s.peers.length]

/-- READ_EVENTS answers OK and the event word, clears exactly the flags in it (R177), and releases IRQN until CSN rises
(R178); a flag raised after it stays set (R176), and asserts IRQN outside such a transaction where it is not masked
(R178). IRQN is asserted while an unmasked flag is set and released while none is; in such a transaction it is released
whatever the flags hold, and the rise of CSN evaluates it again (R178). -/
def Obligations.ReadEventsClearsWhatItReports : Prop :=
  (∀ s : State, s.listensToHost →
    ∃ t, exec .readEvents s = .next t ∧
      t = { s with
              flags := 0
              port := { s.port with
                phase := .taken, readingEvents := true, reply := 0x00 :: bytesOfNat 4 s.flags.toNat } } ∧
      t.irqAsserted = false) ∧
  (∀ (s : State) (f g : Flag), (s.raise f).flagSet g = (s.flagSet g || decide (f = g))) ∧
  (∀ (s : State) (f : Flag), s.hold = none → s.port.readingEvents = false → s.config.mask.getLsbD f.bit = false →
    (s.raise f).irqAsserted = true) ∧
  (∀ s : State, s.hold = none →
    (s.port.readingEvents = true → s.irqAsserted = false) ∧
    (s.port.readingEvents = false →
      (s.irqAsserted = true ↔ ∃ f : Flag, s.flagSet f = true ∧ s.config.mask.getLsbD f.bit = false))) ∧
  ∀ (t : Nat) (cut : CutChoice) (s : State), s.hold = none → s.port.phase ≠ .high → s.port.softReset = false →
    ∃ u, exec (.csnRise t cut) s = .next u ∧ u.flags = s.flags ∧
      (u.irqAsserted = true ↔ ∃ f : Flag, s.flagSet f = true ∧ s.config.mask.getLsbD f.bit = false)

/-- The bytes of a host command name that command again, whatever its arguments (Tables 12-4, 12-6; R184). After
WRITE_DOWNLINK(n) and its result byte, each two bytes are a sample, the most significant first, up to n of them; a byte
left over and the samples beyond the n-th are ignored (R149, R184). -/
def Obligations.PortBytesNameTheirCommand : Prop :=
  (∀ (c : Instr) (bs more : List Byte), c.wf → bytesOfCommand c = some bs →
    commandOfBytes c.instant (bs ++ more) = some c) ∧
  ∀ (t : Nat) (n : BitVec 16) (result : Byte) (vs : List Sample) (odd : List Byte), odd.length ≤ 1 →
    commandsOfBytes t (0x50 :: bytesOfNat 2 n.toNat ++ result :: (vs.flatMap fun v => bytesOfNat 2 v.toNat) ++ odd) =
      .writeDownlink n :: (vs.take n.toNat).map .downlinkSample

/-! ### Configuration -/

/-- WRITE_CONFIG (R19, R36, R106, R174). In UNCONFIGURED every field is replaced, the mute input is settled under the
new polarity, the cycle timer starts at that instant with a free-running cycle already in the new format: 10,000 ticks
long from that instant, its slot 0 the first to come (R1, R20). The station goes to IDLE with STATE_CHANGED. In IDLE the
cycle runs on in the old format. In every later station state the command is refused with WRONG_STATE. -/
def Obligations.WriteConfigStartsOrKeepsTheTimer : Prop :=
  ∀ (t : Nat) (a : ConfigArgs) (s : State), s.listensToHost →
    (s.station.state = .unconfigured →
      ∃ u, exec (.writeConfig t a) s = .next u ∧
        u.port = s.tookPort [0x00] ∧ u.config = registerConfig a ∧
        u.mute = { lineHigh := s.mute.lineHigh, debounced := s.mute.lineHigh != (registerConfig a).muteLow,
                   expiry := none } ∧
        u.station.state = .idle ∧ u.station.creds = s.station.creds ∧ u.flags = s.flags ||| Flag.stateChanged.mark ∧
        (∃ c, u.timer.cycle = some c ∧ c.kind = .ordinary ∧ c.start = max s.now t ∧
          c.planned = max s.now t + 10000 ∧ c.correction = 0 ∧ c.length = 10000 ∧ c.respaced = [] ∧
          c.nextPhase = none) ∧
        u.chan.nextSlot = 0 ∧ u.chan.inSlot = false ∧ u.timer.log = [] ∧ u.timer.stepLoss = s.timer.stepLoss ∧
        u.timer.counter = s.timer.counter ∧ u.timer.lastCorrection = s.timer.lastCorrection ∧
        u.codec.syncLow = (registerConfig a).syncLow ∧ u.codec.edgeReversed = (registerConfig a).edgeReversed ∧
        u.codec.frameIx = 0 ∧ u.codec.shifting = none ∧ u.codec.capture = s.codec.capture ∧
        u.codec.playout = s.codec.playout ∧
        u.peers = s.peers ∧ u.views = s.views ∧ u.voice = s.voice ∧ u.farEnd = s.farEnd ∧ u.pairing = s.pairing ∧
        u.streams = s.streams ∧ u.bearer = s.bearer ∧ u.store = s.store ∧ u.pending = s.pending) ∧
    (s.station.state = .idle →
      exec (.writeConfig t a) s = .next
        { s with
            now := max s.now t
            config := registerConfig a
            mute := { lineHigh := s.mute.lineHigh, debounced := s.mute.lineHigh != (registerConfig a).muteLow,
                      expiry := none }
            port := { s.port with phase := .taken, reply := [0x00] } }) ∧
    (s.station.state ≠ .unconfigured → s.station.state ≠ .idle →
      exec (.writeConfig t a) s = .next (s.took [0x01])) ∧
    ((registerConfig a).tAct.toNat = min a.tAct.toNat 32767 ∧ (registerConfig a).gFar.toNat = min a.gFar.toNat 32767 ∧
      (registerConfig a).gVoice.toNat = min a.gVoice.toNat 32767 ∧ (registerConfig a).gUp.toNat = min a.gUp.toNat 32767 ∧
      (registerConfig a).gSide.toNat = min a.gSide.toNat 32767 ∧ (registerConfig a).vol.toNat = min a.vol.toNat 32767 ∧
      (registerConfig a).debounce.toNat = min (a.format.toNat % 8) 3 ∧
      (registerConfig a).syncLow = a.format.getLsbD 7 ∧ (registerConfig a).edgeReversed = a.format.getLsbD 6 ∧
      (registerConfig a).muteLow = a.format.getLsbD 5 ∧
      ∀ f : Flag, (registerConfig a).mask.getLsbD f.bit = a.mask.getLsbD f.bit)

/-- SET_LEVELS is taken in every station state, replaces vol and g_side together, each registered in 0..32767, and
changes nothing else (R130). -/
def Obligations.SetLevelsReplacesBothLevels : Prop :=
  ∀ (vol gSide : BitVec 16) (s : State), s.listensToHost →
    ∃ v g : Gain, v.toNat = min vol.toNat 32767 ∧ g.toNat = min gSide.toNat 32767 ∧
      exec (.setLevels vol gSide) s = .next
        { s with
            config := { s.config with vol := v, gSide := g }
            port := { s.port with phase := .taken, reply := [0x00] } }

/-! ### Station -/

/-- START (R37, R166): its checks in the order of Table 3-2, the first that fails giving the result; else LISTEN under the
named place, or under the VALID place of the highest sequence number and then the lowest index, read from the copy. That
the views become UNKNOWN there is the model's reading of R37 (assumption log 28). -/
def Obligations.StartLoadsTheChosenBond : Prop :=
  ∀ (u : Nat) (b : Byte) (s : State), s.listensToHost →
    let newest := fun j : Nat => (placeAt s.store.copy j).state = .valid ∧
      ∀ k, (placeAt s.store.copy k).state = .valid → k ≠ j →
        (placeAt s.store.copy k).value.seq.toNat < (placeAt s.store.copy j).value.seq.toNat ∨
          ((placeAt s.store.copy k).value.seq = (placeAt s.store.copy j).value.seq ∧ j < k)
    (s.station.state ≠ .idle → exec (.start b u) s = .next (s.took [0x01])) ∧
    (s.station.state = .idle → 16 ≤ b.toNat → b ≠ 0xFF → exec (.start b u) s = .next (s.took [0x08])) ∧
    (s.station.state = .idle → b.toNat < 16 ∨ b = 0xFF → s.store.state = .scanning →
      exec (.start b u) s = .next (s.took [0x02])) ∧
    (s.station.state = .idle → b.toNat < 16 → s.store.state ≠ .scanning →
      (placeAt s.store.copy b.toNat).state ≠ .valid → exec (.start b u) s = .next (s.took [0x03])) ∧
    (s.station.state = .idle → b = 0xFF → s.store.state ≠ .scanning → (∀ p ∈ s.store.copy, p.state ≠ .valid) →
      exec (.start b u) s = .next (s.took [0x03])) ∧
    (s.station.state = .idle → s.store.state ≠ .scanning →
      ∀ j, (b.toNat < 16 ∧ j = b.toNat ∧ (placeAt s.store.copy j).state = .valid) ∨ (b = 0xFF ∧ newest j) →
        ∃ t, exec (.start b u) s = .next t ∧ s.startedUnder u (placeAt s.store.copy j).value t)

/-- STOP (Table 3-3; R9, R41, R72, R81, R145). It is refused in UNCONFIGURED, IDLE and LEAVING. From LISTEN, SEEKING and
JOINING it goes to IDLE: the receiver is off from that instant, the join context is discarded, and credentials, peers,
views and the cycle are kept. From MEMBER it goes to LEAVING: the window closes with cause CLOSED, the bearer's role ends,
and each claim is released, to RELEASING in its slot when it holds one and to NONE when it waits; a role that is already
ENDING and a claim in NONE or RELEASING stay as they are. -/
def Obligations.StopLeavesTheGroup : Prop :=
  ∀ (u : Nat) (s : State), s.listensToHost →
    (s.station.state = .unconfigured ∨ s.station.state = .idle ∨ s.station.state = .leaving →
      exec (.stop u) s = .next (s.took [0x01])) ∧
    (s.station.state = .listen ∨ s.station.state = .seeking ∨ s.station.state = .joining →
      ∃ t, exec (.stop u) s = .next t ∧ t.port = s.tookPort [0x00] ∧ t.station.state = .idle ∧
        t.station.creds = s.station.creds ∧ t.flags = s.flags ||| Flag.stateChanged.mark ∧
        t.chan = { s.chan with cutSpans := s.chan.cutSpans ++ [(s.chan.onSince, max s.now u)] } ∧
        t.timer = s.timer ∧ t.peers = s.peers ∧ t.views = s.views ∧ t.voice = s.voice ∧ t.farEnd = s.farEnd ∧
        t.bearer = s.bearer ∧ t.streams = s.streams ∧ t.store = s.store ∧ t.pairing.window = s.pairing.window ∧
        t.pairing.offer = s.pairing.offer ∧ t.pairing.lapse = s.pairing.lapse ∧
        (s.station.state ≠ .listen → t.pairing.newcomer = none) ∧ t.now = max s.now u ∧ s.sameFrame t) ∧
    (s.station.state = .member → s.claimsOk →
      ∃ t, exec (.stop u) s = .next t ∧ t.port = s.tookPort [0x00] ∧ t.station.state = .leaving ∧
        t.station.creds = s.station.creds ∧ t.station.leavingEnds = 0 ∧ t.flagSet .stateChanged ∧
        (s.voice.state = .none ∨ s.voice.state = .releasing → t.voice = s.voice) ∧
        (s.voice.state = .tentative ∨ s.voice.state = .confirmed →
          t.voice = { Claim.gone with state := .releasing, slot := s.voice.slot }) ∧
        (s.voice.state = .waiting ∨ s.voice.state = .holdoff → t.voice = Claim.gone) ∧
        (s.bearer.state = .none ∨ s.bearer.state = .ending →
          t.bearer = s.bearer ∧ t.farEnd = s.farEnd ∧ t.streams = s.streams) ∧
        (s.farEnd.state = .tentative ∨ s.farEnd.state = .confirmed →
          t.farEnd = { Claim.gone with state := .releasing, slot := s.farEnd.slot } ∧
            t.bearer = { s.bearer with state := .ending } ∧ t.streams = s.streams) ∧
        (s.farEnd.state = .waiting ∨ s.farEnd.state = .holdoff →
          t.farEnd = Claim.gone ∧ t.bearer = Bearer.gone ∧ t.streams.farEnd.state = .absent ∧
            (s.streams.farEnd.state ≠ .absent → t.flagSet .farendDown)) ∧
        (s.pairing.window.state = .closed → t.pairing = s.pairing) ∧
        (s.pairing.window.state = .opened →
          t.pairing.window = { state := .closed, kind := none, remaining := 0, lastCause := .closed } ∧
            t.pairing.offer = none ∧ t.pairing.lapse = none ∧ t.flagSet .pairingEnded) ∧
        t.peers = s.peers ∧ t.views = s.views ∧ t.timer = s.timer ∧ t.store = s.store ∧ t.chan = s.chan ∧
        t.now = max s.now u ∧ s.sameFrame t)

/-- FOUND_GROUP (R38, R77, R164): its checks in order; the founded credentials, LISTEN, and the bond write requested at
that instant: it waits unless the store is IDLE, and else is placed on an ERASED or a RETIRED place or ends with the fault
FULL. That the views become UNKNOWN there is the model's reading of R37 (assumption log 28). JOIN_GROUP(kind) (R38, R92):
its checks in order; credentials 0, an empty peer table, a fresh join context, SEEKING with the receiver on from that
instant. -/
def Obligations.FoundGroupAndJoinGroupLeaveIdle : Prop :=
  (∀ (t : Nat) (s : State), s.listensToHost →
     (s.station.state ≠ .idle → exec (.foundGroup t) s = .next (s.took [0x01])) ∧
     (s.station.state = .idle → s.store.waiting ≠ none → exec (.foundGroup t) s = .next (s.took [0x02])) ∧
     (s.station.state = .idle → s.store.waiting = none →
       ∃ (u : State) (g : GroupCode), exec (.foundGroup t) s = .next u ∧
         (s.factoryId.toNat % 2 ^ 24 ≠ 0 → g.toNat = s.factoryId.toNat % 2 ^ 24) ∧
         (s.factoryId.toNat % 2 ^ 24 = 0 → g = 1) ∧
         u.port = s.tookPort [0x00] ∧ u.station.state = .listen ∧
         u.station.creds = { group := g, number := 1, wearer := 0 } ∧ u.station.listenCount = 0 ∧ u.peers = [] ∧
         u.flagSet .stateChanged ∧
         s.writeRequested { group := g, number := 1, wearer := 0 } (max s.now t) u ∧
         u.chan = { s.chan with onSince := max s.now t } ∧ u.now = max s.now t ∧ u.timer = s.timer ∧ u.viewsUnknown ∧
         u.voice = s.voice ∧ u.farEnd = s.farEnd ∧ u.pairing = s.pairing ∧ u.streams = s.streams ∧
         u.bearer = s.bearer ∧ s.sameFrame u)) ∧
  ∀ (t : Nat) (b : Byte) (s : State), s.listensToHost →
    (s.station.state ≠ .idle → exec (.joinGroup b t) s = .next (s.took [0x01])) ∧
    (s.station.state = .idle → b ≠ 1 → b ≠ 2 → exec (.joinGroup b t) s = .next (s.took [0x08])) ∧
    (s.station.state = .idle → b = 1 ∨ b = 2 → s.store.waiting ≠ none →
      exec (.joinGroup b t) s = .next (s.took [0x02])) ∧
    (s.station.state = .idle → b = 1 ∨ b = 2 → s.store.waiting = none →
      ∃ u, exec (.joinGroup b t) s = .next u ∧ u.port = s.tookPort [0x00] ∧ u.station.state = .seeking ∧
        u.station.creds = { group := 0, number := 0, wearer := 0 } ∧ u.peers = [] ∧
        u.flags = s.flags ||| Flag.stateChanged.mark ∧
        (∃ nc : Newcomer, u.pairing = { s.pairing with newcomer := some nc } ∧
          nc.kind = (if b = 1 then .newWearer else .partner) ∧ nc.target = none ∧ nc.seek = 0 ∧ nc.attempts = 0 ∧
          nc.hold = 0 ∧ nc.order = .none ∧ nc.accepted = none) ∧
        u.chan = { s.chan with onSince := max s.now t } ∧ u.timer = s.timer ∧ u.views = s.views ∧ u.voice = s.voice ∧
        u.farEnd = s.farEnd ∧ u.streams = s.streams ∧ u.bearer = s.bearer ∧ u.store = s.store ∧
        u.now = max s.now t ∧ s.sameFrame u)

/-! ### Pairing -/

/-- OPEN_PAIRING(kind) and CLOSE_PAIRING (R80, R81): the checks of Table 5-3 in order, the window opened with 3000
remaining cycles, and its close with cause CLOSED and PAIRING_ENDED. At a reception of another station with the window
OPEN: an entry created under the number of the lapse memory completes the lapsed offer with cause DONE and PAIRED (R90); a
peer's open window under a lower number closes the own one with cause YIELDED and PAIRING_ENDED (R83); nothing else
touches the pairing records. A yield in slot 15 that comes after the cycle end is kept for it (assumption log 7), and
CYCLE_END makes it, unless the window times out there (R82) or is closed by then (assumption log 21); that the peer view
acts before the pairing controller is the model's (assumption log 12). -/
def Obligations.PairingWindowOpensAndCloses : Prop :=
  (∀ (b : Byte) (s : State), s.listensToHost →
    (s.station.state ≠ .member → exec (.openPairing b) s = .next (s.took [0x01])) ∧
    (s.station.state = .member → b ≠ 1 → b ≠ 2 → exec (.openPairing b) s = .next (s.took [0x08])) ∧
    (s.station.state = .member → b = 1 ∨ b = 2 → s.pairing.window.state = .opened →
      exec (.openPairing b) s = .next (s.took [0x01])) ∧
    (s.station.state = .member → b = 1 ∨ b = 2 → s.pairing.window.state = .closed →
      (∃ p ∈ s.peers, p.state = .active ∧ p.pairingOpen) → exec (.openPairing b) s = .next (s.took [0x07])) ∧
    (s.station.state = .member → b = 1 ∨ b = 2 → s.pairing.window.state = .closed →
      (∀ p ∈ s.peers, p.state = .active → p.pairingOpen = false) →
      exec (.openPairing b) s = .next
        { s.took [0x00] with pairing :=
            { s.pairing with
                window :=
                  { state := .opened, kind := some (if b = 1 then .newWearer else .partner), remaining := 3000,
                    lastCause := s.pairing.window.lastCause }
                offer := none
                lapse := none } })) ∧
  (∀ s : State, s.listensToHost →
    (s.pairing.window.state = .closed → exec .closePairing s = .next (s.took [0x01])) ∧
    (s.pairing.window.state = .opened →
      exec .closePairing s = .next
        { s.took [0x00] with
            pairing :=
              { s.pairing with
                  window := { state := .closed, kind := none, remaining := 0, lastCause := .closed }
                  offer := none
                  lapse := none }
            flags := s.flags ||| Flag.pairingEnded.mark })) ∧
  (∀ (c : Cycle) (k : SlotIx) (air : List AirItem) (a f : Nat) (bytes : List Byte) (b : Burst)
     (order : ReceptionOrder) (s : State),
    s.hearsAlone c k air a f bytes b → b.inStepAt c k a → s.station.state = .member → b.group = s.station.creds.group →
    b.sender ≠ s.station.creds.number → b.sender ≠ 0 → s.pairing.window.state = .opened →
    let creates := (b.kind = .voice ∨ b.kind = .farend) ∧ (∀ p ∈ s.peers, p.number ≠ b.sender) ∧
      (s.peers.length < 15 ∨ ∃ p ∈ s.peers, p.state = .lost)
    let infers := creates ∧ ∃ l, s.pairing.lapse = some l ∧ l.number = b.sender
    let yields := ¬infers ∧ b.pairingOpen = true ∧ b.sender < s.station.creds.number
    let closed := fun cause : CloseCause =>
      { s.pairing with
          window := { state := .closed, kind := none, remaining := 0, lastCause := cause }
          offer := none
          lapse := none }
    ∃ t, exec (.slotEnd order air) s = .next t ∧
      (infers → t.pairing = closed .done ∧ t.flagSet .paired) ∧
      (yields → k ≠ 15 ∨ order = .receptionFirst → t.pairing = closed .yielded ∧ t.flagSet .pairingEnded) ∧
      (yields → k = 15 → order = .cycleEndFirst → t.pairing = s.pairing ∧ .windowYield ∈ t.chan.late) ∧
      (¬infers → ¬yields → t.pairing = s.pairing)) ∧
  ∀ (c : Cycle) (order : DeadlineOrder) (s : State), s.endsCycle c → s.station.state = .member →
    s.chan.late = [.windowYield] ∨ s.chan.late = [.electionYield, .windowYield] →
    ∃ t, exec (.cycleEnd order) s = .next t ∧ t.chan.late = [] ∧
      (s.pairing.window.state = .closed → t.pairing.window = s.pairing.window) ∧
      (s.pairing.window.state = .opened →
        t.pairing =
          { s.pairing with
              window := { state := .closed, kind := none, remaining := 0
                          lastCause := if s.windowTimesOut then .timeout else .yielded }
              offer := none
              lapse := none } ∧ t.flagSet .pairingEnded)

/-- The numbers of an offer (R85, R86). The station number exists whenever the table holds at most 15 entries, and is the
lowest in 1..30 that neither the station nor an entry bears. A NEW_WEARER window gives the lowest wearer number that
neither bears, and none exactly when all eight are borne. A PARTNER window gives the own wearer number exactly when the
station is the one admitted for it. -/
def Obligations.OfferedNumbersAreTheLowestFree : Prop :=
  (∀ (own : StationNo) (ps : List Peer), ps.length ≤ 15 →
    ∃ n, assignStation own ps = some n ∧ 1 ≤ n.val ∧ n.val ≤ 30 ∧ n ≠ own ∧ (∀ p ∈ ps, p.number ≠ n) ∧
      ∀ m : StationNo, 1 ≤ m.val → m.val ≤ 30 → m ≠ own → (∀ p ∈ ps, p.number ≠ m) → n ≤ m) ∧
  (∀ (c : Credentials) (ps : List Peer) (w : WearerNo), assignWearer .newWearer c ps = some w ↔
    w ≠ c.wearer ∧ (∀ p ∈ ps, p.wearer ≠ w) ∧ ∀ v, v ≠ c.wearer → (∀ p ∈ ps, p.wearer ≠ v) → w ≤ v) ∧
  (∀ (c : Credentials) (ps : List Peer), assignWearer .newWearer c ps = none ↔
    ∀ w, w = c.wearer ∨ ∃ p ∈ ps, p.wearer = w) ∧
  ∀ (c : Credentials) (ps : List Peer) (w : WearerNo), (∀ p ∈ ps, p.number ≠ c.number) →
    (assignWearer .partner c ps = some w ↔ w = c.wearer ∧ admitted c ps w = [c.number])

/-- Slot 14 at a member. A JOIN in step of the window's kind, with no offer present, is answered with an offer of the
assigned numbers, or raises PAIRING_FULL when there is no wearer number (R84 to R86); any other JOIN is ignored. In the
cycle after an offer's it completes with a CONFIRM that matches, and lapses with anything else, whatever the slot held: an
empty or an unreadable slot, any other burst (R88, R89). -/
def Obligations.OffersAreMadeAndSettled : Prop :=
  ∀ (c : Cycle) (order : ReceptionOrder) (s : State), s.endsSlot c 14 → s.station.state = .member →
    s.chan.sentInSlot = false →
    (∀ air a f bytes b id kind, s.hearsAlone c 14 air a f bytes b → b.inStepAt c 14 a → b.body = .join id kind →
      s.pairing.offer = none →
      let matching := s.pairing.window.state = .opened ∧ s.pairing.window.kind = some kind
      (∀ n w, matching → assignStation s.station.creds.number s.peers = some n →
        assignWearer kind s.station.creds s.peers = some w →
        exec (.slotEnd order air) s = .next
          { s.slotOver c 14 .foreign (s.laterItems c 14 air) with
              pairing :=
                { s.pairing with
                    offer := some
                      { target := id, station := n, wearer := w, cycleSent := s.timer.counter, sent := false } } }) ∧
      (matching → assignWearer kind s.station.creds s.peers = none →
        exec (.slotEnd order air) s = .next
          { s.slotOver c 14 .foreign (s.laterItems c 14 air) with flags := s.flags ||| Flag.pairingFull.mark }) ∧
      (¬matching → exec (.slotEnd order air) s = .next (s.slotOver c 14 .foreign (s.laterItems c 14 air)))) ∧
    ∀ o, s.pairing.offer = some o → s.timer.counter = o.cycleSent + 1 →
      let lapsed : Pairing := { s.pairing with offer := none, lapse := some { number := o.station, age := 0 } }
      (∀ air, s.itemsOf c 14 air = [] →
        exec (.slotEnd order air) s = .next { s.slotOver c 14 .empty (s.laterItems c 14 air) with pairing := lapsed }) ∧
      (∀ air x xs, s.itemsOf c 14 air = x :: xs → (∀ y ∈ x :: xs, s.receivesIn c 14 y) →
        xs ≠ [] ∨ (∃ i, x = .energy i) ∨ (∃ a f bytes, x = .burst a f bytes ∧ parseBurst bytes = none) →
        exec (.slotEnd order air) s = .next
          { s.slotOver c 14 .corrupt (s.laterItems c 14 air) with pairing := lapsed }) ∧
      (∀ air, (∀ a f bytes b, .burst a f bytes ∈ s.chan.held ++ air → parseBurst bytes = some b →
          b.body ≠ .confirm o.target s.station.creds.number o.station) →
        ∃ t, exec (.slotEnd order air) s = .next t ∧ t.pairing = lapsed) ∧
      ∀ air a f bytes b, s.hearsAlone c 14 air a f bytes b →
        let answered := b.inStepAt c 14 a ∧ b.group = s.station.creds.group ∧
          b.body = .confirm o.target s.station.creds.number o.station
        (answered → s.pairing.window.state = .opened →
          exec (.slotEnd order air) s = .next
            { s.slotOver c 14 .foreign (s.laterItems c 14 air) with
                pairing :=
                  { s.pairing with
                      window := { state := .closed, kind := none, remaining := 0, lastCause := .done }
                      offer := none
                      lapse := none }
                flags := s.flags ||| Flag.paired.mark }) ∧
        (¬answered → ∃ t, exec (.slotEnd order air) s = .next t ∧ t.pairing = lapsed ∧
          t.flags = s.flags ∧ t.station = s.station ∧ t.peers = s.peers ∧ s.sameFrame t)

/-- A newcomer. In slot 15 of the cycle of its JOIN it accepts the first OFFER in step that names its factory ID under its
target group, and ignores any other (R95). At the end of the slot 14 of its CONFIRM it enters the group under the offered
credentials: MEMBER, JOINED, views UNKNOWN, voice claim WAITING, the bond write requested, the join context discarded
(R78, R96). -/
def Obligations.NewcomerAcceptsAndEnters : Prop :=
  (∀ (c : Cycle) (air : List AirItem) (a f : Nat) (bytes : List Byte) (b : Burst)
     (id : FactoryId) (n : StationNo) (w : WearerNo)
    (nc : Newcomer) (order : ReceptionOrder) (s : State),
    s.hearsAlone c 15 air a f bytes b → b.inStepAt c 15 a → s.station.state = .joining → b.body = .offer id n w →
    s.pairing.newcomer = some nc →
    exec (.slotEnd order air) s = .next
      { s.slotOver c 15 .foreign (s.laterItems c 15 air) with
          pairing :=
            { s.pairing with
                newcomer := some
                  (if id = s.factoryId ∧ nc.target = some b.group ∧ nc.order = .join ∧ nc.accepted = none then
                    { nc with accepted := some { group := b.group, offerer := b.sender, station := n, wearer := w } }
                   else nc) } }) ∧
  ∀ (c : Cycle) (air : List AirItem) (nc : Newcomer) (acc : Accepted) (order : ReceptionOrder) (s : State),
    s.endsSlot c 14 → s.chan.sentInSlot = true → s.station.state = .joining → s.claimsOk → s.pairing.offer = none →
    s.pairing.newcomer = some nc → nc.order = .confirm → nc.accepted = some acc →
    let creds : Credentials := { group := acc.group, number := acc.station, wearer := acc.wearer }
    ∃ t, exec (.slotEnd order air) s = .next t ∧ t.station.state = .member ∧ t.station.creds = creds ∧
      t.voice = { Claim.gone with state := .waiting } ∧ t.viewsUnknown ∧
      t.pairing = { s.pairing with newcomer := none } ∧ t.flagSet .joined ∧ t.flagSet .stateChanged ∧
      s.writeRequested creds (c.slotEnd 14).toNat t ∧
      t.peers = s.peers ∧ t.timer = s.timer ∧ t.chan.held = s.laterItems c 14 air ∧ s.sameFrame t

/-- The countdowns of pairing. The rows that end one, where they are due (R81, R82, R90, R93); that they come as steps of
their own ahead of the cycle end, and mark the window or the lapse memory as counted there, is the model's (assumption log
6). CYCLE_END makes what no row has made: in MEMBER one remaining cycle less, or the close with cause TIMEOUT; the lapse
memory one older, and cleared at 8; an offer that a step jump finds lapses with age 0 (R91); in SEEKING one seek count
more, or the timeout at 3000. -/
def Obligations.PairingCountdownsCountAndRunOut : Prop :=
  (∀ (c : Cycle) (s : State), s.timer.cycle = some c → s.atCycleEndOrSlot15 → s.station.state = .member →
    s.early.windowCounted = false → s.pairing.window.state = .opened → s.pairing.window.remaining = 1 →
    ∃ u, exec .pairingWindowTimeout s = .next u ∧
      u.pairing =
        { s.pairing with
            window := { state := .closed, kind := none, remaining := 0, lastCause := .timeout }
            offer := none
            lapse := none } ∧
      u.flags = s.flags ||| Flag.pairingEnded.mark ∧ u.station = s.station ∧ u.peers = s.peers ∧ u.voice = s.voice ∧
      u.timer = s.timer ∧ u.bearer = s.bearer ∧ u.store = s.store ∧ u.early = { s.early with windowCounted := true } ∧
      s.sameFrame u) ∧
  (∀ (c : Cycle) (l : Lapse) (s : State), s.timer.cycle = some c → s.atCycleEndOrSlot15 → s.station.state = .member →
    s.early.lapseAged = false → s.pairing.lapse = some l → l.age = 7 →
    ∃ u, exec .lapseMemoryExpiry s = .next u ∧ u.pairing = { s.pairing with lapse := none } ∧ u.flags = s.flags ∧
      u.station = s.station ∧ u.peers = s.peers ∧ u.voice = s.voice ∧ u.timer = s.timer ∧ u.bearer = s.bearer ∧
      u.store = s.store ∧ u.early = { s.early with lapseAged := true } ∧ s.sameFrame u) ∧
  (∀ (c : Cycle) (nc : Newcomer) (s : State), s.timer.cycle = some c → s.atCycleEndOrSlot15 →
    s.station.state = .seeking → s.pairing.newcomer = some nc → nc.seek = 2999 →
    ∃ u, exec .seekTimeout s = .next u ∧ u.station.state = .idle ∧ u.station.creds = s.station.creds ∧
      u.pairing = { s.pairing with newcomer := none } ∧
      u.flags = s.flags ||| Flag.stateChanged.mark ||| Flag.pairTimeout.mark ∧ u.peers = s.peers ∧ u.voice = s.voice ∧
      u.timer = s.timer ∧ u.bearer = s.bearer ∧ u.store = s.store ∧ s.sameFrame u) ∧
  (∀ (c : Cycle) (order : DeadlineOrder) (s : State), s.endsCycle c → s.chan.late = [] → s.station.state = .member →
    let counts := s.pairing.window.state = .opened ∧ s.early.windowCounted = false
    let lapses := s.jumpDue c = true ∧ s.pairing.offer ≠ none
    ∃ u, exec (.cycleEnd order) s = .next u ∧ u.pairing.newcomer = s.pairing.newcomer ∧
      (counts → s.pairing.window.remaining ≤ 1 →
        u.pairing =
          { s.pairing with
              window := { state := .closed, kind := none, remaining := 0, lastCause := .timeout }
              offer := none
              lapse := none } ∧ u.flagSet .pairingEnded) ∧
      (counts → 1 < s.pairing.window.remaining →
        u.pairing.window = { s.pairing.window with remaining := s.pairing.window.remaining - 1 }) ∧
      (¬counts → u.pairing.window = s.pairing.window) ∧
      (¬(counts ∧ s.pairing.window.remaining ≤ 1) →
        (∀ o, lapses → s.pairing.offer = some o →
          u.pairing.offer = none ∧ u.pairing.lapse = some { number := o.station, age := 0 }) ∧
        (¬lapses → u.pairing.offer = s.pairing.offer ∧
          (s.early.lapseAged = true ∨ s.pairing.lapse = none → u.pairing.lapse = s.pairing.lapse) ∧
          ∀ l, s.early.lapseAged = false → s.pairing.lapse = some l →
            (l.age < 7 → u.pairing.lapse = some { l with age := l.age + 1 }) ∧
              (7 ≤ l.age → u.pairing.lapse = none)))) ∧
  ∀ (c : Cycle) (nc : Newcomer) (order : DeadlineOrder) (s : State), s.endsCycle c → s.chan.late = [] →
    s.station.state = .seeking → s.pairing.newcomer = some nc →
    ∃ u, exec (.cycleEnd order) s = .next u ∧ u.station.creds = s.station.creds ∧ u.pairing.window = s.pairing.window ∧
      (nc.seek < 2999 → u.station = s.station ∧ u.pairing.newcomer = some { nc with seek := nc.seek + 1 }) ∧
      (2999 ≤ nc.seek → u.station.state = .idle ∧ u.pairing.newcomer = none ∧ u.flagSet .pairTimeout ∧
        u.flagSet .stateChanged)

/-- A newcomer at a cycle end in JOINING (R43, R94). CYCLE_END makes the decision: an accepted offer orders the CONFIRM; a
JOIN without an offer sets a hold of the factory ID mod 8, plus 1; a hold is counted down, and at 0 a JOIN is ordered. A
hold that runs out, and the 64th JOIN without an offer, which ends JOINING, may come as rows of their own ahead of the
cycle end, which mark the newcomer as decided; CYCLE_END then leaves it as it is (assumption log 6). -/
def Obligations.NewcomerOrdersAndGivesUp : Prop :=
  (∀ (c : Cycle) (nc : Newcomer) (order : DeadlineOrder) (s : State), s.timer.cycle = some c → s.atCycleEnd →
    s.codec.frameIx = 160 → s.station.state = .joining → s.early.joinDecided = false → s.early.jump = none →
    s.pairing.newcomer = some nc →
    ∃ u, exec (.cycleEnd order) s = .next u ∧
      (nc.accepted ≠ none → nc.order ≠ .confirm → u.pairing.newcomer = some { nc with order := .confirm }) ∧
      (nc.accepted = none → nc.order = .join → nc.attempts < 64 →
        u.pairing.newcomer = some { nc with hold := s.factoryId.toNat % 8 + 1, order := .none }) ∧
      (nc.accepted = none → nc.order = .join → 64 ≤ nc.attempts →
        u.pairing.newcomer = none ∧ u.station.state = .idle ∧ u.flagSet .pairTimeout ∧ u.flagSet .stateChanged) ∧
      (nc.accepted = none → nc.order = .none → c.nextPhase = none → 0 < nc.hold →
        u.pairing.newcomer = some
          { nc with hold := nc.hold - 1, order := if nc.hold = 1 then .join else .none }) ∧
      (nc.accepted = none → nc.order = .none → c.nextPhase ≠ none ∨ nc.hold = 0 → u.pairing.newcomer = some nc)) ∧
  (∀ (c : Cycle) (order : DeadlineOrder) (s : State), s.endsCycle c → s.station.state = .joining →
    s.early.joinDecided = true →
    ∃ u, exec (.cycleEnd order) s = .next u ∧ u.pairing.newcomer = s.pairing.newcomer ∧ u.station = s.station ∧
      u.flagSet .pairTimeout = s.flagSet .pairTimeout) ∧
  (∀ (c : Cycle) (nc : Newcomer) (s : State), s.timer.cycle = some c → s.atCycleEnd → s.station.state = .joining →
    s.early.joinDecided = false → s.pairing.newcomer = some nc → nc.order = .none → nc.accepted = none → nc.hold = 1 →
    c.nextPhase = none → s.early.jump = none →
    ∃ u, exec .joinHoldExpiry s = .next u ∧
      u.pairing = { s.pairing with newcomer := some { nc with hold := 0, order := .join } } ∧ u.flags = s.flags ∧
      u.station = s.station ∧ u.timer = s.timer ∧ u.voice = s.voice ∧ u.store = s.store ∧
      u.early = { s.early with joinDecided := true } ∧ s.sameFrame u) ∧
  ∀ (c : Cycle) (nc : Newcomer) (s : State), s.timer.cycle = some c → s.atCycleEnd → s.station.state = .joining →
    s.early.joinDecided = false → s.pairing.newcomer = some nc → nc.order = .join → nc.accepted = none →
    nc.attempts = 64 →
    ∃ u, exec .joinAttemptsExhausted s = .next u ∧ u.station.state = .idle ∧ u.station.creds = s.station.creds ∧
      u.pairing = { s.pairing with newcomer := none } ∧
      u.flags = s.flags ||| Flag.stateChanged.mark ||| Flag.pairTimeout.mark ∧ u.timer = s.timer ∧ u.voice = s.voice ∧
      u.store = s.store ∧ u.early = { s.early with joinDecided := true } ∧ s.sameFrame u

/-! ### The call -/

/-- BEAR_CALL (R141, Table 9-3): its checks in order; CLAIMING with a fresh record and empty queues, the far-end claim
WAITING, nothing else. END_CALL (R145, R147): the claim released; ENDING with everything kept when it holds a slot,
NONE at once with the flush when it waits; refused when there is no role to end. -/
def Obligations.CallCommandsTakeAndEndTheRole : Prop :=
  (∀ s : State, s.listensToHost →
     (s.station.state ≠ .member ∨ s.bearer.state ≠ .none → exec .bearCall s = .next (s.took [0x01])) ∧
     (s.station.state = .member → s.bearer.state = .none → (∃ p ∈ s.peers, p.state = .active ∧ p.bearer) →
       exec .bearCall s = .next (s.took [0x06])) ∧
     (s.station.state = .member → s.bearer.state = .none → (∀ p ∈ s.peers, p.state = .active → p.bearer = false) →
       exec .bearCall s = .next
         { s.took [0x00] with
             bearer := { Bearer.gone with state := .claiming }
             farEnd := { Claim.gone with state := .waiting } })) ∧
  ∀ s : State, s.listensToHost →
    (s.bearer.state = .none ∨ s.bearer.state = .ending → exec .endCall s = .next (s.took [0x01])) ∧
    (s.bearer.state = .claiming ∨ s.bearer.state = .bearing →
      s.farEnd.state = .tentative ∨ s.farEnd.state = .confirmed →
      exec .endCall s = .next
        { s.took [0x00] with
            bearer := { s.bearer with state := .ending }
            farEnd := { Claim.gone with state := .releasing, slot := s.farEnd.slot } }) ∧
    (s.bearer.state = .claiming ∨ s.bearer.state = .bearing →
      s.farEnd.state = .waiting ∨ s.farEnd.state = .holdoff →
      ∃ t, exec .endCall s = .next t ∧ t.port = s.tookPort [0x00] ∧ t.bearer = Bearer.gone ∧ t.farEnd = Claim.gone ∧
        t.streams.farEnd.state = .absent ∧ t.streams.wearers = s.streams.wearers ∧
        (s.streams.farEnd.state = .absent → t.flags = s.flags) ∧
        (s.streams.farEnd.state ≠ .absent → t.flags = s.flags ||| Flag.farendDown.mark) ∧
        t.station = s.station ∧ t.voice = s.voice ∧ t.peers = s.peers ∧ t.timer = s.timer ∧ t.pairing = s.pairing ∧
        t.store = s.store ∧ t.views = s.views ∧ t.chan = s.chan ∧ s.sameFrame t)

/-- WRITE_DOWNLINK(n) and READ_UPLINK(n) (R149, R155): the checks in order, the samples that may follow, and the status
word of READ_UPLINK (Table 12-10). A downlink sample joins, overruns a full queue, or is discarded after the role's end,
and beyond the n-th, or after a refused command, it is ignored; an uplink position takes the oldest sample, or shifts out
zero and takes nothing (R149, R155, R156). -/
def Obligations.AudioTransfersMoveSamples : Prop :=
  (∀ (n : BitVec 16) (s : State), s.listensToHost →
     (s.bearer.state = .none ∨ s.bearer.state = .ending → exec (.writeDownlink n) s = .next (s.took [0x01])) ∧
     (s.bearer.state = .claiming ∨ s.bearer.state = .bearing → n.toNat = 0 ∨ 640 < n.toNat →
       exec (.writeDownlink n) s = .next (s.took [0x08])) ∧
     (s.bearer.state = .claiming ∨ s.bearer.state = .bearing → 1 ≤ n.toNat → n.toNat ≤ 640 →
       exec (.writeDownlink n) s = .next
         { s with port := { s.tookPort [0x00] with transfer := .downlink n.toNat } }) ∧
     (640 < n.toNat → exec (.readUplink n) s = .next (s.took [0x08])) ∧
     (n.toNat ≤ 640 →
       exec (.readUplink n) s = .next
         { s with port :=
             { s.tookPort (0x00 :: bytesOfNat 2 (s.bearer.state.code * 16384 +
                 (if s.bearer.primed then 8192 else 0) + min n.toNat s.bearer.uplink.length)) with
               transfer := .uplink (min n.toNat s.bearer.uplink.length) } })) ∧
  ∀ s : State, s.hold = none →
    (∀ (left : Nat) (v : Sample), s.port.transfer = .downlink (left + 1) →
      s.bearer.state = .claiming ∨ s.bearer.state = .bearing → s.bearer.downlink.length < 640 →
      exec (.downlinkSample v) s = .next
        { s with
            port := { s.port with transfer := .downlink left }
            bearer := { s.bearer with downlink := s.bearer.downlink ++ [v] } }) ∧
    (∀ (left : Nat) (v : Sample), s.port.transfer = .downlink (left + 1) →
      s.bearer.state = .claiming ∨ s.bearer.state = .bearing → 640 ≤ s.bearer.downlink.length →
      exec (.downlinkSample v) s = .next
        { s with
            port := { s.port with transfer := .downlink left }
            flags := s.flags ||| Flag.downlinkOverrun.mark }) ∧
    (∀ (left : Nat) (v : Sample), s.port.transfer = .downlink (left + 1) →
      s.bearer.state = .none ∨ s.bearer.state = .ending →
      exec (.downlinkSample v) s = .next { s with port := { s.port with transfer := .downlink left } }) ∧
    (∀ v : Sample, s.port.transfer = .downlink 0 ∨ s.port.transfer = .none → exec (.downlinkSample v) s = .next s) ∧
    (∀ (left : Nat) (v : Sample) (rest : List Sample), s.port.transfer = .uplink (left + 1) →
      s.bearer.uplink = v :: rest →
      exec .uplinkSamplePosition s = .next
        { s with
            port := { s.port with transfer := .uplink left, reply := s.port.reply ++ bytesOfNat 2 v.toNat }
            bearer := { s.bearer with uplink := rest } }) ∧
    (∀ left : Nat, s.port.transfer = .uplink (left + 1) → s.bearer.uplink = [] →
      exec .uplinkSamplePosition s = .next
        { s with port := { s.port with transfer := .uplink left, reply := s.port.reply ++ [0x00, 0x00] } }) ∧
    (s.port.transfer = .uplink 0 →
      exec .uplinkSamplePosition s = .next
        { s with port := { s.port with reply := s.port.reply ++ [0x00, 0x00] } })

/-- The two payloads that a CYCLE_END prepares. The take (Table 9-6, R150, R151): a hush that removes nothing while the
queue has not held 240 samples; else a frame of 160 samples, sample by sample, the number removed, the hold sample, the
underrun mark and its event. CYCLE_END makes it where the far-end claim is TENTATIVE or CONFIRMED as decided there, and
nowhere else (R64, R150). The voice payload (R98, R107, R108): in MEMBER the capture frame encoded, or the hush under
effective mute, the own debounced state or the flag of the own partner with the cycle just ended counted; in every other
state none. A change of station state at that instant may come first or second (R98; the order is the command's,
assumption log 7). -/
def Obligations.CycleEndPreparesThePayloads : Prop :=
  (∀ (hold : Sample) (q : List Sample),
    (takeFrame hold q).length = 160 ∧
    ∀ i, i < 160 →
      (takeFrame hold q).getD i 0 =
        if 400 < q.length ∧ i = 159 then BitVec.ofInt 16 (((q.getD 159 0).toInt + (q.getD 160 0).toInt) / 2)
        else if 160 ≤ q.length ∧ q.length < 240 ∧ i = 159 then q.getD 158 0
        else if i < q.length then q.getD i 0
        else if q.length = 0 then hold
        else q.getD (q.length - 1) 0) ∧
  (∀ s : State, s.bearer.primed = false → s.bearer.downlink.length < 240 →
    s.makeTake =
      { s with bearer := { s.bearer with lastTake := .hush }, chan := { s.chan with farPayload := none } }) ∧
  (∀ s : State, s.bearer.primed = true ∨ 240 ≤ s.bearer.downlink.length →
    let f := takeFrame s.bearer.holdSample s.bearer.downlink
    let F := s.bearer.downlink.length
    s.makeTake.bearer =
      { s.bearer with
          primed := true
          underrun := decide (F < 160)
          holdSample := f.getD 159 0
          lastTake := .frame
          downlink := s.bearer.downlink.drop (if 400 < F then 161 else if 240 ≤ F then 160 else if 160 ≤ F then 159 else F) } ∧
    s.makeTake.chan = { s.chan with farPayload := some (encodeFrame f) } ∧
    s.makeTake.flags = if F < 160 ∧ s.bearer.underrun = false then s.flags ||| Flag.downlinkUnderrun.mark else s.flags) ∧
  ∀ (c : Cycle) (order : DeadlineOrder) (s : State), s.endsCycle c → s.chan.late = [] → s.peersOk →
    let held := fun b : Bearer => (b.primed, b.underrun, b.holdSample, b.downlink)
    let pair := admitted s.station.creds s.countedPeers s.station.creds.wearer
    let muted := s.mute.debounced = true ∨
      (s.station.creds.number ∈ pair ∧ ∃ p ∈ s.countedPeers, p.number ∈ pair ∧ p.lineMute = true)
    ∃ t, exec (.cycleEnd order) s = .next t ∧
      let takes := t.farEnd.state = .tentative ∨ t.farEnd.state = .confirmed
      let station := match order with
        | .stateFirst => t.station.state
        | .deadlineFirst => s.station.state
      (takes → held t.bearer = held s.makeTake.bearer ∧ t.bearer.lastTake = s.makeTake.bearer.lastTake ∧
        t.chan.farPayload = s.makeTake.chan.farPayload ∧
        t.flagSet .downlinkUnderrun = s.makeTake.flagSet .downlinkUnderrun) ∧
      (¬takes → t.bearer.lastTake = .none ∧ t.chan.farPayload = s.chan.farPayload ∧
        t.flagSet .downlinkUnderrun = s.flagSet .downlinkUnderrun ∧
        (s.bearer.state ≠ .ending → held t.bearer = held s.bearer)) ∧
      (station ≠ .member → t.chan.voicePayload = .none) ∧
      (station = .member → muted → t.chan.voicePayload = .hush) ∧
      (station = .member → ¬muted → t.chan.voicePayload = .frame (encodeFrame s.codec.capture))

/-- The election (R144). Of two bearers of different numbers that each receive a burst of the other carrying its age,
exactly one yields. At a member's OWN reception with bearer flag 1, the station in CLAIMING or BEARING yields to a greater
age, or to an equal one under a lower number: the far-end claim is dropped, the record flushed, BEARER_CONFLICT raised,
the voice claim's slot and the station kept; otherwise the role stays. A yield in slot 15 that comes after the cycle end
is kept for it, and CYCLE_END makes it (assumption log 7). -/
def Obligations.ExactlyOneOfTwoBearersYields : Prop :=
  (∀ (s t : State) (b d : Burst),
    s.bearer.state = .claiming ∨ s.bearer.state = .bearing → t.bearer.state = .claiming ∨ t.bearer.state = .bearing →
    s.station.creds.number ≠ t.station.creds.number →
    b.bearer = true → b.sender = s.station.creds.number → b.age.toNat = s.bearer.age →
    d.bearer = true → d.sender = t.station.creds.number → d.age.toNat = t.bearer.age →
    t.losesElection b = !s.losesElection d) ∧
  (∀ s : State, s.electionYield.farEnd = Claim.gone ∧ s.electionYield.bearer = Bearer.gone ∧
    s.electionYield.flagSet .bearerConflict ∧ s.electionYield.voice = s.voice ∧ s.electionYield.station = s.station ∧
    s.electionYield.pairing = s.pairing ∧ s.electionYield.streams.farEnd.state = .absent) ∧
  (∀ (c : Cycle) (k : SlotIx) (air : List AirItem) (a f : Nat) (bytes : List Byte) (b : Burst)
     (order : ReceptionOrder) (s : State),
    s.hearsAlone c k air a f bytes b → b.inStepAt c k a → s.station.state = .member ∨ s.station.state = .leaving →
    b.group = s.station.creds.group → b.sender ≠ s.station.creds.number → b.sender ≠ 0 →
    let loses := (s.bearer.state = .claiming ∨ s.bearer.state = .bearing) ∧ b.bearer = true ∧
      (s.bearer.age < b.age.toNat ∨ (b.age.toNat = s.bearer.age ∧ b.sender < s.station.creds.number))
    ∃ t, exec (.slotEnd order air) s = .next t ∧ t.station = s.station ∧
      t.voice.state = s.voice.state ∧ t.voice.slot = s.voice.slot ∧ (s.losesElection b = true ↔ loses) ∧
      (loses → k ≠ 15 ∨ order = .receptionFirst →
        t.farEnd = Claim.gone ∧ t.bearer = Bearer.gone ∧ t.flagSet .bearerConflict ∧
          t.streams.farEnd.state = .absent ∧ (s.streams.farEnd.state ≠ .absent → t.flagSet .farendDown)) ∧
      (loses → k = 15 → order = .cycleEndFirst → t.bearer = s.bearer ∧ .electionYield ∈ t.chan.late) ∧
      (¬loses → t.bearer = s.bearer ∧ t.farEnd.state = s.farEnd.state ∧ t.farEnd.slot = s.farEnd.slot ∧
        t.flagSet .bearerConflict = s.flagSet .bearerConflict)) ∧
  ∀ (c : Cycle) (order : DeadlineOrder) (s : State), s.endsCycle c →
    s.chan.late = [.electionYield] ∨ s.chan.late = [.electionYield, .windowYield] →
    s.bearer.state = .claiming ∨ s.bearer.state = .bearing →
    ∃ t, exec (.cycleEnd order) s = .next t ∧ t.farEnd = Claim.gone ∧ t.bearer = Bearer.gone ∧
      t.flagSet .bearerConflict ∧ t.streams.farEnd.state = .absent

/-! ### The bond store -/

/-- RETIRE_BOND, LOCK_BOND, ERASE_BOND and CLEAR_FAULT (R162, R167, Table 10-4): the checks in their order against the
copy, and the operation that starts at the instant of the taking. -/
def Obligations.StoreCommandsFollowTheirChecks : Prop :=
  ∀ (t : Nat) (b : Byte) (s : State), s.listensToHost →
    let p := placeAt s.store.copy b.toNat
    let free := s.store.state = .idle ∧ s.store.waiting = none
    let started := fun (op : StoreOp) =>
      ({ s.took [0x00] with
          now := max s.now t
          store := { s.store with
            state := .busy, flight := some { op := op, place := b.toNat, start := max s.now t } } } : State)
    (16 ≤ b.toNat →
      exec (.retireBond t b) s = .next (s.took [0x08]) ∧ exec (.lockBond t b) s = .next (s.took [0x08]) ∧
        exec (.eraseBond t b) s = .next (s.took [0x08])) ∧
    (b.toNat < 16 → ¬free →
      exec (.retireBond t b) s = .next (s.took [0x02]) ∧ exec (.lockBond t b) s = .next (s.took [0x02]) ∧
        exec (.eraseBond t b) s = .next (s.took [0x02])) ∧
    (b.toNat < 16 → free → p.locked = true →
      exec (.retireBond t b) s = .next (s.took [0x04]) ∧ exec (.lockBond t b) s = .next (s.took [0x05]) ∧
        exec (.eraseBond t b) s = .next (s.took [0x04])) ∧
    (b.toNat < 16 → free → p.locked = false →
      exec (.retireBond t b) s = .next
        (if p.state = .valid ∨ p.state = .opened then started .retire else s.took [0x05]) ∧
      exec (.lockBond t b) s = .next (if p.state = .valid then started .lock else s.took [0x05]) ∧
      exec (.eraseBond t b) s = .next
        (if p.state = .retired ∨ p.state = .opened then started .erase else s.took [0x05])) ∧
    (free → exec .clearFault s = .next { s.took [0x00] with store := { s.store with cause := .none } }) ∧
    (¬free → exec .clearFault s = .next (s.took [0x02]))

/-- The ends of a retire, a lock, an erase, the erase part of an erase then program, and a retire of the scan (R158,
R160, R161, R169, Table 10-3). The end of a program (R159): VALID and unlocked with what was to be written when the
read-back matches; otherwise OPEN with what it holds, cause VERIFY and STORE_FAULT; STORE_DONE and the copy in both. That
the store reads BUSY until a pending write has started is the model's (assumption log 17). -/
def Obligations.StoreOperationsEndAndProgramsReadBack : Prop :=
  (∀ (i b : Nat) (s : State), s.hold = none →
     let p := placeAt s.store.places i
     let ended := fun (q : Place) (finish : Nat) =>
       ({ s with
           now := max s.now finish
           store := { s.store with
             places := s.store.places.set i q
             copy := s.store.copy.set i q
             flight := none
             state := if s.store.waiting = none then .idle else .busy }
           flags := s.flags ||| Flag.storeDone.mark } : State)
     (s.store.flight = some { op := .retire, place := i, start := b } →
       exec .retireDone s = .next (ended { p with state := .retired } (b + 1000))) ∧
     (s.store.flight = some { op := .lock, place := i, start := b } →
       exec .lockDone s = .next (ended { p with locked := true } (b + 1000))) ∧
     (s.store.flight = some { op := .erase, place := i, start := b } →
       exec .eraseDone s = .next (ended Place.blank (b + 80000))) ∧
     (∀ v, s.store.flight = some { op := .eraseProgram v false, place := i, start := b } →
       exec .erasePartDone s = .next
         { s with
             now := max s.now (b + 80000)
             store := { s.store with
               places := s.store.places.set i Place.blank
               flight := some { op := .eraseProgram v true, place := i, start := b } } }) ∧
     (s.store.flight = some { op := .scanRetire, place := i, start := b } →
       (∀ q ∈ s.store.copy.set i { p with state := .retired }, q.state ≠ .opened) →
       exec .scanRetireDone s = .next (ended { p with state := .retired } (b + 1000))) ∧
     (∀ j, s.store.flight = some { op := .scanRetire, place := i, start := b } →
       ((s.store.copy.set i { p with state := .retired }).findIdx? fun q => q.state == .opened) = some j →
       exec .scanRetireDone s = .next
         { s with
             now := max s.now (b + 1000)
             store := { s.store with
               places := s.store.places.set i { p with state := .retired }
               copy := s.store.copy.set i { p with state := .retired }
               state := .scanning
               flight := some { op := .scanRetire, place := j, start := b + 1000 } } })) ∧
  ∀ (i b : Nat) (v : BondValue) (s : State), s.hold = none →
    let ended := fun q : Place =>
      { s.store with
          places := s.store.places.set i q
          copy := s.store.copy.set i q
          flight := none
          state := if s.store.waiting = none then StoreState.idle else StoreState.busy }
    ∀ (op : StoreOp) (finish : Nat),
      (op = .program v ∧ finish = b + 6000) ∨ (op = .eraseProgram v true ∧ finish = b + 86000) →
      s.store.flight = some { op := op, place := i, start := b } →
      (∀ held, held = none ∨ held = some v →
        exec (.programDone held) s = .next
          { s with
              now := max s.now finish
              store := ended { state := .valid, locked := false, value := v }
              flags := s.flags ||| Flag.storeDone.mark }) ∧
      ∀ w, w ≠ v →
        exec (.programDone (some w)) s = .next
          { s with
              now := max s.now finish
              store := { ended { state := .opened, locked := false, value := w } with cause := .verify }
              flags := s.flags ||| Flag.storeFault.mark ||| Flag.storeDone.mark }

/-- A pending write starts: on the lowest ERASED place, else by an erase then program on the lowest RETIRED place, else
with fault FULL (R164); its sequence number is one above the highest of the places that are not ERASED, at most 65535
(R165). -/
def Obligations.PendingWriteIsPlaced : Prop :=
  (∀ (c : Credentials) (s : State), s.hold = none → s.store.waiting = some c → s.store.flight = none →
    let v : BondValue := { group := c.group, station := c.number, wearer := c.wearer, seq := nextSeq s.store.copy }
    let erased := s.store.copy.findIdx? fun p => p.state == .erased
    let retired := s.store.copy.findIdx? fun p => p.state == .retired
    (∀ i, erased = some i →
      exec .pendingWriteStart s = .next
        { s with store := { s.store with
            waiting := none, state := .busy, flight := some { op := .program v, place := i, start := s.now } } }) ∧
    (∀ i, erased = none → retired = some i →
      exec .pendingWriteStart s = .next
        { s with store := { s.store with
            waiting := none, state := .busy
            flight := some { op := .eraseProgram v false, place := i, start := s.now } } }) ∧
    (erased = none → retired = none →
      exec .pendingWriteStart s = .next
        { s with
            store := { s.store with waiting := none, state := .idle, cause := .full }
            flags := s.flags ||| Flag.storeFault.mark })) ∧
  ∀ ps : List Place,
    (∀ p ∈ ps, p.state ≠ .erased → p.value.seq.toNat < (nextSeq ps).toNat ∨ (nextSeq ps).toNat = 65535) ∧
    ((nextSeq ps).toNat = 1 ∨ ∃ p ∈ ps, p.state ≠ .erased ∧ (nextSeq ps).toNat = min (p.value.seq.toNat + 1) 65535)

/-- A locked place stays VALID and locked, with the bond it holds, through every step, resets included (R157). -/
def Obligations.LockedBondsStay : Prop :=
  ∀ (s t : State) (i : Nat), s.bondsOk → (placeAt s.store.places i).locked = true → step s = .next t →
    placeAt t.store.places i = placeAt s.store.places i

/-! ### The mute input and the codec port -/

/-- MUTE_LINE_CHANGE and DEBOUNCE_EXPIRY (R104, R105, Tables 6-6, 6-7): the polarity, the period of each debounce code,
and what a change does with the timer stopped and running. That local time never goes back is the model's (assumption
log 1). -/
def Obligations.MuteLineIsDebounced : Prop :=
  ∀ s : State, s.hold = none →
    (∀ t e, s.mute.expiry = some e →
      exec (.muteLineChange t) s = .next
        { s with
            now := max s.now t
            mute := { lineHigh := !s.mute.lineHigh, debounced := s.mute.debounced, expiry := none } }) ∧
    (∀ t, s.mute.expiry = none → s.config.debounce = 0 →
      exec (.muteLineChange t) s = .next
        { s with
            now := max s.now t
            mute := { lineHigh := !s.mute.lineHigh, debounced := (!s.mute.lineHigh) != s.config.muteLow,
                      expiry := none } }) ∧
    (∀ t, s.mute.expiry = none → s.config.debounce ≠ 0 →
      exec (.muteLineChange t) s = .next
        { s with
            now := max s.now t
            mute := { lineHigh := !s.mute.lineHigh, debounced := s.mute.debounced,
                      expiry := some (max s.now t +
                        (if s.config.debounce = 1 then 4000 else if s.config.debounce = 2 then 16000 else 64000)) } }) ∧
    ∀ e, s.mute.expiry = some e →
      exec .debounceExpiry s = .next
        { s with
            now := max s.now e
            mute := { lineHigh := s.mute.lineHigh, debounced := s.mute.lineHigh != s.config.muteLow, expiry := none } }

/-- A sample frame moves one sample each way (R34). The microphone sample is the first 16 of the 32 bits on CDIN, most
significant first, sampled on the edge that the format in force names; the last 16 are ignored (R33). While a sample
frame shifts, CBCK runs, CFSY is active in the first of the 32 bit clocks alone, and CDOUT gives the speaker sample in
the first 16, most significant bit first, and is low in the last 16; the bit clocks are spread evenly over the sample
frame (R33). While the timer is stopped or the device is held in reset, CBCK and CFSY are held inactive and CDOUT low
(R33, R181), as they are where no sample frame of the cycle has begun; which level of CBCK is the inactive one is a free
value (assumption log 32). In a cycle whose length was fixed at its start, sample frame k starts at S + floor(k L /
160), the 160 of them in order inside the cycle (R31). When an alignment at T_r gives the cycle the end E, the j sample
frames that have started keep their places, and sample frame k from j on starts at T_r + floor((k - j) (E - T_r) / (160
- j)) (R32), however often the cycle is aligned (assumption log 16). -/
def Obligations.SampleFramesMoveOneSampleEachWay : Prop :=
  (∀ (c : Cycle) (cdin : CdinLevels) (s : State), s.hold = none → s.timer.cycle = some c → s.codec.frameIx < 160 →
    ∃ mic : Sample,
      (∀ i, i < 16 →
        mic.getLsbD (15 - i) = (if s.codec.edgeReversed then cdin.onFalling else cdin.onRising).getLsbD (31 - i)) ∧
      exec (.sampleFrameStart cdin) s = .next
        { s with
            now := max s.now (c.sampleStart s.codec.frameIx)
            codec := { s.codec with
              capture := s.codec.capture.set s.codec.frameIx mic
              shifting := some (s.codec.playout.getD s.codec.frameIx 0)
              frameIx := s.codec.frameIx + 1 } }) ∧
  (∀ (v : Sample) (s : State), s.hold = none → s.timer.cycle ≠ none → s.codec.shifting = some v →
    s.cbckHeld = none ∧ s.cfsyLevels.length = 32 ∧ s.cdoutBits.length = 32 ∧
      s.cdoutOnRising = s.codec.edgeReversed ∧ ∀ i, i < 32 →
        s.cfsyLevels.getD i false = (decide (i = 0) != s.codec.syncLow) ∧
        s.cdoutBits.getD i false = (decide (i < 16) && v.getLsbD (15 - i))) ∧
  (∀ s : State, s.hold ≠ none ∨ s.timer.cycle = none ∨ s.codec.shifting = none →
    s.cbckHeld = some (Config.cbckInactiveHigh s.codec.edgeReversed) ∧
      s.cfsyLevels = List.replicate 32 s.codec.syncLow ∧ s.cdoutBits = List.replicate 32 false) ∧
  (∀ (c : Cycle) (k i : Nat), c.sampleStart k ≤ c.sampleStart (k + 1) →
    c.bitClockStart k 0 = 32 * c.sampleStart k ∧ c.bitClockStart k 32 = 32 * c.sampleStart (k + 1) ∧
      c.bitClockStart k (i + 1) = c.bitClockStart k i + (c.sampleStart (k + 1) - c.sampleStart k)) ∧
  (∀ c : Cycle, c.respaced = [] →
    (∀ k, c.sampleStart k = c.start + k * c.length / 160) ∧ c.sampleStart 0 = c.start ∧
    c.sampleStart 160 = c.start + c.length ∧ (∀ j k, j ≤ k → c.sampleStart j ≤ c.sampleStart k) ∧
    ∀ (tr k : Nat), k < 160 → (k < c.framesStarted tr ↔ c.sampleStart k < tr)) ∧
  ∀ (c : Cycle) (tr e : Nat) (next : Option Int),
    let j := c.framesStarted tr
    (∀ k, k < j → (c.endAt tr e next).sampleStart k = c.sampleStart k) ∧
    (∀ k, j ≤ k → (c.endAt tr e next).sampleStart k = tr + (k - j) * (e - tr) / (160 - j)) ∧
    (c.endAt tr e next).planned = e ∧ (c.endAt tr e next).start = c.start

/-! ### The group channel -/

/-- The transmit order of a slot and every field of its header (R5, R6, R10, R73, R87, R94, R96): a claim that holds the
slot sends VOICE or FAREND with its payload, or a hush; a RELEASING one its LEAVE once a cycle end has passed; slot 14 a
newcomer's JOIN or CONFIRM; slot 15 the offer of this cycle; nothing else is sent. The heard map reports V1. SLOT_START
(R10, R11, Table 1-6): nothing sent without an order; else the burst of the order sent at the slot's start, a JOIN counted
as an attempt (R94) and an OFFER marked sent (R87). -/
def Obligations.SlotStartSendsWhatTheRecordsOrder : Prop :=
  (∀ (k : SlotIx) (s : State), s.claimsOk → s.windowOk →
    let report := fun e : Entry =>
      match e with
      | .empty | .unknown => (0 : StationNo)
      | .own n => n
      | .mine => s.station.creds.number
      | .corrupt | .foreign | .stray => 31
    let sends := fun (kind : BurstKind) (hush : Bool) (body : Body) =>
      s.transmitOrder k = some
        { group := s.station.creds.group, kind := kind, sender := s.station.creds.number
          wearer := s.station.creds.wearer, slot := k, lineMute := s.mute.debounced, hush := hush
          pairingOpen := decide (s.pairing.window.state = .opened), bearer := decide (s.bearer.state ≠ .none)
          age := if s.bearer.state = .none then 0 else BitVec.ofNat 8 s.bearer.age
          heardMap := s.views.v1.map report, body := body }
    let newcomerSends := fun (kind : BurstKind) (group : GroupCode) (body : Body) =>
      s.transmitOrder k = some
        { group := group, kind := kind, sender := 0, wearer := 0, slot := 14, lineMute := false, hush := false
          pairingOpen := false, bearer := false, age := 0, heardMap := List.replicate 16 0, body := body }
    let holds := fun cl : Claim => cl.slot = some k ∧ (cl.state = .tentative ∨ cl.state = .confirmed)
    let leaves := fun cl : Claim => cl.slot = some k ∧ cl.state = .releasing
    (k.val ≤ 13 →
      (holds s.voice →
        (∀ p, s.chan.voicePayload = .frame p → sends .voice false (.frame p)) ∧
        ((∀ p, s.chan.voicePayload ≠ .frame p) → sends .voice true .absent)) ∧
      (holds s.farEnd →
        (∀ p, s.chan.farPayload = some p → sends .farend false (.frame p)) ∧
        (s.chan.farPayload = none → sends .farend true .absent)) ∧
      (leaves s.voice ∧ 1 ≤ s.voice.cycles ∨ leaves s.farEnd ∧ 1 ≤ s.farEnd.cycles → sends .leave false .absent) ∧
      (leaves s.voice ∧ s.voice.cycles = 0 ∨ leaves s.farEnd ∧ s.farEnd.cycles = 0 → s.transmitOrder k = none) ∧
      (s.voice.slot ≠ some k → s.farEnd.slot ≠ some k → s.transmitOrder k = none)) ∧
    (k = 14 →
      (s.pairing.newcomer = none → s.transmitOrder k = none) ∧
      ∀ nc, s.pairing.newcomer = some nc →
        (nc.order = .none → s.transmitOrder k = none) ∧
        (nc.order = .join → newcomerSends .join 0 (.join s.factoryId nc.kind)) ∧
        ∀ a, nc.order = .confirm → nc.accepted = some a →
          newcomerSends .confirm a.group (.confirm s.factoryId a.offerer a.station)) ∧
    (k = 15 →
      (s.pairing.offer = none → s.transmitOrder k = none) ∧
      ∀ o, s.pairing.offer = some o →
        (o.sent = true ∨ o.cycleSent ≠ s.timer.counter → s.transmitOrder k = none) ∧
        (o.sent = false → o.cycleSent = s.timer.counter →
          sends .offer false (.offer o.target o.station o.wearer) ∧ s.pairing.window.state = .opened))) ∧
  ∀ (c : Cycle) (k : SlotIx) (s : State), s.hold = none → s.timer.cycle = some c → s.chan.inSlot = false →
    s.chan.nextSlot = k.val →
    (s.transmitOrder k = none →
      exec .slotStart s = .next
        { s with
            now := max s.now (c.slotStart k.val).toNat
            chan := { s.chan with inSlot := true, sentInSlot := false } }) ∧
    ∀ b, s.transmitOrder k = some b →
      exec .slotStart s = .next
        { s with
            now := max s.now (c.slotStart k.val).toNat
            chan := { s.chan with
              inSlot := true
              sentInSlot := true
              sent := some
                { start := (c.slotStart k.val).toNat
                  finish := (c.slotStart k.val).toNat + 2 * (burstBytes b).length
                  burst := b } }
            pairing :=
              match b.kind with
              | .join =>
                { s.pairing with newcomer := s.pairing.newcomer.map fun nc => { nc with attempts := nc.attempts + 1 } }
              | .offer => { s.pairing with offer := s.pairing.offer.map fun o => { o with sent := true } }
              | .voice => s.pairing
              | .farend => s.pairing
              | .leave => s.pairing
              | .confirm => s.pairing }

/-- The slot grid and the slot a burst falls in. An ordinary cycle has all 16 slots, forward from its start (R1); a jump
cycle has its slots backward from its end, those whose extent lies between its grid instant and its end, and before the
first of them a lead-in (R3). A burst falls in the slot that occurs and whose start lies within 24 ticks of the arrival,
the first slot of the next cycle included, which after an alignment lies behind that cycle's lead-in; else in the slot
that occurs during which the reception ends; else in none (R3, R13). That a reception which ends at the very end of a slot
falls in that slot is the model's reading (assumption log 25). -/
def Obligations.SlotsLieOnTheGridAndBurstsFallInThem : Prop :=
  (∀ (c : Cycle) (k : SlotIx),
    (c.kind = .ordinary →
      c.slotStart k.val = c.start + 625 * k.val ∧ (k.val < 15 → c.slotEnd k.val = c.slotStart k.val + 625) ∧
        c.occurs k.val = true) ∧
    (c.kind ≠ .ordinary →
      c.slotStart k.val = c.planned - 10000 + 625 * k.val ∧ c.slotEnd k.val = c.slotStart k.val + 625 ∧
        (c.occurs k.val = true ↔ c.gridInstant ≤ c.slotStart k.val) ∧
        (c.gridInstant = c.start → (c.occurs k.val = true ↔ (10000 : Int) - (c.planned - c.start) ≤ 625 * k.val))) ∧
    c.slotEnd 15 = c.planned ∧
    (c.firstSlot = k.val ↔ c.occurs k.val = true ∧ ∀ j : SlotIx, j < k → c.occurs j.val = false) ∧
    (c.firstSlot = 16 ↔ ∀ j : SlotIx, c.occurs j.val = false)) ∧
  (∀ (c : Cycle) (x : AirItem),
    inLeadIn c x = true ↔ c.kind ≠ .ordinary ∧ c.gridInstant ≤ x.span.1 ∧ x.span.1 < c.planned ∧
      ∀ k : SlotIx, c.occurs k.val = true → (x.span.1 : Int) < c.slotStart k.val) ∧
  ∀ (c : Cycle) (a f : Nat) (bytes : List Byte) (next : Int), (c.kind = .ordinary → c.start + 9994 ≤ c.planned) →
    (c.nextPhase = none → next = c.planned) →
    (∀ p, c.nextPhase = some p →
      let length := placeEnd p c.planned - c.planned
      next = c.planned + (if 10000 ≤ length then length - 10000 else length % 625)) →
    let close := fun start : Int => start ≤ a + 24 ∧ (a : Int) ≤ start + 24
    let nowhere := (∀ k : SlotIx, c.occurs k.val = true → ¬close (c.slotStart k.val)) ∧ ¬close next
    (∀ k : SlotIx, c.occurs k.val = true → close (c.slotStart k.val) → fallsIn c (.burst a f bytes) = some k.val) ∧
    (close next → fallsIn c (.burst a f bytes) = some 16) ∧
    (nowhere → ∀ k : SlotIx, c.occurs k.val = true → c.slotStart k.val < f → (f : Int) ≤ c.slotEnd k.val →
      fallsIn c (.burst a f bytes) = some k.val) ∧
    (nowhere → (∀ k : SlotIx, c.occurs k.val = true → (f : Int) ≤ c.slotStart k.val ∨ c.slotEnd k.val < f) →
      fallsIn c (.burst a f bytes) = none)

/-- The entry that the end of a slot writes where nothing is handed on (R9, R11, R15, R16, Table 1-8), and that nothing
else changes but the station's own log of STRAY receptions (R22) and an offer that lapses at slot 14, whatever the slot
held (R89): UNKNOWN while the receiver is off, after a reception that a transition abandoned, and after an arrival in a
lead-in (assumption logs 10, 11 and 29); MINE after the station's own burst; EMPTY, CORRUPT, FOREIGN and STRAY by what
the slot held. A JOIN at a member or an OFFER at a newcomer that is out of step is FOREIGN and not handed on (R16), and
a JOIN that finds an offer outstanding is ignored (R84). What falls in a slot still to end is held for it, and nothing
else (R13, R17). -/
def Obligations.SlotEndWritesTheEntry : Prop :=
  ∀ (c : Cycle) (k : SlotIx) (order : ReceptionOrder) (s : State), s.endsSlot c k →
    let on := s.station.state ≠ .unconfigured ∧ s.station.state ≠ .idle
    let hearing := on ∧ s.chan.sentInSlot = false
    let nothingEnds := s.claimsOk ∧ s.voice.leaves k = false ∧ s.farEnd.leaves k = false ∧
      ∀ nc, s.pairing.newcomer = some nc → nc.order ≠ .confirm
    let closed := fun (air : List AirItem) (e : Entry) =>
      { s.slotOver c k e (s.laterItems c k air) with pairing := s.pairingAfter k }
    let writes := fun (air : List AirItem) (e : Entry) => exec (.slotEnd order air) s = .next (closed air e)
    (∀ air, ¬on → s.chan.sentInSlot = false ∨ nothingEnds → writes air .unknown) ∧
    (∀ air, on → s.chan.sentInSlot = true → nothingEnds → writes air .mine) ∧
    (∀ air, hearing → (∀ x ∈ s.itemsOf c k air, overlapsSent s.chan.sent x = true ∨ beforeJump c x = true) →
      writes air .empty) ∧
    (∀ air x, hearing → x ∈ s.itemsOf c k air → overlapsSent s.chan.sent x = false → beforeJump c x = false →
      (∃ p ∈ s.chan.cutSpans, p.1 ≤ x.span.1 ∧ x.span.1 < p.2) ∨
        (s.chan.onSince ≤ x.span.1 ∧ inLeadIn c x = true) →
      writes air .unknown) ∧
    (∀ air x xs, hearing → s.itemsOf c k air = x :: xs → (∀ y ∈ x :: xs, s.receivesIn c k y) →
      xs ≠ [] ∨ (∃ i, x = .energy i) ∨ (∃ a f bytes, x = .burst a f bytes ∧ parseBurst bytes = none) →
      writes air .corrupt) ∧
    ∀ air a f bytes b, on → s.hearsAlone c k air a f bytes b →
      (b.group ≠ s.station.creds.group ∨ b.sender = 0 ∨ s.station.state = .seeking ∨ s.station.state = .joining →
        (s.station.state = .member → b.inStepAt c k a → b.kind = .join → s.pairing.offer ≠ none) →
        (s.station.state = .member → b.inStepAt c k a → b.group = s.station.creds.group →
          ∀ o, s.pairing.offer = some o → s.timer.counter = o.cycleSent + 1 →
            b.body ≠ .confirm o.target s.station.creds.number o.station) →
        (s.station.state = .joining → b.inStepAt c k a → b.kind ≠ .offer) →
        (s.station.state = .seeking → b.pairingOpen = false) → writes air .foreign) ∧
      (b.group = s.station.creds.group → b.sender ≠ 0 → ¬b.inStepAt c k a →
        (s.station.state = .leaving → writes air .stray) ∧
        (s.station.state = .member →
          exec (.slotEnd order air) s = .next
            { closed air .stray with timer := { s.timer with log := s.timer.log ++
                [{ inStep := false, sender := b.sender, offset := (a : Int) - c.slotStart k.val, arrival := a,
                   slot := b.slot }] } }))

/-- A clean, in-step burst of the own group from a station without an entry, alone in its slot at a station in MEMBER or
LEAVING, is OWN(n). A VOICE or FAREND creates an ACTIVE entry with the burst's fields and PEER_NEW (R13 to R16, R42,
R45). With 15 entries the LOST entry of the greatest missed count and then the lowest number makes room, and without one
PEER_TABLE_FULL is raised (R46). A LEAVE or OFFER changes nothing in the table and raises no event of it (R45, R48).
With or without an entry the reception list takes the outcome of a VOICE or FAREND (R114), each claim reads the heard
map, the far-end claim unless this burst ends the bearer's role (R67, R144), the stream records stay, the cycle timer
counts the reception with its offset in MEMBER, and the ageing its sender (R16, R21, R22, R49). -/
def Obligations.FirstBurstCreatesAPeer : Prop :=
  ∀ (c : Cycle) (k : SlotIx) (air : List AirItem) (a f : Nat) (bytes : List Byte) (b : Burst) (order : ReceptionOrder)
    (s : State),
    s.hearsAlone c k air a f bytes b → b.inStepAt c k a → s.station.state = .member ∨ s.station.state = .leaving →
    b.group = s.station.creds.group → b.sender ≠ s.station.creds.number → b.sender ≠ 0 →
    (∀ p ∈ s.peers, p.number ≠ b.sender) →
    let creates := b.kind = .voice ∨ b.kind = .farend
    let created : Peer :=
      { number := b.sender, wearer := b.wearer, state := .active, missed := 0
        voiceSlot := if b.kind = .voice then some k else none
        farSlot := if b.kind = .farend ∧ b.bearer then some k else none
        offset := (a : Int) - c.slotStart k.val, lineMute := b.lineMute, hush := b.hush, pairingOpen := b.pairingOpen
        bearer := b.bearer, age := b.age }
    ∃ t, exec (.slotEnd order air) s = .next t ∧
      t.views = { s.views with filling := s.views.filling.set k.val (.own b.sender) } ∧ t.station = s.station ∧
      t.store = s.store ∧ s.sameFrame t ∧ s.countsOwn c k a b t ∧ t.chan.held = s.laterItems c k air ∧
      (creates → s.peers.length < 15 →
        t.flagSet .peerNew ∧ findPeer b.sender t.peers = some created ∧
          ∀ n, n ≠ b.sender → findPeer n t.peers = findPeer n s.peers) ∧
      (creates → 15 ≤ s.peers.length → (∀ p ∈ s.peers, p.state ≠ .lost) →
        t.flagSet .peerTableFull ∧ t.peers = s.peers) ∧
      (creates → ∀ v ∈ s.peers, 15 ≤ s.peers.length → v.state = .lost →
        (∀ q ∈ s.peers, q.state = .lost → q.missed < v.missed ∨ (q.missed = v.missed ∧ v.number ≤ q.number)) →
        t.flagSet .peerNew ∧ findPeer b.sender t.peers = some created ∧ findPeer v.number t.peers = none ∧
          ∀ n, n ≠ b.sender → n ≠ v.number → findPeer n t.peers = findPeer n s.peers) ∧
      (¬creates → t.peers = s.peers ∧ t.flagSet .peerNew = s.flagSet .peerNew ∧
        t.flagSet .peerLeft = s.flagSet .peerLeft ∧ t.flagSet .peerTableFull = s.flagSet .peerTableFull) ∧
      s.storesOutcome b t ∧ t.streams.wearers = s.streams.wearers ∧
      (¬s.endsRole k order b →
        t.streams.farEnd = s.streams.farEnd ∧ t.flagSet .farendDown = s.flagSet .farendDown) ∧
      s.readsMap .voice b t ∧ (¬s.endsRole k order b → s.readsMap .farEnd b t)

/-- A clean, in-step burst of the own group from a station with an entry refreshes the entry by its kind (R47, Table
3-7); a far-end LEAVE clears the far-end slot, a voice LEAVE removes the entry with PEER_LEFT, and the stream records
that follow the leaver become ABSENT, with FAREND_DOWN where the far-end record was present (R48, R121, R125, R127); a
record that follows another station stays, and every record at any other kind, the far-end record unless this burst ends
the bearer's role (R144). The reception list takes the outcome of a VOICE or FAREND (R114), and each claim its report
marks from the heard map (R67), the far-end claim with the same exception. In MEMBER the cycle timer counts the
reception with its offset, and in both states the ageing counts its sender (R16, R21, R22, R49). -/
def Obligations.LaterBurstsRefreshOrRemoveTheEntry : Prop :=
  ∀ (c : Cycle) (k : SlotIx) (air : List AirItem) (a f : Nat) (bytes : List Byte) (b : Burst) (p : Peer)
    (order : ReceptionOrder) (s : State),
    s.hearsAlone c k air a f bytes b → b.inStepAt c k a → s.station.state = .member ∨ s.station.state = .leaving →
    b.group = s.station.creds.group → b.sender ≠ s.station.creds.number → b.sender ≠ 0 →
    findPeer b.sender s.peers = some p →
    let copied : Peer :=
      { p with
          wearer := b.wearer, state := .active, missed := 0, offset := (a : Int) - c.slotStart k.val
          lineMute := b.lineMute, hush := b.hush, pairingOpen := b.pairingOpen, bearer := b.bearer, age := b.age }
    let cleared := fun o : Option SlotIx => if o = some k then none else o
    let follows := fun r : StreamRec => r.source = some b.sender
    ∃ t, exec (.slotEnd order air) s = .next t ∧
      t.views = { s.views with filling := s.views.filling.set k.val (.own b.sender) } ∧ t.station = s.station ∧
      t.store = s.store ∧ s.sameFrame t ∧ s.countsOwn c k a b t ∧ t.chan.held = s.laterItems c k air ∧
      (∀ n, n ≠ b.sender → findPeer n t.peers = findPeer n s.peers) ∧
      (b.kind = .voice → findPeer b.sender t.peers = some
        { copied with voiceSlot := some k, farSlot := if b.bearer then cleared p.farSlot else none }) ∧
      (b.kind = .farend → findPeer b.sender t.peers = some
        { copied with voiceSlot := cleared p.voiceSlot, farSlot := if b.bearer then some k else none }) ∧
      (b.kind = .offer → findPeer b.sender t.peers = some
        { copied with farSlot := if b.bearer then p.farSlot else none }) ∧
      (b.kind = .leave → p.farSlot = some k → findPeer b.sender t.peers = some { copied with farSlot := none }) ∧
      (b.kind = .leave → p.farSlot ≠ some k →
        findPeer b.sender t.peers = none ∧ t.flagSet .peerLeft ∧
          ∀ i r, s.streams.wearers[i]? = some r → t.streams.wearers[i]? = some
            (if follows r ∧ i ≠ s.station.creds.wearer.val then { r.withoutSource with hang := r.hang } else r)) ∧
      (b.kind ≠ .leave ∨ p.farSlot = some k → t.streams.wearers = s.streams.wearers ∧
        t.flagSet .peerLeft = s.flagSet .peerLeft) ∧
      (b.kind = .leave → follows s.streams.farEnd →
        t.streams.farEnd = { s.streams.farEnd.withoutSource with hang := s.streams.farEnd.hang } ∧
          (t.flagSet .farendDown ↔ s.flagSet .farendDown ∨ s.streams.farEnd.state ≠ .absent)) ∧
      (b.kind ≠ .leave ∨ ¬follows s.streams.farEnd → ¬s.endsRole k order b →
        t.streams.farEnd = s.streams.farEnd ∧ t.flagSet .farendDown = s.flagSet .farendDown) ∧
      s.storesOutcome b t ∧ s.readsMap .voice b t ∧ (¬s.endsRole k order b → s.readsMap .farEnd b t)

/-- The end of the slot of a claim's LEAVE: the claim goes to NONE (R73), and with the far-end claim the bearer's role
ends (R146, R147). -/
def Obligations.LeaveSlotEndsTheClaim : Prop :=
  ∀ (c : Cycle) (k : SlotIx) (order : ReceptionOrder) (air : List AirItem) (s : State), s.endsSlot c k →
    s.chan.sentInSlot = true → s.station.state = .member ∨ s.station.state = .leaving → s.claimsOk →
    ((s.voice.state = .releasing ∧ s.voice.slot = some k ∧ 1 ≤ s.voice.cycles →
      exec (.slotEnd order air) s = .next
        { s.slotOver c k .mine (s.laterItems c k air) with voice := Claim.gone }) ∧
    (s.farEnd.state = .releasing ∧ s.farEnd.slot = some k ∧ 1 ≤ s.farEnd.cycles →
      ∃ t, exec (.slotEnd order air) s = .next t ∧ t.farEnd = Claim.gone ∧ t.bearer = Bearer.gone ∧
        t.streams.farEnd.state = .absent ∧ t.voice = s.voice ∧
        (s.streams.farEnd.state = .absent → t.flags = s.flags) ∧
        (s.streams.farEnd.state ≠ .absent → t.flags = s.flags ||| Flag.farendDown.mark) ∧
        t.views = { s.views with filling := s.views.filling.set k.val .mine } ∧ t.station = s.station ∧
        t.peers = s.peers ∧ t.timer = s.timer ∧ t.store = s.store ∧ t.pairing = s.pairing ∧
        t.chan.held = s.laterItems c k air ∧ s.sameFrame t))

/-- A number clash (R54 to R57, R75). A CONFIRMED station keeps its number against a clash in a slot that is not below
its own: nothing but the entry, the report marks of both claims (R67) and the counts of the timer and of the ageing
change (R16, R21). Otherwise it yields: both claims and the bearer record to NONE, the far-end record ABSENT, an open
window closed with cause YIELDED, IDLE with NUMBER_CLASH; the credentials, the peer table and the views are kept. A
yield in slot 15 that comes after the cycle end is kept for it (assumption log 7), and CYCLE_END makes it after its own
work, the ageing of the table and a step jump included, over the WAITING that the jump gave (R30); a window that times
out there has TIMEOUT (R82). In LEAVING the second cycle end goes to IDLE by R42 first, and there is then nothing to
yield (assumption log 21). -/
def Obligations.NumberClashKeepsOrYields : Prop :=
  (∀ (c : Cycle) (k : SlotIx) (air : List AirItem) (a f : Nat) (bytes : List Byte) (b : Burst)
     (order : ReceptionOrder) (s : State),
    s.hearsAlone c k air a f bytes b → b.inStepAt c k a → s.station.state = .member ∨ s.station.state = .leaving →
    b.group = s.station.creds.group → b.sender = s.station.creds.number → b.sender ≠ 0 →
    let keeps := s.voice.state = .confirmed ∧ ∃ own, s.voice.slot = some own ∧ own ≤ k
    let yields := s.voice.state ≠ .confirmed ∨ ∃ own, s.voice.slot = some own ∧ k < own
    ∃ t, exec (.slotEnd order air) s = .next t ∧
      t.views = { s.views with filling := s.views.filling.set k.val (.own b.sender) } ∧ t.peers = s.peers ∧
      t.station.creds = s.station.creds ∧ s.countsOwn c k a b t ∧ t.store = s.store ∧
      t.streams.wearers = s.streams.wearers ∧ t.streams.list = s.streams.list ∧ s.sameFrame t ∧
      t.chan.held = s.laterItems c k air ∧
      (keeps ∨ (k = 15 ∧ order = .cycleEndFirst) → s.readsMap .voice b t ∧ s.readsMap .farEnd b t) ∧
      (keeps → t.station = s.station ∧ t.flags = s.flags ∧ t.bearer = s.bearer ∧ t.streams = s.streams ∧
        t.pairing = s.pairing ∧ t.chan.late = s.chan.late) ∧
      (yields → k ≠ 15 ∨ order = .receptionFirst →
        t.station.state = .idle ∧ t.voice = Claim.gone ∧ t.farEnd = Claim.gone ∧ t.bearer = Bearer.gone ∧
          t.streams.farEnd.state = .absent ∧ (s.streams.farEnd.state ≠ .absent → t.flagSet .farendDown) ∧
          t.flagSet .numberClash ∧ t.flagSet .stateChanged ∧
          (s.pairing.window.state = .closed → t.pairing = s.pairing) ∧
          (s.pairing.window.state = .opened →
            t.pairing =
              { s.pairing with
                  window := { state := .closed, kind := none, remaining := 0, lastCause := .yielded }
                  offer := none
                  lapse := none } ∧ t.flagSet .pairingEnded)) ∧
      (yields → k = 15 → order = .cycleEndFirst →
        t.station = s.station ∧ t.flags = s.flags ∧ t.chan.late = s.chan.late ++ [.clashYield])) ∧
  ∀ (c : Cycle) (order : DeadlineOrder) (s : State), s.endsCycle c → s.chan.late = [.clashYield] →
    s.station.state = .member ∨ s.station.state = .leaving →
    let again := s.station.state = .leaving ∧ 1 ≤ s.station.leavingEnds
    ∃ t, exec (.cycleEnd order) s = .next t ∧ t.station.state = .idle ∧ t.station.creds = s.station.creds ∧
      t.peers = s.countedPeers ∧ t.flagSet .stateChanged ∧ t.chan.late = [] ∧
      (again → t.flagSet .numberClash = s.flagSet .numberClash) ∧
      (¬again →
        t.voice = Claim.gone ∧ t.farEnd = Claim.gone ∧ t.bearer = Bearer.gone ∧ t.streams.farEnd.state = .absent ∧
          t.flagSet .numberClash ∧
          (s.pairing.window.state = .closed → t.pairing.window = s.pairing.window) ∧
          (s.pairing.window.state = .opened →
            t.pairing =
              { s.pairing with
                  window := { state := .closed, kind := none, remaining := 0
                              lastCause := if s.windowTimesOut then .timeout else .yielded }
                  offer := none
                  lapse := none } ∧ t.flagSet .pairingEnded))

/-- In LISTEN the first OWN reception of a VOICE or FAREND aligns the cycle in progress to the sender's phase (R25, R27,
R28, Table 2-3) and enters MEMBER (R39, R40): views UNKNOWN, step-loss counter 0, voice claim WAITING, and an entry for
the sender with offset 0. A burst of the own number yields at once (R58). A LEAVE or OFFER gives neither alignment nor
entry. Every OWN reception counts its sender for the ageing (R49). A yield in slot 15 that comes after the cycle end is
kept for it (assumption log 7). In SEEKING the first clean burst with the pairing-open flag, whatever its group and kind,
aligns the cycle in progress (R26 to R28, Table 2-3) and moves the station to JOINING with the burst's group as target and
a hold of 1 (R93). That the receptions of a cycle that ends at the alignment are left out of its step-loss count, those of
an earlier membership too, is the model's (assumption log 31). That the sample frames of a cycle already re-spaced are
counted under the re-spacing in force is the model's (assumption log 16). -/
def Obligations.AlignmentTakesTheReferencesPhase : Prop :=
  (∀ (c : Cycle) (k : SlotIx) (air : List AirItem) (a f : Nat) (bytes : List Byte) (b : Burst)
     (order : ReceptionOrder) (s : State),
     s.hearsAlone c k air a f bytes b → s.station.state = .listen → s.peers = [] → s.pairing.offer = none →
     b.group = s.station.creds.group → b.sender ≠ 0 →
     (b.kind = .voice ∨ b.kind = .farend →
       ∃ t d, exec (.slotEnd order air) s = .next t ∧ t.timer.cycle = some d ∧
         c.alignedTo ((a : Int) - 625 * b.slot.val) (c.slotEnd k.val).toNat d ∧ t.timer.stepLoss = 0 ∧ t.timer.log = [] ∧
         t.timer.counter = s.timer.counter ∧
         t.chan.nextSlot = (if (c.slotEnd k.val).toNat < c.planned then d.firstSlot else 16) ∧
         t.chan.inSlot = false ∧ t.viewsUnknown ∧ t.station.creds = s.station.creds ∧ t.flagSet .stateChanged ∧
         t.store = s.store ∧ s.sameFrame t ∧ t.hearsAlso s b.sender ∧ t.chan.held = s.laterItems c k air ∧
         (b.sender = s.station.creds.number → t.streams.list = s.streams.list) ∧
         (b.sender ≠ s.station.creds.number →
           s.storesOutcome b t ∧ t.station.state = .member ∧ t.voice = { Claim.gone with state := .waiting } ∧
           t.flagSet .peerNew ∧
             t.peers =
               [{ number := b.sender, wearer := b.wearer, state := .active, missed := 0
                  voiceSlot := if b.kind = .voice then some b.slot else none
                  farSlot := if b.kind = .farend ∧ b.bearer then some b.slot else none
                  offset := 0, lineMute := b.lineMute, hush := b.hush, pairingOpen := b.pairingOpen, bearer := b.bearer
                  age := b.age }]) ∧
         (b.sender = s.station.creds.number → k ≠ 15 ∨ order = .receptionFirst →
           t.station.state = .idle ∧ t.voice = Claim.gone ∧ t.farEnd = Claim.gone ∧ t.peers = [] ∧
             t.flagSet .numberClash) ∧
         (b.sender = s.station.creds.number → k = 15 → order = .cycleEndFirst →
           t.station.state = .member ∧ t.voice = { Claim.gone with state := .waiting } ∧ t.peers = [] ∧
             t.chan.late = s.chan.late ++ [.clashYield])) ∧
     (b.kind = .leave ∨ b.kind = .offer →
       ∃ t, exec (.slotEnd order air) s = .next t ∧ t.timer = s.timer ∧ t.station = s.station ∧
         t.peers = [] ∧ t.flags = s.flags ∧ t.voice = s.voice ∧ t.pairing = s.pairing ∧ t.streams = s.streams ∧
         t.views = { s.views with filling := s.views.filling.set k.val (.own b.sender) } ∧ t.hearsAlso s b.sender ∧
         t.chan.held = s.laterItems c k air ∧ s.sameFrame t)) ∧
  ∀ (c : Cycle) (k : SlotIx) (air : List AirItem) (a f : Nat) (bytes : List Byte) (b : Burst) (nc : Newcomer)
    (order : ReceptionOrder)
    (s : State),
    s.hearsAlone c k air a f bytes b → s.station.state = .seeking → s.pairing.newcomer = some nc →
    s.pairing.offer = none →
    b.pairingOpen = true →
    ∃ t d, exec (.slotEnd order air) s = .next t ∧ t.timer.cycle = some d ∧
      c.alignedTo ((a : Int) - 625 * b.slot.val) (c.slotEnd k.val).toNat d ∧ t.timer.stepLoss = 0 ∧ t.timer.log = [] ∧
      t.timer.counter = s.timer.counter ∧
      t.chan.nextSlot = (if (c.slotEnd k.val).toNat < c.planned then d.firstSlot else 16) ∧ t.viewsUnknown ∧
      t.station.state = .joining ∧ t.station.creds = s.station.creds ∧
      t.pairing = { s.pairing with newcomer := some { nc with target := some b.group, hold := 1 } } ∧
      t.flags = s.flags ||| Flag.stateChanged.mark ∧ t.peers = s.peers ∧ t.voice = s.voice ∧ t.farEnd = s.farEnd ∧
      t.bearer = s.bearer ∧ t.streams = s.streams ∧ t.store = s.store ∧ t.chan.heard = s.chan.heard ∧
      t.chan.held = s.laterItems c k air ∧ s.sameFrame t

/-- A burst that the channel engine can send, and that fits its kind, is read back whole by a receiver: its CRC matches
and every field returns (R8, R12, R183). -/
def Obligations.BurstsAreReadBackWhole : Prop :=
  ∀ b : Burst, b.ok → parseBurst (burstBytes b) = some b

/-! ### The cycle end -/

/-- CYCLE_END, where the cycle's slots and sample frames are over: the next cycle starts at the planned end with the
counter one higher, a fresh capture, nothing received, and the first slot of its grid that occurs to come (R3, R20, R29,
R34). Its length is fixed at its start, no alignment has re-spaced it and none waits for its end (R27, R31); a burst
that fell in the next cycle's first slot is still held for it (R13, R17). The views rotate, except that they become
UNKNOWN at a step jump, at the end of the cycle of a case B or C alignment, and at an entry to MEMBER alone, whether
made at this CYCLE_END or by a row of its own ahead of it (R24, R28, R39, R59, R60; assumption log 6). The marks of the
rows of this cycle end, and what was kept for it, are cleared (assumption logs 6 and 7). That a fresh capture holds
silence until its samples arrive is the model's (assumption log 24). -/
def Obligations.CycleEndBeginsTheNextCycle : Prop :=
  ∀ (c : Cycle) (order : DeadlineOrder) (s : State), s.timer.cycle = some c → s.atCycleEnd → s.codec.frameIx = 160 →
    let forgets := s.early.viewsSet = true ∨ s.early.jump ≠ none ∨ s.jumpDue c = true ∨ c.nextPhase ≠ none ∨
      (s.station.state = .listen ∧ 3 ≤ s.station.listenCount)
    ∃ t c', exec (.cycleEnd order) s = .next t ∧ t.timer.cycle = some c' ∧ c'.start = c.planned ∧
      t.now = max s.now c.planned ∧ t.timer.counter = s.timer.counter + 1 ∧ t.timer.log = [] ∧ t.chan.heard = [] ∧
      c'.length = c'.planned - c'.start ∧ c'.respaced = [] ∧ c'.nextPhase = none ∧ t.chan.held = s.chan.held ∧
      t.chan.inSlot = false ∧ t.chan.nextSlot = c'.firstSlot ∧ t.codec.frameIx = 0 ∧
      t.codec.capture = List.replicate 160 0 ∧
      t.codec.syncLow = s.config.syncLow ∧ t.codec.edgeReversed = s.config.edgeReversed ∧ t.codec.shifting = none ∧
      t.streams.list = [] ∧
      (forgets → t.viewsUnknown) ∧
      (¬forgets → t.views = { filling := List.replicate 16 .empty, v1 := s.views.filling, v2 := s.views.v1 }) ∧
      t.early = State.reset.early ∧ t.chan.late = [] ∧ t.station.creds = s.station.creds ∧ t.store = s.store ∧
      t.config = s.config ∧ t.mute = s.mute ∧ t.port = s.port ∧ t.hold = s.hold ∧
      t.factoryId = s.factoryId ∧ t.pending = s.pending

/-- The cycle timer's choice at a CYCLE_END. The correction in MEMBER is the sum of the offsets of the n counted OWN
receptions over n + 1, truncated toward zero and clamped to -6..+6, and the cycle that begins is 10,000 ticks and the
correction long (R20, R21); outside MEMBER it is 10,000 ticks long. The step-loss counter counts outnumbered cycles, and a
step jump is due where it would reach 3 (R22). The cycle of a jump ends at the phase of the reference, moved by whole
10,000-tick steps to lie 5,000..14,999 ticks after its start (R23); so does the second cycle of a case B alignment, and
the one after a case C, at the phase kept (R27). That the last correction reads 0 where none is chosen outside MEMBER is
the model's (assumption log 27). -/
def Obligations.CycleTimerChoosesTheNextCycle : Prop :=
  (∀ (c : Cycle) (s : State),
    s.jumpDue c = true ↔
      s.early.jump = none ∧ s.station.state = .member ∧ s.wasOutnumbered c ∧ 2 ≤ s.timer.stepLoss) ∧
  (∀ (c : Cycle) (order : DeadlineOrder) (s : State), s.endsCycle c →
    let ds := s.countedOffsets c
    let quotient := Int.tdiv ds.sum (ds.length + 1)
    ∃ t c', exec (.cycleEnd order) s = .next t ∧ t.timer.cycle = some c' ∧ c'.start = c.planned ∧
      (s.jumpDue c = true →
        t.timer.lastCorrection = 0 ∧ t.timer.stepLoss = 0 ∧ c'.kind = .stepJump ∧ c'.gridInstant = c.planned ∧
          ∃ r, s.jumpReferenceIs c r ∧
            (c'.planned : Int) = placeEnd ((r.arrival : Int) - 625 * r.slot.val) c.planned) ∧
      (∀ e, s.early.jump = some e →
        t.timer.lastCorrection = 0 ∧ t.timer.stepLoss = 0 ∧ c'.kind = .stepJump ∧ c'.gridInstant = c.planned ∧
          c'.planned = e) ∧
      (s.early.jump = none → s.jumpDue c = false →
        (s.station.state = .member → s.wasOutnumbered c → t.timer.stepLoss = s.timer.stepLoss + 1) ∧
        (s.station.state ≠ .member ∨ ¬s.wasOutnumbered c → t.timer.stepLoss = 0) ∧
        (∀ p, c.nextPhase = some p →
          t.timer.lastCorrection = 0 ∧ c'.kind = .aligned ∧ c'.gridInstant = c.planned ∧
            (c'.planned : Int) = placeEnd p c.planned) ∧
        (c.nextPhase = none → c'.kind = .ordinary ∧ t.timer.lastCorrection = c'.correction ∧
          (c'.planned : Int) = c.planned + 10000 + c'.correction ∧
          (s.station.state ≠ .member → c'.correction = 0) ∧
          (s.station.state = .member → c'.correction = max (-6) (min 6 quotient))))) ∧
  ∀ p base e : Int,
    placeEnd p base = e ↔ base + 5000 ≤ e ∧ e ≤ base + 14999 ∧ ∃ k : Int, e = p + 10000 * k

/-- STEP_JUMP where it is due (R24, R76, R91, R143, R146): every claim but NONE and RELEASING goes to WAITING, RELEASING
to NONE, the views become UNKNOWN, the counters 0, STEP_JUMP is raised, an outstanding offer lapses; the peer table,
stream records, window and phone queues of a bearer in CLAIMING or BEARING are kept, the far-end record with them unless
an ENDING role ends, which makes it ABSENT (R125, R127); the jump cycle's end is that of the
reference (R23). That it may come as a step of its own ahead of the cycle end is the model's (assumption log 6); a
CYCLE_END that finds the jump due makes the same of the claims and the role, and takes no claim decision. -/
def Obligations.StepJumpSendsClaimsToWaiting : Prop :=
  ∀ (c : Cycle) (s : State), s.timer.cycle = some c → s.atCycleEnd → s.jumpDue c = true → s.claimsOk →
    let jumped := fun t : State =>
      (∀ id : ClaimId,
        ((s.claim id).state = .none ∨ (s.claim id).state = .releasing → (t.claim id).state = .none) ∧
        ((s.claim id).state ≠ .none → (s.claim id).state ≠ .releasing →
          t.claim id = { Claim.gone with state := .waiting })) ∧
      t.viewsUnknown ∧ t.timer.stepLoss = 0 ∧ t.timer.lastCorrection = 0 ∧ t.flagSet .stepJump ∧
      (s.bearer.state = .ending → t.bearer = Bearer.gone) ∧ t.station = s.station ∧ t.store = s.store
    (∃ t, exec .stepJump s = .next t ∧ jumped t ∧ t.peers = s.peers ∧ t.streams.wearers = s.streams.wearers ∧
      t.pairing.window = s.pairing.window ∧ t.pairing.newcomer = s.pairing.newcomer ∧ t.pairing.offer = none ∧
      (s.pairing.offer = none → t.pairing.lapse = s.pairing.lapse) ∧
      (∀ o, s.pairing.offer = some o → t.pairing.lapse = some { number := o.station, age := 0 }) ∧
      (s.bearer.state = .claiming ∨ s.bearer.state = .bearing → t.bearer = { s.bearer with state := .claiming }) ∧
      (s.bearer.state ≠ .ending →
        t.streams.farEnd = s.streams.farEnd ∧ t.flagSet .farendDown = s.flagSet .farendDown) ∧
      (s.bearer.state = .ending →
        t.streams.farEnd = { s.streams.farEnd.withoutSource with hang := s.streams.farEnd.hang } ∧
          (t.flagSet .farendDown ↔ s.flagSet .farendDown ∨ s.streams.farEnd.state ≠ .absent)) ∧
      (∃ r e, s.jumpReferenceIs c r ∧
        t.early =
          { s.early with
              jump := some e, viewsSet := true, lapseAged := s.early.lapseAged || s.pairing.offer.isSome } ∧
        (e : Int) = placeEnd ((r.arrival : Int) - 625 * r.slot.val) c.planned) ∧ s.sameFrame t) ∧
    ∀ order, s.codec.frameIx = 160 → s.chan.late = [] →
      ∃ t, exec (.cycleEnd order) s = .next t ∧ jumped t ∧
        (s.bearer.state = .claiming ∨ s.bearer.state = .bearing →
          t.bearer.state = .claiming ∧ t.bearer.age = min (s.bearer.age + 1) 255) ∧
        t.flagSet .groupFull = s.flagSet .groupFull ∧ t.flagSet .claimConfirmed = s.flagSet .claimConfirmed ∧
        t.flagSet .claimLost = s.flagSet .claimLost ∧ t.flagSet .bearerUp = s.flagSet .bearerUp

/-- PEER_SILENT, PEER_LOST and PEER_REMOVED where they are due (R49, Table 3-8): the entry changes as the table says,
PEER_LOST raises its event, no other entry changes. That they may come ahead of the cycle end is the model's (log 6).
CYCLE_END in LISTEN, MEMBER and LEAVING ages every entry that was not heard in the cycle just ended and that no row has
aged, and in every other state leaves the table as it is (R44, R49). Whichever way an entry's ageing and the reading of
the table fall at a cycle end, the table with the cycle just ended counted is the same, and so is the admission of every
wearer (R52). -/
def Obligations.AgeingChangesTheEntry : Prop :=
  (∀ (c : Cycle) (n : StationNo) (p : Peer) (s : State), s.timer.cycle = some c → s.atCycleEnd → s.peersOk →
     s.station.state = .listen ∨ s.station.state = .member ∨ s.station.state = .leaving →
     n ∉ s.chan.heard → n ∉ s.early.aged → findPeer n s.peers = some p →
     let aged := fun (ps : List Peer) (fl : BitVec 25) =>
       ({ s with
           now := max s.now c.planned, peers := ps, flags := fl
           early := { s.early with aged := s.early.aged ++ [n] } } : State)
     (p.missed = 4 → ∃ ps, exec (.peerSilent n) s = .next (aged ps s.flags) ∧
       findPeer n ps = some { p with missed := 5, state := .silent } ∧ ∀ m, m ≠ n → findPeer m ps = findPeer m s.peers) ∧
     (p.missed = 99 → ∃ ps, exec (.peerLost n) s = .next (aged ps (s.flags ||| Flag.peerLost.mark)) ∧
       findPeer n ps = some { p with missed := 100, state := .lost } ∧ ∀ m, m ≠ n → findPeer m ps = findPeer m s.peers) ∧
     (p.missed = 2999 → ∃ ps, exec (.peerRemoved n) s = .next (aged ps s.flags) ∧ findPeer n ps = none ∧
       ∀ m, m ≠ n → findPeer m ps = findPeer m s.peers)) ∧
  (∀ (c : Cycle) (order : DeadlineOrder) (s : State), s.endsCycle c → s.peersOk →
    let unheard := fun n : StationNo => n ∉ s.chan.heard ∧ n ∉ s.early.aged
    let ages := s.station.state = .listen ∨ s.station.state = .member ∨ s.station.state = .leaving
    ∃ t, exec (.cycleEnd order) s = .next t ∧ (¬ages → t.peers = s.peers) ∧
      (ages →
        (∀ n, findPeer n s.peers = none → findPeer n t.peers = none) ∧
        (∀ n p, findPeer n s.peers = some p →
          (¬unheard n → findPeer n t.peers = some p) ∧
          (unheard n → p.missed < 2999 →
            findPeer n t.peers = some
              { p with
                  missed := p.missed + 1
                  state := if p.missed = 4 then .silent else if p.missed = 99 then .lost else p.state }) ∧
          (unheard n → 2999 ≤ p.missed → findPeer n t.peers = none)) ∧
        (t.flagSet .peerLost ↔
          s.flagSet .peerLost ∨ ∃ p ∈ s.peers, unheard p.number ∧ p.missed = 99))) ∧
  ∀ (n : StationNo) (s t : State),
    exec (.peerSilent n) s = .next t ∨ exec (.peerLost n) s = .next t ∨ exec (.peerRemoved n) s = .next t →
    t.countedPeers = s.countedPeers ∧
      ∀ w, admitted t.station.creds t.countedPeers w = admitted s.station.creds s.countedPeers w

/-- At most two stations are admitted for a wearer, in ascending number, each the station itself or an entry of that
wearer that is not LOST, and any other candidate has a higher number (R50). At a CYCLE_END in MEMBER or LEAVING the
station is surplus when it is not admitted for its own wearer with the cycle just ended counted; WEARER_SURPLUS is raised
where it was admitted before, and the episode ends with an admission or with LEAVING (R52, R53). -/
def Obligations.AdmissionAndSurplusFollowTheTable : Prop :=
  (∀ (s : State) (w : WearerNo), s.peersOk →
    let a := admitted s.station.creds s.peers w
    let candidate := fun n : StationNo =>
      (n = s.station.creds.number ∧ s.station.creds.wearer = w) ∨
        ∃ p ∈ s.peers, p.number = n ∧ p.wearer = w ∧ p.state ≠ .lost
    a.length ≤ 2 ∧ (∀ n ∈ a, candidate n) ∧ a.Pairwise (fun m n => m < n) ∧
      ∀ n, candidate n → n ∉ a → a.length = 2 ∧ ∀ m ∈ a, m < n) ∧
  ∀ (c : Cycle) (order : DeadlineOrder) (s : State), s.endsCycle c → s.chan.late = [] →
    s.station.state = .member ∨ s.station.state = .leaving →
    let out := s.station.creds.number ∉ admitted s.station.creds s.countedPeers s.station.creds.wearer
    ∃ t, exec (.cycleEnd order) s = .next t ∧
      (t.flagSet .wearerSurplus ↔ s.flagSet .wearerSurplus ∨ (out ∧ s.surplus = false)) ∧
      (t.station.state = s.station.state → (t.surplus = true ↔ out)) ∧
      (t.station.state ≠ s.station.state → t.surplus = false)

/-- LISTEN_TIMEOUT where it is due (R39, R40, R53, R60): MEMBER alone on its own phase, the voice claim WAITING, all three
views UNKNOWN, counted as admitted so far. That it may come ahead of the cycle end is the model's (log 6). CYCLE_END in
LISTEN counts to 4, and there makes the same entry; CYCLE_END in LEAVING counts the cycle end that followed STOP, and at
the second goes to IDLE with STATE_CHANGED, the receiver off from that instant and the peer table held (R42, R44). -/
def Obligations.ListenAndLeavingEndAtTheirCounts : Prop :=
  (∀ (c : Cycle) (s : State), s.timer.cycle = some c → s.atCycleEnd → s.station.state = .listen →
    s.station.listenCount = 3 →
    ∃ t, exec .listenTimeout s = .next t ∧ t.station.state = .member ∧ t.station.creds = s.station.creds ∧
      t.voice = { Claim.gone with state := .waiting } ∧ t.farEnd = s.farEnd ∧
      t.views.filling = List.replicate 16 .unknown ∧ t.views.v1 = List.replicate 16 .unknown ∧
      t.views.v2 = List.replicate 16 .unknown ∧ t.flags = s.flags ||| Flag.stateChanged.mark ∧ t.peers = s.peers ∧
      t.timer = s.timer ∧ t.pairing = s.pairing ∧ t.bearer = s.bearer ∧ t.streams = s.streams ∧ t.store = s.store ∧
      t.surplus = false ∧ t.early = { s.early with viewsSet := true } ∧ s.sameFrame t) ∧
  (∀ (c : Cycle) (order : DeadlineOrder) (s : State), s.endsCycle c → s.chan.late = [] → s.station.state = .listen →
    ∃ t, exec (.cycleEnd order) s = .next t ∧
      (s.station.listenCount < 3 →
        t.station = { s.station with listenCount := s.station.listenCount + 1 } ∧ t.voice = s.voice ∧
          t.flagSet .stateChanged = s.flagSet .stateChanged) ∧
      (3 ≤ s.station.listenCount →
        t.station.state = .member ∧ t.station.creds = s.station.creds ∧ t.voice = { Claim.gone with state := .waiting } ∧
          t.viewsUnknown ∧ t.flagSet .stateChanged ∧ t.surplus = false)) ∧
  ∀ (c : Cycle) (order : DeadlineOrder) (s : State), s.endsCycle c → s.chan.late = [] → s.station.state = .leaving →
    ∃ t, exec (.cycleEnd order) s = .next t ∧ t.peers = s.countedPeers ∧
      (s.station.leavingEnds = 0 →
        t.station = { s.station with leavingEnds := 1 } ∧ t.chan.cutSpans = s.chan.cutSpans ∧
          t.flagSet .stateChanged = s.flagSet .stateChanged) ∧
      (1 ≤ s.station.leavingEnds →
        t.station = { s.station with state := .idle, leavingEnds := 0 } ∧ t.flagSet .stateChanged ∧
          t.chan.cutSpans = s.chan.cutSpans ++ [(s.chan.onSince, max s.now c.planned)])

/-- The claim decisions of a CYCLE_END in MEMBER or LEAVING that makes no step jump (R61, R64 to R66, R68 to R70, R73). A
claim that a row of its own has decided at this cycle end (assumption log 6) stays as it is and raises nothing (R64). The
voice claim is decided first. WAITING takes the lowest FREE slot, EMPTY in both views after the rotation and not the other
claim's; without one it counts where the picture is complete, GROUP_FULL at the start of an episode. TENTATIVE goes by
Table 4-4, CONFIRMED by its conflict run, HOLDOFF by its hold length, RELEASING counts once; both marks are cleared.
CLAIM_CONFIRMED, CLAIM_LOST and GROUP_FULL are raised there and by nothing else. The bearer record follows the far-end
claim, with BEARER_UP at every entry to BEARING, and its age counts in CLAIMING and BEARING (R142, R143). -/
def Obligations.ClaimsAreDecidedAtTheCycleEnd : Prop :=
  ∀ (c : Cycle) (order : DeadlineOrder) (s : State), s.endsCycle c → s.chan.late = [] → s.claimsOk →
    s.station.state = .member ∨ s.station.state = .leaving → s.early.jump = none → s.jumpDue c = false →
    ∃ t, exec (.cycleEnd order) s = .next t ∧
      let kept := fun cl : Claim => { cl with clean := false, conflict := false }
      let rotates := s.early.viewsSet = false ∧ c.nextPhase = none
      let empty := fun k : SlotIx => k.val ≤ 13 ∧ rotates ∧ s.views.filling.getD k.val .unknown = .empty ∧
        s.views.v1.getD k.val .unknown = .empty
      let complete := rotates ∧ ∀ k : SlotIx, k.val ≤ 13 → s.views.filling.getD k.val .unknown ≠ .unknown ∧
        s.views.v1.getD k.val .unknown ≠ .unknown
      let free := fun (id : ClaimId) (k : SlotIx) => empty k ∧ match id with
        | .voice => s.farEnd.slot ≠ some k
        | .farEnd => t.voice.slot ≠ some k
      let fills := fun id : ClaimId => s.claimUndecided id ∧ (s.claim id).state = .waiting ∧ (∀ k, ¬free id k) ∧ complete
      let confirms := fun id : ClaimId => s.claimUndecided id ∧ (s.claim id).state = .tentative ∧
        (s.claim id).conflict = false ∧ ((s.claim id).clean = true ∨ ∀ p ∈ s.countedPeers, p.state = .lost)
      let loses := fun id : ClaimId => s.claimUndecided id ∧ (s.claim id).state = .confirmed ∧
        (s.claim id).conflict = true ∧ 1 ≤ (s.claim id).run
      (∀ id : ClaimId, ¬s.claimUndecided id → t.claim id = s.claim id) ∧
      (∀ id : ClaimId, s.claimUndecided id →
        let cl := s.claim id
        let next := t.claim id
        (cl.state = .none → next = kept cl) ∧
        (cl.state = .waiting →
          (∀ k, free id k → (∀ j, j < k → ¬free id j) →
            next = { Claim.gone with state := .tentative, slot := some k }) ∧
          (fills id → next = { kept cl with cycles := min (cl.cycles + 1) 255 }) ∧
          ((∀ k, ¬free id k) → ¬complete → next = kept cl)) ∧
        (cl.state = .tentative →
          (confirms id → next = { Claim.gone with state := .confirmed, slot := cl.slot }) ∧
          (cl.conflict = true ∨ (¬confirms id ∧ 7 ≤ cl.cycles) → next = { Claim.gone with state := .holdoff }) ∧
          (cl.conflict = false → ¬confirms id → cl.cycles < 7 → next = { kept cl with cycles := cl.cycles + 1 })) ∧
        (cl.state = .confirmed →
          (loses id → next = { Claim.gone with state := .holdoff }) ∧
          (cl.conflict = true → cl.run = 0 → next = { kept cl with run := 1 }) ∧
          (cl.conflict = false → next = { kept cl with run := 0 })) ∧
        (cl.state = .holdoff →
          (s.station.creds.number.val % 4 ≤ cl.cycles → next = { Claim.gone with state := .waiting }) ∧
          (cl.cycles < s.station.creds.number.val % 4 → next = { kept cl with cycles := cl.cycles + 1 })) ∧
        (cl.state = .releasing → next = { kept cl with cycles := 1 })) ∧
      (t.flagSet .groupFull ↔ s.flagSet .groupFull ∨ ∃ id, fills id ∧ (s.claim id).cycles = 0) ∧
      (t.flagSet .claimConfirmed ↔ s.flagSet .claimConfirmed ∨ ∃ id, confirms id) ∧
      (t.flagSet .claimLost ↔ s.flagSet .claimLost ∨ ∃ id, loses id) ∧
      (t.flagSet .bearerUp ↔ s.flagSet .bearerUp ∨ confirms .farEnd) ∧
      (confirms .farEnd → t.bearer.state = .bearing) ∧ (loses .farEnd → t.bearer.state = .claiming) ∧
      (¬confirms .farEnd → ¬loses .farEnd → t.bearer.state = s.bearer.state) ∧
      (s.bearer.state = .claiming ∨ s.bearer.state = .bearing → t.bearer.age = min (s.bearer.age + 1) 255) ∧
      (s.bearer.state = .none ∨ s.bearer.state = .ending → t.bearer.age = s.bearer.age)

/-- TENTATIVE_EXPIRY, CLAIM_LOST and HOLDOFF_EXPIRY where they are due (R68, R69, R70, R143), for each of the two claims.
That they may come ahead of the cycle end, and that the claim is then marked as decided, so that it is not decided again
there (R64), is the model's (assumption log 6). -/
def Obligations.ClaimCountsRunOut : Prop :=
  ∀ (c : Cycle) (id : ClaimId) (s : State), s.timer.cycle = some c → s.atCycleEnd → s.station.state = .member →
    s.early.jump = none → s.jumpDue c = false → s.claimUndecided id →
    let other : ClaimId := match id with
      | .voice => .farEnd
      | .farEnd => .voice
    let marked := match id with
      | .voice => { s.early with voiceDecided := true }
      | .farEnd => { s.early with farDecided := true }
    ((s.claim id).state = .tentative → (s.claim id).cycles = 7 → (s.claim id).clean = false →
      (s.claim id).conflict = false → (∃ p ∈ s.countedPeers, p.state ≠ .lost) →
      ∃ t, exec (.tentativeExpiry id) s = .next t ∧ t.claim id = { Claim.gone with state := .holdoff } ∧
        t.claim other = s.claim other ∧ t.flags = s.flags ∧ t.bearer = s.bearer ∧ t.peers = s.peers ∧
        t.station = s.station ∧ t.views = s.views ∧ t.early = marked ∧ s.sameFrame t) ∧
    ((s.claim id).state = .confirmed → (s.claim id).run = 1 → (s.claim id).conflict = true →
      ∃ t, exec (.claimLost id) s = .next t ∧ t.claim id = { Claim.gone with state := .holdoff } ∧
        t.claim other = s.claim other ∧ t.flags = s.flags ||| Flag.claimLost.mark ∧
        (id = .voice → t.bearer = s.bearer) ∧
        (id = .farEnd → s.bearer.state = .bearing → t.bearer = { s.bearer with state := .claiming }) ∧
        t.peers = s.peers ∧ t.station = s.station ∧ t.views = s.views ∧ t.early = marked ∧ s.sameFrame t) ∧
    ((s.claim id).state = .holdoff → (s.claim id).cycles = s.station.creds.number.val % 4 →
      ∃ t, exec (.holdoffExpiry id) s = .next t ∧ t.claim id = { Claim.gone with state := .waiting } ∧
        t.claim other = s.claim other ∧ t.flags = s.flags ∧ t.bearer = s.bearer ∧ t.peers = s.peers ∧
        t.station = s.station ∧ t.views = s.views ∧ t.early = marked ∧ s.sameFrame t)

/-! ### The frame deadline of a cycle end -/

/-- The eight wearer records at CYCLE_END in LISTEN, MEMBER and LEAVING (R111, R115 to R120): the own-wearer record from
the voice payload that served the cycle; every other from the VOICE outcomes of its wearer's admitted stations, a hush
first, then the preferred bud, then the partner; else as when nothing arrived. At a CYCLE_END in IDLE, SEEKING and JOINING
every one becomes ABSENT (Table 7-3). The second cycle end of LEAVING is either, by which comes first, the transition or
the deadline (R115; the order is the command's, assumption log 7). The reception list is emptied in every case. -/
def Obligations.WearerRecordsFollowTheirStations : Prop :=
  (∀ (c : Cycle) (order : DeadlineOrder) (s : State), s.timer.cycle = some c → s.atCycleEnd → s.codec.frameIx = 160 →
    s.station.state = .listen ∨ s.station.state = .member ∨
      (s.station.state = .leaving ∧ (s.station.leavingEnds = 0 ∨ order = .deadlineFirst)) →
    let own := s.station.creds.number
    let loud := fun e : Nat => decide (s.config.tAct.toNat ≤ e)
    let energy := fun f : Frame => ((f.map fun x => x.toInt.natAbs).sum) / 160
    let heard := fun n => rxLookup n false s.streams.list
    let hushed := fun n => heard n = some .hush
    ∃ t, exec (.cycleEnd order) s = .next t ∧ t.streams.list = [] ∧
      ∀ (w : WearerNo) (r : StreamRec), s.streams.wearers[w.val]? = some r →
        let becomes := fun q : StreamRec => t.streams.wearers[w.val]? = some q
        let who := admitted s.station.creds s.countedPeers w
        (w = s.station.creds.wearer →
          (∀ p, s.chan.voicePayload = .frame p →
            becomes (r.withFrame (decodePayload p) (loud (energy (decodePayload p))) own false)) ∧
          (s.chan.voicePayload = .hush → becomes (r.withHush own)) ∧
          (s.chan.voicePayload = .none → becomes r.withoutSource)) ∧
        (w ≠ s.station.creds.wearer →
          (who = [] → becomes r.withoutSource) ∧
          ∀ pref rest, who = pref :: rest →
            (hushed pref → becomes (r.withHush pref)) ∧
            (∀ n, rest = [n] → ¬hushed pref → hushed n → becomes (r.withHush n)) ∧
            (∀ f e, heard pref = some (.frame f e) → (∀ n ∈ rest, ¬hushed n) →
              becomes (r.withFrame f (loud e) pref false)) ∧
            (∀ n f e, rest = [n] → heard pref = none → heard n = some (.frame f e) →
              becomes (r.withFrame f (loud e) n true)) ∧
            (heard pref = none → (∀ n ∈ rest, heard n = none) → becomes r.withNothing))) ∧
  ∀ (c : Cycle) (order : DeadlineOrder) (s : State), s.endsCycle c →
    s.station.state = .idle ∨ s.station.state = .seeking ∨ s.station.state = .joining ∨
      (s.station.state = .leaving ∧ 1 ≤ s.station.leavingEnds ∧ order = .stateFirst) →
    ∃ t, exec (.cycleEnd order) s = .next t ∧ t.streams.list = [] ∧
      t.streams.wearers = s.streams.wearers.map StreamRec.withoutSource

/-- The far-end record at a CYCLE_END in LISTEN, MEMBER and LEAVING (R111, R122 to R124, R126, R127). First it becomes
ABSENT where its source's entry is LOST or absent; a bearer that follows itself is not meant (assumption log 14). A
bearer's is fed from its last take; another station's from the FAREND outcome of the candidate of the greatest age and
then the lowest number, ABSENT without a candidate. Each passage to or from ABSENT raises its event. A step jump, made
here or by its own row, leaves all this as at any deadline (R24); where it ends an ENDING role (R146) the record also
becomes ABSENT (R125, R127), ahead of the deadline's work or after it by the order of the two (assumption log 7). That a
record that stays ABSENT takes no source is the model's reading (assumption log 15). At a CYCLE_END in IDLE, SEEKING and
JOINING, and at the second one of LEAVING when the transition comes first (R115; the order is the command's, assumption
log 7), it becomes ABSENT, with FAREND_DOWN where it was present (Table 7-3). -/
def Obligations.FarEndRecordFollowsItsSource : Prop :=
  (∀ (c : Cycle) (order : DeadlineOrder) (s : State), s.timer.cycle = some c → s.atCycleEnd → s.codec.frameIx = 160 →
    s.chan.late = [] → s.claimsOk →
    s.station.state = .listen ∨ s.station.state = .member ∨
      (s.station.state = .leaving ∧ (s.station.leavingEnds = 0 ∨ order = .deadlineFirst)) →
    let own := s.station.creds.number
    let loud := fun e : Nat => decide (s.config.tAct.toNat ≤ e)
    let energy := fun f : Frame => ((f.map fun x => x.toInt.natAbs).sum) / 160
    let absent := fun q : StreamRec => { q.withoutSource with hang := q.hang }
    let roleEnds := s.jumpDue c = true ∧ s.bearer.state = .ending
    let endsAhead := roleEnds ∧ order = .stateFirst
    let endsAfter := roleEnds ∧ order = .deadlineFirst
    let bears := s.bearer.state ≠ .none ∧ ¬endsAhead
    let candidate := fun p : Peer => p ∈ s.countedPeers ∧ p.state ≠ .lost ∧ p.farSlot ≠ none ∧ p.bearer = true
    ∃ t r tested fed, exec (.cycleEnd order) s = .next t ∧
      (endsAhead → r = absent s.streams.farEnd) ∧ (¬endsAhead → r = s.streams.farEnd) ∧
      (let lost := ∃ n, r.source = some n ∧ (¬bears ∨ n ≠ own) ∧
          ∀ p, findPeer n s.countedPeers = some p → p.state = .lost
       (lost → tested = absent r) ∧ (¬lost → tested = r)) ∧
      (¬bears → (∀ p, ¬candidate p) → fed = tested.withoutSource) ∧
      (¬bears → ∀ p, candidate p →
        (∀ q, candidate q → q.age.toNat < p.age.toNat ∨ (q.age = p.age ∧ p.number ≤ q.number)) →
        let heard := rxLookup p.number true s.streams.list
        (heard = some .hush → fed = tested.withHush p.number) ∧
        (∀ f e, heard = some (.frame f e) → fed = tested.withFrame f (loud e) p.number false) ∧
        (heard = none → tested.state = .absent → fed = tested.withoutSource) ∧
        (heard = none → tested.state ≠ .absent → fed = { tested.withNothing with source := some p.number })) ∧
      (bears →
        (∀ p, s.bearer.lastTake = .frame → s.chan.farPayload = some p →
          fed = tested.withFrame (decodePayload p) (loud (energy (decodePayload p))) own false) ∧
        (s.bearer.lastTake = .hush → fed = tested.withHush own) ∧
        (s.bearer.lastTake = .none → fed = tested.withNothing)) ∧
      (endsAfter → t.streams.farEnd = absent fed) ∧ (¬endsAfter → t.streams.farEnd = fed) ∧
      (t.flagSet .farendUp ↔ s.flagSet .farendUp ∨ (tested.state = .absent ∧ fed.state ≠ .absent)) ∧
      (t.flagSet .farendDown ↔
        s.flagSet .farendDown ∨ (endsAhead ∧ s.streams.farEnd.state ≠ .absent) ∨
          (r.state ≠ .absent ∧ tested.state = .absent) ∨ (tested.state ≠ .absent ∧ fed.state = .absent) ∨
          (endsAfter ∧ fed.state ≠ .absent))) ∧
  ∀ (c : Cycle) (order : DeadlineOrder) (s : State), s.endsCycle c → s.chan.late = [] ∨ s.bearer.state = .none →
    s.station.state = .idle ∨ s.station.state = .seeking ∨ s.station.state = .joining ∨
      (s.station.state = .leaving ∧ 1 ≤ s.station.leavingEnds ∧ order = .stateFirst) →
    ∃ t, exec (.cycleEnd order) s = .next t ∧ t.streams.farEnd = s.streams.farEnd.withoutSource ∧
      (t.flagSet .farendDown ↔ s.flagSet .farendDown ∨ s.streams.farEnd.state ≠ .absent)

/-- The speaker frame that a CYCLE_END makes the playout frame (R131 to R135): the far-end record and the wearer records
other than the own, each at its effective gain under the headroom of the active count, summed, rounded and saturated once,
then volume, then sidetone from the capture frame. The gains: headroom by Table 8-3, and e = (g h + 8192) shifted right by
14, which lies in 0..32767 and equals h for a level of 16384 (R132). The hypotheses leave out a role's end that falls at
the same instant after the deadline's work (assumption log 7). -/
def Obligations.SpeakerFrameIsMixed : Prop :=
  (headroom 0 = 16384 ∧ headroom 1 = 16384 ∧ headroom 2 = 12288 ∧ headroom 3 = 10240 ∧
    ∀ k, 4 ≤ k → headroom k = 8192) ∧
  (∀ (g : Gain) (k : Nat),
    effectiveGain g k = ((g.toNat : Int) * headroom k + 8192) / 16384 ∧ 0 ≤ effectiveGain g k ∧
      effectiveGain g k ≤ 32767 ∧ (g.toNat = 16384 → effectiveGain g k = headroom k)) ∧
  (∀ (vol : Gain) (y : Sample),
    (volumeSample vol y).toInt = max (-32768) (min 32767 ((y.toInt * vol.toNat + 8192) / 16384)) ∧
      (vol.toNat = 16384 → volumeSample vol y = y) ∧ (vol.toNat = 0 → volumeSample vol y = 0)) ∧
  ∀ (c : Cycle) (order : DeadlineOrder) (s : State), s.timer.cycle = some c → s.atCycleEnd → s.codec.frameIx = 160 →
    s.sizesOk → s.chan.late = [] → order = .stateFirst ∨ s.bearer.state ≠ .ending →
    ∃ t, exec (.cycleEnd order) s = .next t ∧ t.codec.playout.length = 160 ∧
      let others := t.streams.wearers.eraseIdx s.station.creds.wearer.val
      let k := ((t.streams.farEnd :: others).filter fun r => decide (0 < r.hang)).length
      let clamp := fun x : Int => max (-32768) (min 32767 x)
      ∀ i, i < 160 →
        let x := fun r : StreamRec => (r.current.getD i 0).toInt
        let acc := x t.streams.farEnd * effectiveGain s.config.gFar k +
          (others.map fun r => x r * effectiveGain s.config.gVoice k).sum
        let y := clamp ((acc + 8192) / 16384)
        let z := clamp ((y * s.config.vol.toNat + 8192) / 16384)
        (t.codec.playout.getD i 0).toInt =
          clamp (z + ((s.codec.capture.getD i 0).toInt * s.config.gSide.toNat + 8192) / 16384)

/-- The uplink at a CYCLE_END (R136, R137, R153, R154): while the bearer record is CLAIMING or BEARING, the sum of all
eight wearer records, rounded and saturated once, joins the uplink queue with the slip of Table 9-7, the oldest samples
beyond 640 discarded with UPLINK_OVERRUN; in NONE and in ENDING nothing joins, and no overrun is raised (R137, R145). The
queue of an ENDING record is kept where no step jump ends the role. -/
def Obligations.UplinkFrameJoinsTheQueue : Prop :=
  ∀ (c : Cycle) (order : DeadlineOrder) (s : State), s.timer.cycle = some c → s.atCycleEnd → s.codec.frameIx = 160 →
    s.sizesOk → s.chan.late = [] →
    ∃ t, exec (.cycleEnd order) s = .next t ∧
      (s.bearer.state = .none → t.bearer.uplink = s.bearer.uplink ∧ t.flagSet .uplinkOverrun = s.flagSet .uplinkOverrun) ∧
      (s.bearer.state = .ending → t.flagSet .uplinkOverrun = s.flagSet .uplinkOverrun ∧
        (s.claimsOk → s.jumpDue c = false → t.bearer.uplink = s.bearer.uplink)) ∧
      (s.bearer.state = .claiming ∨ s.bearer.state = .bearing →
        let k := (t.streams.wearers.filter fun r => decide (0 < r.hang)).length
        let fill := s.bearer.uplink.length
        ∃ u joined : List Sample, u.length = 160 ∧
          (∀ i, i < 160 → (u.getD i 0).toInt = max (-32768) (min 32767
            (((t.streams.wearers.map fun r => (r.current.getD i 0).toInt * effectiveGain s.config.gUp k).sum + 8192) /
              16384))) ∧
          (fill < 240 → joined = u ++ [u.getD 159 0]) ∧
          (240 ≤ fill → fill ≤ 400 → joined = u) ∧
          (400 < fill →
            joined = u.take 158 ++ [BitVec.ofInt 16 (((u.getD 158 0).toInt + (u.getD 159 0).toInt) / 2)]) ∧
          t.bearer.uplink = (s.bearer.uplink ++ joined).drop (fill + joined.length - 640) ∧
          (t.flagSet .uplinkOverrun ↔ s.flagSet .uplinkOverrun ∨ 640 < fill + joined.length))

/-! ### What every step keeps -/

/-- Views hold 16 entries, frames 160 samples, payloads five sub-blocks of 32, and each phone queue at most 640 samples,
after every step from a state in which they do (R7, R34, R59, R113, R140). -/
def Obligations.EveryStepKeepsTheSizes : Prop := ∀ s t : State, s.sizesOk → step s = .next t → t.sizesOk

/-- The peer table holds at most 15 entries of distinct numbers in 1..30, none the station's own, and none at all in the
states whose table is empty, after every step from a state in which it does (R44, Table 3-1). -/
def Obligations.EveryStepKeepsThePeerTable : Prop := ∀ s t : State, s.peersOk → step s = .next t → t.peersOk

/-- The claim records keep their form, the two claims never share a slot, and the far-end claim's state is the one that
goes with the bearer's (R62, Table 9-1), after every step from a state in which this holds. -/
def Obligations.EveryStepKeepsClaimsAndRole : Prop := ∀ s t : State, s.claimsOk → step s = .next t → t.claimsOk

/-- The window is open only in MEMBER, an offer or a lapse memory only in an open window (R79), after every step from a
state in which this holds. -/
def Obligations.EveryStepKeepsTheWindow : Prop := ∀ s t : State, s.windowOk → step s = .next t → t.windowOk

/-- The 16 places stay sound, the copy equals them but for the place under an erase then program, and an operation is in
flight only on a place it may act on (R157, R158), after every step from a state in which this holds. -/
def Obligations.EveryStepKeepsTheBondStore : Prop := ∀ s t : State, s.bondsOk → step s = .next t → t.bondsOk

/-! ### Voice frames -/

/-- The exponent of a sub-block: the smallest in 0..8 for which the peak magnitude shifted right by it is at most 127, the
peak being the greatest of x for x at least 0 and -x - 1 below (R101). -/
def Obligations.ExponentIsTheSmallestThatFits : Prop :=
  ∀ xs : List Sample, xs.length = 32 →
    let e := (encodeBlock xs).exponent
    ∃ P : Nat, P ≤ 32767 ∧
      (∀ x ∈ xs, (0 ≤ x.toInt → x.toInt ≤ P) ∧ (x.toInt < 0 → -x.toInt - 1 ≤ P)) ∧
      (∃ x ∈ xs, (0 ≤ x.toInt ∧ x.toInt = P) ∨ (x.toInt < 0 ∧ -x.toInt - 1 = P)) ∧
      P / 2 ^ e.val ≤ 127 ∧ ∀ d : Nat, d < e.val → 127 < P / 2 ^ d

/-- Encoding and decoding a sub-block gives 32 samples, each the encoded one to within 2^(e-1) where the clamp did not
act and to within 2^e - 1 in every case; with exponent 0 the decode is exact (R102, R103). -/
def Obligations.CompandingErrorIsBounded : Prop :=
  ∀ xs : List Sample, xs.length = 32 →
    let b := encodeBlock xs
    (decodeBlock b).length = 32 ∧
    ∀ i, i < 32 →
      let x := (xs.getD i 0).toInt
      let y := ((decodeBlock b).getD i 0).toInt
      |y - x| ≤ 2 ^ b.exponent.val - 1 ∧ (b.exponent.val = 0 → y = x) ∧
        (1 ≤ b.exponent.val → x < 128 * 2 ^ b.exponent.val - 2 ^ (b.exponent.val - 1) →
          |y - x| ≤ 2 ^ (b.exponent.val - 1))

end Statements
end

