-- ==== Sys2Proof/Laws/State.lean ====
section
/-! SUPPORT. What each primitive update of the state does to each field: one lemma per field, true by `rfl`. -/

namespace Sys2Proof.Machine

/-! ### withPending -/

@[simp] theorem State.withPending_now (s : State) (q : List Instr) : (s.withPending q).now = s.now := rfl
@[simp] theorem State.withPending_factoryId (s : State) (q : List Instr) : (s.withPending q).factoryId = s.factoryId
    := rfl
@[simp] theorem State.withPending_hold (s : State) (q : List Instr) : (s.withPending q).hold = s.hold := rfl
@[simp] theorem State.withPending_station (s : State) (q : List Instr) : (s.withPending q).station = s.station := rfl
@[simp] theorem State.withPending_timer (s : State) (q : List Instr) : (s.withPending q).timer = s.timer := rfl
@[simp] theorem State.withPending_early (s : State) (q : List Instr) : (s.withPending q).early = s.early := rfl
@[simp] theorem State.withPending_chan (s : State) (q : List Instr) : (s.withPending q).chan = s.chan := rfl
@[simp] theorem State.withPending_views (s : State) (q : List Instr) : (s.withPending q).views = s.views := rfl
@[simp] theorem State.withPending_peers (s : State) (q : List Instr) : (s.withPending q).peers = s.peers := rfl
@[simp] theorem State.withPending_surplus (s : State) (q : List Instr) : (s.withPending q).surplus = s.surplus := rfl
@[simp] theorem State.withPending_voice (s : State) (q : List Instr) : (s.withPending q).voice = s.voice := rfl
@[simp] theorem State.withPending_farEnd (s : State) (q : List Instr) : (s.withPending q).farEnd = s.farEnd := rfl
@[simp] theorem State.withPending_pairing (s : State) (q : List Instr) : (s.withPending q).pairing = s.pairing := rfl
@[simp] theorem State.withPending_mute (s : State) (q : List Instr) : (s.withPending q).mute = s.mute := rfl
@[simp] theorem State.withPending_streams (s : State) (q : List Instr) : (s.withPending q).streams = s.streams := rfl
@[simp] theorem State.withPending_bearer (s : State) (q : List Instr) : (s.withPending q).bearer = s.bearer := rfl
@[simp] theorem State.withPending_store (s : State) (q : List Instr) : (s.withPending q).store = s.store := rfl
@[simp] theorem State.withPending_config (s : State) (q : List Instr) : (s.withPending q).config = s.config := rfl
@[simp] theorem State.withPending_flags (s : State) (q : List Instr) : (s.withPending q).flags = s.flags := rfl
@[simp] theorem State.withPending_port (s : State) (q : List Instr) : (s.withPending q).port = s.port := rfl
@[simp] theorem State.withPending_codec (s : State) (q : List Instr) : (s.withPending q).codec = s.codec := rfl
@[simp] theorem State.withPending_pending (s : State) (q : List Instr) : (s.withPending q).pending = q := rfl

/-! ### atInstant -/

@[simp] theorem State.atInstant_now (s : State) (t : Nat) : (s.atInstant t).now = max s.now t := rfl
@[simp] theorem State.atInstant_factoryId (s : State) (t : Nat) : (s.atInstant t).factoryId = s.factoryId := rfl
@[simp] theorem State.atInstant_hold (s : State) (t : Nat) : (s.atInstant t).hold = s.hold := rfl
@[simp] theorem State.atInstant_station (s : State) (t : Nat) : (s.atInstant t).station = s.station := rfl
@[simp] theorem State.atInstant_timer (s : State) (t : Nat) : (s.atInstant t).timer = s.timer := rfl
@[simp] theorem State.atInstant_early (s : State) (t : Nat) : (s.atInstant t).early = s.early := rfl
@[simp] theorem State.atInstant_chan (s : State) (t : Nat) : (s.atInstant t).chan = s.chan := rfl
@[simp] theorem State.atInstant_views (s : State) (t : Nat) : (s.atInstant t).views = s.views := rfl
@[simp] theorem State.atInstant_peers (s : State) (t : Nat) : (s.atInstant t).peers = s.peers := rfl
@[simp] theorem State.atInstant_surplus (s : State) (t : Nat) : (s.atInstant t).surplus = s.surplus := rfl
@[simp] theorem State.atInstant_voice (s : State) (t : Nat) : (s.atInstant t).voice = s.voice := rfl
@[simp] theorem State.atInstant_farEnd (s : State) (t : Nat) : (s.atInstant t).farEnd = s.farEnd := rfl
@[simp] theorem State.atInstant_pairing (s : State) (t : Nat) : (s.atInstant t).pairing = s.pairing := rfl
@[simp] theorem State.atInstant_mute (s : State) (t : Nat) : (s.atInstant t).mute = s.mute := rfl
@[simp] theorem State.atInstant_streams (s : State) (t : Nat) : (s.atInstant t).streams = s.streams := rfl
@[simp] theorem State.atInstant_bearer (s : State) (t : Nat) : (s.atInstant t).bearer = s.bearer := rfl
@[simp] theorem State.atInstant_store (s : State) (t : Nat) : (s.atInstant t).store = s.store := rfl
@[simp] theorem State.atInstant_config (s : State) (t : Nat) : (s.atInstant t).config = s.config := rfl
@[simp] theorem State.atInstant_flags (s : State) (t : Nat) : (s.atInstant t).flags = s.flags := rfl
@[simp] theorem State.atInstant_port (s : State) (t : Nat) : (s.atInstant t).port = s.port := rfl
@[simp] theorem State.atInstant_codec (s : State) (t : Nat) : (s.atInstant t).codec = s.codec := rfl
@[simp] theorem State.atInstant_pending (s : State) (t : Nat) : (s.atInstant t).pending = s.pending := rfl

/-! ### raise -/

@[simp] theorem State.raise_now (s : State) (f : Flag) : (s.raise f).now = s.now := rfl
@[simp] theorem State.raise_factoryId (s : State) (f : Flag) : (s.raise f).factoryId = s.factoryId := rfl
@[simp] theorem State.raise_hold (s : State) (f : Flag) : (s.raise f).hold = s.hold := rfl
@[simp] theorem State.raise_station (s : State) (f : Flag) : (s.raise f).station = s.station := rfl
@[simp] theorem State.raise_timer (s : State) (f : Flag) : (s.raise f).timer = s.timer := rfl
@[simp] theorem State.raise_early (s : State) (f : Flag) : (s.raise f).early = s.early := rfl
@[simp] theorem State.raise_chan (s : State) (f : Flag) : (s.raise f).chan = s.chan := rfl
@[simp] theorem State.raise_views (s : State) (f : Flag) : (s.raise f).views = s.views := rfl
@[simp] theorem State.raise_peers (s : State) (f : Flag) : (s.raise f).peers = s.peers := rfl
@[simp] theorem State.raise_surplus (s : State) (f : Flag) : (s.raise f).surplus = s.surplus := rfl
@[simp] theorem State.raise_voice (s : State) (f : Flag) : (s.raise f).voice = s.voice := rfl
@[simp] theorem State.raise_farEnd (s : State) (f : Flag) : (s.raise f).farEnd = s.farEnd := rfl
@[simp] theorem State.raise_pairing (s : State) (f : Flag) : (s.raise f).pairing = s.pairing := rfl
@[simp] theorem State.raise_mute (s : State) (f : Flag) : (s.raise f).mute = s.mute := rfl
@[simp] theorem State.raise_streams (s : State) (f : Flag) : (s.raise f).streams = s.streams := rfl
@[simp] theorem State.raise_bearer (s : State) (f : Flag) : (s.raise f).bearer = s.bearer := rfl
@[simp] theorem State.raise_store (s : State) (f : Flag) : (s.raise f).store = s.store := rfl
@[simp] theorem State.raise_config (s : State) (f : Flag) : (s.raise f).config = s.config := rfl
@[simp] theorem State.raise_flags (s : State) (f : Flag) : (s.raise f).flags = s.flags ||| f.mark := rfl
@[simp] theorem State.raise_port (s : State) (f : Flag) : (s.raise f).port = s.port := rfl
@[simp] theorem State.raise_codec (s : State) (f : Flag) : (s.raise f).codec = s.codec := rfl
@[simp] theorem State.raise_pending (s : State) (f : Flag) : (s.raise f).pending = s.pending := rfl

/-! ### markTaken -/

@[simp] theorem State.markTaken_now (s : State) : s.markTaken.now = s.now := rfl
@[simp] theorem State.markTaken_factoryId (s : State) : s.markTaken.factoryId = s.factoryId := rfl
@[simp] theorem State.markTaken_hold (s : State) : s.markTaken.hold = s.hold := rfl
@[simp] theorem State.markTaken_station (s : State) : s.markTaken.station = s.station := rfl
@[simp] theorem State.markTaken_timer (s : State) : s.markTaken.timer = s.timer := rfl
@[simp] theorem State.markTaken_early (s : State) : s.markTaken.early = s.early := rfl
@[simp] theorem State.markTaken_chan (s : State) : s.markTaken.chan = s.chan := rfl
@[simp] theorem State.markTaken_views (s : State) : s.markTaken.views = s.views := rfl
@[simp] theorem State.markTaken_peers (s : State) : s.markTaken.peers = s.peers := rfl
@[simp] theorem State.markTaken_surplus (s : State) : s.markTaken.surplus = s.surplus := rfl
@[simp] theorem State.markTaken_voice (s : State) : s.markTaken.voice = s.voice := rfl
@[simp] theorem State.markTaken_farEnd (s : State) : s.markTaken.farEnd = s.farEnd := rfl
@[simp] theorem State.markTaken_pairing (s : State) : s.markTaken.pairing = s.pairing := rfl
@[simp] theorem State.markTaken_mute (s : State) : s.markTaken.mute = s.mute := rfl
@[simp] theorem State.markTaken_streams (s : State) : s.markTaken.streams = s.streams := rfl
@[simp] theorem State.markTaken_bearer (s : State) : s.markTaken.bearer = s.bearer := rfl
@[simp] theorem State.markTaken_store (s : State) : s.markTaken.store = s.store := rfl
@[simp] theorem State.markTaken_config (s : State) : s.markTaken.config = s.config := rfl
@[simp] theorem State.markTaken_flags (s : State) : s.markTaken.flags = s.flags := rfl
@[simp] theorem State.markTaken_port (s : State) : s.markTaken.port = { s.port with phase := .taken } := rfl
@[simp] theorem State.markTaken_codec (s : State) : s.markTaken.codec = s.codec := rfl
@[simp] theorem State.markTaken_pending (s : State) : s.markTaken.pending = s.pending := rfl

/-! ### answer -/

@[simp] theorem State.answer_now (s : State) (r : Result) (data : List Byte) : (s.answer r data).now = s.now := rfl
@[simp] theorem State.answer_factoryId (s : State) (r : Result) (data : List Byte) : (s.answer r data).factoryId =
    s.factoryId := rfl
@[simp] theorem State.answer_hold (s : State) (r : Result) (data : List Byte) : (s.answer r data).hold = s.hold := rfl
@[simp] theorem State.answer_station (s : State) (r : Result) (data : List Byte) : (s.answer r data).station =
    s.station := rfl
@[simp] theorem State.answer_timer (s : State) (r : Result) (data : List Byte) : (s.answer r data).timer = s.timer :=
    rfl
@[simp] theorem State.answer_early (s : State) (r : Result) (data : List Byte) : (s.answer r data).early = s.early :=
    rfl
@[simp] theorem State.answer_chan (s : State) (r : Result) (data : List Byte) : (s.answer r data).chan = s.chan := rfl
@[simp] theorem State.answer_views (s : State) (r : Result) (data : List Byte) : (s.answer r data).views = s.views :=
    rfl
@[simp] theorem State.answer_peers (s : State) (r : Result) (data : List Byte) : (s.answer r data).peers = s.peers :=
    rfl
@[simp] theorem State.answer_surplus (s : State) (r : Result) (data : List Byte) : (s.answer r data).surplus =
    s.surplus := rfl
@[simp] theorem State.answer_voice (s : State) (r : Result) (data : List Byte) : (s.answer r data).voice = s.voice :=
    rfl
@[simp] theorem State.answer_farEnd (s : State) (r : Result) (data : List Byte) : (s.answer r data).farEnd = s.farEnd
    := rfl
@[simp] theorem State.answer_pairing (s : State) (r : Result) (data : List Byte) : (s.answer r data).pairing =
    s.pairing := rfl
@[simp] theorem State.answer_mute (s : State) (r : Result) (data : List Byte) : (s.answer r data).mute = s.mute := rfl
@[simp] theorem State.answer_streams (s : State) (r : Result) (data : List Byte) : (s.answer r data).streams =
    s.streams := rfl
@[simp] theorem State.answer_bearer (s : State) (r : Result) (data : List Byte) : (s.answer r data).bearer = s.bearer
    := rfl
@[simp] theorem State.answer_store (s : State) (r : Result) (data : List Byte) : (s.answer r data).store = s.store :=
    rfl
@[simp] theorem State.answer_config (s : State) (r : Result) (data : List Byte) : (s.answer r data).config = s.config
    := rfl
@[simp] theorem State.answer_flags (s : State) (r : Result) (data : List Byte) : (s.answer r data).flags = s.flags :=
    rfl
@[simp] theorem State.answer_port (s : State) (r : Result) (data : List Byte) : (s.answer r data).port =
    { s.port with reply := r.code :: data } := rfl
@[simp] theorem State.answer_codec (s : State) (r : Result) (data : List Byte) : (s.answer r data).codec = s.codec :=
    rfl
@[simp] theorem State.answer_pending (s : State) (r : Result) (data : List Byte) : (s.answer r data).pending =
    s.pending := rfl

/-! ### beginTransfer -/

@[simp] theorem State.beginTransfer_now (s : State) (x : Transfer) : (s.beginTransfer x).now = s.now := rfl
@[simp] theorem State.beginTransfer_factoryId (s : State) (x : Transfer) : (s.beginTransfer x).factoryId = s.factoryId
    := rfl
@[simp] theorem State.beginTransfer_hold (s : State) (x : Transfer) : (s.beginTransfer x).hold = s.hold := rfl
@[simp] theorem State.beginTransfer_station (s : State) (x : Transfer) : (s.beginTransfer x).station = s.station :=
    rfl
@[simp] theorem State.beginTransfer_timer (s : State) (x : Transfer) : (s.beginTransfer x).timer = s.timer := rfl
@[simp] theorem State.beginTransfer_early (s : State) (x : Transfer) : (s.beginTransfer x).early = s.early := rfl
@[simp] theorem State.beginTransfer_chan (s : State) (x : Transfer) : (s.beginTransfer x).chan = s.chan := rfl
@[simp] theorem State.beginTransfer_views (s : State) (x : Transfer) : (s.beginTransfer x).views = s.views := rfl
@[simp] theorem State.beginTransfer_peers (s : State) (x : Transfer) : (s.beginTransfer x).peers = s.peers := rfl
@[simp] theorem State.beginTransfer_surplus (s : State) (x : Transfer) : (s.beginTransfer x).surplus = s.surplus :=
    rfl
@[simp] theorem State.beginTransfer_voice (s : State) (x : Transfer) : (s.beginTransfer x).voice = s.voice := rfl
@[simp] theorem State.beginTransfer_farEnd (s : State) (x : Transfer) : (s.beginTransfer x).farEnd = s.farEnd := rfl
@[simp] theorem State.beginTransfer_pairing (s : State) (x : Transfer) : (s.beginTransfer x).pairing = s.pairing :=
    rfl
@[simp] theorem State.beginTransfer_mute (s : State) (x : Transfer) : (s.beginTransfer x).mute = s.mute := rfl
@[simp] theorem State.beginTransfer_streams (s : State) (x : Transfer) : (s.beginTransfer x).streams = s.streams :=
    rfl
@[simp] theorem State.beginTransfer_bearer (s : State) (x : Transfer) : (s.beginTransfer x).bearer = s.bearer := rfl
@[simp] theorem State.beginTransfer_store (s : State) (x : Transfer) : (s.beginTransfer x).store = s.store := rfl
@[simp] theorem State.beginTransfer_config (s : State) (x : Transfer) : (s.beginTransfer x).config = s.config := rfl
@[simp] theorem State.beginTransfer_flags (s : State) (x : Transfer) : (s.beginTransfer x).flags = s.flags := rfl
@[simp] theorem State.beginTransfer_port (s : State) (x : Transfer) : (s.beginTransfer x).port =
    { s.port with transfer := x } := rfl
@[simp] theorem State.beginTransfer_codec (s : State) (x : Transfer) : (s.beginTransfer x).codec = s.codec := rfl
@[simp] theorem State.beginTransfer_pending (s : State) (x : Transfer) : (s.beginTransfer x).pending = s.pending :=
    rfl

/-! ### shiftOut -/

@[simp] theorem State.shiftOut_now (s : State) (v : Sample) : (s.shiftOut v).now = s.now := rfl
@[simp] theorem State.shiftOut_factoryId (s : State) (v : Sample) : (s.shiftOut v).factoryId = s.factoryId := rfl
@[simp] theorem State.shiftOut_hold (s : State) (v : Sample) : (s.shiftOut v).hold = s.hold := rfl
@[simp] theorem State.shiftOut_station (s : State) (v : Sample) : (s.shiftOut v).station = s.station := rfl
@[simp] theorem State.shiftOut_timer (s : State) (v : Sample) : (s.shiftOut v).timer = s.timer := rfl
@[simp] theorem State.shiftOut_early (s : State) (v : Sample) : (s.shiftOut v).early = s.early := rfl
@[simp] theorem State.shiftOut_chan (s : State) (v : Sample) : (s.shiftOut v).chan = s.chan := rfl
@[simp] theorem State.shiftOut_views (s : State) (v : Sample) : (s.shiftOut v).views = s.views := rfl
@[simp] theorem State.shiftOut_peers (s : State) (v : Sample) : (s.shiftOut v).peers = s.peers := rfl
@[simp] theorem State.shiftOut_surplus (s : State) (v : Sample) : (s.shiftOut v).surplus = s.surplus := rfl
@[simp] theorem State.shiftOut_voice (s : State) (v : Sample) : (s.shiftOut v).voice = s.voice := rfl
@[simp] theorem State.shiftOut_farEnd (s : State) (v : Sample) : (s.shiftOut v).farEnd = s.farEnd := rfl
@[simp] theorem State.shiftOut_pairing (s : State) (v : Sample) : (s.shiftOut v).pairing = s.pairing := rfl
@[simp] theorem State.shiftOut_mute (s : State) (v : Sample) : (s.shiftOut v).mute = s.mute := rfl
@[simp] theorem State.shiftOut_streams (s : State) (v : Sample) : (s.shiftOut v).streams = s.streams := rfl
@[simp] theorem State.shiftOut_bearer (s : State) (v : Sample) : (s.shiftOut v).bearer = s.bearer := rfl
@[simp] theorem State.shiftOut_store (s : State) (v : Sample) : (s.shiftOut v).store = s.store := rfl
@[simp] theorem State.shiftOut_config (s : State) (v : Sample) : (s.shiftOut v).config = s.config := rfl
@[simp] theorem State.shiftOut_flags (s : State) (v : Sample) : (s.shiftOut v).flags = s.flags := rfl
@[simp] theorem State.shiftOut_port (s : State) (v : Sample) : (s.shiftOut v).port =
    { s.port with reply := s.port.reply ++ sampleBytes v } := rfl
@[simp] theorem State.shiftOut_codec (s : State) (v : Sample) : (s.shiftOut v).codec = s.codec := rfl
@[simp] theorem State.shiftOut_pending (s : State) (v : Sample) : (s.shiftOut v).pending = s.pending := rfl

/-! ### endTransaction -/

@[simp] theorem State.endTransaction_now (s : State) : s.endTransaction.now = s.now := rfl
@[simp] theorem State.endTransaction_factoryId (s : State) : s.endTransaction.factoryId = s.factoryId := rfl
@[simp] theorem State.endTransaction_hold (s : State) : s.endTransaction.hold = s.hold := rfl
@[simp] theorem State.endTransaction_station (s : State) : s.endTransaction.station = s.station := rfl
@[simp] theorem State.endTransaction_timer (s : State) : s.endTransaction.timer = s.timer := rfl
@[simp] theorem State.endTransaction_early (s : State) : s.endTransaction.early = s.early := rfl
@[simp] theorem State.endTransaction_chan (s : State) : s.endTransaction.chan = s.chan := rfl
@[simp] theorem State.endTransaction_views (s : State) : s.endTransaction.views = s.views := rfl
@[simp] theorem State.endTransaction_peers (s : State) : s.endTransaction.peers = s.peers := rfl
@[simp] theorem State.endTransaction_surplus (s : State) : s.endTransaction.surplus = s.surplus := rfl
@[simp] theorem State.endTransaction_voice (s : State) : s.endTransaction.voice = s.voice := rfl
@[simp] theorem State.endTransaction_farEnd (s : State) : s.endTransaction.farEnd = s.farEnd := rfl
@[simp] theorem State.endTransaction_pairing (s : State) : s.endTransaction.pairing = s.pairing := rfl
@[simp] theorem State.endTransaction_mute (s : State) : s.endTransaction.mute = s.mute := rfl
@[simp] theorem State.endTransaction_streams (s : State) : s.endTransaction.streams = s.streams := rfl
@[simp] theorem State.endTransaction_bearer (s : State) : s.endTransaction.bearer = s.bearer := rfl
@[simp] theorem State.endTransaction_store (s : State) : s.endTransaction.store = s.store := rfl
@[simp] theorem State.endTransaction_config (s : State) : s.endTransaction.config = s.config := rfl
@[simp] theorem State.endTransaction_flags (s : State) : s.endTransaction.flags = s.flags := rfl
@[simp] theorem State.endTransaction_port (s : State) : s.endTransaction.port = Port.quiet := rfl
@[simp] theorem State.endTransaction_codec (s : State) : s.endTransaction.codec = s.codec := rfl
@[simp] theorem State.endTransaction_pending (s : State) : s.endTransaction.pending = s.pending := rfl

/-! ### forgetViews -/

@[simp] theorem State.forgetViews_now (s : State) : s.forgetViews.now = s.now := rfl
@[simp] theorem State.forgetViews_factoryId (s : State) : s.forgetViews.factoryId = s.factoryId := rfl
@[simp] theorem State.forgetViews_hold (s : State) : s.forgetViews.hold = s.hold := rfl
@[simp] theorem State.forgetViews_station (s : State) : s.forgetViews.station = s.station := rfl
@[simp] theorem State.forgetViews_timer (s : State) : s.forgetViews.timer = s.timer := rfl
@[simp] theorem State.forgetViews_early (s : State) : s.forgetViews.early = s.early := rfl
@[simp] theorem State.forgetViews_chan (s : State) : s.forgetViews.chan = s.chan := rfl
@[simp] theorem State.forgetViews_views (s : State) : s.forgetViews.views = Views.unknown := rfl
@[simp] theorem State.forgetViews_peers (s : State) : s.forgetViews.peers = s.peers := rfl
@[simp] theorem State.forgetViews_surplus (s : State) : s.forgetViews.surplus = s.surplus := rfl
@[simp] theorem State.forgetViews_voice (s : State) : s.forgetViews.voice = s.voice := rfl
@[simp] theorem State.forgetViews_farEnd (s : State) : s.forgetViews.farEnd = s.farEnd := rfl
@[simp] theorem State.forgetViews_pairing (s : State) : s.forgetViews.pairing = s.pairing := rfl
@[simp] theorem State.forgetViews_mute (s : State) : s.forgetViews.mute = s.mute := rfl
@[simp] theorem State.forgetViews_streams (s : State) : s.forgetViews.streams = s.streams := rfl
@[simp] theorem State.forgetViews_bearer (s : State) : s.forgetViews.bearer = s.bearer := rfl
@[simp] theorem State.forgetViews_store (s : State) : s.forgetViews.store = s.store := rfl
@[simp] theorem State.forgetViews_config (s : State) : s.forgetViews.config = s.config := rfl
@[simp] theorem State.forgetViews_flags (s : State) : s.forgetViews.flags = s.flags := rfl
@[simp] theorem State.forgetViews_port (s : State) : s.forgetViews.port = s.port := rfl
@[simp] theorem State.forgetViews_codec (s : State) : s.forgetViews.codec = s.codec := rfl
@[simp] theorem State.forgetViews_pending (s : State) : s.forgetViews.pending = s.pending := rfl

/-! ### dropNewcomer -/

@[simp] theorem State.dropNewcomer_now (s : State) : s.dropNewcomer.now = s.now := rfl
@[simp] theorem State.dropNewcomer_factoryId (s : State) : s.dropNewcomer.factoryId = s.factoryId := rfl
@[simp] theorem State.dropNewcomer_hold (s : State) : s.dropNewcomer.hold = s.hold := rfl
@[simp] theorem State.dropNewcomer_station (s : State) : s.dropNewcomer.station = s.station := rfl
@[simp] theorem State.dropNewcomer_timer (s : State) : s.dropNewcomer.timer = s.timer := rfl
@[simp] theorem State.dropNewcomer_early (s : State) : s.dropNewcomer.early = s.early := rfl
@[simp] theorem State.dropNewcomer_chan (s : State) : s.dropNewcomer.chan = s.chan := rfl
@[simp] theorem State.dropNewcomer_views (s : State) : s.dropNewcomer.views = s.views := rfl
@[simp] theorem State.dropNewcomer_peers (s : State) : s.dropNewcomer.peers = s.peers := rfl
@[simp] theorem State.dropNewcomer_surplus (s : State) : s.dropNewcomer.surplus = s.surplus := rfl
@[simp] theorem State.dropNewcomer_voice (s : State) : s.dropNewcomer.voice = s.voice := rfl
@[simp] theorem State.dropNewcomer_farEnd (s : State) : s.dropNewcomer.farEnd = s.farEnd := rfl
@[simp] theorem State.dropNewcomer_pairing (s : State) : s.dropNewcomer.pairing = { s.pairing with newcomer := none }
    := rfl
@[simp] theorem State.dropNewcomer_mute (s : State) : s.dropNewcomer.mute = s.mute := rfl
@[simp] theorem State.dropNewcomer_streams (s : State) : s.dropNewcomer.streams = s.streams := rfl
@[simp] theorem State.dropNewcomer_bearer (s : State) : s.dropNewcomer.bearer = s.bearer := rfl
@[simp] theorem State.dropNewcomer_store (s : State) : s.dropNewcomer.store = s.store := rfl
@[simp] theorem State.dropNewcomer_config (s : State) : s.dropNewcomer.config = s.config := rfl
@[simp] theorem State.dropNewcomer_flags (s : State) : s.dropNewcomer.flags = s.flags := rfl
@[simp] theorem State.dropNewcomer_port (s : State) : s.dropNewcomer.port = s.port := rfl
@[simp] theorem State.dropNewcomer_codec (s : State) : s.dropNewcomer.codec = s.codec := rfl
@[simp] theorem State.dropNewcomer_pending (s : State) : s.dropNewcomer.pending = s.pending := rfl

/-! ### openWindow -/

@[simp] theorem State.openWindow_now (s : State) (k : JoinKind) : (s.openWindow k).now = s.now := rfl
@[simp] theorem State.openWindow_factoryId (s : State) (k : JoinKind) : (s.openWindow k).factoryId = s.factoryId :=
    rfl
@[simp] theorem State.openWindow_hold (s : State) (k : JoinKind) : (s.openWindow k).hold = s.hold := rfl
@[simp] theorem State.openWindow_station (s : State) (k : JoinKind) : (s.openWindow k).station = s.station := rfl
@[simp] theorem State.openWindow_timer (s : State) (k : JoinKind) : (s.openWindow k).timer = s.timer := rfl
@[simp] theorem State.openWindow_early (s : State) (k : JoinKind) : (s.openWindow k).early = s.early := rfl
@[simp] theorem State.openWindow_chan (s : State) (k : JoinKind) : (s.openWindow k).chan = s.chan := rfl
@[simp] theorem State.openWindow_views (s : State) (k : JoinKind) : (s.openWindow k).views = s.views := rfl
@[simp] theorem State.openWindow_peers (s : State) (k : JoinKind) : (s.openWindow k).peers = s.peers := rfl
@[simp] theorem State.openWindow_surplus (s : State) (k : JoinKind) : (s.openWindow k).surplus = s.surplus := rfl
@[simp] theorem State.openWindow_voice (s : State) (k : JoinKind) : (s.openWindow k).voice = s.voice := rfl
@[simp] theorem State.openWindow_farEnd (s : State) (k : JoinKind) : (s.openWindow k).farEnd = s.farEnd := rfl
@[simp] theorem State.openWindow_pairing (s : State) (k : JoinKind) : (s.openWindow k).pairing =
    { s.pairing with
      window := { s.pairing.window with state := .opened, kind := some k, remaining := 3000 }
      offer := none
      lapse := none }
    := rfl
@[simp] theorem State.openWindow_mute (s : State) (k : JoinKind) : (s.openWindow k).mute = s.mute := rfl
@[simp] theorem State.openWindow_streams (s : State) (k : JoinKind) : (s.openWindow k).streams = s.streams := rfl
@[simp] theorem State.openWindow_bearer (s : State) (k : JoinKind) : (s.openWindow k).bearer = s.bearer := rfl
@[simp] theorem State.openWindow_store (s : State) (k : JoinKind) : (s.openWindow k).store = s.store := rfl
@[simp] theorem State.openWindow_config (s : State) (k : JoinKind) : (s.openWindow k).config = s.config := rfl
@[simp] theorem State.openWindow_flags (s : State) (k : JoinKind) : (s.openWindow k).flags = s.flags := rfl
@[simp] theorem State.openWindow_port (s : State) (k : JoinKind) : (s.openWindow k).port = s.port := rfl
@[simp] theorem State.openWindow_codec (s : State) (k : JoinKind) : (s.openWindow k).codec = s.codec := rfl
@[simp] theorem State.openWindow_pending (s : State) (k : JoinKind) : (s.openWindow k).pending = s.pending := rfl

/-! ### startOp -/

@[simp] theorem State.startOp_now (s : State) (op : StoreOp) (i t : Nat) : (s.startOp op i t).now = s.now := rfl
@[simp] theorem State.startOp_factoryId (s : State) (op : StoreOp) (i t : Nat) : (s.startOp op i t).factoryId =
    s.factoryId := rfl
@[simp] theorem State.startOp_hold (s : State) (op : StoreOp) (i t : Nat) : (s.startOp op i t).hold = s.hold := rfl
@[simp] theorem State.startOp_station (s : State) (op : StoreOp) (i t : Nat) : (s.startOp op i t).station = s.station
    := rfl
@[simp] theorem State.startOp_timer (s : State) (op : StoreOp) (i t : Nat) : (s.startOp op i t).timer = s.timer := rfl
@[simp] theorem State.startOp_early (s : State) (op : StoreOp) (i t : Nat) : (s.startOp op i t).early = s.early := rfl
@[simp] theorem State.startOp_chan (s : State) (op : StoreOp) (i t : Nat) : (s.startOp op i t).chan = s.chan := rfl
@[simp] theorem State.startOp_views (s : State) (op : StoreOp) (i t : Nat) : (s.startOp op i t).views = s.views := rfl
@[simp] theorem State.startOp_peers (s : State) (op : StoreOp) (i t : Nat) : (s.startOp op i t).peers = s.peers := rfl
@[simp] theorem State.startOp_surplus (s : State) (op : StoreOp) (i t : Nat) : (s.startOp op i t).surplus = s.surplus
    := rfl
@[simp] theorem State.startOp_voice (s : State) (op : StoreOp) (i t : Nat) : (s.startOp op i t).voice = s.voice := rfl
@[simp] theorem State.startOp_farEnd (s : State) (op : StoreOp) (i t : Nat) : (s.startOp op i t).farEnd = s.farEnd :=
    rfl
@[simp] theorem State.startOp_pairing (s : State) (op : StoreOp) (i t : Nat) : (s.startOp op i t).pairing = s.pairing
    := rfl
@[simp] theorem State.startOp_mute (s : State) (op : StoreOp) (i t : Nat) : (s.startOp op i t).mute = s.mute := rfl
@[simp] theorem State.startOp_streams (s : State) (op : StoreOp) (i t : Nat) : (s.startOp op i t).streams = s.streams
    := rfl
@[simp] theorem State.startOp_bearer (s : State) (op : StoreOp) (i t : Nat) : (s.startOp op i t).bearer = s.bearer :=
    rfl
@[simp] theorem State.startOp_store (s : State) (op : StoreOp) (i t : Nat) : (s.startOp op i t).store =
    { s.store with state := .busy, flight := some { op := op, place := i, start := t } } := rfl
@[simp] theorem State.startOp_config (s : State) (op : StoreOp) (i t : Nat) : (s.startOp op i t).config = s.config :=
    rfl
@[simp] theorem State.startOp_flags (s : State) (op : StoreOp) (i t : Nat) : (s.startOp op i t).flags = s.flags := rfl
@[simp] theorem State.startOp_port (s : State) (op : StoreOp) (i t : Nat) : (s.startOp op i t).port = s.port := rfl
@[simp] theorem State.startOp_codec (s : State) (op : StoreOp) (i t : Nat) : (s.startOp op i t).codec = s.codec := rfl
@[simp] theorem State.startOp_pending (s : State) (op : StoreOp) (i t : Nat) : (s.startOp op i t).pending = s.pending
    := rfl

/-! ### setPlace -/

@[simp] theorem State.setPlace_now (s : State) (i : Nat) (p : Place) : (s.setPlace i p).now = s.now := rfl
@[simp] theorem State.setPlace_factoryId (s : State) (i : Nat) (p : Place) : (s.setPlace i p).factoryId = s.factoryId
    := rfl
@[simp] theorem State.setPlace_hold (s : State) (i : Nat) (p : Place) : (s.setPlace i p).hold = s.hold := rfl
@[simp] theorem State.setPlace_station (s : State) (i : Nat) (p : Place) : (s.setPlace i p).station = s.station := rfl
@[simp] theorem State.setPlace_timer (s : State) (i : Nat) (p : Place) : (s.setPlace i p).timer = s.timer := rfl
@[simp] theorem State.setPlace_early (s : State) (i : Nat) (p : Place) : (s.setPlace i p).early = s.early := rfl
@[simp] theorem State.setPlace_chan (s : State) (i : Nat) (p : Place) : (s.setPlace i p).chan = s.chan := rfl
@[simp] theorem State.setPlace_views (s : State) (i : Nat) (p : Place) : (s.setPlace i p).views = s.views := rfl
@[simp] theorem State.setPlace_peers (s : State) (i : Nat) (p : Place) : (s.setPlace i p).peers = s.peers := rfl
@[simp] theorem State.setPlace_surplus (s : State) (i : Nat) (p : Place) : (s.setPlace i p).surplus = s.surplus := rfl
@[simp] theorem State.setPlace_voice (s : State) (i : Nat) (p : Place) : (s.setPlace i p).voice = s.voice := rfl
@[simp] theorem State.setPlace_farEnd (s : State) (i : Nat) (p : Place) : (s.setPlace i p).farEnd = s.farEnd := rfl
@[simp] theorem State.setPlace_pairing (s : State) (i : Nat) (p : Place) : (s.setPlace i p).pairing = s.pairing := rfl
@[simp] theorem State.setPlace_mute (s : State) (i : Nat) (p : Place) : (s.setPlace i p).mute = s.mute := rfl
@[simp] theorem State.setPlace_streams (s : State) (i : Nat) (p : Place) : (s.setPlace i p).streams = s.streams := rfl
@[simp] theorem State.setPlace_bearer (s : State) (i : Nat) (p : Place) : (s.setPlace i p).bearer = s.bearer := rfl
@[simp] theorem State.setPlace_store (s : State) (i : Nat) (p : Place) : (s.setPlace i p).store =
    { s.store with places := s.store.places.set i p, copy := s.store.copy.set i p } := rfl
@[simp] theorem State.setPlace_config (s : State) (i : Nat) (p : Place) : (s.setPlace i p).config = s.config := rfl
@[simp] theorem State.setPlace_flags (s : State) (i : Nat) (p : Place) : (s.setPlace i p).flags = s.flags := rfl
@[simp] theorem State.setPlace_port (s : State) (i : Nat) (p : Place) : (s.setPlace i p).port = s.port := rfl
@[simp] theorem State.setPlace_codec (s : State) (i : Nat) (p : Place) : (s.setPlace i p).codec = s.codec := rfl
@[simp] theorem State.setPlace_pending (s : State) (i : Nat) (p : Place) : (s.setPlace i p).pending = s.pending := rfl

/-! ### markHeard -/

@[simp] theorem State.markHeard_now (s : State) (n : StationNo) : (s.markHeard n).now = s.now := rfl
@[simp] theorem State.markHeard_factoryId (s : State) (n : StationNo) : (s.markHeard n).factoryId = s.factoryId := rfl
@[simp] theorem State.markHeard_hold (s : State) (n : StationNo) : (s.markHeard n).hold = s.hold := rfl
@[simp] theorem State.markHeard_station (s : State) (n : StationNo) : (s.markHeard n).station = s.station := rfl
@[simp] theorem State.markHeard_timer (s : State) (n : StationNo) : (s.markHeard n).timer = s.timer := rfl
@[simp] theorem State.markHeard_early (s : State) (n : StationNo) : (s.markHeard n).early = s.early := rfl
@[simp] theorem State.markHeard_chan (s : State) (n : StationNo) : (s.markHeard n).chan =
    { s.chan with heard := s.chan.heard ++ [n] } := rfl
@[simp] theorem State.markHeard_views (s : State) (n : StationNo) : (s.markHeard n).views = s.views := rfl
@[simp] theorem State.markHeard_peers (s : State) (n : StationNo) : (s.markHeard n).peers = s.peers := rfl
@[simp] theorem State.markHeard_surplus (s : State) (n : StationNo) : (s.markHeard n).surplus = s.surplus := rfl
@[simp] theorem State.markHeard_voice (s : State) (n : StationNo) : (s.markHeard n).voice = s.voice := rfl
@[simp] theorem State.markHeard_farEnd (s : State) (n : StationNo) : (s.markHeard n).farEnd = s.farEnd := rfl
@[simp] theorem State.markHeard_pairing (s : State) (n : StationNo) : (s.markHeard n).pairing = s.pairing := rfl
@[simp] theorem State.markHeard_mute (s : State) (n : StationNo) : (s.markHeard n).mute = s.mute := rfl
@[simp] theorem State.markHeard_streams (s : State) (n : StationNo) : (s.markHeard n).streams = s.streams := rfl
@[simp] theorem State.markHeard_bearer (s : State) (n : StationNo) : (s.markHeard n).bearer = s.bearer := rfl
@[simp] theorem State.markHeard_store (s : State) (n : StationNo) : (s.markHeard n).store = s.store := rfl
@[simp] theorem State.markHeard_config (s : State) (n : StationNo) : (s.markHeard n).config = s.config := rfl
@[simp] theorem State.markHeard_flags (s : State) (n : StationNo) : (s.markHeard n).flags = s.flags := rfl
@[simp] theorem State.markHeard_port (s : State) (n : StationNo) : (s.markHeard n).port = s.port := rfl
@[simp] theorem State.markHeard_codec (s : State) (n : StationNo) : (s.markHeard n).codec = s.codec := rfl
@[simp] theorem State.markHeard_pending (s : State) (n : StationNo) : (s.markHeard n).pending = s.pending := rfl

/-! ### readMap -/

@[simp] theorem State.readMap_now (s : State) (m : List StationNo) : (s.readMap m).now = s.now := rfl
@[simp] theorem State.readMap_factoryId (s : State) (m : List StationNo) : (s.readMap m).factoryId = s.factoryId :=
    rfl
@[simp] theorem State.readMap_hold (s : State) (m : List StationNo) : (s.readMap m).hold = s.hold := rfl
@[simp] theorem State.readMap_station (s : State) (m : List StationNo) : (s.readMap m).station = s.station := rfl
@[simp] theorem State.readMap_timer (s : State) (m : List StationNo) : (s.readMap m).timer = s.timer := rfl
@[simp] theorem State.readMap_early (s : State) (m : List StationNo) : (s.readMap m).early = s.early := rfl
@[simp] theorem State.readMap_chan (s : State) (m : List StationNo) : (s.readMap m).chan = s.chan := rfl
@[simp] theorem State.readMap_views (s : State) (m : List StationNo) : (s.readMap m).views = s.views := rfl
@[simp] theorem State.readMap_peers (s : State) (m : List StationNo) : (s.readMap m).peers = s.peers := rfl
@[simp] theorem State.readMap_surplus (s : State) (m : List StationNo) : (s.readMap m).surplus = s.surplus := rfl
@[simp] theorem State.readMap_voice (s : State) (m : List StationNo) : (s.readMap m).voice =
    s.voice.readMap s.station.creds.number m := rfl
@[simp] theorem State.readMap_farEnd (s : State) (m : List StationNo) : (s.readMap m).farEnd =
    s.farEnd.readMap s.station.creds.number m := rfl
@[simp] theorem State.readMap_pairing (s : State) (m : List StationNo) : (s.readMap m).pairing = s.pairing := rfl
@[simp] theorem State.readMap_mute (s : State) (m : List StationNo) : (s.readMap m).mute = s.mute := rfl
@[simp] theorem State.readMap_streams (s : State) (m : List StationNo) : (s.readMap m).streams = s.streams := rfl
@[simp] theorem State.readMap_bearer (s : State) (m : List StationNo) : (s.readMap m).bearer = s.bearer := rfl
@[simp] theorem State.readMap_store (s : State) (m : List StationNo) : (s.readMap m).store = s.store := rfl
@[simp] theorem State.readMap_config (s : State) (m : List StationNo) : (s.readMap m).config = s.config := rfl
@[simp] theorem State.readMap_flags (s : State) (m : List StationNo) : (s.readMap m).flags = s.flags := rfl
@[simp] theorem State.readMap_port (s : State) (m : List StationNo) : (s.readMap m).port = s.port := rfl
@[simp] theorem State.readMap_codec (s : State) (m : List StationNo) : (s.readMap m).codec = s.codec := rfl
@[simp] theorem State.readMap_pending (s : State) (m : List StationNo) : (s.readMap m).pending = s.pending := rfl

/-! ### prepareVoice -/

@[simp] theorem State.prepareVoice_now (s : State) : s.prepareVoice.now = s.now := rfl
@[simp] theorem State.prepareVoice_factoryId (s : State) : s.prepareVoice.factoryId = s.factoryId := rfl
@[simp] theorem State.prepareVoice_hold (s : State) : s.prepareVoice.hold = s.hold := rfl
@[simp] theorem State.prepareVoice_station (s : State) : s.prepareVoice.station = s.station := rfl
@[simp] theorem State.prepareVoice_timer (s : State) : s.prepareVoice.timer = s.timer := rfl
@[simp] theorem State.prepareVoice_early (s : State) : s.prepareVoice.early = s.early := rfl
@[simp] theorem State.prepareVoice_chan (s : State) : s.prepareVoice.chan =
    { s.chan with voicePayload := s.voicePayloadNow } := rfl
@[simp] theorem State.prepareVoice_views (s : State) : s.prepareVoice.views = s.views := rfl
@[simp] theorem State.prepareVoice_peers (s : State) : s.prepareVoice.peers = s.peers := rfl
@[simp] theorem State.prepareVoice_surplus (s : State) : s.prepareVoice.surplus = s.surplus := rfl
@[simp] theorem State.prepareVoice_voice (s : State) : s.prepareVoice.voice = s.voice := rfl
@[simp] theorem State.prepareVoice_farEnd (s : State) : s.prepareVoice.farEnd = s.farEnd := rfl
@[simp] theorem State.prepareVoice_pairing (s : State) : s.prepareVoice.pairing = s.pairing := rfl
@[simp] theorem State.prepareVoice_mute (s : State) : s.prepareVoice.mute = s.mute := rfl
@[simp] theorem State.prepareVoice_streams (s : State) : s.prepareVoice.streams = s.streams := rfl
@[simp] theorem State.prepareVoice_bearer (s : State) : s.prepareVoice.bearer = s.bearer := rfl
@[simp] theorem State.prepareVoice_store (s : State) : s.prepareVoice.store = s.store := rfl
@[simp] theorem State.prepareVoice_config (s : State) : s.prepareVoice.config = s.config := rfl
@[simp] theorem State.prepareVoice_flags (s : State) : s.prepareVoice.flags = s.flags := rfl
@[simp] theorem State.prepareVoice_port (s : State) : s.prepareVoice.port = s.port := rfl
@[simp] theorem State.prepareVoice_codec (s : State) : s.prepareVoice.codec = s.codec := rfl
@[simp] theorem State.prepareVoice_pending (s : State) : s.prepareVoice.pending = s.pending := rfl

end Sys2Proof.Machine
end

