-- ==== Sys2Proof/Laws/Frames.lean ====
section
/-! SUPPORT. What each shared operation leaves alone: one lemma for each, a conjunction of field equations, which `simp`
uses field by field. The fields not named are the ones the operation may change. -/

namespace Sys2Proof.Machine

@[simp] theorem State.ok_frame (s : State) : s.ok.now = s.now ∧ s.ok.factoryId = s.factoryId ∧ s.ok.hold = s.hold ∧
    s.ok.station = s.station ∧ s.ok.timer = s.timer ∧ s.ok.early = s.early ∧ s.ok.chan = s.chan ∧
    s.ok.views = s.views ∧ s.ok.peers = s.peers ∧ s.ok.surplus = s.surplus ∧ s.ok.voice = s.voice ∧
    s.ok.farEnd = s.farEnd ∧ s.ok.pairing = s.pairing ∧ s.ok.mute = s.mute ∧ s.ok.streams = s.streams ∧
    s.ok.bearer = s.bearer ∧ s.ok.store = s.store ∧ s.ok.config = s.config ∧ s.ok.flags = s.flags ∧
    s.ok.codec = s.codec ∧ s.ok.pending = s.pending :=
  ⟨rfl, rfl, rfl, rfl, rfl, rfl, rfl, rfl, rfl, rfl, rfl, rfl, rfl, rfl, rfl, rfl, rfl, rfl, rfl, rfl, rfl⟩

@[simp] theorem State.refuse_frame (s : State) (r : Result) : (s.refuse r).now = s.now ∧
    (s.refuse r).factoryId = s.factoryId ∧ (s.refuse r).hold = s.hold ∧ (s.refuse r).station = s.station ∧
    (s.refuse r).timer = s.timer ∧ (s.refuse r).early = s.early ∧ (s.refuse r).chan = s.chan ∧
    (s.refuse r).views = s.views ∧ (s.refuse r).peers = s.peers ∧ (s.refuse r).surplus = s.surplus ∧
    (s.refuse r).voice = s.voice ∧ (s.refuse r).farEnd = s.farEnd ∧ (s.refuse r).pairing = s.pairing ∧
    (s.refuse r).mute = s.mute ∧ (s.refuse r).streams = s.streams ∧ (s.refuse r).bearer = s.bearer ∧
    (s.refuse r).store = s.store ∧ (s.refuse r).config = s.config ∧ (s.refuse r).flags = s.flags ∧
    (s.refuse r).codec = s.codec ∧ (s.refuse r).pending = s.pending :=
  ⟨rfl, rfl, rfl, rfl, rfl, rfl, rfl, rfl, rfl, rfl, rfl, rfl, rfl, rfl, rfl, rfl, rfl, rfl, rfl, rfl, rfl⟩

@[simp] theorem State.raiseIf_frame (s : State) (b : Bool) (f : Flag) : (s.raiseIf b f).now = s.now ∧
    (s.raiseIf b f).factoryId = s.factoryId ∧ (s.raiseIf b f).hold = s.hold ∧ (s.raiseIf b f).station = s.station ∧
    (s.raiseIf b f).timer = s.timer ∧ (s.raiseIf b f).early = s.early ∧ (s.raiseIf b f).chan = s.chan ∧
    (s.raiseIf b f).views = s.views ∧ (s.raiseIf b f).peers = s.peers ∧ (s.raiseIf b f).surplus = s.surplus ∧
    (s.raiseIf b f).voice = s.voice ∧ (s.raiseIf b f).farEnd = s.farEnd ∧ (s.raiseIf b f).pairing = s.pairing ∧
    (s.raiseIf b f).mute = s.mute ∧ (s.raiseIf b f).streams = s.streams ∧ (s.raiseIf b f).bearer = s.bearer ∧
    (s.raiseIf b f).store = s.store ∧ (s.raiseIf b f).config = s.config ∧ (s.raiseIf b f).port = s.port ∧
    (s.raiseIf b f).codec = s.codec ∧ (s.raiseIf b f).pending = s.pending := by
  unfold State.raiseIf
  split <;> simp

@[simp] theorem State.raiseAll_frame (s : State) (fs : List Flag) : (s.raiseAll fs).now = s.now ∧
    (s.raiseAll fs).factoryId = s.factoryId ∧ (s.raiseAll fs).hold = s.hold ∧ (s.raiseAll fs).station = s.station ∧
    (s.raiseAll fs).timer = s.timer ∧ (s.raiseAll fs).early = s.early ∧ (s.raiseAll fs).chan = s.chan ∧
    (s.raiseAll fs).views = s.views ∧ (s.raiseAll fs).peers = s.peers ∧ (s.raiseAll fs).surplus = s.surplus ∧
    (s.raiseAll fs).voice = s.voice ∧ (s.raiseAll fs).farEnd = s.farEnd ∧ (s.raiseAll fs).pairing = s.pairing ∧
    (s.raiseAll fs).mute = s.mute ∧ (s.raiseAll fs).streams = s.streams ∧ (s.raiseAll fs).bearer = s.bearer ∧
    (s.raiseAll fs).store = s.store ∧ (s.raiseAll fs).config = s.config ∧ (s.raiseAll fs).port = s.port ∧
    (s.raiseAll fs).codec = s.codec ∧ (s.raiseAll fs).pending = s.pending := by
  unfold State.raiseAll
  induction fs generalizing s with
  | nil => simp
  | cons f fs ih => simpa using ih (s.raise f)

@[simp] theorem State.enter_frame (s : State) (st : StationState) : (s.enter st).now = s.now ∧
    (s.enter st).factoryId = s.factoryId ∧ (s.enter st).hold = s.hold ∧ (s.enter st).timer = s.timer ∧
    (s.enter st).early = s.early ∧ (s.enter st).views = s.views ∧ (s.enter st).peers = s.peers ∧
    (s.enter st).voice = s.voice ∧ (s.enter st).farEnd = s.farEnd ∧ (s.enter st).pairing = s.pairing ∧
    (s.enter st).mute = s.mute ∧ (s.enter st).streams = s.streams ∧ (s.enter st).bearer = s.bearer ∧
    (s.enter st).store = s.store ∧ (s.enter st).config = s.config ∧ (s.enter st).port = s.port ∧
    (s.enter st).codec = s.codec ∧ (s.enter st).pending = s.pending :=
  ⟨rfl, rfl, rfl, rfl, rfl, rfl, rfl, rfl, rfl, rfl, rfl, rfl, rfl, rfl, rfl, rfl, rfl, rfl⟩

@[simp] theorem State.enterMember_frame (s : State) : s.enterMember.now = s.now ∧
    s.enterMember.factoryId = s.factoryId ∧ s.enterMember.hold = s.hold ∧ s.enterMember.timer = s.timer ∧
    s.enterMember.early = s.early ∧ s.enterMember.peers = s.peers ∧ s.enterMember.farEnd = s.farEnd ∧
    s.enterMember.pairing = s.pairing ∧ s.enterMember.mute = s.mute ∧ s.enterMember.streams = s.streams ∧
    s.enterMember.bearer = s.bearer ∧ s.enterMember.store = s.store ∧ s.enterMember.config = s.config ∧
    s.enterMember.port = s.port ∧ s.enterMember.codec = s.codec ∧ s.enterMember.pending = s.pending :=
  ⟨rfl, rfl, rfl, rfl, rfl, rfl, rfl, rfl, rfl, rfl, rfl, rfl, rfl, rfl, rfl, rfl⟩

@[simp] theorem State.enterListen_frame (s : State) (c : Credentials) : (s.enterListen c).now = s.now ∧
    (s.enterListen c).factoryId = s.factoryId ∧ (s.enterListen c).hold = s.hold ∧ (s.enterListen c).timer = s.timer ∧
    (s.enterListen c).early = s.early ∧ (s.enterListen c).voice = s.voice ∧ (s.enterListen c).farEnd = s.farEnd ∧
    (s.enterListen c).pairing = s.pairing ∧ (s.enterListen c).mute = s.mute ∧ (s.enterListen c).streams = s.streams ∧
    (s.enterListen c).bearer = s.bearer ∧ (s.enterListen c).store = s.store ∧ (s.enterListen c).config = s.config ∧
    (s.enterListen c).port = s.port ∧ (s.enterListen c).codec = s.codec ∧ (s.enterListen c).pending = s.pending :=
  ⟨rfl, rfl, rfl, rfl, rfl, rfl, rfl, rfl, rfl, rfl, rfl, rfl, rfl, rfl, rfl, rfl⟩

@[simp] theorem State.farRecordAbsent_frame (s : State) : s.farRecordAbsent.now = s.now ∧
    s.farRecordAbsent.factoryId = s.factoryId ∧ s.farRecordAbsent.hold = s.hold ∧
    s.farRecordAbsent.station = s.station ∧ s.farRecordAbsent.timer = s.timer ∧ s.farRecordAbsent.early = s.early ∧
    s.farRecordAbsent.chan = s.chan ∧ s.farRecordAbsent.views = s.views ∧ s.farRecordAbsent.peers = s.peers ∧
    s.farRecordAbsent.surplus = s.surplus ∧ s.farRecordAbsent.voice = s.voice ∧ s.farRecordAbsent.farEnd = s.farEnd ∧
    s.farRecordAbsent.pairing = s.pairing ∧ s.farRecordAbsent.mute = s.mute ∧ s.farRecordAbsent.bearer = s.bearer ∧
    s.farRecordAbsent.store = s.store ∧ s.farRecordAbsent.config = s.config ∧ s.farRecordAbsent.port = s.port ∧
    s.farRecordAbsent.codec = s.codec ∧ s.farRecordAbsent.pending = s.pending := by
  unfold State.farRecordAbsent
  simp

@[simp] theorem State.farSourceGone_frame (s : State) (n : StationNo) : (s.farSourceGone n).now = s.now ∧
    (s.farSourceGone n).factoryId = s.factoryId ∧ (s.farSourceGone n).hold = s.hold ∧
    (s.farSourceGone n).station = s.station ∧ (s.farSourceGone n).timer = s.timer ∧
    (s.farSourceGone n).early = s.early ∧ (s.farSourceGone n).chan = s.chan ∧ (s.farSourceGone n).views = s.views ∧
    (s.farSourceGone n).peers = s.peers ∧ (s.farSourceGone n).surplus = s.surplus ∧
    (s.farSourceGone n).voice = s.voice ∧ (s.farSourceGone n).farEnd = s.farEnd ∧
    (s.farSourceGone n).pairing = s.pairing ∧ (s.farSourceGone n).mute = s.mute ∧
    (s.farSourceGone n).bearer = s.bearer ∧ (s.farSourceGone n).store = s.store ∧
    (s.farSourceGone n).config = s.config ∧ (s.farSourceGone n).port = s.port ∧ (s.farSourceGone n).codec = s.codec ∧
    (s.farSourceGone n).pending = s.pending := by
  unfold State.farSourceGone
  split <;> simp

@[simp] theorem State.wearersLose_frame (s : State) (n : StationNo) : (s.wearersLose n).now = s.now ∧
    (s.wearersLose n).factoryId = s.factoryId ∧ (s.wearersLose n).hold = s.hold ∧
    (s.wearersLose n).station = s.station ∧ (s.wearersLose n).timer = s.timer ∧ (s.wearersLose n).early = s.early ∧
    (s.wearersLose n).chan = s.chan ∧ (s.wearersLose n).views = s.views ∧ (s.wearersLose n).peers = s.peers ∧
    (s.wearersLose n).surplus = s.surplus ∧ (s.wearersLose n).voice = s.voice ∧ (s.wearersLose n).farEnd = s.farEnd ∧
    (s.wearersLose n).pairing = s.pairing ∧ (s.wearersLose n).mute = s.mute ∧ (s.wearersLose n).bearer = s.bearer ∧
    (s.wearersLose n).store = s.store ∧ (s.wearersLose n).config = s.config ∧ (s.wearersLose n).flags = s.flags ∧
    (s.wearersLose n).port = s.port ∧ (s.wearersLose n).codec = s.codec ∧ (s.wearersLose n).pending = s.pending :=
  ⟨rfl, rfl, rfl, rfl, rfl, rfl, rfl, rfl, rfl, rfl, rfl, rfl, rfl, rfl, rfl, rfl, rfl, rfl, rfl, rfl, rfl⟩

@[simp] theorem State.bearerToNone_frame (s : State) : s.bearerToNone.now = s.now ∧
    s.bearerToNone.factoryId = s.factoryId ∧ s.bearerToNone.hold = s.hold ∧ s.bearerToNone.station = s.station ∧
    s.bearerToNone.timer = s.timer ∧ s.bearerToNone.early = s.early ∧ s.bearerToNone.chan = s.chan ∧
    s.bearerToNone.views = s.views ∧ s.bearerToNone.peers = s.peers ∧ s.bearerToNone.surplus = s.surplus ∧
    s.bearerToNone.voice = s.voice ∧ s.bearerToNone.farEnd = s.farEnd ∧ s.bearerToNone.pairing = s.pairing ∧
    s.bearerToNone.mute = s.mute ∧ s.bearerToNone.store = s.store ∧ s.bearerToNone.config = s.config ∧
    s.bearerToNone.port = s.port ∧ s.bearerToNone.codec = s.codec ∧ s.bearerToNone.pending = s.pending := by
  unfold State.bearerToNone
  simp

@[simp] theorem State.endRole_frame (s : State) : s.endRole.now = s.now ∧ s.endRole.factoryId = s.factoryId ∧
    s.endRole.hold = s.hold ∧ s.endRole.station = s.station ∧ s.endRole.timer = s.timer ∧ s.endRole.early = s.early ∧
    s.endRole.chan = s.chan ∧ s.endRole.views = s.views ∧ s.endRole.peers = s.peers ∧ s.endRole.surplus = s.surplus ∧
    s.endRole.voice = s.voice ∧ s.endRole.pairing = s.pairing ∧ s.endRole.mute = s.mute ∧ s.endRole.store = s.store ∧
    s.endRole.config = s.config ∧ s.endRole.port = s.port ∧ s.endRole.codec = s.codec ∧ s.endRole.pending = s.pending
    := by
  unfold State.endRole
  repeat' split
  all_goals simp

@[simp] theorem State.electionYield_frame (s : State) : s.electionYield.now = s.now ∧
    s.electionYield.factoryId = s.factoryId ∧ s.electionYield.hold = s.hold ∧ s.electionYield.station = s.station ∧
    s.electionYield.timer = s.timer ∧ s.electionYield.early = s.early ∧ s.electionYield.chan = s.chan ∧
    s.electionYield.views = s.views ∧ s.electionYield.peers = s.peers ∧ s.electionYield.surplus = s.surplus ∧
    s.electionYield.voice = s.voice ∧ s.electionYield.pairing = s.pairing ∧ s.electionYield.mute = s.mute ∧
    s.electionYield.store = s.store ∧ s.electionYield.config = s.config ∧ s.electionYield.port = s.port ∧
    s.electionYield.codec = s.codec ∧ s.electionYield.pending = s.pending := by
  unfold State.electionYield
  simp

@[simp] theorem State.closeWindow_frame (s : State) (c : CloseCause) : (s.closeWindow c).now = s.now ∧
    (s.closeWindow c).factoryId = s.factoryId ∧ (s.closeWindow c).hold = s.hold ∧
    (s.closeWindow c).station = s.station ∧ (s.closeWindow c).timer = s.timer ∧ (s.closeWindow c).early = s.early ∧
    (s.closeWindow c).chan = s.chan ∧ (s.closeWindow c).views = s.views ∧ (s.closeWindow c).peers = s.peers ∧
    (s.closeWindow c).surplus = s.surplus ∧ (s.closeWindow c).voice = s.voice ∧ (s.closeWindow c).farEnd = s.farEnd ∧
    (s.closeWindow c).mute = s.mute ∧ (s.closeWindow c).streams = s.streams ∧ (s.closeWindow c).bearer = s.bearer ∧
    (s.closeWindow c).store = s.store ∧ (s.closeWindow c).config = s.config ∧ (s.closeWindow c).port = s.port ∧
    (s.closeWindow c).codec = s.codec ∧ (s.closeWindow c).pending = s.pending := by
  unfold State.closeWindow
  split <;> simp

@[simp] theorem State.clashYield_frame (s : State) : s.clashYield.now = s.now ∧ s.clashYield.factoryId = s.factoryId ∧
    s.clashYield.hold = s.hold ∧ s.clashYield.timer = s.timer ∧ s.clashYield.early = s.early ∧
    s.clashYield.views = s.views ∧ s.clashYield.peers = s.peers ∧ s.clashYield.mute = s.mute ∧
    s.clashYield.store = s.store ∧ s.clashYield.config = s.config ∧ s.clashYield.port = s.port ∧
    s.clashYield.codec = s.codec ∧ s.clashYield.pending = s.pending := by
  unfold State.clashYield
  simp

@[simp] theorem State.pairTimeout_frame (s : State) : s.pairTimeout.now = s.now ∧
    s.pairTimeout.factoryId = s.factoryId ∧ s.pairTimeout.hold = s.hold ∧ s.pairTimeout.timer = s.timer ∧
    s.pairTimeout.early = s.early ∧ s.pairTimeout.views = s.views ∧ s.pairTimeout.peers = s.peers ∧
    s.pairTimeout.voice = s.voice ∧ s.pairTimeout.farEnd = s.farEnd ∧ s.pairTimeout.mute = s.mute ∧
    s.pairTimeout.streams = s.streams ∧ s.pairTimeout.bearer = s.bearer ∧ s.pairTimeout.store = s.store ∧
    s.pairTimeout.config = s.config ∧ s.pairTimeout.port = s.port ∧ s.pairTimeout.codec = s.codec ∧
    s.pairTimeout.pending = s.pending :=
  ⟨rfl, rfl, rfl, rfl, rfl, rfl, rfl, rfl, rfl, rfl, rfl, rfl, rfl, rfl, rfl, rfl, rfl⟩

@[simp] theorem State.stopMember_frame (s : State) : s.stopMember.now = s.now ∧ s.stopMember.factoryId = s.factoryId ∧
    s.stopMember.hold = s.hold ∧ s.stopMember.timer = s.timer ∧ s.stopMember.early = s.early ∧
    s.stopMember.views = s.views ∧ s.stopMember.peers = s.peers ∧ s.stopMember.mute = s.mute ∧
    s.stopMember.store = s.store ∧ s.stopMember.config = s.config ∧ s.stopMember.port = s.port ∧
    s.stopMember.codec = s.codec ∧ s.stopMember.pending = s.pending := by
  unfold State.stopMember
  simp

@[simp] theorem State.storeFault_frame (s : State) (c : FaultCause) : (s.storeFault c).now = s.now ∧
    (s.storeFault c).factoryId = s.factoryId ∧ (s.storeFault c).hold = s.hold ∧ (s.storeFault c).station = s.station ∧
    (s.storeFault c).timer = s.timer ∧ (s.storeFault c).early = s.early ∧ (s.storeFault c).chan = s.chan ∧
    (s.storeFault c).views = s.views ∧ (s.storeFault c).peers = s.peers ∧ (s.storeFault c).surplus = s.surplus ∧
    (s.storeFault c).voice = s.voice ∧ (s.storeFault c).farEnd = s.farEnd ∧ (s.storeFault c).pairing = s.pairing ∧
    (s.storeFault c).mute = s.mute ∧ (s.storeFault c).streams = s.streams ∧ (s.storeFault c).bearer = s.bearer ∧
    (s.storeFault c).config = s.config ∧ (s.storeFault c).port = s.port ∧ (s.storeFault c).codec = s.codec ∧
    (s.storeFault c).pending = s.pending :=
  ⟨rfl, rfl, rfl, rfl, rfl, rfl, rfl, rfl, rfl, rfl, rfl, rfl, rfl, rfl, rfl, rfl, rfl, rfl, rfl, rfl⟩

@[simp] theorem State.storeRelease_frame (s : State) : s.storeRelease.now = s.now ∧
    s.storeRelease.factoryId = s.factoryId ∧ s.storeRelease.hold = s.hold ∧ s.storeRelease.station = s.station ∧
    s.storeRelease.timer = s.timer ∧ s.storeRelease.early = s.early ∧ s.storeRelease.chan = s.chan ∧
    s.storeRelease.views = s.views ∧ s.storeRelease.peers = s.peers ∧ s.storeRelease.surplus = s.surplus ∧
    s.storeRelease.voice = s.voice ∧ s.storeRelease.farEnd = s.farEnd ∧ s.storeRelease.pairing = s.pairing ∧
    s.storeRelease.mute = s.mute ∧ s.storeRelease.streams = s.streams ∧ s.storeRelease.bearer = s.bearer ∧
    s.storeRelease.config = s.config ∧ s.storeRelease.port = s.port ∧ s.storeRelease.codec = s.codec ∧
    s.storeRelease.pending = s.pending :=
  ⟨rfl, rfl, rfl, rfl, rfl, rfl, rfl, rfl, rfl, rfl, rfl, rfl, rfl, rfl, rfl, rfl, rfl, rfl, rfl, rfl⟩

@[simp] theorem State.startWrite_frame (s : State) (c : Credentials) (t : Nat) : (s.startWrite c t).now = s.now ∧
    (s.startWrite c t).factoryId = s.factoryId ∧ (s.startWrite c t).hold = s.hold ∧
    (s.startWrite c t).station = s.station ∧ (s.startWrite c t).timer = s.timer ∧ (s.startWrite c t).early = s.early ∧
    (s.startWrite c t).chan = s.chan ∧ (s.startWrite c t).views = s.views ∧ (s.startWrite c t).peers = s.peers ∧
    (s.startWrite c t).surplus = s.surplus ∧ (s.startWrite c t).voice = s.voice ∧
    (s.startWrite c t).farEnd = s.farEnd ∧ (s.startWrite c t).pairing = s.pairing ∧ (s.startWrite c t).mute = s.mute ∧
    (s.startWrite c t).streams = s.streams ∧ (s.startWrite c t).bearer = s.bearer ∧
    (s.startWrite c t).config = s.config ∧ (s.startWrite c t).port = s.port ∧ (s.startWrite c t).codec = s.codec ∧
    (s.startWrite c t).pending = s.pending := by
  unfold State.startWrite
  repeat' split
  all_goals simp

@[simp] theorem State.requestWrite_frame (s : State) (c : Credentials) (t : Nat) : (s.requestWrite c t).now = s.now ∧
    (s.requestWrite c t).factoryId = s.factoryId ∧ (s.requestWrite c t).hold = s.hold ∧
    (s.requestWrite c t).station = s.station ∧ (s.requestWrite c t).timer = s.timer ∧
    (s.requestWrite c t).early = s.early ∧ (s.requestWrite c t).chan = s.chan ∧ (s.requestWrite c t).views = s.views ∧
    (s.requestWrite c t).peers = s.peers ∧ (s.requestWrite c t).surplus = s.surplus ∧
    (s.requestWrite c t).voice = s.voice ∧ (s.requestWrite c t).farEnd = s.farEnd ∧
    (s.requestWrite c t).pairing = s.pairing ∧ (s.requestWrite c t).mute = s.mute ∧
    (s.requestWrite c t).streams = s.streams ∧ (s.requestWrite c t).bearer = s.bearer ∧
    (s.requestWrite c t).config = s.config ∧ (s.requestWrite c t).port = s.port ∧
    (s.requestWrite c t).codec = s.codec ∧ (s.requestWrite c t).pending = s.pending := by
  unfold State.requestWrite
  split <;> simp

@[simp] theorem State.endProgram_frame (s : State) (f : Flight) (v : BondValue) (h : Option BondValue) :
    (s.endProgram f v h).factoryId = s.factoryId ∧ (s.endProgram f v h).hold = s.hold ∧
    (s.endProgram f v h).station = s.station ∧ (s.endProgram f v h).timer = s.timer ∧
    (s.endProgram f v h).early = s.early ∧ (s.endProgram f v h).chan = s.chan ∧ (s.endProgram f v h).views = s.views ∧
    (s.endProgram f v h).peers = s.peers ∧ (s.endProgram f v h).surplus = s.surplus ∧
    (s.endProgram f v h).voice = s.voice ∧ (s.endProgram f v h).farEnd = s.farEnd ∧
    (s.endProgram f v h).pairing = s.pairing ∧ (s.endProgram f v h).mute = s.mute ∧
    (s.endProgram f v h).streams = s.streams ∧ (s.endProgram f v h).bearer = s.bearer ∧
    (s.endProgram f v h).config = s.config ∧ (s.endProgram f v h).port = s.port ∧
    (s.endProgram f v h).codec = s.codec ∧ (s.endProgram f v h).pending = s.pending := by
  unfold State.endProgram
  dsimp only
  split <;> simp

@[simp] theorem State.scanNext_frame (s : State) (t : Nat) : (s.scanNext t).now = s.now ∧
    (s.scanNext t).factoryId = s.factoryId ∧ (s.scanNext t).hold = s.hold ∧ (s.scanNext t).station = s.station ∧
    (s.scanNext t).timer = s.timer ∧ (s.scanNext t).early = s.early ∧ (s.scanNext t).chan = s.chan ∧
    (s.scanNext t).views = s.views ∧ (s.scanNext t).peers = s.peers ∧ (s.scanNext t).surplus = s.surplus ∧
    (s.scanNext t).voice = s.voice ∧ (s.scanNext t).farEnd = s.farEnd ∧ (s.scanNext t).pairing = s.pairing ∧
    (s.scanNext t).mute = s.mute ∧ (s.scanNext t).streams = s.streams ∧ (s.scanNext t).bearer = s.bearer ∧
    (s.scanNext t).config = s.config ∧ (s.scanNext t).port = s.port ∧ (s.scanNext t).codec = s.codec ∧
    (s.scanNext t).pending = s.pending := by
  unfold State.scanNext
  split <;> simp

@[simp] theorem State.startScan_frame (s : State) (t : Nat) : (s.startScan t).now = s.now ∧
    (s.startScan t).factoryId = s.factoryId ∧ (s.startScan t).hold = s.hold ∧ (s.startScan t).station = s.station ∧
    (s.startScan t).timer = s.timer ∧ (s.startScan t).early = s.early ∧ (s.startScan t).chan = s.chan ∧
    (s.startScan t).views = s.views ∧ (s.startScan t).peers = s.peers ∧ (s.startScan t).surplus = s.surplus ∧
    (s.startScan t).voice = s.voice ∧ (s.startScan t).farEnd = s.farEnd ∧ (s.startScan t).pairing = s.pairing ∧
    (s.startScan t).mute = s.mute ∧ (s.startScan t).streams = s.streams ∧ (s.startScan t).bearer = s.bearer ∧
    (s.startScan t).config = s.config ∧ (s.startScan t).port = s.port ∧ (s.startScan t).codec = s.codec ∧
    (s.startScan t).pending = s.pending := by
  unfold State.startScan
  simp

@[simp] theorem State.storeCommand_frame (s : State) (t : Nat) (b : Byte) (r : Bool) (p : Place → Bool) (op : StoreOp)
    : (s.storeCommand t b r p op).factoryId = s.factoryId ∧ (s.storeCommand t b r p op).hold = s.hold ∧
    (s.storeCommand t b r p op).station = s.station ∧ (s.storeCommand t b r p op).timer = s.timer ∧
    (s.storeCommand t b r p op).early = s.early ∧ (s.storeCommand t b r p op).chan = s.chan ∧
    (s.storeCommand t b r p op).views = s.views ∧ (s.storeCommand t b r p op).peers = s.peers ∧
    (s.storeCommand t b r p op).surplus = s.surplus ∧ (s.storeCommand t b r p op).voice = s.voice ∧
    (s.storeCommand t b r p op).farEnd = s.farEnd ∧ (s.storeCommand t b r p op).pairing = s.pairing ∧
    (s.storeCommand t b r p op).mute = s.mute ∧ (s.storeCommand t b r p op).streams = s.streams ∧
    (s.storeCommand t b r p op).bearer = s.bearer ∧ (s.storeCommand t b r p op).config = s.config ∧
    (s.storeCommand t b r p op).flags = s.flags ∧ (s.storeCommand t b r p op).codec = s.codec ∧
    (s.storeCommand t b r p op).pending = s.pending := by
  unfold State.storeCommand
  dsimp only
  repeat' split
  all_goals simp

@[simp] theorem State.align_frame (s : State) (c : Cycle) (p : Int) (tr : Nat) : (s.align c p tr).now = s.now ∧
    (s.align c p tr).factoryId = s.factoryId ∧ (s.align c p tr).hold = s.hold ∧ (s.align c p tr).station = s.station ∧
    (s.align c p tr).early = s.early ∧ (s.align c p tr).peers = s.peers ∧ (s.align c p tr).surplus = s.surplus ∧
    (s.align c p tr).voice = s.voice ∧ (s.align c p tr).farEnd = s.farEnd ∧ (s.align c p tr).pairing = s.pairing ∧
    (s.align c p tr).mute = s.mute ∧ (s.align c p tr).streams = s.streams ∧ (s.align c p tr).bearer = s.bearer ∧
    (s.align c p tr).store = s.store ∧ (s.align c p tr).config = s.config ∧ (s.align c p tr).flags = s.flags ∧
    (s.align c p tr).port = s.port ∧ (s.align c p tr).codec = s.codec ∧ (s.align c p tr).pending = s.pending :=
  ⟨rfl, rfl, rfl, rfl, rfl, rfl, rfl, rfl, rfl, rfl, rfl, rfl, rfl, rfl, rfl, rfl, rfl, rfl, rfl⟩

@[simp] theorem State.peerCreated_frame (s : State) (n : StationNo) : (s.peerCreated n).now = s.now ∧
    (s.peerCreated n).factoryId = s.factoryId ∧ (s.peerCreated n).hold = s.hold ∧
    (s.peerCreated n).station = s.station ∧ (s.peerCreated n).timer = s.timer ∧ (s.peerCreated n).early = s.early ∧
    (s.peerCreated n).chan = s.chan ∧ (s.peerCreated n).views = s.views ∧ (s.peerCreated n).peers = s.peers ∧
    (s.peerCreated n).surplus = s.surplus ∧ (s.peerCreated n).voice = s.voice ∧ (s.peerCreated n).farEnd = s.farEnd ∧
    (s.peerCreated n).mute = s.mute ∧ (s.peerCreated n).streams = s.streams ∧ (s.peerCreated n).bearer = s.bearer ∧
    (s.peerCreated n).store = s.store ∧ (s.peerCreated n).config = s.config ∧ (s.peerCreated n).port = s.port ∧
    (s.peerCreated n).codec = s.codec ∧ (s.peerCreated n).pending = s.pending := by
  unfold State.peerCreated
  repeat' split
  all_goals simp

@[simp] theorem State.createPeer_frame (s : State) (b : Burst) (d : Int) : (s.createPeer b d).now = s.now ∧
    (s.createPeer b d).factoryId = s.factoryId ∧ (s.createPeer b d).hold = s.hold ∧
    (s.createPeer b d).station = s.station ∧ (s.createPeer b d).timer = s.timer ∧ (s.createPeer b d).early = s.early ∧
    (s.createPeer b d).chan = s.chan ∧ (s.createPeer b d).views = s.views ∧ (s.createPeer b d).surplus = s.surplus ∧
    (s.createPeer b d).voice = s.voice ∧ (s.createPeer b d).farEnd = s.farEnd ∧ (s.createPeer b d).mute = s.mute ∧
    (s.createPeer b d).streams = s.streams ∧ (s.createPeer b d).bearer = s.bearer ∧
    (s.createPeer b d).store = s.store ∧ (s.createPeer b d).config = s.config ∧ (s.createPeer b d).port = s.port ∧
    (s.createPeer b d).codec = s.codec ∧ (s.createPeer b d).pending = s.pending := by
  unfold State.createPeer
  repeat' split
  all_goals simp

@[simp] theorem State.peerLeave_frame (s : State) (p : Peer) (b : Burst) (d : Int) : (s.peerLeave p b d).now = s.now ∧
    (s.peerLeave p b d).factoryId = s.factoryId ∧ (s.peerLeave p b d).hold = s.hold ∧
    (s.peerLeave p b d).station = s.station ∧ (s.peerLeave p b d).timer = s.timer ∧
    (s.peerLeave p b d).early = s.early ∧ (s.peerLeave p b d).chan = s.chan ∧ (s.peerLeave p b d).views = s.views ∧
    (s.peerLeave p b d).surplus = s.surplus ∧ (s.peerLeave p b d).voice = s.voice ∧
    (s.peerLeave p b d).farEnd = s.farEnd ∧ (s.peerLeave p b d).pairing = s.pairing ∧
    (s.peerLeave p b d).mute = s.mute ∧ (s.peerLeave p b d).bearer = s.bearer ∧ (s.peerLeave p b d).store = s.store ∧
    (s.peerLeave p b d).config = s.config ∧ (s.peerLeave p b d).port = s.port ∧ (s.peerLeave p b d).codec = s.codec ∧
    (s.peerLeave p b d).pending = s.pending := by
  unfold State.peerLeave
  split <;> simp

@[simp] theorem State.peerView_frame (s : State) (b : Burst) (d : Int) : (s.peerView b d).now = s.now ∧
    (s.peerView b d).factoryId = s.factoryId ∧ (s.peerView b d).hold = s.hold ∧ (s.peerView b d).station = s.station ∧
    (s.peerView b d).timer = s.timer ∧ (s.peerView b d).early = s.early ∧ (s.peerView b d).chan = s.chan ∧
    (s.peerView b d).views = s.views ∧ (s.peerView b d).surplus = s.surplus ∧ (s.peerView b d).voice = s.voice ∧
    (s.peerView b d).farEnd = s.farEnd ∧ (s.peerView b d).mute = s.mute ∧ (s.peerView b d).bearer = s.bearer ∧
    (s.peerView b d).store = s.store ∧ (s.peerView b d).config = s.config ∧ (s.peerView b d).port = s.port ∧
    (s.peerView b d).codec = s.codec ∧ (s.peerView b d).pending = s.pending := by
  unfold State.peerView
  repeat' split
  all_goals simp

@[simp] theorem State.agePeers_frame (s : State) : s.agePeers.now = s.now ∧ s.agePeers.factoryId = s.factoryId ∧
    s.agePeers.hold = s.hold ∧ s.agePeers.station = s.station ∧ s.agePeers.timer = s.timer ∧
    s.agePeers.early = s.early ∧ s.agePeers.chan = s.chan ∧ s.agePeers.views = s.views ∧
    s.agePeers.surplus = s.surplus ∧ s.agePeers.voice = s.voice ∧ s.agePeers.farEnd = s.farEnd ∧
    s.agePeers.pairing = s.pairing ∧ s.agePeers.mute = s.mute ∧ s.agePeers.streams = s.streams ∧
    s.agePeers.bearer = s.bearer ∧ s.agePeers.store = s.store ∧ s.agePeers.config = s.config ∧
    s.agePeers.port = s.port ∧ s.agePeers.codec = s.codec ∧ s.agePeers.pending = s.pending := by
  unfold State.agePeers
  simp

@[simp] theorem State.deriveSurplus_frame (s : State) (ps : List Peer) : (s.deriveSurplus ps).now = s.now ∧
    (s.deriveSurplus ps).factoryId = s.factoryId ∧ (s.deriveSurplus ps).hold = s.hold ∧
    (s.deriveSurplus ps).station = s.station ∧ (s.deriveSurplus ps).timer = s.timer ∧
    (s.deriveSurplus ps).early = s.early ∧ (s.deriveSurplus ps).chan = s.chan ∧ (s.deriveSurplus ps).views = s.views ∧
    (s.deriveSurplus ps).peers = s.peers ∧ (s.deriveSurplus ps).voice = s.voice ∧
    (s.deriveSurplus ps).farEnd = s.farEnd ∧ (s.deriveSurplus ps).pairing = s.pairing ∧
    (s.deriveSurplus ps).mute = s.mute ∧ (s.deriveSurplus ps).streams = s.streams ∧
    (s.deriveSurplus ps).bearer = s.bearer ∧ (s.deriveSurplus ps).store = s.store ∧
    (s.deriveSurplus ps).config = s.config ∧ (s.deriveSurplus ps).port = s.port ∧
    (s.deriveSurplus ps).codec = s.codec ∧ (s.deriveSurplus ps).pending = s.pending := by
  unfold State.deriveSurplus
  simp

@[simp] theorem State.decideVoice_frame (s : State) (f : ClaimFacts) : (s.decideVoice f).now = s.now ∧
    (s.decideVoice f).factoryId = s.factoryId ∧ (s.decideVoice f).hold = s.hold ∧
    (s.decideVoice f).station = s.station ∧ (s.decideVoice f).timer = s.timer ∧ (s.decideVoice f).chan = s.chan ∧
    (s.decideVoice f).views = s.views ∧ (s.decideVoice f).peers = s.peers ∧ (s.decideVoice f).surplus = s.surplus ∧
    (s.decideVoice f).farEnd = s.farEnd ∧ (s.decideVoice f).pairing = s.pairing ∧ (s.decideVoice f).mute = s.mute ∧
    (s.decideVoice f).streams = s.streams ∧ (s.decideVoice f).bearer = s.bearer ∧ (s.decideVoice f).store = s.store ∧
    (s.decideVoice f).config = s.config ∧ (s.decideVoice f).port = s.port ∧ (s.decideVoice f).codec = s.codec ∧
    (s.decideVoice f).pending = s.pending := by
  unfold State.decideVoice
  simp

@[simp] theorem State.bearerFollows_frame (s : State) (o n : ClaimState) : (s.bearerFollows o n).now = s.now ∧
    (s.bearerFollows o n).factoryId = s.factoryId ∧ (s.bearerFollows o n).hold = s.hold ∧
    (s.bearerFollows o n).station = s.station ∧ (s.bearerFollows o n).timer = s.timer ∧
    (s.bearerFollows o n).early = s.early ∧ (s.bearerFollows o n).chan = s.chan ∧
    (s.bearerFollows o n).views = s.views ∧ (s.bearerFollows o n).peers = s.peers ∧
    (s.bearerFollows o n).surplus = s.surplus ∧ (s.bearerFollows o n).voice = s.voice ∧
    (s.bearerFollows o n).farEnd = s.farEnd ∧ (s.bearerFollows o n).pairing = s.pairing ∧
    (s.bearerFollows o n).mute = s.mute ∧ (s.bearerFollows o n).streams = s.streams ∧
    (s.bearerFollows o n).store = s.store ∧ (s.bearerFollows o n).config = s.config ∧
    (s.bearerFollows o n).port = s.port ∧ (s.bearerFollows o n).codec = s.codec ∧
    (s.bearerFollows o n).pending = s.pending := by
  unfold State.bearerFollows
  repeat' split
  all_goals simp

@[simp] theorem State.decideFar_frame (s : State) (f : ClaimFacts) : (s.decideFar f).now = s.now ∧
    (s.decideFar f).factoryId = s.factoryId ∧ (s.decideFar f).hold = s.hold ∧ (s.decideFar f).station = s.station ∧
    (s.decideFar f).timer = s.timer ∧ (s.decideFar f).chan = s.chan ∧ (s.decideFar f).views = s.views ∧
    (s.decideFar f).peers = s.peers ∧ (s.decideFar f).surplus = s.surplus ∧ (s.decideFar f).voice = s.voice ∧
    (s.decideFar f).pairing = s.pairing ∧ (s.decideFar f).mute = s.mute ∧ (s.decideFar f).streams = s.streams ∧
    (s.decideFar f).store = s.store ∧ (s.decideFar f).config = s.config ∧ (s.decideFar f).port = s.port ∧
    (s.decideFar f).codec = s.codec ∧ (s.decideFar f).pending = s.pending := by
  unfold State.decideFar
  simp

@[simp] theorem State.decideClaims_frame (s : State) (f : ClaimFacts) : (s.decideClaims f).now = s.now ∧
    (s.decideClaims f).factoryId = s.factoryId ∧ (s.decideClaims f).hold = s.hold ∧
    (s.decideClaims f).station = s.station ∧ (s.decideClaims f).timer = s.timer ∧ (s.decideClaims f).chan = s.chan ∧
    (s.decideClaims f).views = s.views ∧ (s.decideClaims f).peers = s.peers ∧ (s.decideClaims f).surplus = s.surplus ∧
    (s.decideClaims f).pairing = s.pairing ∧ (s.decideClaims f).mute = s.mute ∧
    (s.decideClaims f).streams = s.streams ∧ (s.decideClaims f).store = s.store ∧
    (s.decideClaims f).config = s.config ∧ (s.decideClaims f).port = s.port ∧ (s.decideClaims f).codec = s.codec ∧
    (s.decideClaims f).pending = s.pending := by
  unfold State.decideClaims
  dsimp only
  repeat' split
  all_goals simp

@[simp] theorem State.jumpClaims_frame (s : State) : s.jumpClaims.now = s.now ∧ s.jumpClaims.factoryId = s.factoryId ∧
    s.jumpClaims.hold = s.hold ∧ s.jumpClaims.station = s.station ∧ s.jumpClaims.timer = s.timer ∧
    s.jumpClaims.early = s.early ∧ s.jumpClaims.chan = s.chan ∧ s.jumpClaims.views = s.views ∧
    s.jumpClaims.peers = s.peers ∧ s.jumpClaims.surplus = s.surplus ∧ s.jumpClaims.pairing = s.pairing ∧
    s.jumpClaims.mute = s.mute ∧ s.jumpClaims.streams = s.streams ∧ s.jumpClaims.store = s.store ∧
    s.jumpClaims.config = s.config ∧ s.jumpClaims.flags = s.flags ∧ s.jumpClaims.port = s.port ∧
    s.jumpClaims.codec = s.codec ∧ s.jumpClaims.pending = s.pending :=
  ⟨rfl, rfl, rfl, rfl, rfl, rfl, rfl, rfl, rfl, rfl, rfl, rfl, rfl, rfl, rfl, rfl, rfl, rfl, rfl⟩

@[simp] theorem State.lapseOffer_frame (s : State) (o : Offer) : (s.lapseOffer o).now = s.now ∧
    (s.lapseOffer o).factoryId = s.factoryId ∧ (s.lapseOffer o).hold = s.hold ∧ (s.lapseOffer o).station = s.station ∧
    (s.lapseOffer o).timer = s.timer ∧ (s.lapseOffer o).early = s.early ∧ (s.lapseOffer o).chan = s.chan ∧
    (s.lapseOffer o).views = s.views ∧ (s.lapseOffer o).peers = s.peers ∧ (s.lapseOffer o).surplus = s.surplus ∧
    (s.lapseOffer o).voice = s.voice ∧ (s.lapseOffer o).farEnd = s.farEnd ∧ (s.lapseOffer o).mute = s.mute ∧
    (s.lapseOffer o).streams = s.streams ∧ (s.lapseOffer o).bearer = s.bearer ∧ (s.lapseOffer o).store = s.store ∧
    (s.lapseOffer o).config = s.config ∧ (s.lapseOffer o).flags = s.flags ∧ (s.lapseOffer o).port = s.port ∧
    (s.lapseOffer o).codec = s.codec ∧ (s.lapseOffer o).pending = s.pending :=
  ⟨rfl, rfl, rfl, rfl, rfl, rfl, rfl, rfl, rfl, rfl, rfl, rfl, rfl, rfl, rfl, rfl, rfl, rfl, rfl, rfl, rfl⟩

@[simp] theorem State.joinHeard_frame (s : State) (id : FactoryId) (k : JoinKind) : (s.joinHeard id k).now = s.now ∧
    (s.joinHeard id k).factoryId = s.factoryId ∧ (s.joinHeard id k).hold = s.hold ∧
    (s.joinHeard id k).station = s.station ∧ (s.joinHeard id k).timer = s.timer ∧ (s.joinHeard id k).early = s.early ∧
    (s.joinHeard id k).chan = s.chan ∧ (s.joinHeard id k).views = s.views ∧ (s.joinHeard id k).peers = s.peers ∧
    (s.joinHeard id k).surplus = s.surplus ∧ (s.joinHeard id k).voice = s.voice ∧
    (s.joinHeard id k).farEnd = s.farEnd ∧ (s.joinHeard id k).mute = s.mute ∧ (s.joinHeard id k).streams = s.streams ∧
    (s.joinHeard id k).bearer = s.bearer ∧ (s.joinHeard id k).store = s.store ∧ (s.joinHeard id k).config = s.config ∧
    (s.joinHeard id k).port = s.port ∧ (s.joinHeard id k).codec = s.codec ∧ (s.joinHeard id k).pending = s.pending := by
  unfold State.joinHeard
  repeat' split
  all_goals simp

@[simp] theorem State.settleOffer_frame (s : State) (q : Offer → Bool) : (s.settleOffer q).now = s.now ∧
    (s.settleOffer q).factoryId = s.factoryId ∧ (s.settleOffer q).hold = s.hold ∧
    (s.settleOffer q).station = s.station ∧ (s.settleOffer q).timer = s.timer ∧ (s.settleOffer q).early = s.early ∧
    (s.settleOffer q).chan = s.chan ∧ (s.settleOffer q).views = s.views ∧ (s.settleOffer q).peers = s.peers ∧
    (s.settleOffer q).surplus = s.surplus ∧ (s.settleOffer q).voice = s.voice ∧ (s.settleOffer q).farEnd = s.farEnd ∧
    (s.settleOffer q).mute = s.mute ∧ (s.settleOffer q).streams = s.streams ∧ (s.settleOffer q).bearer = s.bearer ∧
    (s.settleOffer q).store = s.store ∧ (s.settleOffer q).config = s.config ∧ (s.settleOffer q).port = s.port ∧
    (s.settleOffer q).codec = s.codec ∧ (s.settleOffer q).pending = s.pending := by
  unfold State.settleOffer
  repeat' split
  all_goals simp

@[simp] theorem State.jumpLapse_frame (s : State) : s.jumpLapse.now = s.now ∧ s.jumpLapse.factoryId = s.factoryId ∧
    s.jumpLapse.hold = s.hold ∧ s.jumpLapse.station = s.station ∧ s.jumpLapse.timer = s.timer ∧
    s.jumpLapse.chan = s.chan ∧ s.jumpLapse.views = s.views ∧ s.jumpLapse.peers = s.peers ∧
    s.jumpLapse.surplus = s.surplus ∧ s.jumpLapse.voice = s.voice ∧ s.jumpLapse.farEnd = s.farEnd ∧
    s.jumpLapse.mute = s.mute ∧ s.jumpLapse.streams = s.streams ∧ s.jumpLapse.bearer = s.bearer ∧
    s.jumpLapse.store = s.store ∧ s.jumpLapse.config = s.config ∧ s.jumpLapse.flags = s.flags ∧
    s.jumpLapse.port = s.port ∧ s.jumpLapse.codec = s.codec ∧ s.jumpLapse.pending = s.pending := by
  unfold State.jumpLapse
  split <;> simp

@[simp] theorem State.countWindow_frame (s : State) : s.countWindow.now = s.now ∧
    s.countWindow.factoryId = s.factoryId ∧ s.countWindow.hold = s.hold ∧ s.countWindow.station = s.station ∧
    s.countWindow.timer = s.timer ∧ s.countWindow.early = s.early ∧ s.countWindow.chan = s.chan ∧
    s.countWindow.views = s.views ∧ s.countWindow.peers = s.peers ∧ s.countWindow.surplus = s.surplus ∧
    s.countWindow.voice = s.voice ∧ s.countWindow.farEnd = s.farEnd ∧ s.countWindow.mute = s.mute ∧
    s.countWindow.streams = s.streams ∧ s.countWindow.bearer = s.bearer ∧ s.countWindow.store = s.store ∧
    s.countWindow.config = s.config ∧ s.countWindow.port = s.port ∧ s.countWindow.codec = s.codec ∧
    s.countWindow.pending = s.pending := by
  unfold State.countWindow
  dsimp only
  repeat' split
  all_goals simp

@[simp] theorem State.ageLapse_frame (s : State) : s.ageLapse.now = s.now ∧ s.ageLapse.factoryId = s.factoryId ∧
    s.ageLapse.hold = s.hold ∧ s.ageLapse.station = s.station ∧ s.ageLapse.timer = s.timer ∧
    s.ageLapse.early = s.early ∧ s.ageLapse.chan = s.chan ∧ s.ageLapse.views = s.views ∧ s.ageLapse.peers = s.peers ∧
    s.ageLapse.surplus = s.surplus ∧ s.ageLapse.voice = s.voice ∧ s.ageLapse.farEnd = s.farEnd ∧
    s.ageLapse.mute = s.mute ∧ s.ageLapse.streams = s.streams ∧ s.ageLapse.bearer = s.bearer ∧
    s.ageLapse.store = s.store ∧ s.ageLapse.config = s.config ∧ s.ageLapse.flags = s.flags ∧
    s.ageLapse.port = s.port ∧ s.ageLapse.codec = s.codec ∧ s.ageLapse.pending = s.pending := by
  unfold State.ageLapse
  split <;> simp

@[simp] theorem State.decideNewcomer_frame (s : State) : s.decideNewcomer.now = s.now ∧
    s.decideNewcomer.factoryId = s.factoryId ∧ s.decideNewcomer.hold = s.hold ∧ s.decideNewcomer.timer = s.timer ∧
    s.decideNewcomer.early = s.early ∧ s.decideNewcomer.views = s.views ∧ s.decideNewcomer.peers = s.peers ∧
    s.decideNewcomer.voice = s.voice ∧ s.decideNewcomer.farEnd = s.farEnd ∧ s.decideNewcomer.mute = s.mute ∧
    s.decideNewcomer.streams = s.streams ∧ s.decideNewcomer.bearer = s.bearer ∧ s.decideNewcomer.store = s.store ∧
    s.decideNewcomer.config = s.config ∧ s.decideNewcomer.port = s.port ∧ s.decideNewcomer.codec = s.codec ∧
    s.decideNewcomer.pending = s.pending := by
  unfold State.decideNewcomer
  repeat' split
  all_goals simp

@[simp] theorem State.countSeek_frame (s : State) : s.countSeek.now = s.now ∧ s.countSeek.factoryId = s.factoryId ∧
    s.countSeek.hold = s.hold ∧ s.countSeek.timer = s.timer ∧ s.countSeek.early = s.early ∧
    s.countSeek.views = s.views ∧ s.countSeek.peers = s.peers ∧ s.countSeek.voice = s.voice ∧
    s.countSeek.farEnd = s.farEnd ∧ s.countSeek.mute = s.mute ∧ s.countSeek.streams = s.streams ∧
    s.countSeek.bearer = s.bearer ∧ s.countSeek.store = s.store ∧ s.countSeek.config = s.config ∧
    s.countSeek.port = s.port ∧ s.countSeek.codec = s.codec ∧ s.countSeek.pending = s.pending := by
  unfold State.countSeek
  repeat' split
  all_goals simp

@[simp] theorem State.offerHeard_frame (s : State) (b : Burst) : (s.offerHeard b).now = s.now ∧
    (s.offerHeard b).factoryId = s.factoryId ∧ (s.offerHeard b).hold = s.hold ∧ (s.offerHeard b).station = s.station ∧
    (s.offerHeard b).timer = s.timer ∧ (s.offerHeard b).early = s.early ∧ (s.offerHeard b).chan = s.chan ∧
    (s.offerHeard b).views = s.views ∧ (s.offerHeard b).peers = s.peers ∧ (s.offerHeard b).surplus = s.surplus ∧
    (s.offerHeard b).voice = s.voice ∧ (s.offerHeard b).farEnd = s.farEnd ∧ (s.offerHeard b).mute = s.mute ∧
    (s.offerHeard b).streams = s.streams ∧ (s.offerHeard b).bearer = s.bearer ∧ (s.offerHeard b).store = s.store ∧
    (s.offerHeard b).config = s.config ∧ (s.offerHeard b).flags = s.flags ∧ (s.offerHeard b).port = s.port ∧
    (s.offerHeard b).codec = s.codec ∧ (s.offerHeard b).pending = s.pending :=
  ⟨rfl, rfl, rfl, rfl, rfl, rfl, rfl, rfl, rfl, rfl, rfl, rfl, rfl, rfl, rfl, rfl, rfl, rfl, rfl, rfl, rfl⟩

@[simp] theorem State.seekFound_frame (s : State) (g : GroupCode) : (s.seekFound g).now = s.now ∧
    (s.seekFound g).factoryId = s.factoryId ∧ (s.seekFound g).hold = s.hold ∧ (s.seekFound g).timer = s.timer ∧
    (s.seekFound g).early = s.early ∧ (s.seekFound g).views = s.views ∧ (s.seekFound g).peers = s.peers ∧
    (s.seekFound g).voice = s.voice ∧ (s.seekFound g).farEnd = s.farEnd ∧ (s.seekFound g).mute = s.mute ∧
    (s.seekFound g).streams = s.streams ∧ (s.seekFound g).bearer = s.bearer ∧ (s.seekFound g).store = s.store ∧
    (s.seekFound g).config = s.config ∧ (s.seekFound g).port = s.port ∧ (s.seekFound g).codec = s.codec ∧
    (s.seekFound g).pending = s.pending :=
  ⟨rfl, rfl, rfl, rfl, rfl, rfl, rfl, rfl, rfl, rfl, rfl, rfl, rfl, rfl, rfl, rfl, rfl⟩

@[simp] theorem State.joinDone_frame (s : State) (a : Accepted) (t : Nat) : (s.joinDone a t).now = s.now ∧
    (s.joinDone a t).factoryId = s.factoryId ∧ (s.joinDone a t).hold = s.hold ∧ (s.joinDone a t).timer = s.timer ∧
    (s.joinDone a t).early = s.early ∧ (s.joinDone a t).peers = s.peers ∧ (s.joinDone a t).farEnd = s.farEnd ∧
    (s.joinDone a t).mute = s.mute ∧ (s.joinDone a t).streams = s.streams ∧ (s.joinDone a t).bearer = s.bearer ∧
    (s.joinDone a t).config = s.config ∧ (s.joinDone a t).port = s.port ∧ (s.joinDone a t).codec = s.codec ∧
    (s.joinDone a t).pending = s.pending := by
  unfold State.joinDone
  simp

@[simp] theorem State.storeReception_frame (s : State) (b : Burst) : (s.storeReception b).now = s.now ∧
    (s.storeReception b).factoryId = s.factoryId ∧ (s.storeReception b).hold = s.hold ∧
    (s.storeReception b).station = s.station ∧ (s.storeReception b).timer = s.timer ∧
    (s.storeReception b).early = s.early ∧ (s.storeReception b).chan = s.chan ∧ (s.storeReception b).views = s.views ∧
    (s.storeReception b).peers = s.peers ∧ (s.storeReception b).surplus = s.surplus ∧
    (s.storeReception b).voice = s.voice ∧ (s.storeReception b).farEnd = s.farEnd ∧
    (s.storeReception b).pairing = s.pairing ∧ (s.storeReception b).mute = s.mute ∧
    (s.storeReception b).bearer = s.bearer ∧ (s.storeReception b).store = s.store ∧
    (s.storeReception b).config = s.config ∧ (s.storeReception b).flags = s.flags ∧
    (s.storeReception b).port = s.port ∧ (s.storeReception b).codec = s.codec ∧
    (s.storeReception b).pending = s.pending := by
  unfold State.storeReception
  split <;> simp

@[simp] theorem State.updateStreams_frame (s : State) (ps : List Peer) : (s.updateStreams ps).now = s.now ∧
    (s.updateStreams ps).factoryId = s.factoryId ∧ (s.updateStreams ps).hold = s.hold ∧
    (s.updateStreams ps).station = s.station ∧ (s.updateStreams ps).timer = s.timer ∧
    (s.updateStreams ps).early = s.early ∧ (s.updateStreams ps).chan = s.chan ∧ (s.updateStreams ps).views = s.views ∧
    (s.updateStreams ps).peers = s.peers ∧ (s.updateStreams ps).surplus = s.surplus ∧
    (s.updateStreams ps).voice = s.voice ∧ (s.updateStreams ps).farEnd = s.farEnd ∧
    (s.updateStreams ps).pairing = s.pairing ∧ (s.updateStreams ps).mute = s.mute ∧
    (s.updateStreams ps).bearer = s.bearer ∧ (s.updateStreams ps).store = s.store ∧
    (s.updateStreams ps).config = s.config ∧ (s.updateStreams ps).port = s.port ∧
    (s.updateStreams ps).codec = s.codec ∧ (s.updateStreams ps).pending = s.pending := by
  unfold State.updateStreams State.updateFromAir State.raiseFarEvents State.silenceStreams
  split <;> simp

@[simp] theorem State.makeTake_frame (s : State) : s.makeTake.now = s.now ∧ s.makeTake.factoryId = s.factoryId ∧
    s.makeTake.hold = s.hold ∧ s.makeTake.station = s.station ∧ s.makeTake.timer = s.timer ∧
    s.makeTake.early = s.early ∧ s.makeTake.views = s.views ∧ s.makeTake.peers = s.peers ∧
    s.makeTake.surplus = s.surplus ∧ s.makeTake.voice = s.voice ∧ s.makeTake.farEnd = s.farEnd ∧
    s.makeTake.pairing = s.pairing ∧ s.makeTake.mute = s.mute ∧ s.makeTake.streams = s.streams ∧
    s.makeTake.store = s.store ∧ s.makeTake.config = s.config ∧ s.makeTake.port = s.port ∧
    s.makeTake.codec = s.codec ∧ s.makeTake.pending = s.pending := by
  unfold State.makeTake
  split <;> simp

@[simp] theorem State.takeDownlink_frame (s : State) : s.takeDownlink.now = s.now ∧
    s.takeDownlink.factoryId = s.factoryId ∧ s.takeDownlink.hold = s.hold ∧ s.takeDownlink.station = s.station ∧
    s.takeDownlink.timer = s.timer ∧ s.takeDownlink.early = s.early ∧ s.takeDownlink.views = s.views ∧
    s.takeDownlink.peers = s.peers ∧ s.takeDownlink.surplus = s.surplus ∧ s.takeDownlink.voice = s.voice ∧
    s.takeDownlink.farEnd = s.farEnd ∧ s.takeDownlink.pairing = s.pairing ∧ s.takeDownlink.mute = s.mute ∧
    s.takeDownlink.streams = s.streams ∧ s.takeDownlink.store = s.store ∧ s.takeDownlink.config = s.config ∧
    s.takeDownlink.port = s.port ∧ s.takeDownlink.codec = s.codec ∧ s.takeDownlink.pending = s.pending := by
  unfold State.takeDownlink
  split <;> simp

@[simp] theorem State.joinUplink_frame (s : State) (u : Frame) : (s.joinUplink u).now = s.now ∧
    (s.joinUplink u).factoryId = s.factoryId ∧ (s.joinUplink u).hold = s.hold ∧ (s.joinUplink u).station = s.station ∧
    (s.joinUplink u).timer = s.timer ∧ (s.joinUplink u).early = s.early ∧ (s.joinUplink u).chan = s.chan ∧
    (s.joinUplink u).views = s.views ∧ (s.joinUplink u).peers = s.peers ∧ (s.joinUplink u).surplus = s.surplus ∧
    (s.joinUplink u).voice = s.voice ∧ (s.joinUplink u).farEnd = s.farEnd ∧ (s.joinUplink u).pairing = s.pairing ∧
    (s.joinUplink u).mute = s.mute ∧ (s.joinUplink u).streams = s.streams ∧ (s.joinUplink u).store = s.store ∧
    (s.joinUplink u).config = s.config ∧ (s.joinUplink u).port = s.port ∧ (s.joinUplink u).codec = s.codec ∧
    (s.joinUplink u).pending = s.pending := by
  unfold State.joinUplink
  simp

@[simp] theorem State.uplinkWork_frame (s : State) : s.uplinkWork.now = s.now ∧ s.uplinkWork.factoryId = s.factoryId ∧
    s.uplinkWork.hold = s.hold ∧ s.uplinkWork.station = s.station ∧ s.uplinkWork.timer = s.timer ∧
    s.uplinkWork.early = s.early ∧ s.uplinkWork.chan = s.chan ∧ s.uplinkWork.views = s.views ∧
    s.uplinkWork.peers = s.peers ∧ s.uplinkWork.surplus = s.surplus ∧ s.uplinkWork.voice = s.voice ∧
    s.uplinkWork.farEnd = s.farEnd ∧ s.uplinkWork.pairing = s.pairing ∧ s.uplinkWork.mute = s.mute ∧
    s.uplinkWork.streams = s.streams ∧ s.uplinkWork.store = s.store ∧ s.uplinkWork.config = s.config ∧
    s.uplinkWork.port = s.port ∧ s.uplinkWork.codec = s.codec ∧ s.uplinkWork.pending = s.pending := by
  unfold State.uplinkWork
  split <;> simp

@[simp] theorem State.ageBearer_frame (s : State) : s.ageBearer.now = s.now ∧ s.ageBearer.factoryId = s.factoryId ∧
    s.ageBearer.hold = s.hold ∧ s.ageBearer.station = s.station ∧ s.ageBearer.timer = s.timer ∧
    s.ageBearer.early = s.early ∧ s.ageBearer.chan = s.chan ∧ s.ageBearer.views = s.views ∧
    s.ageBearer.peers = s.peers ∧ s.ageBearer.surplus = s.surplus ∧ s.ageBearer.voice = s.voice ∧
    s.ageBearer.farEnd = s.farEnd ∧ s.ageBearer.pairing = s.pairing ∧ s.ageBearer.mute = s.mute ∧
    s.ageBearer.streams = s.streams ∧ s.ageBearer.store = s.store ∧ s.ageBearer.config = s.config ∧
    s.ageBearer.flags = s.flags ∧ s.ageBearer.port = s.port ∧ s.ageBearer.codec = s.codec ∧
    s.ageBearer.pending = s.pending := by
  unfold State.ageBearer
  split <;> simp

@[simp] theorem State.acceptDownlink_frame (s : State) (v : Sample) : (s.acceptDownlink v).now = s.now ∧
    (s.acceptDownlink v).factoryId = s.factoryId ∧ (s.acceptDownlink v).hold = s.hold ∧
    (s.acceptDownlink v).station = s.station ∧ (s.acceptDownlink v).timer = s.timer ∧
    (s.acceptDownlink v).early = s.early ∧ (s.acceptDownlink v).chan = s.chan ∧ (s.acceptDownlink v).views = s.views ∧
    (s.acceptDownlink v).peers = s.peers ∧ (s.acceptDownlink v).surplus = s.surplus ∧
    (s.acceptDownlink v).voice = s.voice ∧ (s.acceptDownlink v).farEnd = s.farEnd ∧
    (s.acceptDownlink v).pairing = s.pairing ∧ (s.acceptDownlink v).mute = s.mute ∧
    (s.acceptDownlink v).streams = s.streams ∧ (s.acceptDownlink v).store = s.store ∧
    (s.acceptDownlink v).config = s.config ∧ (s.acceptDownlink v).port = s.port ∧
    (s.acceptDownlink v).codec = s.codec ∧ (s.acceptDownlink v).pending = s.pending := by
  unfold State.acceptDownlink
  repeat' split
  all_goals simp

@[simp] theorem State.takePosition_frame (s : State) : s.takePosition.now = s.now ∧
    s.takePosition.factoryId = s.factoryId ∧ s.takePosition.hold = s.hold ∧ s.takePosition.station = s.station ∧
    s.takePosition.timer = s.timer ∧ s.takePosition.early = s.early ∧ s.takePosition.chan = s.chan ∧
    s.takePosition.views = s.views ∧ s.takePosition.peers = s.peers ∧ s.takePosition.surplus = s.surplus ∧
    s.takePosition.voice = s.voice ∧ s.takePosition.farEnd = s.farEnd ∧ s.takePosition.pairing = s.pairing ∧
    s.takePosition.mute = s.mute ∧ s.takePosition.streams = s.streams ∧ s.takePosition.store = s.store ∧
    s.takePosition.config = s.config ∧ s.takePosition.flags = s.flags ∧ s.takePosition.codec = s.codec ∧
    s.takePosition.pending = s.pending := by
  unfold State.takePosition
  split <;> simp

@[simp] theorem State.takeEvents_frame (s : State) : s.takeEvents.now = s.now ∧ s.takeEvents.factoryId = s.factoryId ∧
    s.takeEvents.hold = s.hold ∧ s.takeEvents.station = s.station ∧ s.takeEvents.timer = s.timer ∧
    s.takeEvents.early = s.early ∧ s.takeEvents.chan = s.chan ∧ s.takeEvents.views = s.views ∧
    s.takeEvents.peers = s.peers ∧ s.takeEvents.surplus = s.surplus ∧ s.takeEvents.voice = s.voice ∧
    s.takeEvents.farEnd = s.farEnd ∧ s.takeEvents.pairing = s.pairing ∧ s.takeEvents.mute = s.mute ∧
    s.takeEvents.streams = s.streams ∧ s.takeEvents.bearer = s.bearer ∧ s.takeEvents.store = s.store ∧
    s.takeEvents.config = s.config ∧ s.takeEvents.codec = s.codec ∧ s.takeEvents.pending = s.pending :=
  ⟨rfl, rfl, rfl, rfl, rfl, rfl, rfl, rfl, rfl, rfl, rfl, rfl, rfl, rfl, rfl, rfl, rfl, rfl, rfl, rfl⟩

@[simp] theorem State.configure_frame (s : State) (a : ConfigArgs) : (s.configure a).now = s.now ∧
    (s.configure a).factoryId = s.factoryId ∧ (s.configure a).hold = s.hold ∧ (s.configure a).station = s.station ∧
    (s.configure a).timer = s.timer ∧ (s.configure a).early = s.early ∧ (s.configure a).chan = s.chan ∧
    (s.configure a).views = s.views ∧ (s.configure a).peers = s.peers ∧ (s.configure a).surplus = s.surplus ∧
    (s.configure a).voice = s.voice ∧ (s.configure a).farEnd = s.farEnd ∧ (s.configure a).pairing = s.pairing ∧
    (s.configure a).streams = s.streams ∧ (s.configure a).bearer = s.bearer ∧ (s.configure a).store = s.store ∧
    (s.configure a).flags = s.flags ∧ (s.configure a).port = s.port ∧ (s.configure a).codec = s.codec ∧
    (s.configure a).pending = s.pending :=
  ⟨rfl, rfl, rfl, rfl, rfl, rfl, rfl, rfl, rfl, rfl, rfl, rfl, rfl, rfl, rfl, rfl, rfl, rfl, rfl, rfl⟩

@[simp] theorem State.startTimer_frame (s : State) (t : Nat) : (s.startTimer t).now = s.now ∧
    (s.startTimer t).factoryId = s.factoryId ∧ (s.startTimer t).hold = s.hold ∧ (s.startTimer t).station = s.station ∧
    (s.startTimer t).views = s.views ∧ (s.startTimer t).peers = s.peers ∧ (s.startTimer t).surplus = s.surplus ∧
    (s.startTimer t).voice = s.voice ∧ (s.startTimer t).farEnd = s.farEnd ∧ (s.startTimer t).pairing = s.pairing ∧
    (s.startTimer t).mute = s.mute ∧ (s.startTimer t).streams = s.streams ∧ (s.startTimer t).bearer = s.bearer ∧
    (s.startTimer t).store = s.store ∧ (s.startTimer t).config = s.config ∧ (s.startTimer t).flags = s.flags ∧
    (s.startTimer t).port = s.port ∧ (s.startTimer t).pending = s.pending :=
  ⟨rfl, rfl, rfl, rfl, rfl, rfl, rfl, rfl, rfl, rfl, rfl, rfl, rfl, rfl, rfl, rfl, rfl, rfl⟩

@[simp] theorem State.openSlot_frame (s : State) (t : Nat) : (s.openSlot t).factoryId = s.factoryId ∧
    (s.openSlot t).hold = s.hold ∧ (s.openSlot t).station = s.station ∧ (s.openSlot t).timer = s.timer ∧
    (s.openSlot t).early = s.early ∧ (s.openSlot t).views = s.views ∧ (s.openSlot t).peers = s.peers ∧
    (s.openSlot t).surplus = s.surplus ∧ (s.openSlot t).voice = s.voice ∧ (s.openSlot t).farEnd = s.farEnd ∧
    (s.openSlot t).pairing = s.pairing ∧ (s.openSlot t).mute = s.mute ∧ (s.openSlot t).streams = s.streams ∧
    (s.openSlot t).bearer = s.bearer ∧ (s.openSlot t).store = s.store ∧ (s.openSlot t).config = s.config ∧
    (s.openSlot t).flags = s.flags ∧ (s.openSlot t).port = s.port ∧ (s.openSlot t).codec = s.codec ∧
    (s.openSlot t).pending = s.pending :=
  ⟨rfl, rfl, rfl, rfl, rfl, rfl, rfl, rfl, rfl, rfl, rfl, rfl, rfl, rfl, rfl, rfl, rfl, rfl, rfl, rfl⟩

@[simp] theorem State.sendBurst_frame (s : State) (t : Nat) (b : Burst) : (s.sendBurst t b).now = s.now ∧
    (s.sendBurst t b).factoryId = s.factoryId ∧ (s.sendBurst t b).hold = s.hold ∧
    (s.sendBurst t b).station = s.station ∧ (s.sendBurst t b).timer = s.timer ∧ (s.sendBurst t b).early = s.early ∧
    (s.sendBurst t b).views = s.views ∧ (s.sendBurst t b).peers = s.peers ∧ (s.sendBurst t b).surplus = s.surplus ∧
    (s.sendBurst t b).voice = s.voice ∧ (s.sendBurst t b).farEnd = s.farEnd ∧ (s.sendBurst t b).mute = s.mute ∧
    (s.sendBurst t b).streams = s.streams ∧ (s.sendBurst t b).bearer = s.bearer ∧ (s.sendBurst t b).store = s.store ∧
    (s.sendBurst t b).config = s.config ∧ (s.sendBurst t b).flags = s.flags ∧ (s.sendBurst t b).port = s.port ∧
    (s.sendBurst t b).codec = s.codec ∧ (s.sendBurst t b).pending = s.pending :=
  ⟨rfl, rfl, rfl, rfl, rfl, rfl, rfl, rfl, rfl, rfl, rfl, rfl, rfl, rfl, rfl, rfl, rfl, rfl, rfl, rfl⟩

@[simp] theorem State.startSlot_frame (s : State) (c : Cycle) (k : SlotIx) :
    (s.startSlot c k).factoryId = s.factoryId ∧ (s.startSlot c k).hold = s.hold ∧
    (s.startSlot c k).station = s.station ∧ (s.startSlot c k).timer = s.timer ∧ (s.startSlot c k).early = s.early ∧
    (s.startSlot c k).views = s.views ∧ (s.startSlot c k).peers = s.peers ∧ (s.startSlot c k).surplus = s.surplus ∧
    (s.startSlot c k).voice = s.voice ∧ (s.startSlot c k).farEnd = s.farEnd ∧ (s.startSlot c k).mute = s.mute ∧
    (s.startSlot c k).streams = s.streams ∧ (s.startSlot c k).bearer = s.bearer ∧ (s.startSlot c k).store = s.store ∧
    (s.startSlot c k).config = s.config ∧ (s.startSlot c k).flags = s.flags ∧ (s.startSlot c k).port = s.port ∧
    (s.startSlot c k).codec = s.codec ∧ (s.startSlot c k).pending = s.pending := by
  unfold State.startSlot
  split <;> simp

@[simp] theorem State.logRx_frame (s : State) (o : Bool) (h : Heard) : (s.logRx o h).now = s.now ∧
    (s.logRx o h).factoryId = s.factoryId ∧ (s.logRx o h).hold = s.hold ∧ (s.logRx o h).station = s.station ∧
    (s.logRx o h).early = s.early ∧ (s.logRx o h).chan = s.chan ∧ (s.logRx o h).views = s.views ∧
    (s.logRx o h).peers = s.peers ∧ (s.logRx o h).surplus = s.surplus ∧ (s.logRx o h).voice = s.voice ∧
    (s.logRx o h).farEnd = s.farEnd ∧ (s.logRx o h).pairing = s.pairing ∧ (s.logRx o h).mute = s.mute ∧
    (s.logRx o h).streams = s.streams ∧ (s.logRx o h).bearer = s.bearer ∧ (s.logRx o h).store = s.store ∧
    (s.logRx o h).config = s.config ∧ (s.logRx o h).flags = s.flags ∧ (s.logRx o h).port = s.port ∧
    (s.logRx o h).codec = s.codec ∧ (s.logRx o h).pending = s.pending := by
  unfold State.logRx
  split <;> simp

@[simp] theorem State.election_frame (s : State) (l : Bool) (b : Burst) : (s.election l b).now = s.now ∧
    (s.election l b).factoryId = s.factoryId ∧ (s.election l b).hold = s.hold ∧ (s.election l b).station = s.station ∧
    (s.election l b).timer = s.timer ∧ (s.election l b).early = s.early ∧ (s.election l b).views = s.views ∧
    (s.election l b).peers = s.peers ∧ (s.election l b).surplus = s.surplus ∧ (s.election l b).voice = s.voice ∧
    (s.election l b).pairing = s.pairing ∧ (s.election l b).mute = s.mute ∧ (s.election l b).store = s.store ∧
    (s.election l b).config = s.config ∧ (s.election l b).port = s.port ∧ (s.election l b).codec = s.codec ∧
    (s.election l b).pending = s.pending := by
  unfold State.election State.nowOrLate
  split <;> (try split) <;> simp

@[simp] theorem State.windowYield_frame (s : State) (l : Bool) (b : Burst) : (s.windowYield l b).now = s.now ∧
    (s.windowYield l b).factoryId = s.factoryId ∧ (s.windowYield l b).hold = s.hold ∧
    (s.windowYield l b).station = s.station ∧ (s.windowYield l b).timer = s.timer ∧
    (s.windowYield l b).early = s.early ∧ (s.windowYield l b).views = s.views ∧ (s.windowYield l b).peers = s.peers ∧
    (s.windowYield l b).surplus = s.surplus ∧ (s.windowYield l b).voice = s.voice ∧
    (s.windowYield l b).farEnd = s.farEnd ∧ (s.windowYield l b).mute = s.mute ∧
    (s.windowYield l b).streams = s.streams ∧ (s.windowYield l b).bearer = s.bearer ∧
    (s.windowYield l b).store = s.store ∧ (s.windowYield l b).config = s.config ∧ (s.windowYield l b).port = s.port ∧
    (s.windowYield l b).codec = s.codec ∧ (s.windowYield l b).pending = s.pending := by
  unfold State.windowYield State.nowOrLate
  split <;> (try split) <;> simp

@[simp] theorem State.clash_frame (s : State) (l : Bool) (b : Burst) : (s.clash l b).now = s.now ∧
    (s.clash l b).factoryId = s.factoryId ∧ (s.clash l b).hold = s.hold ∧ (s.clash l b).timer = s.timer ∧
    (s.clash l b).early = s.early ∧ (s.clash l b).views = s.views ∧ (s.clash l b).peers = s.peers ∧
    (s.clash l b).mute = s.mute ∧ (s.clash l b).store = s.store ∧ (s.clash l b).config = s.config ∧
    (s.clash l b).port = s.port ∧ (s.clash l b).codec = s.codec ∧ (s.clash l b).pending = s.pending := by
  unfold State.clash State.nowOrLate
  split <;> (try split) <;> simp

@[simp] theorem State.heardPeer_frame (s : State) (l : Bool) (b : Burst) (d : Int) : (s.heardPeer l b d).now = s.now ∧
    (s.heardPeer l b d).factoryId = s.factoryId ∧ (s.heardPeer l b d).hold = s.hold ∧
    (s.heardPeer l b d).station = s.station ∧ (s.heardPeer l b d).timer = s.timer ∧
    (s.heardPeer l b d).early = s.early ∧ (s.heardPeer l b d).views = s.views ∧
    (s.heardPeer l b d).surplus = s.surplus ∧ (s.heardPeer l b d).voice = s.voice ∧
    (s.heardPeer l b d).mute = s.mute ∧ (s.heardPeer l b d).store = s.store ∧ (s.heardPeer l b d).config = s.config ∧
    (s.heardPeer l b d).port = s.port ∧ (s.heardPeer l b d).codec = s.codec ∧ (s.heardPeer l b d).pending = s.pending
    := by
  unfold State.heardPeer
  simp

@[simp] theorem State.heardAsMember_frame (s : State) (l : Bool) (b : Burst) (d : Int) :
    (s.heardAsMember l b d).now = s.now ∧ (s.heardAsMember l b d).factoryId = s.factoryId ∧
    (s.heardAsMember l b d).hold = s.hold ∧ (s.heardAsMember l b d).timer = s.timer ∧
    (s.heardAsMember l b d).early = s.early ∧ (s.heardAsMember l b d).views = s.views ∧
    (s.heardAsMember l b d).mute = s.mute ∧ (s.heardAsMember l b d).store = s.store ∧
    (s.heardAsMember l b d).config = s.config ∧ (s.heardAsMember l b d).port = s.port ∧
    (s.heardAsMember l b d).codec = s.codec ∧ (s.heardAsMember l b d).pending = s.pending := by
  unfold State.heardAsMember
  split <;> simp

@[simp] theorem State.heardInListen_frame (s : State) (c : Cycle) (tr : Nat) (l : Bool) (h : Heard) :
    (s.heardInListen c tr l h).now = s.now ∧ (s.heardInListen c tr l h).factoryId = s.factoryId ∧
    (s.heardInListen c tr l h).hold = s.hold ∧ (s.heardInListen c tr l h).early = s.early ∧
    (s.heardInListen c tr l h).mute = s.mute ∧ (s.heardInListen c tr l h).store = s.store ∧
    (s.heardInListen c tr l h).config = s.config ∧ (s.heardInListen c tr l h).port = s.port ∧
    (s.heardInListen c tr l h).codec = s.codec ∧ (s.heardInListen c tr l h).pending = s.pending := by
  unfold State.heardInListen
  split <;> simp

@[simp] theorem State.heardOwn_frame (s : State) (c : Cycle) (tr : Nat) (l : Bool) (h : Heard) :
    (s.heardOwn c tr l h).now = s.now ∧ (s.heardOwn c tr l h).factoryId = s.factoryId ∧
    (s.heardOwn c tr l h).hold = s.hold ∧ (s.heardOwn c tr l h).early = s.early ∧
    (s.heardOwn c tr l h).mute = s.mute ∧ (s.heardOwn c tr l h).store = s.store ∧
    (s.heardOwn c tr l h).config = s.config ∧ (s.heardOwn c tr l h).port = s.port ∧
    (s.heardOwn c tr l h).codec = s.codec ∧ (s.heardOwn c tr l h).pending = s.pending := by
  unfold State.heardOwn
  split <;> simp

@[simp] theorem State.foreignAtMember_frame (s : State) (b : Burst) : (s.foreignAtMember b).now = s.now ∧
    (s.foreignAtMember b).factoryId = s.factoryId ∧ (s.foreignAtMember b).hold = s.hold ∧
    (s.foreignAtMember b).station = s.station ∧ (s.foreignAtMember b).timer = s.timer ∧
    (s.foreignAtMember b).early = s.early ∧ (s.foreignAtMember b).chan = s.chan ∧
    (s.foreignAtMember b).views = s.views ∧ (s.foreignAtMember b).peers = s.peers ∧
    (s.foreignAtMember b).surplus = s.surplus ∧ (s.foreignAtMember b).voice = s.voice ∧
    (s.foreignAtMember b).farEnd = s.farEnd ∧ (s.foreignAtMember b).mute = s.mute ∧
    (s.foreignAtMember b).streams = s.streams ∧ (s.foreignAtMember b).bearer = s.bearer ∧
    (s.foreignAtMember b).store = s.store ∧ (s.foreignAtMember b).config = s.config ∧
    (s.foreignAtMember b).port = s.port ∧ (s.foreignAtMember b).codec = s.codec ∧
    (s.foreignAtMember b).pending = s.pending := by
  unfold State.foreignAtMember
  split <;> simp

@[simp] theorem State.heardForeign_frame (s : State) (c : Cycle) (k : SlotIx) (tr : Nat) (h : Heard) :
    (s.heardForeign c k tr h).now = s.now ∧ (s.heardForeign c k tr h).factoryId = s.factoryId ∧
    (s.heardForeign c k tr h).hold = s.hold ∧ (s.heardForeign c k tr h).early = s.early ∧
    (s.heardForeign c k tr h).peers = s.peers ∧ (s.heardForeign c k tr h).voice = s.voice ∧
    (s.heardForeign c k tr h).farEnd = s.farEnd ∧ (s.heardForeign c k tr h).mute = s.mute ∧
    (s.heardForeign c k tr h).streams = s.streams ∧ (s.heardForeign c k tr h).bearer = s.bearer ∧
    (s.heardForeign c k tr h).store = s.store ∧ (s.heardForeign c k tr h).config = s.config ∧
    (s.heardForeign c k tr h).port = s.port ∧ (s.heardForeign c k tr h).codec = s.codec ∧
    (s.heardForeign c k tr h).pending = s.pending := by
  unfold State.heardForeign
  repeat' split
  all_goals simp

@[simp] theorem State.handOff_frame (s : State) (c : Cycle) (k : SlotIx) (tr : Nat) (l : Bool) (e : Entry) (h : Held)
    : (s.handOff c k tr l e h).now = s.now ∧ (s.handOff c k tr l e h).factoryId = s.factoryId ∧
    (s.handOff c k tr l e h).hold = s.hold ∧ (s.handOff c k tr l e h).early = s.early ∧
    (s.handOff c k tr l e h).mute = s.mute ∧ (s.handOff c k tr l e h).store = s.store ∧
    (s.handOff c k tr l e h).config = s.config ∧ (s.handOff c k tr l e h).port = s.port ∧
    (s.handOff c k tr l e h).codec = s.codec ∧ (s.handOff c k tr l e h).pending = s.pending := by
  unfold State.handOff
  repeat' split
  all_goals simp

@[simp] theorem State.settleRole_frame (s : State) : s.settleRole.now = s.now ∧ s.settleRole.factoryId = s.factoryId ∧
    s.settleRole.hold = s.hold ∧ s.settleRole.station = s.station ∧ s.settleRole.timer = s.timer ∧
    s.settleRole.early = s.early ∧ s.settleRole.chan = s.chan ∧ s.settleRole.views = s.views ∧
    s.settleRole.peers = s.peers ∧ s.settleRole.surplus = s.surplus ∧ s.settleRole.voice = s.voice ∧
    s.settleRole.farEnd = s.farEnd ∧ s.settleRole.pairing = s.pairing ∧ s.settleRole.mute = s.mute ∧
    s.settleRole.store = s.store ∧ s.settleRole.config = s.config ∧ s.settleRole.port = s.port ∧
    s.settleRole.codec = s.codec ∧ s.settleRole.pending = s.pending := by
  unfold State.settleRole
  split <;> simp

@[simp] theorem State.ownSlotEnd_frame (s : State) (k : SlotIx) (tr : Nat) : (s.ownSlotEnd k tr).now = s.now ∧
    (s.ownSlotEnd k tr).factoryId = s.factoryId ∧ (s.ownSlotEnd k tr).hold = s.hold ∧
    (s.ownSlotEnd k tr).timer = s.timer ∧ (s.ownSlotEnd k tr).early = s.early ∧ (s.ownSlotEnd k tr).peers = s.peers ∧
    (s.ownSlotEnd k tr).mute = s.mute ∧ (s.ownSlotEnd k tr).config = s.config ∧ (s.ownSlotEnd k tr).port = s.port ∧
    (s.ownSlotEnd k tr).codec = s.codec ∧ (s.ownSlotEnd k tr).pending = s.pending := by
  unfold State.ownSlotEnd
  dsimp only
  repeat' split
  all_goals simp

@[simp] theorem State.closeSlot_frame (s : State) (k : SlotIx) (tr : Nat) (e : Entry) (xs : List AirItem) :
    (s.closeSlot k tr e xs).factoryId = s.factoryId ∧ (s.closeSlot k tr e xs).hold = s.hold ∧
    (s.closeSlot k tr e xs).station = s.station ∧ (s.closeSlot k tr e xs).timer = s.timer ∧
    (s.closeSlot k tr e xs).early = s.early ∧ (s.closeSlot k tr e xs).peers = s.peers ∧
    (s.closeSlot k tr e xs).surplus = s.surplus ∧ (s.closeSlot k tr e xs).voice = s.voice ∧
    (s.closeSlot k tr e xs).farEnd = s.farEnd ∧ (s.closeSlot k tr e xs).pairing = s.pairing ∧
    (s.closeSlot k tr e xs).mute = s.mute ∧ (s.closeSlot k tr e xs).streams = s.streams ∧
    (s.closeSlot k tr e xs).bearer = s.bearer ∧ (s.closeSlot k tr e xs).store = s.store ∧
    (s.closeSlot k tr e xs).config = s.config ∧ (s.closeSlot k tr e xs).flags = s.flags ∧
    (s.closeSlot k tr e xs).port = s.port ∧ (s.closeSlot k tr e xs).codec = s.codec ∧
    (s.closeSlot k tr e xs).pending = s.pending :=
  ⟨rfl, rfl, rfl, rfl, rfl, rfl, rfl, rfl, rfl, rfl, rfl, rfl, rfl, rfl, rfl, rfl, rfl, rfl, rfl⟩

@[simp] theorem State.settleAt14_frame (s : State) (k : SlotIx) (q : Offer → Bool) : (s.settleAt14 k q).now = s.now ∧
    (s.settleAt14 k q).factoryId = s.factoryId ∧ (s.settleAt14 k q).hold = s.hold ∧
    (s.settleAt14 k q).station = s.station ∧ (s.settleAt14 k q).timer = s.timer ∧ (s.settleAt14 k q).early = s.early ∧
    (s.settleAt14 k q).chan = s.chan ∧ (s.settleAt14 k q).views = s.views ∧ (s.settleAt14 k q).peers = s.peers ∧
    (s.settleAt14 k q).surplus = s.surplus ∧ (s.settleAt14 k q).voice = s.voice ∧
    (s.settleAt14 k q).farEnd = s.farEnd ∧ (s.settleAt14 k q).mute = s.mute ∧ (s.settleAt14 k q).streams = s.streams ∧
    (s.settleAt14 k q).bearer = s.bearer ∧ (s.settleAt14 k q).store = s.store ∧ (s.settleAt14 k q).config = s.config ∧
    (s.settleAt14 k q).port = s.port ∧ (s.settleAt14 k q).codec = s.codec ∧ (s.settleAt14 k q).pending = s.pending := by
  unfold State.settleAt14
  split <;> simp

@[simp] theorem State.endSlot_frame (s : State) (c : Cycle) (k : SlotIx) (o : ReceptionOrder) (air : List AirItem) :
    (s.endSlot c k o air).factoryId = s.factoryId ∧ (s.endSlot c k o air).hold = s.hold ∧
    (s.endSlot c k o air).early = s.early ∧ (s.endSlot c k o air).mute = s.mute ∧
    (s.endSlot c k o air).config = s.config ∧ (s.endSlot c k o air).port = s.port ∧
    (s.endSlot c k o air).codec = s.codec ∧ (s.endSlot c k o air).pending = s.pending := by
  unfold State.endSlot
  split <;> simp

@[simp] theorem State.makeJump_frame (s : State) : s.makeJump.now = s.now ∧ s.makeJump.factoryId = s.factoryId ∧
    s.makeJump.hold = s.hold ∧ s.makeJump.station = s.station ∧ s.makeJump.chan = s.chan ∧
    s.makeJump.peers = s.peers ∧ s.makeJump.surplus = s.surplus ∧ s.makeJump.mute = s.mute ∧
    s.makeJump.streams = s.streams ∧ s.makeJump.store = s.store ∧ s.makeJump.config = s.config ∧
    s.makeJump.port = s.port ∧ s.makeJump.codec = s.codec ∧ s.makeJump.pending = s.pending := by
  unfold State.makeJump
  simp

@[simp] theorem State.stepJump_frame (s : State) (c : Cycle) : (s.stepJump c).now = s.now ∧
    (s.stepJump c).factoryId = s.factoryId ∧ (s.stepJump c).hold = s.hold ∧ (s.stepJump c).station = s.station ∧
    (s.stepJump c).chan = s.chan ∧ (s.stepJump c).peers = s.peers ∧ (s.stepJump c).surplus = s.surplus ∧
    (s.stepJump c).mute = s.mute ∧ (s.stepJump c).streams = s.streams ∧ (s.stepJump c).store = s.store ∧
    (s.stepJump c).config = s.config ∧ (s.stepJump c).port = s.port ∧ (s.stepJump c).codec = s.codec ∧
    (s.stepJump c).pending = s.pending := by
  unfold State.stepJump
  simp

@[simp] theorem State.jumpIfDue_frame (s : State) (c : Cycle) : (s.jumpIfDue c).now = s.now ∧
    (s.jumpIfDue c).factoryId = s.factoryId ∧ (s.jumpIfDue c).hold = s.hold ∧ (s.jumpIfDue c).station = s.station ∧
    (s.jumpIfDue c).chan = s.chan ∧ (s.jumpIfDue c).peers = s.peers ∧ (s.jumpIfDue c).surplus = s.surplus ∧
    (s.jumpIfDue c).mute = s.mute ∧ (s.jumpIfDue c).streams = s.streams ∧ (s.jumpIfDue c).store = s.store ∧
    (s.jumpIfDue c).config = s.config ∧ (s.jumpIfDue c).port = s.port ∧ (s.jumpIfDue c).codec = s.codec ∧
    (s.jumpIfDue c).pending = s.pending := by
  unfold State.jumpIfDue
  split <;> simp

@[simp] theorem State.timerWork_frame (s : State) (c : Cycle) : (s.timerWork c).now = s.now ∧
    (s.timerWork c).factoryId = s.factoryId ∧ (s.timerWork c).hold = s.hold ∧ (s.timerWork c).station = s.station ∧
    (s.timerWork c).early = s.early ∧ (s.timerWork c).chan = s.chan ∧ (s.timerWork c).views = s.views ∧
    (s.timerWork c).peers = s.peers ∧ (s.timerWork c).surplus = s.surplus ∧ (s.timerWork c).voice = s.voice ∧
    (s.timerWork c).farEnd = s.farEnd ∧ (s.timerWork c).pairing = s.pairing ∧ (s.timerWork c).mute = s.mute ∧
    (s.timerWork c).streams = s.streams ∧ (s.timerWork c).bearer = s.bearer ∧ (s.timerWork c).store = s.store ∧
    (s.timerWork c).config = s.config ∧ (s.timerWork c).flags = s.flags ∧ (s.timerWork c).port = s.port ∧
    (s.timerWork c).codec = s.codec ∧ (s.timerWork c).pending = s.pending :=
  ⟨rfl, rfl, rfl, rfl, rfl, rfl, rfl, rfl, rfl, rfl, rfl, rfl, rfl, rfl, rfl, rfl, rfl, rfl, rfl, rfl, rfl⟩

@[simp] theorem State.claimWork_frame (s : State) : s.claimWork.now = s.now ∧ s.claimWork.factoryId = s.factoryId ∧
    s.claimWork.hold = s.hold ∧ s.claimWork.station = s.station ∧ s.claimWork.timer = s.timer ∧
    s.claimWork.chan = s.chan ∧ s.claimWork.views = s.views ∧ s.claimWork.peers = s.peers ∧
    s.claimWork.surplus = s.surplus ∧ s.claimWork.pairing = s.pairing ∧ s.claimWork.mute = s.mute ∧
    s.claimWork.streams = s.streams ∧ s.claimWork.store = s.store ∧ s.claimWork.config = s.config ∧
    s.claimWork.port = s.port ∧ s.claimWork.codec = s.codec ∧ s.claimWork.pending = s.pending := by
  unfold State.claimWork
  split <;> simp

@[simp] theorem State.peerWork_frame (s : State) : s.peerWork.now = s.now ∧ s.peerWork.factoryId = s.factoryId ∧
    s.peerWork.hold = s.hold ∧ s.peerWork.station = s.station ∧ s.peerWork.timer = s.timer ∧
    s.peerWork.early = s.early ∧ s.peerWork.chan = s.chan ∧ s.peerWork.views = s.views ∧
    s.peerWork.surplus = s.surplus ∧ s.peerWork.voice = s.voice ∧ s.peerWork.farEnd = s.farEnd ∧
    s.peerWork.pairing = s.pairing ∧ s.peerWork.mute = s.mute ∧ s.peerWork.streams = s.streams ∧
    s.peerWork.bearer = s.bearer ∧ s.peerWork.store = s.store ∧ s.peerWork.config = s.config ∧
    s.peerWork.port = s.port ∧ s.peerWork.codec = s.codec ∧ s.peerWork.pending = s.pending := by
  unfold State.peerWork
  split <;> simp

@[simp] theorem State.surplusWork_frame (s : State) : s.surplusWork.now = s.now ∧
    s.surplusWork.factoryId = s.factoryId ∧ s.surplusWork.hold = s.hold ∧ s.surplusWork.station = s.station ∧
    s.surplusWork.timer = s.timer ∧ s.surplusWork.early = s.early ∧ s.surplusWork.chan = s.chan ∧
    s.surplusWork.views = s.views ∧ s.surplusWork.peers = s.peers ∧ s.surplusWork.voice = s.voice ∧
    s.surplusWork.farEnd = s.farEnd ∧ s.surplusWork.pairing = s.pairing ∧ s.surplusWork.mute = s.mute ∧
    s.surplusWork.streams = s.streams ∧ s.surplusWork.bearer = s.bearer ∧ s.surplusWork.store = s.store ∧
    s.surplusWork.config = s.config ∧ s.surplusWork.port = s.port ∧ s.surplusWork.codec = s.codec ∧
    s.surplusWork.pending = s.pending := by
  unfold State.surplusWork
  split <;> simp

@[simp] theorem State.pairingWork_frame (s : State) : s.pairingWork.now = s.now ∧
    s.pairingWork.factoryId = s.factoryId ∧ s.pairingWork.hold = s.hold ∧ s.pairingWork.station = s.station ∧
    s.pairingWork.timer = s.timer ∧ s.pairingWork.early = s.early ∧ s.pairingWork.chan = s.chan ∧
    s.pairingWork.views = s.views ∧ s.pairingWork.peers = s.peers ∧ s.pairingWork.surplus = s.surplus ∧
    s.pairingWork.voice = s.voice ∧ s.pairingWork.farEnd = s.farEnd ∧ s.pairingWork.mute = s.mute ∧
    s.pairingWork.streams = s.streams ∧ s.pairingWork.bearer = s.bearer ∧ s.pairingWork.store = s.store ∧
    s.pairingWork.config = s.config ∧ s.pairingWork.port = s.port ∧ s.pairingWork.codec = s.codec ∧
    s.pairingWork.pending = s.pending := by
  unfold State.pairingWork
  split <;> (try simp only []) <;> (try split) <;> (try split) <;> simp

@[simp] theorem State.enterAlone_frame (s : State) : s.enterAlone.now = s.now ∧ s.enterAlone.factoryId = s.factoryId ∧
    s.enterAlone.hold = s.hold ∧ s.enterAlone.timer = s.timer ∧ s.enterAlone.peers = s.peers ∧
    s.enterAlone.farEnd = s.farEnd ∧ s.enterAlone.pairing = s.pairing ∧ s.enterAlone.mute = s.mute ∧
    s.enterAlone.streams = s.streams ∧ s.enterAlone.bearer = s.bearer ∧ s.enterAlone.store = s.store ∧
    s.enterAlone.config = s.config ∧ s.enterAlone.port = s.port ∧ s.enterAlone.codec = s.codec ∧
    s.enterAlone.pending = s.pending :=
  ⟨rfl, rfl, rfl, rfl, rfl, rfl, rfl, rfl, rfl, rfl, rfl, rfl, rfl, rfl, rfl⟩

@[simp] theorem State.countListen_frame (s : State) : s.countListen.now = s.now ∧
    s.countListen.factoryId = s.factoryId ∧ s.countListen.hold = s.hold ∧ s.countListen.timer = s.timer ∧
    s.countListen.peers = s.peers ∧ s.countListen.farEnd = s.farEnd ∧ s.countListen.pairing = s.pairing ∧
    s.countListen.mute = s.mute ∧ s.countListen.streams = s.streams ∧ s.countListen.bearer = s.bearer ∧
    s.countListen.store = s.store ∧ s.countListen.config = s.config ∧ s.countListen.port = s.port ∧
    s.countListen.codec = s.codec ∧ s.countListen.pending = s.pending := by
  unfold State.countListen
  simp only []
  split <;> simp

@[simp] theorem State.countLeaving_frame (s : State) : s.countLeaving.now = s.now ∧
    s.countLeaving.factoryId = s.factoryId ∧ s.countLeaving.hold = s.hold ∧ s.countLeaving.timer = s.timer ∧
    s.countLeaving.early = s.early ∧ s.countLeaving.views = s.views ∧ s.countLeaving.peers = s.peers ∧
    s.countLeaving.voice = s.voice ∧ s.countLeaving.farEnd = s.farEnd ∧ s.countLeaving.pairing = s.pairing ∧
    s.countLeaving.mute = s.mute ∧ s.countLeaving.streams = s.streams ∧ s.countLeaving.bearer = s.bearer ∧
    s.countLeaving.store = s.store ∧ s.countLeaving.config = s.config ∧ s.countLeaving.port = s.port ∧
    s.countLeaving.codec = s.codec ∧ s.countLeaving.pending = s.pending := by
  unfold State.countLeaving
  split <;> simp

@[simp] theorem State.transitions_frame (s : State) : s.transitions.now = s.now ∧
    s.transitions.factoryId = s.factoryId ∧ s.transitions.hold = s.hold ∧ s.transitions.timer = s.timer ∧
    s.transitions.peers = s.peers ∧ s.transitions.farEnd = s.farEnd ∧ s.transitions.mute = s.mute ∧
    s.transitions.store = s.store ∧ s.transitions.config = s.config ∧ s.transitions.port = s.port ∧
    s.transitions.codec = s.codec ∧ s.transitions.pending = s.pending := by
  unfold State.transitions
  repeat' split
  all_goals simp

@[simp] theorem State.handFrames_frame (s : State) : s.handFrames.now = s.now ∧ s.handFrames.factoryId = s.factoryId ∧
    s.handFrames.hold = s.hold ∧ s.handFrames.station = s.station ∧ s.handFrames.timer = s.timer ∧
    s.handFrames.early = s.early ∧ s.handFrames.chan = s.chan ∧ s.handFrames.views = s.views ∧
    s.handFrames.peers = s.peers ∧ s.handFrames.surplus = s.surplus ∧ s.handFrames.voice = s.voice ∧
    s.handFrames.farEnd = s.farEnd ∧ s.handFrames.pairing = s.pairing ∧ s.handFrames.mute = s.mute ∧
    s.handFrames.streams = s.streams ∧ s.handFrames.bearer = s.bearer ∧ s.handFrames.store = s.store ∧
    s.handFrames.config = s.config ∧ s.handFrames.flags = s.flags ∧ s.handFrames.port = s.port ∧
    s.handFrames.pending = s.pending :=
  ⟨rfl, rfl, rfl, rfl, rfl, rfl, rfl, rfl, rfl, rfl, rfl, rfl, rfl, rfl, rfl, rfl, rfl, rfl, rfl, rfl, rfl⟩

@[simp] theorem State.deadline_frame (s : State) : s.deadline.now = s.now ∧ s.deadline.factoryId = s.factoryId ∧
    s.deadline.hold = s.hold ∧ s.deadline.station = s.station ∧ s.deadline.timer = s.timer ∧
    s.deadline.early = s.early ∧ s.deadline.views = s.views ∧ s.deadline.peers = s.peers ∧
    s.deadline.surplus = s.surplus ∧ s.deadline.voice = s.voice ∧ s.deadline.farEnd = s.farEnd ∧
    s.deadline.pairing = s.pairing ∧ s.deadline.mute = s.mute ∧ s.deadline.store = s.store ∧
    s.deadline.config = s.config ∧ s.deadline.port = s.port ∧ s.deadline.pending = s.pending := by
  unfold State.deadline
  simp

@[simp] theorem State.deadlineWork_frame (s : State) (o : DeadlineOrder) : (s.deadlineWork o).now = s.now ∧
    (s.deadlineWork o).factoryId = s.factoryId ∧ (s.deadlineWork o).hold = s.hold ∧
    (s.deadlineWork o).timer = s.timer ∧ (s.deadlineWork o).peers = s.peers ∧ (s.deadlineWork o).farEnd = s.farEnd ∧
    (s.deadlineWork o).mute = s.mute ∧ (s.deadlineWork o).store = s.store ∧ (s.deadlineWork o).config = s.config ∧
    (s.deadlineWork o).port = s.port ∧ (s.deadlineWork o).pending = s.pending := by
  unfold State.deadlineWork
  split <;> simp

@[simp] theorem State.rotateViews_frame (s : State) : s.rotateViews.now = s.now ∧
    s.rotateViews.factoryId = s.factoryId ∧ s.rotateViews.hold = s.hold ∧ s.rotateViews.station = s.station ∧
    s.rotateViews.timer = s.timer ∧ s.rotateViews.early = s.early ∧ s.rotateViews.chan = s.chan ∧
    s.rotateViews.peers = s.peers ∧ s.rotateViews.surplus = s.surplus ∧ s.rotateViews.voice = s.voice ∧
    s.rotateViews.farEnd = s.farEnd ∧ s.rotateViews.pairing = s.pairing ∧ s.rotateViews.mute = s.mute ∧
    s.rotateViews.streams = s.streams ∧ s.rotateViews.bearer = s.bearer ∧ s.rotateViews.store = s.store ∧
    s.rotateViews.config = s.config ∧ s.rotateViews.flags = s.flags ∧ s.rotateViews.port = s.port ∧
    s.rotateViews.codec = s.codec ∧ s.rotateViews.pending = s.pending := by
  unfold State.rotateViews
  split <;> simp

@[simp] theorem State.beginCycle_frame (s : State) (c : Cycle) : (s.beginCycle c).now = s.now ∧
    (s.beginCycle c).factoryId = s.factoryId ∧ (s.beginCycle c).hold = s.hold ∧ (s.beginCycle c).station = s.station ∧
    (s.beginCycle c).views = s.views ∧ (s.beginCycle c).peers = s.peers ∧ (s.beginCycle c).surplus = s.surplus ∧
    (s.beginCycle c).voice = s.voice ∧ (s.beginCycle c).farEnd = s.farEnd ∧ (s.beginCycle c).pairing = s.pairing ∧
    (s.beginCycle c).mute = s.mute ∧ (s.beginCycle c).streams = s.streams ∧ (s.beginCycle c).bearer = s.bearer ∧
    (s.beginCycle c).store = s.store ∧ (s.beginCycle c).config = s.config ∧ (s.beginCycle c).flags = s.flags ∧
    (s.beginCycle c).port = s.port ∧ (s.beginCycle c).pending = s.pending :=
  ⟨rfl, rfl, rfl, rfl, rfl, rfl, rfl, rfl, rfl, rfl, rfl, rfl, rfl, rfl, rfl, rfl, rfl, rfl⟩

@[simp] theorem State.lateEffect_frame (s : State) (e : LateEffect) : (s.lateEffect e).now = s.now ∧
    (s.lateEffect e).factoryId = s.factoryId ∧ (s.lateEffect e).hold = s.hold ∧ (s.lateEffect e).timer = s.timer ∧
    (s.lateEffect e).early = s.early ∧ (s.lateEffect e).views = s.views ∧ (s.lateEffect e).peers = s.peers ∧
    (s.lateEffect e).mute = s.mute ∧ (s.lateEffect e).store = s.store ∧ (s.lateEffect e).config = s.config ∧
    (s.lateEffect e).port = s.port ∧ (s.lateEffect e).codec = s.codec ∧ (s.lateEffect e).pending = s.pending := by
  unfold State.lateEffect
  repeat' split
  all_goals simp

@[simp] theorem State.lateEffects_frame (s : State) (es : List LateEffect) : (s.lateEffects es).now = s.now ∧
    (s.lateEffects es).factoryId = s.factoryId ∧ (s.lateEffects es).hold = s.hold ∧
    (s.lateEffects es).timer = s.timer ∧ (s.lateEffects es).early = s.early ∧ (s.lateEffects es).views = s.views ∧
    (s.lateEffects es).peers = s.peers ∧ (s.lateEffects es).mute = s.mute ∧ (s.lateEffects es).store = s.store ∧
    (s.lateEffects es).config = s.config ∧ (s.lateEffects es).port = s.port ∧ (s.lateEffects es).codec = s.codec ∧
    (s.lateEffects es).pending = s.pending := by
  unfold State.lateEffects
  induction es generalizing s with
  | nil => simp
  | cons e es ih => simpa using ih (s.lateEffect e)

@[simp] theorem State.cycleWork_frame (s : State) (c : Cycle) : (s.cycleWork c).now = s.now ∧
    (s.cycleWork c).factoryId = s.factoryId ∧ (s.cycleWork c).hold = s.hold ∧ (s.cycleWork c).station = s.station ∧
    (s.cycleWork c).chan = s.chan ∧ (s.cycleWork c).mute = s.mute ∧ (s.cycleWork c).streams = s.streams ∧
    (s.cycleWork c).store = s.store ∧ (s.cycleWork c).config = s.config ∧ (s.cycleWork c).port = s.port ∧
    (s.cycleWork c).codec = s.codec ∧ (s.cycleWork c).pending = s.pending := by
  unfold State.cycleWork
  simp

@[simp] theorem State.endCycle_frame (s : State) (c : Cycle) (o : DeadlineOrder) :
    (s.endCycle c o).factoryId = s.factoryId ∧ (s.endCycle c o).hold = s.hold ∧ (s.endCycle c o).mute = s.mute ∧
    (s.endCycle c o).store = s.store ∧ (s.endCycle c o).config = s.config ∧ (s.endCycle c o).port = s.port ∧
    (s.endCycle c o).pending = s.pending := by
  unfold State.endCycle
  simp

@[simp] theorem State.agePeerEarly_frame (s : State) (n : StationNo) : (s.agePeerEarly n).now = s.now ∧
    (s.agePeerEarly n).factoryId = s.factoryId ∧ (s.agePeerEarly n).hold = s.hold ∧
    (s.agePeerEarly n).station = s.station ∧ (s.agePeerEarly n).timer = s.timer ∧ (s.agePeerEarly n).chan = s.chan ∧
    (s.agePeerEarly n).views = s.views ∧ (s.agePeerEarly n).surplus = s.surplus ∧ (s.agePeerEarly n).voice = s.voice ∧
    (s.agePeerEarly n).farEnd = s.farEnd ∧ (s.agePeerEarly n).pairing = s.pairing ∧ (s.agePeerEarly n).mute = s.mute ∧
    (s.agePeerEarly n).streams = s.streams ∧ (s.agePeerEarly n).bearer = s.bearer ∧
    (s.agePeerEarly n).store = s.store ∧ (s.agePeerEarly n).config = s.config ∧ (s.agePeerEarly n).flags = s.flags ∧
    (s.agePeerEarly n).port = s.port ∧ (s.agePeerEarly n).codec = s.codec ∧ (s.agePeerEarly n).pending = s.pending :=
  ⟨rfl, rfl, rfl, rfl, rfl, rfl, rfl, rfl, rfl, rfl, rfl, rfl, rfl, rfl, rfl, rfl, rfl, rfl, rfl, rfl⟩

@[simp] theorem State.decideEarly_frame (s : State) (id : ClaimId) : (s.decideEarly id).now = s.now ∧
    (s.decideEarly id).factoryId = s.factoryId ∧ (s.decideEarly id).hold = s.hold ∧
    (s.decideEarly id).station = s.station ∧ (s.decideEarly id).timer = s.timer ∧ (s.decideEarly id).chan = s.chan ∧
    (s.decideEarly id).views = s.views ∧ (s.decideEarly id).peers = s.peers ∧ (s.decideEarly id).surplus = s.surplus ∧
    (s.decideEarly id).pairing = s.pairing ∧ (s.decideEarly id).mute = s.mute ∧
    (s.decideEarly id).streams = s.streams ∧ (s.decideEarly id).store = s.store ∧
    (s.decideEarly id).config = s.config ∧ (s.decideEarly id).port = s.port ∧ (s.decideEarly id).codec = s.codec ∧
    (s.decideEarly id).pending = s.pending := by
  unfold State.decideEarly
  split <;> simp

end Sys2Proof.Machine
end

