-- ==== Sys2Proof/Laws/Ops.lean ====
section
/-! SUPPORT. What the shared operations answer: events, host commands, the answers of the port, the rows of a cycle end,
and flags. -/

namespace Sys2Proof.Machine

/-! ### Events and host commands -/

/-- A possible event answers its effect. -/
@[simp] theorem State.whenever_true (s t : State) : s.whenever true t = .next t := rfl

/-- An event that cannot occur leaves the state unchanged. -/
@[simp] theorem State.whenever_false (s t : State) : s.whenever false t = .next s := rfl

/-- What an event can answer. -/
theorem State.whenever_next {s t u : State} {b : Bool} (h : s.whenever b t = .next u) : u = if b then t else s := by
  simpa [State.whenever] using h.symm

/-- The port takes a command exactly when the device listens to the host. -/
theorem State.portReady_iff (s : State) : s.portReady = true ↔ s.listensToHost := by
  simp [State.portReady, State.running, State.listensToHost]

/-- A host command that is taken answers its body. -/
theorem State.hostCommand_taken {s : State} (h : s.listensToHost) (body : State → State) :
    s.hostCommand body = .next (body s.markTaken) := by
  simp [State.hostCommand, (State.portReady_iff s).2 h]

/-- A host command that is not taken has no effect. -/
theorem State.hostCommand_ignored {s : State} (h : ¬s.listensToHost) (body : State → State) :
    s.hostCommand body = .next s := by
  have : s.portReady = false := Bool.eq_false_iff.2 fun e => h ((State.portReady_iff s).1 e)
  simp [State.hostCommand, this]

/-- What a host command can answer. -/
theorem State.hostCommand_next {s u : State} {body : State → State} (h : s.hostCommand body = .next u) :
    u = s ∨ (s.listensToHost ∧ u = body s.markTaken) := by
  by_cases hl : s.listensToHost
  · right; rw [State.hostCommand_taken hl] at h; exact ⟨hl, by simpa using h.symm⟩
  · left; rw [State.hostCommand_ignored hl] at h; simpa using h.symm

/-- A command refused. -/
theorem State.refuse_markTaken (s : State) (r : Result) : s.markTaken.refuse r = s.took [r.code] := rfl

/-- A command answered OK with data. -/
theorem State.answer_markTaken (s : State) (r : Result) (d : List Byte) : s.markTaken.answer r d = s.took (r.code :: d) :=
  rfl

/-- A command answered OK after an update that leaves the port alone. -/
theorem State.ok_of_port {s t : State} (h : t.port = s.markTaken.port) : t.ok = { t with port := s.tookPort [0x00] } := by
  simp [State.ok, State.answer, State.tookPort, Result.code, h]

/-! ### Rows of a cycle end -/

/-- A row of the present cycle end that is due. -/
theorem State.earlyRow_due {s : State} {c : Cycle} {due : State → Cycle → Bool} {f : State → Cycle → State}
    (hc : s.timer.cycle = some c) (he : s.atCycleEnd = true) (hd : due s c = true) :
    s.earlyRow due f = .next (f (s.atInstant c.planned) c) := by
  simp [State.earlyRow, hc, he, hd]

/-- What a row of the present cycle end can answer. -/
theorem State.earlyRow_next {s u : State} {due : State → Cycle → Bool} {f : State → Cycle → State}
    (h : s.earlyRow due f = .next u) :
    u = s ∨ ∃ c, s.timer.cycle = some c ∧ s.atCycleEnd = true ∧ due s c = true ∧ u = f (s.atInstant c.planned) c := by
  unfold State.earlyRow at h
  split at h
  · left; simpa using h.symm
  · rename_i c hc
    have h := State.whenever_next h
    split at h
    · rename_i hb; simp only [Bool.and_eq_true] at hb; exact Or.inr ⟨c, hc, hb.1, hb.2, h⟩
    · exact Or.inl h

/-- A row of the instant of the cycle end that is due. -/
theorem State.boundaryRow_due {s : State} {c : Cycle} {due : State → Bool} {f : State → State}
    (hc : s.timer.cycle = some c) (he : s.atCycleEndOrSlot15 = true) (hd : due s = true) :
    s.boundaryRow due f = .next (f (s.atInstant c.planned)) := by
  simp [State.boundaryRow, hc, he, hd]

/-- What a row of the instant of the cycle end can answer. -/
theorem State.boundaryRow_next {s u : State} {due : State → Bool} {f : State → State} (h : s.boundaryRow due f = .next u) :
    u = s ∨ ∃ c, s.timer.cycle = some c ∧ due s = true ∧ u = f (s.atInstant c.planned) := by
  unfold State.boundaryRow at h
  split at h
  · left; simpa using h.symm
  · rename_i c hc
    have h := State.whenever_next h
    split at h
    · rename_i hb; simp only [Bool.and_eq_true] at hb; exact Or.inr ⟨c, hc, hb.2, h⟩
    · exact Or.inl h

/-- A slot number read back from the slot it names. -/
theorem slotOfNat {k : SlotIx} {n : Nat} (h : n = k.val) : Fin.ofNat 16 n = k := by
  subst h; ext; simp [Fin.ofNat]

/-- SLOT_START where it is due. -/
theorem execSlotStart_due {s : State} {c : Cycle} {k : SlotIx} (hh : s.hold = none) (hc : s.timer.cycle = some c)
    (hi : s.chan.inSlot = false) (hk : s.chan.nextSlot = k.val) : execSlotStart s = .next (s.startSlot c k) := by
  simp only [execSlotStart, hc, slotOfNat hk]
  simp [State.whenever, State.slotStartDue, State.running, hh, hi, hk]

/-- SLOT_END where it is due. -/
theorem execSlotEnd_due {s : State} {c : Cycle} {k : SlotIx} (hh : s.hold = none) (hc : s.timer.cycle = some c)
    (hi : s.chan.inSlot = true) (hk : s.chan.nextSlot = k.val) (order : ReceptionOrder) (air : List AirItem) :
    execSlotEnd order air s = .next (s.endSlot c k order air) := by
  simp only [execSlotEnd, hc, slotOfNat hk]
  simp [State.whenever, State.running, hh, hi]

/-- CYCLE_END where it is due. -/
theorem execCycleEnd_due {s : State} {c : Cycle} (hc : s.timer.cycle = some c) (he : s.atCycleEnd = true)
    (hf : s.codec.frameIx = 160) (order : DeadlineOrder) : execCycleEnd order s = .next (s.endCycle c order) := by
  simp [execCycleEnd, hc, he, hf]

/-! ### Flags -/

/-- Flags have different bits. -/
theorem Flag.bit_lt (f : Flag) : f.bit < 25 := by cases f <;> decide

/-- A flag's mark has its bit alone. -/
theorem Flag.mark_getLsbD (f : Flag) (i : Nat) : f.mark.getLsbD i = decide (i = f.bit) := by
  have h := f.bit_lt
  simp only [Flag.mark, BitVec.getLsbD_shiftLeft, BitVec.getLsbD_one]
  by_cases hi : i = f.bit
  · subst hi; simp [h]
  · by_cases hlt : i < f.bit
    · simp [hlt, hi]
    · simp [hi]; omega

/-- Different flags have different bits. -/
theorem Flag.bit_inj {f g : Flag} (h : f.bit = g.bit) : f = g := by
  cases f <;> cases g <;> first | rfl | (exact absurd h (by decide))

/-- Raising sets the flag. -/
@[simp] theorem State.raise_flagSet_self (s : State) (f : Flag) : (s.raise f).flagSet f = true := by
  simp [State.flagSet, Flag.mark_getLsbD]

/-- Raising a flag leaves the others as they were. -/
theorem State.raise_flagSet (s : State) (f g : Flag) : (s.raise f).flagSet g = (s.flagSet g || decide (f = g)) := by
  simp only [State.flagSet, State.raise_flags, BitVec.getLsbD_or, Flag.mark_getLsbD]
  congr 1
  by_cases h : f = g
  · simp [h]
  · have : g.bit ≠ f.bit := fun e => h (Flag.bit_inj e).symm
    simp [h, this]

/-- A raised flag stays raised. -/
theorem State.raise_keeps {s : State} {g : Flag} (h : s.flagSet g = true) (f : Flag) : (s.raise f).flagSet g = true := by
  simp [State.raise_flagSet, h]

/-- Raising under a condition. -/
@[simp] theorem State.raiseIf_flags (s : State) (b : Bool) (f : Flag) :
    (s.raiseIf b f).flags = if b then s.flags ||| f.mark else s.flags := by
  cases b <;> simp [State.raiseIf]

/-! ### What the shared operations write -/

/-- The station after a transition. -/
@[simp] theorem State.enter_station (s : State) (st : StationState) :
    (s.enter st).station = { s.station with state := st, leavingEnds := 0 } := rfl

/-- STATE_CHANGED. -/
@[simp] theorem State.enter_flags (s : State) (st : StationState) :
    (s.enter st).flags = s.flags ||| Flag.stateChanged.mark := rfl

/-- The close of an open window. -/
theorem State.closeWindow_open {s : State} (h : s.pairing.window.state = .opened) (c : CloseCause) :
    s.closeWindow c =
      { s with
          pairing :=
            { s.pairing with
                window := { state := .closed, kind := none, remaining := 0, lastCause := c }, offer := none, lapse := none }
          flags := s.flags ||| c.flag.mark } := by
  simp [State.closeWindow, State.windowOpen, h, State.raise]

/-- A closed window is left as it is. -/
theorem State.closeWindow_closed {s : State} (h : s.pairing.window.state = .closed) (c : CloseCause) :
    s.closeWindow c = s := by
  simp [State.closeWindow, State.windowOpen, h]

/-- The bearer's role after an end that flushes it. -/
@[simp] theorem State.bearerToNone_bearer (s : State) : s.bearerToNone.bearer = Bearer.gone := by
  simp [State.bearerToNone, State.farRecordAbsent]; rfl

/-- The far-end record after the role's end. -/
@[simp] theorem State.bearerToNone_streams (s : State) :
    s.bearerToNone.streams = { s.streams with farEnd := s.streams.farEnd.toAbsent } := by
  simp [State.bearerToNone, State.farRecordAbsent]

/-- FAREND_DOWN at the role's end. -/
@[simp] theorem State.bearerToNone_flags (s : State) :
    s.bearerToNone.flags = if s.streams.farEnd.state = .absent then s.flags else s.flags ||| Flag.farendDown.mark := by
  simp [State.bearerToNone, State.farRecordAbsent]

/-- A release leaves no slot where none was held. -/
theorem Claim.release_idle {c : Claim} (h : c.state = .waiting ∨ c.state = .holdoff) : c.release = Claim.gone := by
  rcases h with h | h <;> simp [Claim.release, h, Claim.inState, Claim.gone]

/-- A release of a held slot. -/
theorem Claim.release_held {c : Claim} (h : c.state = .tentative ∨ c.state = .confirmed) :
    c.release = { Claim.gone with state := .releasing, slot := c.slot } := by
  rcases h with h | h <;> simp [Claim.release, h, Claim.inState, Claim.gone]

/-- The place that a placement finds: nothing but the store and its flags change, and an operation starts or FULL is
raised. -/
theorem State.startWrite_erased {s : State} {i : Nat} (h : firstIn .erased s.store.copy = some i) (c : Credentials) (t : Nat) :
    s.startWrite c t =
      { s with store := { s.store with
          waiting := none, state := .busy
          flight := some { op := .program (writeValue s.store.copy c), place := i, start := t } } } := by
  simp [State.startWrite, h, State.startOp]

/-- The read of a place inside the list. -/
theorem placeAt_set (ps : List Place) (i j : Nat) (p : Place) (h : j < ps.length) :
    placeAt (ps.set i p) j = if i = j then p else placeAt ps j := by
  simp only [placeAt, List.getD_eq_getElem?_getD]
  by_cases hij : i = j
  · subst hij; simp [h]
  · simp [hij]

/-! ### IRQN -/

/-- Each of the 25 bits of the event word is a flag's. -/
theorem Flag.bit_surj (i : Nat) (hi : i < 25) : ∃ f : Flag, f.bit = i := by
  interval_cases i
  · exact ⟨.stateChanged, rfl⟩
  · exact ⟨.peerNew, rfl⟩
  · exact ⟨.peerLost, rfl⟩
  · exact ⟨.peerLeft, rfl⟩
  · exact ⟨.peerTableFull, rfl⟩
  · exact ⟨.numberClash, rfl⟩
  · exact ⟨.wearerSurplus, rfl⟩
  · exact ⟨.claimConfirmed, rfl⟩
  · exact ⟨.claimLost, rfl⟩
  · exact ⟨.groupFull, rfl⟩
  · exact ⟨.stepJump, rfl⟩
  · exact ⟨.paired, rfl⟩
  · exact ⟨.joined, rfl⟩
  · exact ⟨.pairingEnded, rfl⟩
  · exact ⟨.pairTimeout, rfl⟩
  · exact ⟨.pairingFull, rfl⟩
  · exact ⟨.bearerUp, rfl⟩
  · exact ⟨.bearerConflict, rfl⟩
  · exact ⟨.farendUp, rfl⟩
  · exact ⟨.farendDown, rfl⟩
  · exact ⟨.downlinkUnderrun, rfl⟩
  · exact ⟨.downlinkOverrun, rfl⟩
  · exact ⟨.uplinkOverrun, rfl⟩
  · exact ⟨.storeDone, rfl⟩
  · exact ⟨.storeFault, rfl⟩

/-- IRQN is asserted exactly while an unmasked flag is set, outside reset and READ_EVENTS (R178). -/
theorem State.irqAsserted_iff (s : State) (h : s.hold = none) (hr : s.port.readingEvents = false) :
    s.irqAsserted = true ↔ ∃ f : Flag, s.flagSet f = true ∧ s.config.mask.getLsbD f.bit = false := by
  unfold State.irqAsserted State.flagSet
  rw [h, hr]
  have hb : ∀ i, i < 25 → ∃ f : Flag, f.bit = i := fun i hi => by
    have := Flag.bit_surj i hi
    exact this
  have hlt : ∀ f : Flag, f.bit < 25 := fun f => by cases f <;> decide
  simp only [Option.isNone_none, Bool.not_false, Bool.true_and, bne_iff_ne, ne_eq]
  constructor
  · intro hx
    by_contra hc
    apply hx
    apply BitVec.eq_of_getLsbD_eq
    intro i hi
    obtain ⟨f, rfl⟩ := hb i hi
    simp only [not_exists, not_and] at hc
    have := hc f
    simp [hi]
    cases e : s.flags.getLsbD f.bit <;> simp_all
  · rintro ⟨f, hf, hm⟩ hx
    have := congrArg (fun v => v.getLsbD f.bit) hx
    simp only [BitVec.getLsbD_and, BitVec.getLsbD_not, hf, hm, hlt f] at this
    simp at this

end Sys2Proof.Machine
end

