-- ==== Sys2Proof/Laws/Bonds.lean ====
section
/-! SUPPORT. What the shared operations do to the bond store: each keeps it sound, and none touches a locked place. -/

namespace Sys2Proof.Machine

/-- A change that the bond store may make: the store stays sound, and a locked place keeps its value. -/
def Store.keeps (a b : Store) : Prop :=
  b.places.length = 16 ∧ b.places.all Place.ok = true ∧ b.copyOk = true ∧ b.flightOk = true ∧
    ∀ i, (placeAt a.places i).locked = true → placeAt b.places i = placeAt a.places i

/-- Soundness of the bond store as facts. -/
theorem State.bondsOk_iff (s : State) :
    s.bondsOk = true ↔
      s.store.places.length = 16 ∧ s.store.places.all Place.ok = true ∧ s.store.copyOk = true ∧
        s.store.flightOk = true := by
  simp [State.bondsOk, and_assoc]

/-- A sound store keeps itself. -/
theorem Store.keeps_refl {s : State} (h : s.bondsOk = true) : s.store.keeps s.store := by
  obtain ⟨h1, h2, h3, h4⟩ := s.bondsOk_iff.1 h
  exact ⟨h1, h2, h3, h4, fun _ _ => rfl⟩

/-- What keeps a store leaves it sound. -/
theorem State.bondsOk_of_keeps {s t : State} (h : s.store.keeps t.store) : t.bondsOk = true :=
  t.bondsOk_iff.2 ⟨h.1, h.2.1, h.2.2.1, h.2.2.2.1⟩

/-- A place set in a sound list. -/
theorem placesOk_set {ps : List Place} (h : ps.all Place.ok = true) {p : Place} (hp : p.ok = true) (i : Nat) :
    (ps.set i p).all Place.ok = true := by
  simp only [List.all_eq_true] at *
  intro q hq
  rcases List.mem_or_eq_of_mem_set hq with hq | rfl
  · exact h q hq
  · exact hp

/-- The place read after a place of the list was set. -/
theorem placeAt_set_eq (ps : List Place) (i : Nat) (p : Place) :
    placeAt (ps.set i p) i = if i < ps.length then p else Place.blank := by
  simp only [placeAt, List.getD_eq_getElem?_getD, List.getElem?_set_self']
  split <;> simp_all

/-- Other places read as before. -/
theorem placeAt_set_ne (ps : List Place) {i j : Nat} (h : i ≠ j) (p : Place) :
    placeAt (ps.set i p) j = placeAt ps j := by
  simp [placeAt, List.getD_eq_getElem?_getD, List.getElem?_set_ne h]

/-- A place beyond the list is blank, hence unlocked. -/
theorem locked_lt {ps : List Place} {i : Nat} (h : (placeAt ps i).locked = true) : i < ps.length := by
  by_contra hn
  simp [placeAt, List.getD_eq_getElem?_getD, List.getElem?_eq_none (Nat.le_of_not_lt hn), Place.blank] at h

/-- A write of an unlocked place, or one that only locks, leaves every locked place alone. -/
theorem locked_set {ps : List Place} {i : Nat} {p : Place}
    (h : (placeAt ps i).locked = false ∨ p = placeAt ps i) (j : Nat) (hj : (placeAt ps j).locked = true) :
    placeAt (ps.set i p) j = placeAt ps j := by
  by_cases e : i = j
  · subst e
    rcases h with h | h
    · rw [h] at hj; exact absurd hj (by simp)
    · rw [placeAt_set_eq, if_pos (locked_lt hj)]; exact h
  · exact placeAt_set_ne ps e p

/-- A sound place that is VALID and locked after a lock. -/
theorem Place.lock_ok {p : Place} (h : p.state = .valid) : ({ p with locked := true } : Place).ok = true := by
  simp [Place.ok, h]

/-- A sound place stays sound when it is retired unlocked. -/
theorem Place.retire_ok {p : Place} (h : p.locked = false) : ({ p with state := .retired } : Place).ok = true := by
  simp [Place.ok, h]

/-- The place copy agrees with the places unless an erase then program is in its second part. -/
theorem Store.copyOk_eq {st : Store} (h : st.copyOk = true)
    (hf : ∀ v i b, st.flight ≠ some { op := .eraseProgram v true, place := i, start := b }) : st.copy = st.places := by
  unfold Store.copyOk at h
  split at h
  · rename_i v i b he; exact absurd he (hf v i b)
  · simpa using h

/-- The copy in the second part of an erase then program. -/
theorem Store.copyOk_erased {st : Store} (h : st.copyOk = true) {v : BondValue} {i b : Nat}
    (hf : st.flight = some { op := .eraseProgram v true, place := i, start := b }) :
    st.copy.set i Place.blank = st.places := by
  simpa [Store.copyOk, hf] using h

/-- With no operation in flight, the copy is the places. -/
theorem Store.copyOk_free {st : Store} (hc : st.copy = st.places) (hf : st.flight = none) : st.copyOk = true := by
  simp [Store.copyOk, hf, hc]

/-- An operation may start on a place it may act on. -/
theorem State.startOp_keeps {s : State} (h : s.bondsOk = true) (hc : s.store.copy = s.store.places) {op : StoreOp} {i t : Nat}
    (hm : op.mayTarget (placeAt s.store.places i) = true) (hp : ∀ v, op ≠ .eraseProgram v true) :
    s.store.keeps (s.startOp op i t).store := by
  obtain ⟨h1, h2, h3, h4⟩ := s.bondsOk_iff.1 h
  refine ⟨h1, h2, ?_, ?_, fun _ _ => rfl⟩
  · unfold Store.copyOk
    split
    · rename_i v i' b' he
      simp at he
      exact absurd he.1 (hp v)
    · exact decide_eq_true hc
  · simp [Store.flightOk, hm]

/-- An idle store has nothing in flight, and its copy is the places. -/
theorem State.idle_flight {s : State} (h : s.bondsOk = true) (hi : s.store.state = .idle) :
    s.store.flight = none ∧ s.store.copy = s.store.places := by
  obtain ⟨_, _, h3, h4⟩ := s.bondsOk_iff.1 h
  have hf : s.store.flight = none := by
    unfold Store.flightOk at h4
    split at h4
    · assumption
    · simp [hi] at h4
  exact ⟨hf, Store.copyOk_eq h3 (by simp [hf])⟩

/-- The first place in a state is in that state. -/
theorem firstIn_state {st : PlaceState} {ps : List Place} {i : Nat} (h : firstIn st ps = some i) :
    (placeAt ps i).state = st := by
  obtain ⟨h1, h2, _⟩ := List.findIdx?_eq_some_iff_getElem.1 h
  simpa [placeAt, List.getD_eq_getElem?_getD, h1] using h2

/-- A sound place that is not VALID is unlocked. -/
theorem unlocked_of_state {ps : List Place} (h : ps.all Place.ok = true) {i : Nat} (hs : (placeAt ps i).state ≠ .valid) :
    (placeAt ps i).locked = false := by
  by_cases hl : (placeAt ps i).locked = true
  · have hi := locked_lt hl
    have hm : placeAt ps i ∈ ps := by
      simp [placeAt, List.getD_eq_getElem?_getD, hi]
    have := (List.all_eq_true.1 h) _ hm
    simp [Place.ok, hl, hs] at this
  · simpa using hl

/-- A bond write starts, or FULL is raised: the places keep their values. -/
theorem State.startWrite_keeps {s : State} (h : s.bondsOk = true) (hf : s.store.flight = none) (c : Credentials) (t : Nat) :
    s.store.keeps (s.startWrite c t).store := by
  obtain ⟨h1, h2, h3, h4⟩ := s.bondsOk_iff.1 h
  have hc := Store.copyOk_eq h3 (by simp [hf])
  have hb : ({ s with store := { s.store with waiting := none, state := .idle } } : State).bondsOk = true := by
    refine (State.bondsOk_iff _).2 ⟨h1, h2, ?_, ?_⟩
    · exact Store.copyOk_free hc hf
    · simp [Store.flightOk, hf]
  unfold State.startWrite
  dsimp only
  split
  · rename_i i hi
    refine State.startOp_keeps (s := { s with store := { s.store with waiting := none, state := .idle } }) hb hc ?_ (by simp)
    have := firstIn_state hi
    rw [hc] at this
    simpa [StoreOp.mayTarget] using unlocked_of_state h2 (by simp [this])
  · split
    · rename_i i hi
      refine State.startOp_keeps (s := { s with store := { s.store with waiting := none, state := .idle } }) hb hc ?_ (by simp)
      have := firstIn_state hi
      rw [hc] at this
      simpa [StoreOp.mayTarget] using unlocked_of_state h2 (by simp [this])
    · obtain ⟨g1, g2, g3, g4⟩ := (State.bondsOk_iff _).1 hb
      refine ⟨g1, g2, ?_, ?_, fun _ _ => rfl⟩
      · exact Store.copyOk_free hc hf
      · simp [State.storeFault, Store.flightOk, hf]

/-- A write request. -/
theorem State.requestWrite_keeps {s : State} (h : s.bondsOk = true) (c : Credentials) (t : Nat) :
    s.store.keeps (s.requestWrite c t).store := by
  unfold State.requestWrite
  split
  · rename_i hi; exact State.startWrite_keeps h (State.idle_flight h hi).1 c t
  · exact Store.keeps_refl h

/-- A host command of the store. -/
theorem State.storeCommand_keeps {s : State} (h : s.bondsOk = true) (t : Nat) (b : Byte) (r : Bool) (acc : Place → Bool)
    (op : StoreOp) (hm : ∀ p : Place, p.ok = true → acc p = true → (r = false ∨ p.locked = false) → op.mayTarget p = true)
    (hp : ∀ v, op ≠ .eraseProgram v true) : s.store.keeps (s.storeCommand t b r acc op).store := by
  unfold State.storeCommand
  dsimp only
  split
  · simpa using Store.keeps_refl h
  split
  · simpa using Store.keeps_refl h
  rename_i hfree
  split
  · simpa using Store.keeps_refl h
  rename_i hlock
  split
  · simpa using Store.keeps_refl h
  rename_i hacc
  have hi : s.store.state = .idle := by simp [Store.free] at hfree; exact hfree.1
  obtain ⟨hf, hc⟩ := State.idle_flight h hi
  obtain ⟨h1, h2, _, _⟩ := s.bondsOk_iff.1 h
  have hok : (placeAt s.store.places b.toNat).ok = true := by
    by_cases hl : (placeAt s.store.places b.toNat).locked = true
    · have hi := locked_lt hl
      exact (List.all_eq_true.1 h2) _ (by simp [placeAt, List.getD_eq_getElem?_getD, hi])
    · simp [Place.ok, hl]
  have hk := State.startOp_keeps (s := s.atInstant t) (op := op) (i := b.toNat) (t := max s.now t) h hc
    (by
      rw [hc] at hlock hacc
      exact hm _ hok (by simpa using hacc) (by simp at hlock; cases r <;> simp_all)) hp
  simpa using hk

/-- An end that sets a place and releases the store. -/
theorem State.setPlace_release_keeps {s : State} (h : s.bondsOk = true) {i : Nat} {p : Place} (hp : p.ok = true)
    (hc : s.store.copy.set i p = s.store.places.set i p)
    (hl : (placeAt s.store.places i).locked = false ∨ ∀ j, (placeAt s.store.places j).locked = true →
      placeAt (s.store.places.set i p) j = placeAt s.store.places j) :
    s.store.keeps ((s.setPlace i p).storeRelease).store := by
  obtain ⟨h1, h2, _, _⟩ := s.bondsOk_iff.1 h
  refine ⟨?_, ?_, ?_, ?_, ?_⟩
  · simp [State.storeRelease, h1]
  · simpa [State.storeRelease] using placesOk_set h2 hp i
  · exact Store.copyOk_free (by simpa [State.storeRelease] using hc) (by simp [State.storeRelease])
  · simp [State.storeRelease, Store.flightOk]
  · intro j hj
    simp only [State.storeRelease, State.raise_store, State.setPlace_store]
    rcases hl with hl | hl
    · exact locked_set (Or.inl hl) j hj
    · exact hl j hj

/-- The scan goes on, or ends. -/
theorem State.scanNext_keeps {s : State} (h1 : s.store.places.length = 16) (h2 : s.store.places.all Place.ok = true)
    (hc : s.store.copy = s.store.places) (t : Nat) : s.store.keeps (s.scanNext t).store := by
  unfold State.scanNext
  split
  · rename_i i hi
    have hs := firstIn_state hi
    rw [hc] at hs
    refine ⟨h1, h2, ?_, ?_, fun _ _ => rfl⟩
    · simpa [Store.copyOk] using hc
    · simpa [Store.flightOk, StoreOp.mayTarget] using unlocked_of_state h2 (by simp [hs])
  · refine ⟨h1, h2, ?_, ?_, fun _ _ => rfl⟩
    · exact Store.copyOk_free hc rfl
    · simp [State.storeRelease, Store.flightOk]

/-- What a reset leaves of the target of an operation is a sound place, and a locked place is left as it is. -/
theorem cutPlace_sound {op : StoreOp} {p : Place} (hm : op.mayTarget p = true) (cut : CutChoice) :
    (cutPlace cut op p).ok = true ∧ (p.locked = false ∨ cutPlace cut op p = p) := by
  cases op <;> simp [StoreOp.mayTarget] at hm <;> simp only [cutPlace, cutProgram, Place.blank] <;>
    (repeat' split) <;> simp_all [Place.ok]
  rcases p with ⟨st, l, v⟩
  cases l <;> simp_all

/-- The places after a reset. -/
theorem State.afterReset_keeps {s : State} (h : s.bondsOk = true) (cut : CutChoice) :
    s.store.keeps (s.store.afterReset cut) := by
  obtain ⟨h1, h2, h3, h4⟩ := s.bondsOk_iff.1 h
  unfold Store.afterReset placesAfterCut
  split
  · exact ⟨h1, h2, by simp [Store.copyOk], by simp [Store.flightOk], fun _ _ => rfl⟩
  · rename_i f hf
    have hm : f.op.mayTarget (placeAt s.store.places f.place) = true := by
      simp [Store.flightOk, hf] at h4; exact h4.2
    obtain ⟨g1, g2⟩ := cutPlace_sound hm cut
    exact ⟨by simp [h1], placesOk_set h2 g1 _, by simp [Store.copyOk], by simp [Store.flightOk],
      fun j hj => locked_set g2 j hj⟩

/-! ### What a reset leaves of the places (R168, Table 10-5) -/

/-- The fields that a cut leaves are their values or 0. -/
theorem partOf_cutValue (c : CutChoice) (v : BondValue) : partOf (cutValue c v) v := by
  unfold partOf cutValue
  refine ⟨?_, ?_, ?_, ?_⟩ <;> dsimp only <;> split <;> simp

/-- The target of an operation cut short is as Table 10-5 gives. -/
theorem cutPlace_mayLeave (c : CutChoice) (op : StoreOp) (p : Place) : op.mayLeave p (cutPlace c op p) := by
  have h : ∀ v, let new : Place := { state := .opened, locked := false, value := cutValue c v }
      new.state = .opened ∧ new.locked = false ∧ partOf new.value v := fun v => ⟨rfl, rfl, partOf_cutValue c v⟩
  have hp : ∀ v, cutProgram c v = Place.blank ∨
      ((cutProgram c v).state = .opened ∧ (cutProgram c v).locked = false ∧ partOf (cutProgram c v).value v) :=
    fun v => by
    unfold cutProgram
    split
    · exact Or.inr (h v)
    · exact Or.inl rfl
  cases op with
  | program v => exact hp v
  | retire => unfold cutPlace StoreOp.mayLeave; dsimp only; split <;> simp
  | lock => unfold cutPlace StoreOp.mayLeave; dsimp only; split <;> simp
  | erase => exact h p.value
  | eraseProgram v b =>
    cases b with
    | true => exact hp v
    | false => exact h p.value
  | scanRetire => unfold cutPlace StoreOp.mayLeave; dsimp only; split <;> simp

/-- The places that a reset leaves (R168). -/
theorem placesAfterCut_mayLeave (c : CutChoice) (st : Store) : st.mayLeave (placesAfterCut c st) := by
  unfold Store.mayLeave placesAfterCut
  cases hf : st.flight with
  | none => simp
  | some f =>
    refine ⟨by simp, by simp, fun g hg => ?_⟩
    cases hg
    refine ⟨fun j hj => ?_, fun hl => ?_⟩
    · unfold placeAt
      simp [List.getD, List.getElem?_set_ne (Ne.symm hj)]
    · have : placeAt (st.places.set f.place (cutPlace c f.op (placeAt st.places f.place))) f.place =
          cutPlace c f.op (placeAt st.places f.place) := by
        unfold placeAt
        simp [List.getD, hl]
      rw [this]
      exact cutPlace_mayLeave c f.op _

/-- Every choice of fields is a cut's. -/
theorem cutValue_reaches {w v : BondValue} (h : partOf w v) :
    ∀ took, ∃ c : CutChoice, c.took = took ∧ cutValue c v = w := by
  intro took
  obtain ⟨h1, h2, h3, h4⟩ := h
  refine ⟨{ took := took, group := decide (w.group = v.group), station := decide (w.station = v.station),
            wearer := decide (w.wearer = v.wearer), seq := decide (w.seq = v.seq) }, rfl, ?_⟩
  cases w; cases v
  simp only [cutValue, decide_eq_true_eq] at *
  congr
  all_goals (split <;> simp_all)

/-- Every outcome that Table 10-5 leaves to the world is a cut's. -/
theorem cutPlace_reaches {op : StoreOp} {p new : Place} (h : op.mayLeave p new) : ∃ c, cutPlace c op p = new := by
  have ho : ∀ v, new.state = .opened ∧ new.locked = false ∧ partOf new.value v →
      ∃ c : CutChoice, c.took = true ∧ ({ state := .opened, locked := false, value := cutValue c v } : Place) = new := by
    rintro v ⟨h1, h2, h3⟩
    obtain ⟨c, hc, hv⟩ := cutValue_reaches h3 true
    refine ⟨c, hc, ?_⟩
    cases new
    simp_all
  have hp : ∀ v, (new = Place.blank ∨ new.state = .opened ∧ new.locked = false ∧ partOf new.value v) →
      ∃ c, cutProgram c v = new := by
    rintro v (h | h)
    · exact ⟨{ took := false, group := false, station := false, wearer := false, seq := false }, by rw [h]; rfl⟩
    · obtain ⟨c, hc, hv⟩ := ho v h
      exact ⟨c, by unfold cutProgram; rw [hc]; exact hv⟩
  have hm : ∀ (q : Place) (g : CutChoice → Place), (∀ c, g c = if c.took then q else p) → (new = p ∨ new = q) →
      ∃ c, g c = new := by
    rintro q g hg (h | h)
    · exact ⟨{ took := false, group := false, station := false, wearer := false, seq := false }, by rw [hg, h]; rfl⟩
    · exact ⟨{ took := true, group := false, station := false, wearer := false, seq := false }, by rw [hg, h]; rfl⟩
  cases op with
  | program v => exact hp v h
  | retire => exact hm _ _ (fun _ => rfl) h
  | lock => exact hm _ _ (fun _ => rfl) h
  | scanRetire => exact hm _ _ (fun _ => rfl) h
  | erase => obtain ⟨c, -, e⟩ := ho _ h; exact ⟨c, e⟩
  | eraseProgram v b =>
    cases b with
    | true => exact hp v h
    | false => obtain ⟨c, -, e⟩ := ho _ h; exact ⟨c, e⟩

end Sys2Proof.Machine
end

