-- ==== Sys2Proof/Laws/Claims.lean ====
section
/-! SUPPORT. What the shared operations do to the two claims and the bearer's role: each keeps the records of R62 and
Table 9-1 in their form. -/

namespace Sys2Proof.Machine

/-- Soundness of the claims reads the two claims and the bearer's state alone. -/
theorem State.claimsOk_of {s t : State} (h : s.claimsOk = true) (hv : t.voice = s.voice) (hf : t.farEnd = s.farEnd)
    (hb : t.bearer.state = s.bearer.state) : t.claimsOk = true := by
  simpa [State.claimsOk, hv, hf, hb] using h

/-- Soundness of the claims as facts. -/
theorem State.claimsOk_iff (s : State) :
    s.claimsOk = true ↔
      s.voice.ok = true ∧ s.farEnd.ok = true ∧ (s.voice.slot = none ∨ s.voice.slot ≠ s.farEnd.slot) ∧
        roleMatches s.bearer.state s.farEnd.state = true := by
  simp [State.claimsOk, and_assoc]

/-- A claim without a slot is sound in the three states that hold none. -/
theorem Claim.ok_inState {st : ClaimState} (h : st = .none ∨ st = .waiting ∨ st = .holdoff) :
    (Claim.inState st).ok = true := by
  rcases h with rfl | rfl | rfl <;> rfl

/-- A claim changed in its counts and marks alone. -/
theorem Claim.ok_marks {c : Claim} (h : c.ok = true) (a b : Bool) : ({ c with clean := a, conflict := b } : Claim).ok = true := by
  simpa [Claim.ok] using h

/-- Reading a heard map changes the marks alone. -/
theorem Claim.readMap_keeps (c : Claim) (own : StationNo) (m : List StationNo) :
    (c.readMap own m).state = c.state ∧ (c.readMap own m).slot = c.slot ∧ (c.readMap own m).cycles = c.cycles ∧
      (c.readMap own m).run = c.run := by
  unfold Claim.readMap Claim.report
  (repeat' split) <;> simp

/-- Soundness of a claim reads no marks. -/
theorem Claim.ok_congr {c d : Claim} (h1 : d.state = c.state) (h2 : d.slot = c.slot) (h3 : d.cycles = c.cycles)
    (h4 : d.run = c.run) : d.ok = c.ok := by
  simp [Claim.ok, h1, h2, h3, h4]

/-- A heard map read by both claims. -/
theorem State.readMap_claimsOk {s : State} (h : s.claimsOk = true) (m : List StationNo) :
    (s.readMap m).claimsOk = true := by
  obtain ⟨v1, v2, v3, v4⟩ := Claim.readMap_keeps s.voice s.station.creds.number m
  obtain ⟨f1, f2, f3, f4⟩ := Claim.readMap_keeps s.farEnd s.station.creds.number m
  rw [State.claimsOk_iff] at *
  simpa [Claim.ok_congr v1 v2 v3 v4, Claim.ok_congr f1 f2 f3 f4, v2, f1, f2] using h

/-- A release leaves a sound claim. -/
theorem Claim.release_ok {c : Claim} (h : c.ok = true) : c.release.ok = true := by
  unfold Claim.release
  split <;> simp_all [Claim.ok, Claim.inState] <;> (split at h <;> simp_all)

/-- A release holds the slot that was held, or none. -/
theorem Claim.release_slot (c : Claim) : c.release.slot = c.slot ∨ c.release.slot = none := by
  unfold Claim.release
  split <;> simp [Claim.inState]

/-- What a step jump leaves of a claim is sound and holds no slot, unless it was in NONE. -/
theorem Claim.jump_ok {c : Claim} (h : c.ok = true) : c.jump.ok = true ∧ c.jump.slot = none := by
  unfold Claim.jump
  split <;> simp_all [Claim.ok, Claim.inState]
  split at h <;> simp_all

/-- The end of a LEAVE leaves a sound claim. -/
theorem Claim.left_ok {c : Claim} (h : c.ok = true) (k : SlotIx) :
    (c.left k).ok = true ∧ ((c.left k).slot = c.slot ∨ (c.left k).slot = none) := by
  unfold Claim.left
  split
  · exact ⟨Claim.ok_inState (by simp), Or.inr rfl⟩
  · exact ⟨h, Or.inl rfl⟩

/-- A slot found FREE is a voice slot that the other claim does not hold. -/
theorem freeSlot_spec {v1 v2 : List Entry} {other : Option SlotIx} {k : SlotIx} (h : freeSlot v1 v2 other = some k) :
    k.val ≤ 13 ∧ other ≠ some k := by
  have := List.find?_some h
  simp only [Bool.and_eq_true, decide_eq_true_eq] at this
  exact ⟨this.1.1.1, this.2⟩

/-- A decision leaves a sound claim, in a slot of its own, when the hold length is at most 255. -/
theorem Claim.decideOn_ok {c : Claim} (h : c.ok = true) {f : ClaimFacts} (hf : f.hold ≤ 255) {other : Option SlotIx}
    (ho : c.slot = none ∨ c.slot ≠ other) :
    (c.decideOn f other).1.ok = true ∧
      ((c.decideOn f other).1.slot = none ∨ (c.decideOn f other).1.slot ≠ other) := by
  have wait : (c.decideWaiting f other).1.ok = true ∧ ((c.decideWaiting f other).1.slot = none ∨
      (c.decideWaiting f other).1.slot ≠ other) ∨ c.state ≠ .waiting := by
    by_cases hs : c.state = .waiting
    · left
      unfold Claim.decideWaiting
      split
      · rename_i k hk
        obtain ⟨h1, h2⟩ := freeSlot_spec hk
        exact ⟨by simp [Claim.ok, Claim.inState, h1], Or.inr fun e => h2 e.symm⟩
      · split
        · refine ⟨?_, ho⟩
          simp only [Claim.ok, hs] at h ⊢
          cases hc : c.slot <;> simp_all
        · exact ⟨h, ho⟩
    · exact Or.inr hs
  unfold Claim.decideOn
  split
  · exact ⟨h, ho⟩
  · rename_i hs; exact wait.resolve_right (by simp [hs])
  · rename_i hs
    unfold Claim.decideHoldoff
    split
    · exact ⟨Claim.ok_inState (by simp), Or.inl rfl⟩
    · refine ⟨?_, ho⟩
      simp only [Claim.ok, hs] at h ⊢
      cases hc : c.slot <;> simp_all
      omega
  · rename_i hs
    have hc : c.confirm.ok = true ∧ (c.confirm.slot = none ∨ c.confirm.slot ≠ other) := by
      refine ⟨?_, ho⟩
      simp only [Claim.ok, hs] at h
      cases hc : c.slot <;> simp_all [Claim.ok, Claim.confirm, Claim.inState]
    have hh : (Claim.inState .holdoff).ok = true ∧ ((Claim.inState .holdoff).slot = none ∨
        (Claim.inState .holdoff).slot ≠ other) := ⟨Claim.ok_inState (by simp), Or.inl rfl⟩
    unfold Claim.decideTentative
    split
    · exact hh
    split
    · exact hc
    split
    · exact hc
    split
    · exact hh
    · refine ⟨?_, ho⟩
      simp only [Claim.ok, hs] at h ⊢
      cases hc : c.slot <;> simp_all
      omega
  · rename_i hs
    unfold Claim.decideConfirmed
    split
    · split
      · exact ⟨Claim.ok_inState (by simp), Or.inl rfl⟩
      · refine ⟨?_, ho⟩
        simp only [Claim.ok, hs] at h ⊢
        cases hc : c.slot <;> simp_all
    · refine ⟨?_, ho⟩
      simp only [Claim.ok, hs] at h ⊢
      cases hc : c.slot <;> simp_all
  · rename_i hs
    refine ⟨?_, ho⟩
    simp only [Claim.ok, hs] at h ⊢
    cases hc : c.slot <;> simp_all

/-- The states that a decision can reach from each state. -/
theorem Claim.decideOn_state (c : Claim) (f : ClaimFacts) (other : Option SlotIx) :
    match c.state with
    | .none => (c.decideOn f other).1.state = .none
    | .waiting => (c.decideOn f other).1.state = .waiting ∨ (c.decideOn f other).1.state = .tentative
    | .holdoff => (c.decideOn f other).1.state = .holdoff ∨ (c.decideOn f other).1.state = .waiting
    | .tentative =>
      (c.decideOn f other).1.state = .tentative ∨ (c.decideOn f other).1.state = .confirmed ∨
        (c.decideOn f other).1.state = .holdoff
    | .confirmed => (c.decideOn f other).1.state = .confirmed ∨ (c.decideOn f other).1.state = .holdoff
    | .releasing => (c.decideOn f other).1.state = .releasing := by
  unfold Claim.decideOn
  cases hs : c.state <;>
    simp only [hs, Claim.decideWaiting, Claim.decideHoldoff, Claim.decideTentative, Claim.decideConfirmed] <;>
    (repeat' split) <;> simp [Claim.inState, Claim.confirm, hs]

/-- The hold length is small. -/
theorem holdLength_le (n : StationNo) : holdLength n ≤ 4 := by
  unfold holdLength; omega

/-- The voice claim decided. -/
theorem State.decideVoice_claimsOk {s : State} (h : s.claimsOk = true) {f : ClaimFacts} (hf : f.hold ≤ 255) :
    (s.decideVoice f).claimsOk = true := by
  rw [State.claimsOk_iff] at h
  obtain ⟨h1, h2, h3, h4⟩ := h
  obtain ⟨d1, d2⟩ := Claim.decideOn_ok h1 hf h3
  rw [State.claimsOk_iff]
  have hv : (s.decideVoice f).voice = (s.voice.decideOn f s.farEnd.slot).1.clearMarks := by simp [State.decideVoice]
  rw [hv]
  simpa [h2, h4] using ⟨Claim.ok_marks d1 false false, d2⟩

/-- The far-end claim decided, and the bearer record that follows it. -/
theorem State.decideFar_claimsOk {s : State} (h : s.claimsOk = true) {f : ClaimFacts} (hf : f.hold ≤ 255) :
    (s.decideFar f).claimsOk = true := by
  rw [State.claimsOk_iff] at h
  obtain ⟨h1, h2, h3, h4⟩ := h
  have h3' : s.farEnd.slot = none ∨ s.farEnd.slot ≠ s.voice.slot := by
    rcases h3 with h3 | h3
    · rw [h3]; cases s.farEnd.slot <;> simp
    · exact Or.inr fun e => h3 e.symm
  obtain ⟨d1, d2⟩ := Claim.decideOn_ok h2 hf h3'
  have d3 := Claim.decideOn_state s.farEnd f s.voice.slot
  rw [State.claimsOk_iff]
  have hv : (s.decideFar f).farEnd = (s.farEnd.decideOn f s.voice.slot).1.clearMarks := by simp [State.decideFar]
  have hb : (s.decideFar f).bearer.state =
      if s.bearer.state = .claiming ∧ s.farEnd.state = .tentative ∧ (s.farEnd.decideOn f s.voice.slot).1.state = .confirmed
      then .bearing
      else if s.bearer.state = .bearing ∧ s.farEnd.state = .confirmed ∧
          (s.farEnd.decideOn f s.voice.slot).1.state = .holdoff then .claiming
      else s.bearer.state := by
    simp only [State.decideFar, State.bearerFollows, State.raiseAll_frame]
    split
    · simp
    · split <;> simp
  rw [hv, hb]
  refine ⟨?_, Claim.ok_marks d1 false false, ?_, ?_⟩
  · simpa using h1
  · have : (s.decideFar f).voice = s.voice := by simp
    rw [this]
    rcases d2 with d2 | d2
    · cases hs : s.voice.slot
      · exact Or.inl rfl
      · refine Or.inr ?_; rw [hs] at d2; simp [Claim.clearMarks, d2]
    · exact Or.inr fun e => d2 e.symm
  · show roleMatches _ (s.farEnd.decideOn f s.voice.slot).1.state = true
    generalize (s.farEnd.decideOn f s.voice.slot).1.state = d at *
    cases hs : s.farEnd.state <;> cases hb : s.bearer.state <;> simp [roleMatches, hs, hb] at h4 <;> simp [hs] at d3 <;>
      rcases d3 with d3 | d3 <;> (try rcases d3 with d3 | d3) <;> simp_all [roleMatches]

/-- The claims after the decisions of a cycle end. -/
theorem State.decideClaims_claimsOk {s : State} (h : s.claimsOk = true) {f : ClaimFacts} (hf : f.hold ≤ 255) :
    (s.decideClaims f).claimsOk = true := by
  have hv : (if s.early.voiceDecided then s else s.decideVoice f).claimsOk = true := by
    split
    · exact h
    · exact State.decideVoice_claimsOk h hf
  unfold State.decideClaims
  generalize (if s.early.voiceDecided then s else s.decideVoice f) = t at *
  dsimp only
  split
  · exact hv
  · exact State.decideFar_claimsOk hv hf

/-- A role in NONE with no far-end claim. -/
theorem State.claimsOk_roleGone {s : State} (hv : s.voice.ok = true) (hf : s.farEnd = Claim.inState .none)
    (hb : s.bearer.state = .none) : s.claimsOk = true := by
  rw [State.claimsOk_iff]
  refine ⟨hv, by rw [hf]; rfl, ?_, by rw [hf, hb]; rfl⟩
  cases hs : s.voice.slot
  · exact Or.inl rfl
  · exact Or.inr (by simp [hf, Claim.inState])

/-- The role ends at the host's word. -/
theorem State.endRole_claimsOk {s : State} (h : s.claimsOk = true) : s.endRole.claimsOk = true := by
  obtain ⟨h1, h2, h3, h4⟩ := s.claimsOk_iff.1 h
  unfold State.endRole
  split
  · split
    · rename_i hs
      refine (State.claimsOk_iff _).2 ⟨h1, Claim.release_ok h2, ?_, ?_⟩
      · rcases h3 with h3 | h3
        · exact Or.inl h3
        · rcases s.farEnd.release_slot with e | e
          · exact Or.inr (by simpa [e] using h3)
          · cases hv : s.voice.slot
            · exact Or.inl rfl
            · exact Or.inr (by simp [e])
      · cases hf : s.farEnd.state <;> simp [Claim.sending, hf] at hs <;> simp [Claim.release, hf, roleMatches, Claim.inState]
    · rename_i hc hs
      refine State.claimsOk_roleGone (by simpa using h1) ?_ (by simp [Bearer.gone])
      cases hf : s.farEnd.state <;> simp [Claim.sending, hf] at hs <;> cases hb : s.bearer.state <;>
        simp [BearerState.claims, hb] at hc <;> simp [roleMatches, hf, hb] at h4 <;> simp [Claim.release, hf]
  · exact h

/-- The yield of the election. -/
theorem State.electionYield_claimsOk {s : State} (h : s.claimsOk = true) : s.electionYield.claimsOk = true := by
  have := (s.claimsOk_iff.1 h).1
  exact State.claimsOk_roleGone (by simpa using this) (by simp [State.electionYield]) (by simp [State.electionYield, Bearer.gone])

/-- The yield of a number clash. -/
theorem State.clashYield_claimsOk (s : State) : s.clashYield.claimsOk = true := by
  refine State.claimsOk_roleGone ?_ (by simp [State.clashYield]) ?_
  · simp [State.clashYield]; rfl
  · simp [State.clashYield, Bearer.gone]

/-- STOP in MEMBER. -/
theorem State.stopMember_claimsOk {s : State} (h : s.claimsOk = true) : s.stopMember.claimsOk = true := by
  have h1 : ((s.closeWindow .closed).endRole).claimsOk = true :=
    State.endRole_claimsOk (State.claimsOk_of h (by simp) (by simp) (by simp))
  unfold State.stopMember
  generalize (s.closeWindow .closed).endRole = t at *
  obtain ⟨g1, g2, g3, g4⟩ := t.claimsOk_iff.1 h1
  refine (State.claimsOk_iff _).2 ⟨Claim.release_ok g1, g2, ?_, g4⟩
  show t.voice.release.slot = none ∨ t.voice.release.slot ≠ t.farEnd.slot
  rcases t.voice.release_slot with e | e
  · rw [e]; exact g3
  · exact Or.inl e

/-- The voice claim set to WAITING at the entry to MEMBER. -/
theorem State.enterMember_claimsOk {s : State} (h : s.claimsOk = true) : s.enterMember.claimsOk = true := by
  obtain ⟨_, g2, _, g4⟩ := s.claimsOk_iff.1 h
  exact (State.claimsOk_iff _).2 ⟨rfl, g2, Or.inl rfl, g4⟩

/-- An ENDING role settled: the far-end claim may have gone to NONE. -/
theorem State.settleRole_claimsOk {s : State} (hv : s.voice.ok = true) (hf : s.farEnd.ok = true)
    (hd : s.voice.slot = none ∨ s.voice.slot ≠ s.farEnd.slot)
    (hr : roleMatches s.bearer.state s.farEnd.state = true ∨ (s.bearer.state = .ending ∧ s.farEnd.state = .none)) :
    s.settleRole.claimsOk = true := by
  unfold State.settleRole
  split
  · rename_i hc
    refine (State.claimsOk_iff _).2 ⟨by simpa using hv, by simpa using hf, by simpa using hd, ?_⟩
    simp [hc.2, Bearer.gone, roleMatches]
  · rename_i hc
    exact s.claimsOk_iff.2 ⟨hv, hf, hd, hr.resolve_right hc⟩

/-- A role that is sound already is settled already or stays sound. -/
theorem State.settleRole_claimsOk_of {s : State} (h : s.claimsOk = true) : s.settleRole.claimsOk = true := by
  obtain ⟨h1, h2, h3, h4⟩ := s.claimsOk_iff.1 h
  exact State.settleRole_claimsOk h1 h2 h3 (Or.inl h4)

/-- The claims after a step jump, the role settled. -/
theorem State.jump_settle_claimsOk {s t : State} (h : s.claimsOk = true) (hv : t.voice = s.voice.jump)
    (hf : t.farEnd = s.farEnd.jump)
    (hb : t.bearer.state = if s.bearer.state = .bearing then .claiming else s.bearer.state) :
    t.settleRole.claimsOk = true := by
  obtain ⟨h1, h2, _, h4⟩ := s.claimsOk_iff.1 h
  obtain ⟨v1, v2⟩ := Claim.jump_ok h1
  obtain ⟨f1, _⟩ := Claim.jump_ok h2
  refine State.settleRole_claimsOk (by rw [hv]; exact v1) (by rw [hf]; exact f1) (Or.inl (by rw [hv]; exact v2)) ?_
  rw [hf, hb]
  cases hs : s.farEnd.state <;> cases hb : s.bearer.state <;> simp [roleMatches, hs, hb] at h4 <;>
    simp [Claim.jump, hs, Claim.inState, roleMatches]

/-- The end of a slot of the station's own. -/
theorem State.ownSlotEnd_claimsOk {s : State} (h : s.claimsOk = true) (k : SlotIx) (tr : Nat) :
    (s.ownSlotEnd k tr).claimsOk = true := by
  obtain ⟨h1, h2, h3, h4⟩ := s.claimsOk_iff.1 h
  obtain ⟨v1, v2⟩ := Claim.left_ok h1 k
  obtain ⟨f1, f2⟩ := Claim.left_ok h2 k
  unfold State.ownSlotEnd
  generalize hu : State.settleRole _ = u
  have ht : u.claimsOk = true := by
    subst hu
    refine State.settleRole_claimsOk v1 f1 ?_ ?_
    · show (s.voice.left k).slot = none ∨ (s.voice.left k).slot ≠ (s.farEnd.left k).slot
      rcases v2 with e | e
      · rcases f2 with g | g
        · rw [e, g]; exact h3
        · rw [e, g]; cases s.voice.slot <;> simp
      · exact Or.inl e
    · show roleMatches s.bearer.state (s.farEnd.left k).state = true ∨
        (s.bearer.state = .ending ∧ (s.farEnd.left k).state = .none)
      unfold Claim.left
      split
      · rename_i hl
        have : s.farEnd.state = .releasing := by simp [Claim.leaves] at hl; exact hl.1.1
        cases hb : s.bearer.state <;> simp [roleMatches, this, hb] at h4
        exact Or.inr ⟨rfl, rfl⟩
      · exact Or.inl h4
  have hj : ∀ a : Accepted, (u.joinDone a tr).claimsOk = true := by
    intro a
    obtain ⟨_, g2, _, g4⟩ := u.claimsOk_iff.1 ht
    refine (State.claimsOk_iff _).2 ⟨?_, ?_, ?_, ?_⟩
    · simp [State.joinDone, State.enterMember]; rfl
    · simpa [State.joinDone] using g2
    · left; simp [State.joinDone, State.enterMember, Claim.inState]
    · simpa [State.joinDone] using g4
  dsimp only
  (repeat' split) <;> first | exact ht | exact hj _

/-- A reception as a station in the group takes it. -/
theorem State.heardAsMember_claimsOk {s : State} (h : s.claimsOk = true) (l : Bool) (b : Burst) (d : Int) :
    (s.heardAsMember l b d).claimsOk = true := by
  have hr := State.readMap_claimsOk h b.heardMap
  unfold State.heardAsMember
  generalize s.readMap b.heardMap = t at *
  dsimp only
  split
  · unfold State.clash State.nowOrLate
    split
    · split
      · exact hr
      · exact State.clashYield_claimsOk _
    · exact hr
  · have hp : (t.peerView b d).claimsOk = true := State.claimsOk_of hr (by simp) (by simp) (by simp)
    have he : ((t.peerView b d).election l b).claimsOk = true := by
      unfold State.election State.nowOrLate
      split
      · split
        · exact hp
        · exact State.electionYield_claimsOk hp
      · exact hp
    exact State.claimsOk_of he (by simp [State.heardPeer]) (by simp [State.heardPeer]) (by simp [State.heardPeer])

/-- The hand-off of a slot. -/
theorem State.handOff_claimsOk {s : State} (h : s.claimsOk = true) (c : Cycle) (k : SlotIx) (tr : Nat) (l : Bool) (e : Entry)
    (hd : Held) : (s.handOff c k tr l e hd).claimsOk = true := by
  unfold State.handOff
  split
  · exact h
  · exact h
  · exact h
  · split
    · unfold State.heardOwn
      dsimp only
      split
      · unfold State.heardInListen
        split
        · refine State.heardAsMember_claimsOk (State.enterMember_claimsOk (State.claimsOk_of h ?_ ?_ ?_)) _ _ _ <;> simp
        · exact h
      · exact State.heardAsMember_claimsOk (State.claimsOk_of h (by simp) (by simp) (by simp)) _ _ _
      · exact State.heardAsMember_claimsOk (State.claimsOk_of h (by simp) (by simp) (by simp)) _ _ _
      all_goals exact h
    all_goals exact State.claimsOk_of h (by simp) (by simp) (by simp)

/-- The work of a slot end. -/
theorem State.endSlot_claimsOk {s : State} (h : s.claimsOk = true) (c : Cycle) (k : SlotIx) (o : ReceptionOrder)
    (air : List AirItem) : (s.endSlot c k o air).claimsOk = true := by
  unfold State.endSlot
  dsimp only
  generalize hg : s.closeSlot _ _ _ _ = t
  have ht : t.claimsOk = true := by subst hg; exact State.claimsOk_of h (by simp) (by simp) (by simp)
  have key : ∀ (u : State) (q : Offer → Bool), u.claimsOk = true → (u.settleAt14 k q).claimsOk = true := fun u q hu =>
    State.claimsOk_of hu (by simp) (by simp) (by simp)
  split
  · exact key _ _ (State.ownSlotEnd_claimsOk ht k _)
  · exact key _ _ (State.handOff_claimsOk ht c k _ _ _ _)

/-- The effects that come late. -/
theorem State.lateEffects_claimsOk {s : State} (h : s.claimsOk = true) (es : List LateEffect) :
    (s.lateEffects es).claimsOk = true := by
  unfold State.lateEffects
  induction es generalizing s with
  | nil => exact h
  | cons e es ih =>
    refine ih ?_
    unfold State.lateEffect
    split
    · split
      · exact State.clashYield_claimsOk s
      · exact h
    · split
      · exact State.electionYield_claimsOk h
      · exact h
    · exact State.claimsOk_of h (by simp) (by simp) (by simp)

/-- The frame deadline leaves the claims and the bearer's state alone. -/
theorem State.deadline_claims (s : State) :
    s.deadline.voice = s.voice ∧ s.deadline.farEnd = s.farEnd ∧ s.deadline.bearer.state = s.bearer.state := by
  have hm : ∀ t : State, t.takeDownlink.bearer.state = t.bearer.state := by
    intro t
    unfold State.takeDownlink
    split
    · unfold State.makeTake
      split
      · simp [Bearer.afterFrame]
      · rfl
    · rfl
  have hu : ∀ t : State, t.uplinkWork.bearer.state = t.bearer.state := by
    intro t
    unfold State.uplinkWork State.joinUplink
    split
    · simp
    · rfl
  refine ⟨by simp [State.deadline], by simp [State.deadline], ?_⟩
  simp [State.deadline, hm, hu]

/-- A cycle end's work before the transitions: sound claims, or the claims of a step jump still to be settled. -/
theorem State.cycleWork_claims {s : State} (h : s.claimsOk = true) (c : Cycle) :
    (s.cycleWork c).claimsOk = true ∨
      ((s.cycleWork c).station.state = .member ∧ (s.cycleWork c).voice = s.voice.jump ∧
        (s.cycleWork c).farEnd = s.farEnd.jump ∧
        (s.cycleWork c).bearer.state = if s.bearer.state = .bearing then .claiming else s.bearer.state) := by
  have ha : ∀ t : State, t.ageBearer.bearer.state = t.bearer.state := by
    intro t
    unfold State.ageBearer
    split <;> rfl
  have keep : ∀ t : State, ((((t.ageBearer).peerWork).surplusWork).pairingWork).voice = t.voice ∧
      ((((t.ageBearer).peerWork).surplusWork).pairingWork).farEnd = t.farEnd ∧
      ((((t.ageBearer).peerWork).surplusWork).pairingWork).bearer.state = t.bearer.state ∧
      ((((t.ageBearer).peerWork).surplusWork).pairingWork).station = t.station := by
    intro t; simp [ha]
  unfold State.cycleWork
  obtain ⟨k1, k2, k3, k4⟩ := keep (((s.jumpIfDue c).timerWork c).claimWork)
  by_cases hj : s.jumpDue c = true
  · right
    have hm : s.station.state = .member := by simp [State.jumpDue, State.outnumberedNow] at hj; exact hj.1.2.1
    have hs : s.jumpIfDue c = s.stepJump c := by simp [State.jumpIfDue, hj]
    have hw : ((s.stepJump c).timerWork c).claimWork = (s.stepJump c).timerWork c := by
      simp [State.claimWork, State.stepJump, State.timerWork]
    rw [k1, k2, k3, k4, hs, hw]
    refine ⟨by simpa using hm, ?_, ?_, ?_⟩ <;> simp [State.timerWork, State.stepJump, State.makeJump, State.jumpClaims]
  · left
    have hs : s.jumpIfDue c = s := by simp [State.jumpIfDue, hj]
    refine State.claimsOk_of ?_ k1 k2 k3
    rw [hs]
    unfold State.claimWork
    have ht : (s.timerWork c).claimsOk = true := h
    split
    · exact State.decideClaims_claimsOk ht (le_trans (holdLength_le _) (by decide))
    · exact ht

/-- The transitions at a cycle end. -/
theorem State.transitions_claimsOk {s : State} (h : s.claimsOk = true) : s.transitions.claimsOk = true := by
  unfold State.transitions
  split
  · unfold State.countListen
    dsimp only
    split
    · have : ({ s with station := { s.station with listenCount := min (s.station.listenCount + 1) 4 } } : State).claimsOk
          = true := h
      generalize ({ s with station := { s.station with listenCount := min (s.station.listenCount + 1) 4 } } : State) = t at *
      exact State.claimsOk_of (State.enterMember_claimsOk this) rfl rfl rfl
    · exact h
  · exact State.claimsOk_of h (by simp) (by simp) (by simp)
  · split
    · exact h
    · exact State.claimsOk_of h (by simp) (by simp) (by simp)
  · exact State.settleRole_claimsOk_of h
  · exact State.claimsOk_of h (by simp) (by simp) (by simp)
  all_goals exact h

/-- The whole cycle end. -/
theorem State.endCycle_claimsOk {s : State} (h : s.claimsOk = true) (c : Cycle) (o : DeadlineOrder) :
    (s.endCycle c o).claimsOk = true := by
  have h0 : (s.atInstant c.planned).claimsOk = true := h
  unfold State.endCycle
  refine State.lateEffects_claimsOk ?_ _
  have hw := State.cycleWork_claims h0 c
  have hv : (s.atInstant c.planned).voice = s.voice := rfl
  have hf : (s.atInstant c.planned).farEnd = s.farEnd := rfl
  have hb : (s.atInstant c.planned).bearer = s.bearer := rfl
  rw [hv, hf, hb] at hw
  generalize (s.atInstant c.planned).cycleWork c = t at *
  have hd : (t.deadlineWork o).claimsOk = true := by
    unfold State.deadlineWork
    rcases hw with hw | ⟨hm, w1, w2, w3⟩
    · split
      · obtain ⟨d1, d2, d3⟩ := t.transitions.deadline_claims
        exact State.claimsOk_of (State.transitions_claimsOk hw) d1 d2 d3
      · obtain ⟨d1, d2, d3⟩ := t.deadline_claims
        exact State.transitions_claimsOk (State.claimsOk_of hw d1 d2 d3)
    · have ht : ∀ u : State, u.station.state = .member → u.transitions = u.settleRole := by
        intro u hu; simp [State.transitions, hu]
      split
      · obtain ⟨d1, d2, d3⟩ := t.transitions.deadline_claims
        refine State.claimsOk_of ?_ d1 d2 d3
        rw [ht t hm]
        exact State.jump_settle_claimsOk h w1 w2 w3
      · obtain ⟨d1, d2, d3⟩ := t.deadline_claims
        rw [ht _ (by simpa using hm)]
        exact State.jump_settle_claimsOk h (d1.trans w1) (d2.trans w2) (d3.trans w3)
  exact State.claimsOk_of hd (by simp) (by simp) (by simp)

end Sys2Proof.Machine
end

