-- ==== Sys2Proof/Laws/CycleEnd.lean ====
section
/-! SUPPORT. What a cycle end does to the stream records, by the stages of `State.endCycle`: one record after an outcome,
the table that the deadline reads, the eight wearer records after it. -/

namespace Sys2Proof.Machine

/-! ### One record: the meaning's two steps, outcome and hang counter, are the records of the statements -/

/-- A frame taken, with its hang counter (R116, R118, Table 7-6). -/
theorem StreamRec.take_withFrame (r : StreamRec) (f : Frame) (n : StationNo) (b : Bool) (tAct e : Nat) :
    (r.take f n b).hangUpdate tAct (some e) = r.withFrame f (decide (tAct ≤ e)) n b := by
  unfold StreamRec.take StreamRec.hangUpdate StreamRec.withFrame aboveThreshold rampFrame rampSample
  cases hst : r.state <;> cases b <;> simp [StreamState.silent, StreamState.tookFrame]

/-- A hush taken. -/
theorem StreamRec.hushed_withHush (r : StreamRec) (n : StationNo) (tAct : Nat) (x : Option Nat) :
    (r.hushed n).hangUpdate tAct x = r.withHush n := by
  simp [StreamRec.hushed, StreamRec.hangUpdate, StreamState.tookFrame, StreamRec.withHush, silence]

/-- Decided ABSENT. -/
theorem StreamRec.toAbsent_withoutSource (r : StreamRec) (tAct : Nat) (x : Option Nat) :
    r.toAbsent.hangUpdate tAct x = r.withoutSource := by
  simp [StreamRec.toAbsent, StreamRec.hangUpdate, StreamState.tookFrame, StreamRec.withoutSource, silence]

/-- Nothing arrived (R117). -/
theorem StreamRec.nothing_withNothing (r : StreamRec) (tAct : Nat) (x : Option Nat) :
    r.nothing.hangUpdate tAct x = r.withNothing := by
  have hm : 1 ≤ min (r.missing + 1) 255 := by omega
  unfold StreamRec.nothing StreamRec.withNothing
  generalize min (r.missing + 1) 255 = m at hm
  have h1 : m ≤ 1 ↔ m = 1 := by omega
  simp only [h1]
  cases hst : r.state <;> simp only [reduceCtorEq, if_false, if_true]
  case absent => exact r.toAbsent_withoutSource tAct x
  case hushed => simp [StreamRec.hangUpdate, StreamState.tookFrame, silence]
  all_goals
    split
    · rfl
    · split
      · simp [StreamRec.hangUpdate, StreamState.tookFrame, halfFrame, shr]
      · rfl

/-! ### The stages of a cycle end -/

/-- A stage that keeps the table and what is heard or aged keeps the counted table. -/
theorem State.countedPeers_congr {s t : State} (hp : t.peers = s.peers) (hc : t.chan = s.chan)
    (he : t.early.aged = s.early.aged) : t.countedPeers = s.countedPeers := by
  unfold State.countedPeers State.ageSkip
  rw [hp, hc, he]

/-- The claim decisions age no entry. -/
@[simp] theorem State.claimWork_aged (s : State) : s.claimWork.early.aged = s.early.aged := by
  unfold State.claimWork State.decideClaims State.decideVoice State.decideFar
  split
  · simp only []
    split <;> split <;> simp
  · rfl

/-- A step jump ages no entry. -/
@[simp] theorem State.jumpIfDue_aged (s : State) (c : Cycle) : (s.jumpIfDue c).early.aged = s.early.aged := by
  unfold State.jumpIfDue State.stepJump State.makeJump State.jumpLapse
  split
  · simp only [State.raise_early]
    split <;> simp [State.forgetViews, State.jumpClaims]
  · rfl

/-- The bearer's ageing leaves the record of early rows. -/
@[simp] theorem State.ageBearer_early (s : State) : s.ageBearer.early = s.early := by
  unfold State.ageBearer
  split <;> rfl

/-- The table that the deadline of a cycle end reads has the cycle just ended counted (R52). -/
theorem State.cycleWork_peers {s : State} (h : s.station.state.listening = true) (c : Cycle) :
    (s.cycleWork c).peers = s.countedPeers := by
  have hu : ∀ t : State, t.surplusWork.pairingWork.peers = t.peers := by simp
  unfold State.cycleWork
  rw [hu]
  unfold State.peerWork
  rw [if_pos (by simpa using h)]
  simp only [State.agePeers, State.raiseIf_frame]
  exact State.countedPeers_congr (by simp) (by simp) (by simp)

/-- A wearer record at a deadline depends on these pieces alone. -/
theorem State.wearerAtDeadline_congr {s t : State} (hn : t.station.creds = s.station.creds)
    (hv : t.chan.voicePayload = s.chan.voicePayload) (hl : t.streams.list = s.streams.list) (hc : t.config = s.config)
    (ps : List Peer) : t.wearerAtDeadline ps = s.wearerAtDeadline ps := by
  funext w r
  unfold State.wearerAtDeadline
  rw [hn, hv, hl, hc]

/-- The far-end events leave the records. -/
@[simp] theorem State.raiseFarEvents_streams (s : State) (a b d : StreamState) :
    (s.raiseFarEvents a b d).streams = s.streams := by
  unfold State.raiseFarEvents
  simp

/-- The stages of a deadline after the update leave the records. -/
@[simp] theorem State.deadline_streams (s : State) : s.deadline.streams = (s.updateStreams s.peers).streams := by
  unfold State.deadline State.takeDownlink State.makeTake State.uplinkWork State.joinUplink State.prepareVoice
  simp only [State.handFrames_frame]
  repeat' split
  all_goals simp

/-- The wearer records after a deadline that feeds them from the air (R115). -/
theorem State.deadline_wearers {s : State} (h : s.station.state.listening = true) :
    s.deadline.streams.wearers = s.streams.wearers.mapIdx (s.wearerAtDeadline s.peers) := by
  rw [State.deadline_streams]
  unfold State.updateStreams State.updateFromAir
  rw [if_pos h]
  simp

/-- The reception list is empty after every deadline (R114). -/
theorem State.deadline_list (s : State) : s.deadline.streams.list = [] := by
  rw [State.deadline_streams]
  unfold State.updateStreams State.updateFromAir State.silenceStreams
  split <;> simp

/-- A cycle end at which the station is fed from the air before and after its transitions. -/
def State.fedFromAir (s : State) : Prop :=
  s.station.state = .listen ∨ s.station.state = .member ∨ (s.station.state = .leaving ∧ s.station.leavingEnds = 0)

/-- The records are fed from the air. -/
theorem State.fedFromAir.listening {s : State} (h : s.fedFromAir) : s.station.state.listening = true := by
  rcases h with h | h | ⟨h, -⟩ <;> rw [h] <;> rfl

/-- The end of a role leaves the wearer records, the reception list and the station. -/
theorem State.settleRole_wearers (s : State) : s.settleRole.streams.wearers = s.streams.wearers ∧
    s.settleRole.streams.list = s.streams.list := by
  unfold State.settleRole
  split <;> simp

/-- The transitions leave the wearer records and the reception list, in every station state. -/
theorem State.transitions_wearers (s : State) : s.transitions.streams.wearers = s.streams.wearers ∧
    s.transitions.streams.list = s.streams.list := by
  unfold State.transitions State.countListen State.countSeek State.decideNewcomer State.pairTimeout State.countLeaving
  repeat' split
  all_goals first
    | exact s.settleRole_wearers
    | simp

/-- A cycle end whose frame deadline meets a state that is fed from the air: the second one of LEAVING does so when the
deadline comes first (R115). -/
def State.fedAt (s : State) (order : DeadlineOrder) : Prop :=
  s.station.state = .listen ∨ s.station.state = .member ∨
    (s.station.state = .leaving ∧ (s.station.leavingEnds = 0 ∨ order = .deadlineFirst))

/-- The records are fed from the air. -/
theorem State.fedAt.listening {s : State} {order : DeadlineOrder} (h : s.fedAt order) :
    s.station.state.listening = true := by
  rcases h with h | h | ⟨h, -⟩ <;> rw [h] <;> rfl

/-- Before the transitions as after them. -/
theorem State.fedAt.fedFromAir {s : State} (h : s.fedAt .stateFirst) : s.fedFromAir :=
  h.imp_right fun h => h.imp_right fun h => ⟨h.1, h.2.resolve_right (by decide)⟩

/-- What the transitions of such a cycle end leave. -/
theorem State.fedFromAir.transitions {s : State} (h : s.fedFromAir) :
    s.transitions.station.state.listening = true ∧ s.transitions.station.creds = s.station.creds ∧
      s.transitions.streams.wearers = s.streams.wearers ∧ s.transitions.streams.list = s.streams.list ∧
      s.transitions.chan.voicePayload = s.chan.voicePayload := by
  unfold State.transitions
  rcases h with h | h | ⟨h, h0⟩ <;> rw [h] <;> dsimp only
  · unfold State.countListen
    simp only []
    split
    · refine ⟨rfl, rfl, rfl, rfl, ?_⟩
      simp [State.enterAlone, State.enterMember, State.enter, State.forgetViews, h, Channel.turn, StationState.receiverOn]
    · exact ⟨by rw [h]; rfl, rfl, rfl, rfl, rfl⟩
  · exact ⟨by simp [h, StationState.listening], by simp, s.settleRole_wearers.1, s.settleRole_wearers.2, by simp⟩
  · unfold State.countLeaving
    rw [h0, if_neg (by decide)]
    exact ⟨by rw [h]; rfl, rfl, rfl, rfl, rfl⟩

/-- The late effects of slot 15 leave the wearer records and the reception list. -/
theorem State.lateEffects_wearers (es : List LateEffect) (s : State) :
    (s.lateEffects es).streams.wearers = s.streams.wearers ∧ (s.lateEffects es).streams.list = s.streams.list := by
  unfold State.lateEffects
  induction es generalizing s with
  | nil => exact ⟨rfl, rfl⟩
  | cons e es ih =>
    have h : (s.lateEffect e).streams.wearers = s.streams.wearers ∧
        (s.lateEffect e).streams.list = s.streams.list := by
      unfold State.lateEffect State.clashYield State.electionYield
      repeat' split
      all_goals simp
    exact ⟨(ih _).1.trans h.1, (ih _).2.trans h.2⟩

/-- The eight wearer records after a cycle end fed from the air (R115, R120), and the emptied reception list (R114). -/
theorem State.endCycle_wearers {s : State} {order : DeadlineOrder} (h : s.fedAt order) (c : Cycle) :
    (s.endCycle c order).streams.wearers = s.streams.wearers.mapIdx (s.wearerAtDeadline s.countedPeers) ∧
      (s.endCycle c order).streams.list = [] := by
  have hb : ∀ t : State, (((t.rotateViews).beginCycle c).lateEffects s.chan.late).streams.wearers = t.streams.wearers ∧
      (((t.rotateViews).beginCycle c).lateEffects s.chan.late).streams.list = t.streams.list := fun t => by
    have := State.lateEffects_wearers s.chan.late (t.rotateViews.beginCycle c)
    simpa using this
  unfold State.endCycle
  rw [(hb _).1, (hb _).2]
  have hl := h.listening
  set u := (s.atInstant c.planned).cycleWork c with hu
  have hp : u.peers = s.countedPeers := State.cycleWork_peers (s := s.atInstant c.planned) hl c
  have hst : u.station = s.station := by simp [hu]
  have hfu : u.fedAt order := by unfold State.fedAt; rw [hst]; exact h
  have hw : u.wearerAtDeadline u.peers = s.wearerAtDeadline s.countedPeers := by
    rw [hp]
    exact State.wearerAtDeadline_congr (by rw [hst]) (by simp [hu]) (by simp [hu]) (by simp [hu]) _
  have hws : u.streams = s.streams := by simp [hu]
  cases order with
  | stateFirst =>
    obtain ⟨a1, a2, a3, a4, a5⟩ := hfu.fedFromAir.transitions
    refine ⟨?_, State.deadline_list _⟩
    show u.transitions.deadline.streams.wearers = _
    rw [State.deadline_wearers a1, a3, hws]
    simp only [State.transitions_frame]
    rw [State.wearerAtDeadline_congr a2 a5 a4 (by simp), hw]
  | deadlineFirst =>
    show u.deadline.transitions.streams.wearers = _ ∧ u.deadline.transitions.streams.list = _
    rw [u.deadline.transitions_wearers.1, u.deadline.transitions_wearers.2, State.deadline_wearers hfu.listening, hw, hws]
    exact ⟨rfl, State.deadline_list _⟩

/-! ### The flags of the audio work -/

/-- The events that the audio work of a frame deadline raises (R127, R151, R154). -/
def Flag.ofAudio : Flag → Bool
  | .farendUp | .farendDown | .downlinkUnderrun | .uplinkOverrun => true
  | _ => false

/-- A stage raises none of the events of the audio work. -/
def State.keepsAudioFlags (s t : State) : Prop := ∀ g : Flag, g.ofAudio = true → t.flagSet g = s.flagSet g

/-- A flag raised under a condition. -/
theorem State.raiseIf_flagSet (s : State) (b : Bool) (f g : Flag) :
    (s.raiseIf b f).flagSet g = (s.flagSet g || (b && decide (f = g))) := by
  unfold State.raiseIf
  cases b
  · simp
  · simpa using s.raise_flagSet f g

/-- Nothing done. -/
theorem State.keepsAudioFlags.refl (s : State) : s.keepsAudioFlags s := fun _ _ => rfl

/-- One stage after another. -/
theorem State.keepsAudioFlags.trans {s t u : State} (h : s.keepsAudioFlags t) (k : t.keepsAudioFlags u) :
    s.keepsAudioFlags u := fun g hg => (k g hg).trans (h g hg)

/-- The flags alone count. -/
theorem State.keepsAudioFlags.of_flags {s t : State} (e : t.flags = s.flags) : s.keepsAudioFlags t :=
  fun g _ => by unfold State.flagSet; rw [e]

/-- Another event raised. -/
theorem State.keepsAudioFlags.raise {s t : State} (h : s.keepsAudioFlags t) {f : Flag} (hf : f.ofAudio = false) :
    s.keepsAudioFlags (t.raise f) := fun g hg => by
  have : f ≠ g := fun e => by rw [e, hg] at hf; exact absurd hf (by decide)
  rw [State.raise_flagSet, h g hg]
  simp [this]

/-- Another event raised or not. -/
theorem State.keepsAudioFlags.raiseIf {s t : State} (h : s.keepsAudioFlags t) (b : Bool) {f : Flag}
    (hf : f.ofAudio = false) : s.keepsAudioFlags (t.raiseIf b f) := by
  unfold State.raiseIf
  split
  · exact h.raise hf
  · exact h

/-- Other events raised. -/
theorem State.keepsAudioFlags.raiseAll {s t : State} (h : s.keepsAudioFlags t) (fs : List Flag)
    (hf : ∀ f ∈ fs, f.ofAudio = false) : s.keepsAudioFlags (t.raiseAll fs) := by
  unfold State.raiseAll
  induction fs generalizing t with
  | nil => exact h
  | cons f fs ih => exact ih (h.raise (hf f (by simp))) fun g hg => hf g (by simp [hg])

/-- Either of two stages. -/
theorem State.keepsAudioFlags.ite {s t u : State} (b : Prop) [Decidable b] (h : s.keepsAudioFlags t)
    (k : s.keepsAudioFlags u) : s.keepsAudioFlags (if b then t else u) := by
  split
  · exact h
  · exact k

/-- A claim decision raises claim events alone. -/
theorem Claim.decideOn_flags (cl : Claim) (f : ClaimFacts) (o : Option SlotIx) :
    ∀ g ∈ (cl.decideOn f o).2, g.ofAudio = false := by
  intro g
  unfold Claim.decideOn Claim.decideWaiting Claim.decideTentative Claim.decideConfirmed Claim.decideHoldoff
  repeat' split
  all_goals simp
  all_goals (intro h; subst h; rfl)

/-- The bearer record's following raises BEARER_UP alone. -/
theorem State.bearerFollows_audio (s : State) (a b : ClaimState) : s.keepsAudioFlags (s.bearerFollows a b) := by
  unfold State.bearerFollows
  split
  · exact State.keepsAudioFlags.raise (.of_flags rfl) rfl
  · exact .ite _ (.of_flags rfl) (.refl s)

/-- The voice claim's decision. -/
theorem State.decideVoice_audio (s : State) (f : ClaimFacts) : s.keepsAudioFlags (s.decideVoice f) := by
  unfold State.decideVoice
  have hd := Claim.decideOn_flags s.voice f s.farEnd.slot
  generalize s.voice.decideOn f s.farEnd.slot = r at hd
  exact State.keepsAudioFlags.raiseAll (.of_flags rfl) r.2 hd

/-- The far-end claim's decision. -/
theorem State.decideFar_audio (s : State) (f : ClaimFacts) : s.keepsAudioFlags (s.decideFar f) := by
  unfold State.decideFar
  have hd := Claim.decideOn_flags s.farEnd f s.voice.slot
  generalize s.farEnd.decideOn f s.voice.slot = r at hd
  refine State.keepsAudioFlags.trans ?_ (State.bearerFollows_audio _ _ _)
  exact State.keepsAudioFlags.raiseAll (.of_flags rfl) r.2 hd

/-- The claim work. -/
theorem State.claimWork_audio (s : State) : s.keepsAudioFlags s.claimWork := by
  unfold State.claimWork State.decideClaims
  split
  · have h := State.keepsAudioFlags.ite (s.early.voiceDecided = true) (.refl s)
      (s.decideVoice_audio (s.claimFacts s.countedPeers))
    exact .ite _ h (h.trans (State.decideFar_audio _ _))
  · exact .refl s

/-- A close of the window. -/
theorem State.closeWindow_audio (s : State) (c : CloseCause) : s.keepsAudioFlags (s.closeWindow c) := by
  unfold State.closeWindow
  split
  · exact State.keepsAudioFlags.raise (.of_flags rfl) (by cases c <;> rfl)
  · exact .refl s

/-- The pairing countdowns. -/
theorem State.pairingWork_audio (s : State) : s.keepsAudioFlags s.pairingWork := by
  have hw : ∀ t : State, t.keepsAudioFlags t.countWindow := fun t => by
    unfold State.countWindow
    split
    · exact .ite _ (State.keepsAudioFlags.trans (.of_flags rfl) (State.closeWindow_audio _ _)) (.of_flags rfl)
    · exact .refl t
  have hl : ∀ t : State, t.keepsAudioFlags t.ageLapse := fun t => .of_flags (by simp)
  unfold State.pairingWork
  split
  · have h := State.keepsAudioFlags.ite (s.early.windowCounted = true) (.refl s) (hw s)
    exact .ite _ h (h.trans (hl _))
  · exact .refl s

/-- The ageing of the table. -/
theorem State.peerWork_audio (s : State) : s.keepsAudioFlags s.peerWork := by
  unfold State.peerWork State.agePeers
  exact .ite _ (State.keepsAudioFlags.raiseIf (.of_flags rfl) _ rfl) (.refl s)

/-- The surplus episode. -/
theorem State.surplusWork_audio (s : State) : s.keepsAudioFlags s.surplusWork := by
  unfold State.surplusWork State.deriveSurplus
  exact .ite _ (State.keepsAudioFlags.raiseIf (.of_flags rfl) _ rfl) (.refl s)

/-- The step jump. -/
theorem State.jumpIfDue_audio (s : State) (c : Cycle) : s.keepsAudioFlags (s.jumpIfDue c) := by
  unfold State.jumpIfDue
  refine .ite _ ?_ (.refl s)
  have h : s.keepsAudioFlags s.makeJump := by
    unfold State.makeJump
    exact State.keepsAudioFlags.raise (.of_flags (by simp [State.forgetViews, State.jumpClaims])) rfl
  exact h.trans (.of_flags rfl)

/-- All the work of a cycle end before its transitions and its audio work. -/
theorem State.cycleWork_audio (s : State) (c : Cycle) : s.keepsAudioFlags (s.cycleWork c) := by
  have ht : ∀ t : State, t.keepsAudioFlags (t.timerWork c) := fun t => .of_flags rfl
  have ha : ∀ t : State, t.keepsAudioFlags t.ageBearer := fun t => .of_flags (by simp)
  unfold State.cycleWork
  exact ((((((s.jumpIfDue_audio c).trans (ht _)).trans (State.claimWork_audio _)).trans (ha _)).trans
    (State.peerWork_audio _)).trans (State.surplusWork_audio _)).trans (State.pairingWork_audio _)

/-! ### The bearer's role at a cycle end -/

/-- Two bearer records that differ in age and, within CLAIMING and BEARING, in state. -/
def Bearer.sameQueues (b d : Bearer) : Prop :=
  (d.state = .none ↔ b.state = .none) ∧ d.state.claims = b.state.claims ∧ { d with state := b.state, age := b.age } = b

/-- No change. -/
theorem Bearer.sameQueues.refl (b : Bearer) : b.sameQueues b := ⟨Iff.rfl, rfl, rfl⟩

/-- One change after another. -/
theorem Bearer.sameQueues.trans {b d e : Bearer} (h : b.sameQueues d) (k : d.sameQueues e) : b.sameQueues e := by
  obtain ⟨h1, h2, h3⟩ := h
  obtain ⟨k1, k2, k3⟩ := k
  refine ⟨k1.trans h1, k2.trans h2, ?_⟩
  rw [← h3, ← k3]

/-- A change between CLAIMING and BEARING. -/
theorem Bearer.sameQueues.of_claims (b : Bearer) (hb : b.state.claims = true) {x : BearerState}
    (hx : x.claims = true) : b.sameQueues { b with state := x } := by
  refine ⟨⟨fun h => ?_, fun h => ?_⟩, hx.trans hb.symm, rfl⟩
  · change x = .none at h
    rw [h] at hx
    cases hx
  · rw [h] at hb
    cases hb

/-- ENDING stays ENDING. -/
theorem Bearer.sameQueues.ending {b d : Bearer} (h : b.sameQueues d) : d.state = .ending ↔ b.state = .ending := by
  obtain ⟨h1, h2, -⟩ := h
  cases hb : b.state <;> cases hd : d.state <;> simp_all [BearerState.claims]

/-- The bearer record's following of its claim moves it between CLAIMING and BEARING alone (R143). -/
theorem State.bearerFollows_bearer (s : State) (a b : ClaimState) : s.bearer.sameQueues (s.bearerFollows a b).bearer := by
  unfold State.bearerFollows
  split
  · rename_i h
    exact .of_claims _ (by rw [h.1]; rfl) rfl
  · split
    · rename_i h
      exact .of_claims _ (by rw [h.1]; rfl) rfl
    · exact .refl _

/-- The claim work leaves the phone queues and the last take. -/
theorem State.claimWork_bearer (s : State) : s.bearer.sameQueues s.claimWork.bearer := by
  have hv : ∀ (t : State) f, (t.decideVoice f).bearer = t.bearer := fun t f => by simp
  have hf : ∀ (t : State) f, t.bearer.sameQueues (t.decideFar f).bearer := fun t f => by
    unfold State.decideFar
    refine Bearer.sameQueues.trans ?_ (State.bearerFollows_bearer _ _ _)
    simp only [State.raiseAll_frame]
    exact .refl _
  unfold State.claimWork State.decideClaims
  split
  · have hb : (if s.early.voiceDecided then s else s.decideVoice (s.claimFacts s.countedPeers)).bearer = s.bearer := by
      split
      · rfl
      · exact hv _ _
    simp only []
    generalize (if s.early.voiceDecided then s else s.decideVoice (s.claimFacts s.countedPeers)) = v at hb
    rw [← hb]
    split
    · exact .refl _
    · exact hf _ _
  · exact .refl _

/-- The claim work leaves an ENDING role its claim. -/
theorem State.claimWork_ending {s : State} (hr : roleMatches s.bearer.state s.farEnd.state = true)
    (h : s.claimWork.bearer.state = .ending) : s.claimWork.farEnd.state ≠ .none := by
  have he := s.claimWork_bearer.ending.1 h
  have hx : s.farEnd.state = .releasing := by
    rw [he] at hr
    cases hq : s.farEnd.state <;> simp [hq, roleMatches] at hr
    rfl
  have hd : ∀ (t : State) f, t.farEnd.state = .releasing → (t.decideFar f).farEnd.state = .releasing := fun t f k => by
    unfold State.decideFar
    simp [Claim.decideOn, k, Claim.clearMarks]
  have hg : s.claimWork.farEnd.state = .releasing := by
    unfold State.claimWork State.decideClaims
    split
    · simp only []
      repeat' split
      all_goals first
        | exact hx
        | exact hd _ _ hx
        | simpa using hx
        | exact hd _ _ (by simpa using hx)
    · exact hx
  rw [hg]
  decide

/-- A deadline leaves the state of the bearer record. -/
theorem State.deadline_bearerState (s : State) : s.deadline.bearer.state = s.bearer.state := by
  unfold State.deadline State.takeDownlink State.makeTake State.uplinkWork State.joinUplink State.handFrames
    State.prepareVoice
  simp only []
  repeat' split
  all_goals simp [Bearer.afterFrame]

/-- A step jump takes the bearer record from BEARING to CLAIMING alone (R143). -/
theorem State.jumpIfDue_bearer (s : State) (c : Cycle) : s.bearer.sameQueues (s.jumpIfDue c).bearer := by
  unfold State.jumpIfDue State.stepJump State.makeJump
  split
  · simp only [State.raise_bearer, State.forgetViews, State.jumpLapse_frame, State.jumpClaims]
    split
    · rename_i h
      exact .of_claims _ (by rw [h]; rfl) rfl
    · exact .refl _
  · exact .refl _

/-- The work of a cycle end before its transitions leaves the phone queues and the last take. -/
theorem State.cycleWork_bearer (s : State) (c : Cycle) : s.bearer.sameQueues (s.cycleWork c).bearer := by
  have ha : ∀ t : State, t.bearer.sameQueues t.ageBearer.bearer := fun t => by
    unfold State.ageBearer
    split <;> exact ⟨Iff.rfl, rfl, rfl⟩
  have hc := State.claimWork_bearer ((s.jumpIfDue c).timerWork c)
  simp only [State.timerWork_frame] at hc
  unfold State.cycleWork
  simp only [State.pairingWork_frame, State.surplusWork_frame, State.peerWork_frame]
  exact ((s.jumpIfDue_bearer c).trans hc).trans (ha _)

/-- Without a step jump an ENDING role keeps its claim through that work. -/
theorem State.cycleWork_ending {s : State} (hr : roleMatches s.bearer.state s.farEnd.state = true) {c : Cycle}
    (hj : s.jumpDue c = false) : (s.cycleWork c).bearer.state = .ending → (s.cycleWork c).farEnd.state ≠ .none := by
  have h := State.claimWork_ending (s := s.timerWork c) hr
  have e : s.jumpIfDue c = s := by simp [State.jumpIfDue, hj]
  have ha : ∀ t : State, t.ageBearer.bearer.state = t.bearer.state ∧ t.ageBearer.farEnd = t.farEnd := fun t => by
    unfold State.ageBearer
    split <;> exact ⟨rfl, rfl⟩
  unfold State.cycleWork
  simp only [State.pairingWork_frame, State.surplusWork_frame, State.peerWork_frame]
  rw [e, (ha _).1, (ha _).2]
  exact h

/-! ### The far-end record after a cycle end -/

/-- The far-end record's decision depends on these pieces alone. -/
theorem State.farDecided_congr {s t : State} (hn : t.station.creds = s.station.creds)
    (hb : t.bearer.state = .none ↔ s.bearer.state = .none) (hl : t.bearer.lastTake = s.bearer.lastTake)
    (hs : t.streams = s.streams) (hp : t.chan.farPayload = s.chan.farPayload) (ps : List Peer) :
    t.farDecided ps = s.farDecided ps ∧ t.farTested ps = s.farTested ps := by
  have h : t.farTested ps = s.farTested ps := by
    unfold State.farTested State.farSourceLost
    have e : (t.bearer.state != .none) = (s.bearer.state != .none) := by
      by_cases h : s.bearer.state = .none
      · rw [h, hb.2 h]
      · rw [bne_iff_ne.2 h, bne_iff_ne.2 fun x => h (hb.1 x)]
    rw [hs, hn, e]
  refine ⟨?_, h⟩
  unfold State.farDecided
  simp only [hb, hs, h, hl, hp, hn]

/-- FAREND_UP and FAREND_DOWN as the passage from `before` over `tested` to `after` raises them (R127). -/
theorem State.raiseFarEvents_flags (s : State) (before tested after : StreamState) :
    ((s.raiseFarEvents before tested after).flagSet .farendUp ↔
      s.flagSet .farendUp ∨ (tested = .absent ∧ after ≠ .absent)) ∧
    ((s.raiseFarEvents before tested after).flagSet .farendDown ↔
      s.flagSet .farendDown ∨ (before ≠ .absent ∧ tested = .absent) ∨ (tested ≠ .absent ∧ after = .absent)) := by
  unfold State.raiseFarEvents State.raiseIf
  constructor <;> cases before <;> cases tested <;> cases after <;> simp [State.raise_flagSet]

/-- The stages of a deadline after the update raise audio events of the queues alone. -/
theorem State.deadline_farFlags (s : State) {g : Flag} (hg : g = .farendUp ∨ g = .farendDown) :
    s.deadline.flagSet g = (s.updateStreams s.peers).flagSet g := by
  have hr : ∀ (t : State) (b : Bool) (f : Flag), f ≠ g → (t.raiseIf b f).flagSet g = t.flagSet g := fun t b f h => by
    rw [State.raiseIf_flagSet]
    simp [h]
  have h4 : ∀ t : State, t.handFrames.flagSet g = t.flagSet g := fun t => by unfold State.flagSet; simp
  have h1 : ∀ t : State, t.prepareVoice.flagSet g = t.flagSet g := fun t => by unfold State.flagSet; simp
  have h3 : ∀ t : State, t.uplinkWork.flagSet g = t.flagSet g := fun t => by
    unfold State.uplinkWork State.joinUplink
    split
    · refine (hr _ _ _ ?_).trans ?_
      · rcases hg with h | h <;> rw [h] <;> decide
      · unfold State.flagSet
        rfl
    · rfl
  have h2 : ∀ t : State, t.takeDownlink.flagSet g = t.flagSet g := fun t => by
    unfold State.takeDownlink State.makeTake
    repeat' split
    · exact hr _ _ _ (by rcases hg with h | h <;> rw [h] <;> decide)
    · rfl
    · rfl
  unfold State.deadline
  rw [h4, h3, h2, h1]

/-- The far-end record and its events after a deadline that feeds it from the air. -/
theorem State.deadline_far {s : State} (h : s.station.state.listening = true) :
    s.deadline.streams.farEnd =
        (s.farDecided s.peers).1.hangUpdate s.config.tAct.toNat (s.farDecided s.peers).2 ∧
      (s.deadline.flagSet .farendUp ↔
        s.flagSet .farendUp ∨
          ((s.farTested s.peers).state = .absent ∧ (s.farDecided s.peers).1.state ≠ .absent)) ∧
      (s.deadline.flagSet .farendDown ↔
        s.flagSet .farendDown ∨ (s.streams.farEnd.state ≠ .absent ∧ (s.farTested s.peers).state = .absent) ∨
          ((s.farTested s.peers).state ≠ .absent ∧ (s.farDecided s.peers).1.state = .absent)) := by
  rw [State.deadline_streams, s.deadline_farFlags (Or.inl rfl), s.deadline_farFlags (Or.inr rfl)]
  unfold State.updateStreams State.updateFromAir
  rw [if_pos h]
  refine ⟨by simp, ?_, ?_⟩
  · simp only []
    rw [(State.raiseFarEvents_flags _ _ _ _).1]
    rfl
  · simp only []
    rw [(State.raiseFarEvents_flags _ _ _ _).2]
    rfl

/-- Where no role ends, the transitions leave the stream records and the bearer record. -/
theorem State.transitions_streams {s : State}
    (h : s.station.state = .member → s.bearer.state = .ending → s.farEnd.state ≠ .none) :
    s.transitions.streams = s.streams ∧ s.transitions.bearer = s.bearer := by
  unfold State.transitions State.countListen State.countSeek State.decideNewcomer State.pairTimeout State.countLeaving
    State.settleRole
  repeat' split
  all_goals first
    | exact absurd (by assumption) fun x : s.bearer.state = .ending ∧ s.farEnd.state = .none => h (by assumption) x.1 x.2
    | simp

/-- A transition raises STATE_CHANGED alone. -/
theorem State.enter_audio (s : State) (st : StationState) : s.keepsAudioFlags (s.enter st) := by
  unfold State.enter
  exact State.keepsAudioFlags.raise (.of_flags rfl) rfl

/-- Where no role ends, the transitions raise no event of the audio work. -/
theorem State.transitions_audio {s : State}
    (h : s.station.state = .member → s.bearer.state = .ending → s.farEnd.state ≠ .none) : s.keepsAudioFlags s.transitions := by
  have hp : s.keepsAudioFlags s.pairTimeout := by
    unfold State.pairTimeout
    exact (State.keepsAudioFlags.trans (.of_flags rfl) (State.enter_audio _ _)).raise rfl
  unfold State.transitions
  split
  · unfold State.countListen
    refine .ite _ ?_ (.of_flags rfl)
    refine State.keepsAudioFlags.trans (t := { s with station :=
      { s.station with listenCount := min (s.station.listenCount + 1) 4 } }) (.of_flags rfl) ?_
    exact (State.enter_audio _ .member).trans (.of_flags rfl)
  · unfold State.countSeek
    split
    · exact .refl s
    · exact .ite _ hp (.of_flags rfl)
  · split
    · exact .refl s
    · unfold State.decideNewcomer
      split
      · exact .refl s
      · split
        · exact .of_flags rfl
        · exact hp
  · rename_i hm
    unfold State.settleRole
    rw [if_neg fun x => h hm x.1 x.2]
    exact .refl s
  · unfold State.countLeaving
    exact .ite _ (State.enter_audio _ _) (.of_flags rfl)
  · exact .refl s
  · exact .refl s

/-- The transitions leave the far-end payload where the cycle end is fed from the air. -/
theorem State.fedFromAir.transitions_payload {s : State} (h : s.fedFromAir) :
    s.transitions.chan.farPayload = s.chan.farPayload := by
  unfold State.transitions
  rcases h with h | h | ⟨h, h0⟩ <;> rw [h] <;> dsimp only
  · unfold State.countListen
    simp only []
    split
    · simp [State.enterAlone, State.enterMember, State.enter, State.forgetViews, h, Channel.turn,
        StationState.receiverOn]
    · rfl
  · simp
  · unfold State.countLeaving
    rw [h0, if_neg (by decide)]

/-- What the far-end record's decision finds of the work before the transitions: the counted table and a bearer record that
differs in age and, within CLAIMING and BEARING, in state; the station, the records, the levels and the payloads as they
were, and no event of the audio work. -/
theorem State.cycleWork_forFar {s : State} (h : s.station.state.listening = true) (c : Cycle) :
    let u := (s.atInstant c.planned).cycleWork c
    u.peers = s.countedPeers ∧ u.station = s.station ∧ u.streams = s.streams ∧ u.config = s.config ∧ u.chan = s.chan ∧
      s.keepsAudioFlags u ∧ s.bearer.sameQueues u.bearer :=
  ⟨State.cycleWork_peers (s := s.atInstant c.planned) h c, by simp, by simp, by simp, by simp,
    State.keepsAudioFlags.trans (.of_flags rfl) (State.cycleWork_audio _ c), State.cycleWork_bearer (s.atInstant c.planned) c⟩

/-- Nothing after the deadline and the transitions touches the records or the events, where no effect of slot 15 waits. -/
theorem State.beginCycle_far (t : State) (c : Cycle) : ((t.rotateViews.beginCycle c).lateEffects []).streams = t.streams ∧
    ∀ f, ((t.rotateViews.beginCycle c).lateEffects []).flagSet f = t.flagSet f :=
  ⟨by simp [State.lateEffects], fun f => by unfold State.flagSet; simp [State.lateEffects]⟩

/-- The far-end record and its events after a cycle end at which no step jump ends the role (R122 to R127). -/
theorem State.endCycle_far {s : State} {order : DeadlineOrder} (h : s.fedAt order) (c : Cycle)
    (hr : roleMatches s.bearer.state s.farEnd.state = true) (hj : s.jumpDue c = false ∨ s.bearer.state ≠ .ending)
    (hl : s.chan.late = []) :
    (s.endCycle c order).streams.farEnd =
        (s.farDecided s.countedPeers).1.hangUpdate s.config.tAct.toNat (s.farDecided s.countedPeers).2 ∧
      ((s.endCycle c order).flagSet .farendUp ↔
        s.flagSet .farendUp ∨
          ((s.farTested s.countedPeers).state = .absent ∧ (s.farDecided s.countedPeers).1.state ≠ .absent)) ∧
      ((s.endCycle c order).flagSet .farendDown ↔
        s.flagSet .farendDown ∨
          (s.streams.farEnd.state ≠ .absent ∧ (s.farTested s.countedPeers).state = .absent) ∨
          ((s.farTested s.countedPeers).state ≠ .absent ∧ (s.farDecided s.countedPeers).1.state = .absent)) := by
  unfold State.endCycle
  rw [hl]
  obtain ⟨hp, hst, hss, hcc, hch, hF, hq⟩ := State.cycleWork_forFar h.listening c
  have hn : ((s.atInstant c.planned).cycleWork c).bearer.state = .ending →
      ((s.atInstant c.planned).cycleWork c).farEnd.state ≠ .none := by
    rcases hj with hj | hj
    · exact State.cycleWork_ending (s := s.atInstant c.planned) hr hj
    · exact fun x => absurd (hq.ending.1 x) hj
  generalize (s.atInstant c.planned).cycleWork c = u at hq hn hF hp hst hss hcc hch
  have hfu : u.fedAt order := by unfold State.fedAt; rw [hst]; exact h
  have hlt : u.bearer.lastTake = s.bearer.lastTake := by
    have := congrArg Bearer.lastTake hq.2.2
    exact this
  obtain ⟨hfd, hft⟩ := State.farDecided_congr (s := s) (t := u) (by rw [hst]) hq.1 hlt hss (by rw [hch]) s.countedPeers
  rw [(State.beginCycle_far _ c).1, (State.beginCycle_far _ c).2, (State.beginCycle_far _ c).2]
  cases order with
  | stateFirst =>
    obtain ⟨t2, t3⟩ := State.transitions_streams fun _ => hn
    have t1 := State.transitions_audio (fun _ => hn)
    have t4 := hfu.fedFromAir.transitions_payload
    have ht := hfu.fedFromAir.transitions
    have k := State.deadline_far ht.1
    obtain ⟨e2, e3⟩ := State.farDecided_congr (s := u) (t := u.transitions) ht.2.1 (by rw [t3]) (by rw [t3])
      t2 t4 s.countedPeers
    rw [(State.transitions_frame u).2.2.2.2.1, hp, e2, e3, hfd, hft, t2, hss,
      (State.transitions_frame u).2.2.2.2.2.2.2.2.1, hcc, t1 _ rfl, t1 _ rfl, hF _ rfl, hF _ rfl] at k
    exact k
  | deadlineFirst =>
    have k := State.deadline_far hfu.listening
    rw [hp, hfd, hft, hss, hcc, hF _ rfl, hF _ rfl] at k
    have hd : u.deadline.bearer.state = .ending → u.deadline.farEnd.state ≠ .none := by
      rw [u.deadline_bearerState]
      simpa using hn
    have t1 := State.transitions_audio (fun _ => hd)
    have t2 := (State.transitions_streams (fun _ => hd)).1
    show u.deadline.transitions.streams.farEnd = _ ∧ (u.deadline.transitions.flagSet _ ↔ _) ∧
      (u.deadline.transitions.flagSet _ ↔ _)
    rw [t2, t1 _ rfl, t1 _ rfl]
    exact k

/-- A step jump takes an ENDING role's claim away (R24). -/
theorem State.cycleWork_jumpEnds {s : State} {c : Cycle} (hr : roleMatches s.bearer.state s.farEnd.state = true)
    (hj : s.jumpDue c = true) (he : s.bearer.state = .ending) :
    (s.cycleWork c).bearer.state = .ending ∧ (s.cycleWork c).farEnd.state = .none := by
  refine ⟨(s.cycleWork_bearer c).ending.2 he, ?_⟩
  have hx : s.farEnd.state = .releasing := by
    rw [he] at hr
    cases hq : s.farEnd.state <;> simp [hq, roleMatches] at hr
    rfl
  have ha : ∀ t : State, t.ageBearer.farEnd = t.farEnd := fun t => by
    unfold State.ageBearer
    split <;> rfl
  have hk : ∀ t : State, t.early.jump.isNone = false → t.claimWork = t := fun t h => by
    unfold State.claimWork
    rw [h, Bool.and_false]
    rfl
  unfold State.cycleWork
  simp only [State.pairingWork_frame, State.surplusWork_frame, State.peerWork_frame]
  rw [ha, hk _ (by simp [State.jumpIfDue, hj, State.stepJump])]
  simp [State.jumpIfDue, hj, State.stepJump, State.makeJump, State.jumpClaims, State.forgetViews, Claim.jump, hx]
  rfl

/-- The far-end record and its events after a cycle end at which a step jump ends an ENDING role (R24, R125, R146): ABSENT
ahead of the deadline's work, or after it (assumption log 7). -/
theorem State.endCycle_farJump {s : State} (c : Cycle) (hr : roleMatches s.bearer.state s.farEnd.state = true)
    (hj : s.jumpDue c = true) (he : s.bearer.state = .ending) (hl : s.chan.late = []) :
    (let v := s.bearerToNone
     let e := s.endCycle c .stateFirst
     e.streams.farEnd = (v.farDecided s.countedPeers).1.hangUpdate s.config.tAct.toNat (v.farDecided s.countedPeers).2 ∧
      (e.flagSet .farendUp ↔
        s.flagSet .farendUp ∨
          ((v.farTested s.countedPeers).state = .absent ∧ (v.farDecided s.countedPeers).1.state ≠ .absent)) ∧
      (e.flagSet .farendDown ↔
        (s.flagSet .farendDown ∨ s.streams.farEnd.state ≠ .absent) ∨
          ((v.farTested s.countedPeers).state ≠ .absent ∧ (v.farDecided s.countedPeers).1.state = .absent))) ∧
    (let d := s.farDecided s.countedPeers
     let e := s.endCycle c .deadlineFirst
     e.streams.farEnd = (d.1.hangUpdate s.config.tAct.toNat d.2).toAbsent ∧
      (e.flagSet .farendUp ↔
        s.flagSet .farendUp ∨ ((s.farTested s.countedPeers).state = .absent ∧ d.1.state ≠ .absent)) ∧
      (e.flagSet .farendDown ↔
        (s.flagSet .farendDown ∨
          (s.streams.farEnd.state ≠ .absent ∧ (s.farTested s.countedPeers).state = .absent) ∨
          ((s.farTested s.countedPeers).state ≠ .absent ∧ d.1.state = .absent)) ∨ d.1.state ≠ .absent)) := by
  have hm : s.station.state = .member := by
    simp only [State.jumpDue, State.outnumberedNow, Bool.and_eq_true, beq_iff_eq] at hj
    exact hj.1.2.1
  have hlis : s.station.state.listening = true := by rw [hm]; rfl
  unfold State.endCycle
  rw [hl]
  obtain ⟨hp, hst, hss, hcc, hch, hF, hq⟩ := State.cycleWork_forFar hlis c
  have hn := State.cycleWork_jumpEnds (s := s.atInstant c.planned) (c := c) hr hj he
  generalize (s.atInstant c.planned).cycleWork c = u at hq hn hF hp hst hss hcc hch
  have hlt : u.bearer.lastTake = s.bearer.lastTake := by
    have := congrArg Bearer.lastTake hq.2.2
    exact this
  obtain ⟨hfd, hft⟩ := State.farDecided_congr (s := s) (t := u) (by rw [hst]) hq.1 hlt hss (by rw [hch]) s.countedPeers
  have htr : ∀ t : State, t.station = s.station → t.bearer.state = .ending → t.farEnd.state = .none →
      t.transitions = t.bearerToNone := fun t h1 h2 h3 => by
    unfold State.transitions State.settleRole
    rw [h1, hm]
    simp [h2, h3]
  have down : ∀ t : State, (t.bearerToNone.flagSet .farendDown ↔
      t.flagSet .farendDown ∨ t.streams.farEnd.state ≠ .absent) ∧
      (t.bearerToNone.flagSet .farendUp ↔ t.flagSet .farendUp) := fun t => by
    unfold State.bearerToNone State.farRecordAbsent
    constructor <;> rw [State.raiseIf_flagSet] <;> simp [State.flagSet]
  refine ⟨?_, ?_⟩
  · simp only []
    rw [(State.beginCycle_far _ c).1, (State.beginCycle_far _ c).2, (State.beginCycle_far _ c).2]
    show u.transitions.deadline.streams.farEnd = _ ∧ (u.transitions.deadline.flagSet _ ↔ _) ∧
      (u.transitions.deadline.flagSet _ ↔ _)
    rw [htr u hst hn.1 hn.2]
    have k := State.deadline_far (s := u.bearerToNone) (by simp [hst, hlis])
    obtain ⟨e2, e3⟩ := State.farDecided_congr (s := s.bearerToNone) (t := u.bearerToNone) (by simp [hst])
      (by simp) (by simp) (by simp [hss]) (by simp [hch]) s.countedPeers
    rw [(State.bearerToNone_frame u).2.2.2.2.2.2.2.2.1, hp, e2, e3, (down u).1, (down u).2, hss, hF _ rfl, hF _ rfl] at k
    simp only [State.bearerToNone_frame, hcc, State.bearerToNone_streams, hss] at k
    refine ⟨k.1, k.2.1, k.2.2.trans ?_⟩
    simp [StreamRec.toAbsent]
  · simp only []
    rw [(State.beginCycle_far _ c).1, (State.beginCycle_far _ c).2, (State.beginCycle_far _ c).2]
    show u.deadline.transitions.streams.farEnd = _ ∧ (u.deadline.transitions.flagSet _ ↔ _) ∧
      (u.deadline.transitions.flagSet _ ↔ _)
    have k := State.deadline_far (s := u) (by simp [hst, hlis])
    rw [hp, hfd, hft, hss, hcc, hF _ rfl, hF _ rfl] at k
    rw [htr u.deadline (by simp [hst]) (by rw [u.deadline_bearerState]; exact hn.1) (by simpa using hn.2),
      (down _).1, (down _).2, k.2.1, k.2.2, State.bearerToNone_streams, k.1]
    exact ⟨rfl, Iff.rfl, by simp [StreamRec.hangUpdate]⟩

/-! ### A cycle end that silences the records (Table 7-3) -/

/-- A cycle end whose frame deadline meets IDLE, SEEKING or JOINING: the second one of LEAVING does so when the transition
comes first (R115). -/
def State.silentAt (s : State) (order : DeadlineOrder) : Prop :=
  s.station.state = .idle ∨ s.station.state = .seeking ∨ s.station.state = .joining ∨
    (s.station.state = .leaving ∧ 1 ≤ s.station.leavingEnds ∧ order = .stateFirst)

/-- A deadline in such a state makes every record ABSENT, with FAREND_DOWN where the far end was present. -/
theorem State.deadline_silent {s : State} (h : s.station.state.listening = false) :
    s.deadline.streams.wearers = s.streams.wearers.map StreamRec.withoutSource ∧
      s.deadline.streams.farEnd = s.streams.farEnd.withoutSource ∧
      (s.deadline.flagSet .farendDown ↔ s.flagSet .farendDown ∨ s.streams.farEnd.state ≠ .absent) := by
  have e : StreamRec.silenced = StreamRec.withoutSource := funext fun r => r.toAbsent_withoutSource 0 none
  rw [State.deadline_streams, s.deadline_farFlags (Or.inr rfl)]
  unfold State.updateStreams State.silenceStreams
  rw [h, e]
  refine ⟨by simp, by simp, ?_⟩
  simp only [Bool.false_eq_true, if_false]
  rw [State.raiseIf_flagSet]
  simp [State.flagSet]

/-- What the transitions of such a cycle end leave. -/
theorem State.silentAt.transitions {s : State} (h : s.silentAt .stateFirst) :
    s.transitions.station.state.listening = false := by
  unfold State.transitions
  rcases h with h | h | h | ⟨h, h1, -⟩ <;> rw [h] <;> dsimp only
  · rw [h]; rfl
  · unfold State.countSeek State.pairTimeout
    repeat' split
    all_goals simp [h, State.enter, StationState.listening]
  · unfold State.decideNewcomer State.pairTimeout
    repeat' split
    all_goals simp [h, State.enter, StationState.listening]
  · unfold State.countLeaving
    rw [if_pos (by omega)]
    rfl

/-- The late effects of slot 15 touch the far-end record and its events through an end of the role alone. -/
theorem State.lateEffects_far (es : List LateEffect) {s : State} (hs : s.station.state.inGroup = false)
    (hb : s.bearer.state = .none) : (s.lateEffects es).streams = s.streams ∧
      (s.lateEffects es).flagSet .farendDown = s.flagSet .farendDown := by
  unfold State.lateEffects
  induction es generalizing s with
  | nil => exact ⟨rfl, rfl⟩
  | cons e es ih =>
    have h : (s.lateEffect e).streams = s.streams ∧ (s.lateEffect e).station = s.station ∧
        (s.lateEffect e).bearer = s.bearer ∧ (s.lateEffect e).flagSet .farendDown = s.flagSet .farendDown := by
      have k := s.closeWindow_audio .yielded Flag.farendDown rfl
      cases e <;> simp [State.lateEffect, hs, hb, BearerState.claims, k]
    obtain ⟨h1, h2, h3, h4⟩ := h
    have := ih (s := s.lateEffect e) (by rw [h2]; exact hs) (by rw [h3]; exact hb)
    exact ⟨this.1.trans h1, this.2.trans h4⟩

/-- The stream records after such a cycle end; the far-end record where no late end of a role touches it (R115, R127). -/
theorem State.endCycle_silent {s : State} {order : DeadlineOrder} (h : s.silentAt order) (c : Cycle) :
    ((s.endCycle c order).streams.wearers = s.streams.wearers.map StreamRec.withoutSource ∧
      (s.endCycle c order).streams.list = []) ∧
    (s.chan.late = [] ∨ s.bearer.state = .none →
      (s.endCycle c order).streams.farEnd = s.streams.farEnd.withoutSource ∧
      ((s.endCycle c order).flagSet .farendDown ↔ s.flagSet .farendDown ∨ s.streams.farEnd.state ≠ .absent)) := by
  unfold State.endCycle
  have hq := (State.cycleWork_bearer (s.atInstant c.planned) c).1
  have hF : s.keepsAudioFlags ((s.atInstant c.planned).cycleWork c) :=
    State.keepsAudioFlags.trans (.of_flags rfl) (State.cycleWork_audio _ c)
  have hst : ((s.atInstant c.planned).cycleWork c).station = s.station := by simp
  have hss : ((s.atInstant c.planned).cycleWork c).streams = s.streams := by simp
  generalize (s.atInstant c.planned).cycleWork c = u at hq hF hst hss
  have hu : u.silentAt order := by unfold State.silentAt; rw [hst]; exact h
  have hm : u.station.state = .member → u.bearer.state = .ending → u.farEnd.state ≠ .none := fun k => by
    rcases hu with e | e | e | ⟨e, -⟩ <;> rw [k] at e <;> cases e
  have key : ((u.deadlineWork order).streams.wearers = s.streams.wearers.map StreamRec.withoutSource ∧
        (u.deadlineWork order).streams.list = []) ∧
      (u.deadlineWork order).streams.farEnd = s.streams.farEnd.withoutSource ∧
      ((u.deadlineWork order).flagSet .farendDown ↔ s.flagSet .farendDown ∨ s.streams.farEnd.state ≠ .absent) ∧
      (u.deadlineWork order).station.state.listening = false ∧
      (s.bearer.state = .none → (u.deadlineWork order).bearer.state = .none) := by
    cases order with
    | stateFirst =>
      have ht := hu.transitions
      have hb := State.transitions_streams hm
      obtain ⟨k1, k2, k3⟩ := State.deadline_silent ht
      rw [hb.1, hss] at k1 k2 k3
      rw [State.transitions_audio hm _ rfl, hF _ rfl] at k3
      refine ⟨⟨k1, State.deadline_list _⟩, k2, k3, ?_, fun e => ?_⟩
      · show u.transitions.deadline.station.state.listening = false
        simpa using ht
      · show u.transitions.deadline.bearer.state = .none
        rw [State.deadline_bearerState, hb.2]
        exact hq.2 e
    | deadlineFirst =>
      have hd : u.deadline.silentAt .stateFirst := by
        unfold State.silentAt
        rcases hu with e | e | e | ⟨-, -, e⟩
        · exact Or.inl (by simpa using e)
        · exact Or.inr (Or.inl (by simpa using e))
        · exact Or.inr (Or.inr (Or.inl (by simpa using e)))
        · cases e
      have hl : u.station.state.listening = false := by
        rcases hu with e | e | e | ⟨-, -, e⟩
        · rw [e]; rfl
        · rw [e]; rfl
        · rw [e]; rfl
        · cases e
      have hm' : u.deadline.station.state = .member → u.deadline.bearer.state = .ending →
          u.deadline.farEnd.state ≠ .none := fun k => by
        simp only [State.deadline_frame] at k
        rw [k] at hl
        cases hl
      have hb := State.transitions_streams hm'
      obtain ⟨k1, k2, k3⟩ := State.deadline_silent hl
      rw [hss] at k1 k2 k3
      rw [hF _ rfl] at k3
      show (u.deadline.transitions.streams.wearers = _ ∧ u.deadline.transitions.streams.list = _) ∧
        u.deadline.transitions.streams.farEnd = _ ∧ (u.deadline.transitions.flagSet .farendDown ↔ _) ∧
        u.deadline.transitions.station.state.listening = false ∧ (_ → u.deadline.transitions.bearer.state = .none)
      rw [hb.1, hb.2, State.transitions_audio hm' _ rfl, State.deadline_bearerState]
      exact ⟨⟨k1, State.deadline_list _⟩, k2, k3, hd.transitions, hq.2⟩
  obtain ⟨⟨k1, k2⟩, k3, k4, k5, k6⟩ := key
  have hg : (u.deadlineWork order).station.state.inGroup = false := by
    cases e : (u.deadlineWork order).station.state <;> simp_all [StationState.listening, StationState.inGroup]
  generalize u.deadlineWork order = v at k1 k2 k3 k4 k6 hg
  have hv : (v.rotateViews.beginCycle c).streams = v.streams ∧
      (v.rotateViews.beginCycle c).flagSet .farendDown = v.flagSet .farendDown :=
    ⟨by simp, by unfold State.flagSet; simp⟩
  refine ⟨?_, fun hl => ?_⟩
  · rw [(State.lateEffects_wearers _ _).1, (State.lateEffects_wearers _ _).2, hv.1]
    exact ⟨k1, k2⟩
  · have hw : ((v.rotateViews.beginCycle c).lateEffects s.chan.late).streams = v.streams ∧
        ((v.rotateViews.beginCycle c).lateEffects s.chan.late).flagSet .farendDown = v.flagSet .farendDown := by
      rcases hl with e | e
      · rw [e]
        exact hv
      · have := State.lateEffects_far s.chan.late (s := v.rotateViews.beginCycle c) (by simpa using hg)
          (by simpa using k6 e)
        exact ⟨this.1.trans hv.1, this.2.trans hv.2⟩
    rw [hw.1, hw.2]
    exact ⟨k3, k4⟩

/-! ### The playout frame and the uplink queue after a cycle end -/

/-- The speaker sum depends on these pieces alone. -/
theorem State.speakerSum_congr {s t : State} (hs : t.streams = s.streams) (hn : t.station.creds = s.station.creds)
    (hc : t.config = s.config) : t.speakerSum = s.speakerSum := by
  unfold State.speakerSum State.speakerCount State.otherWearers
  rw [hs, hn, hc]

/-- The playout frame after a deadline: the mix of the records it leaves, with the capture frame that was complete. -/
theorem State.deadline_playout (s : State) :
    s.deadline.codec.playout = List.zipWith (speakerSample s.config) s.deadline.speakerSum s.codec.capture := by
  have h : s.deadline.codec.playout = List.zipWith (speakerSample s.config)
      ((((s.updateStreams s.peers).prepareVoice).takeDownlink).uplinkWork).speakerSum s.codec.capture := by
    unfold State.deadline
    show State.speakerFrame _ = _
    unfold State.speakerFrame
    simp
  rw [h]
  congr 1

/-- The credentials stand through the transitions of a cycle end. -/
theorem State.transitions_creds (s : State) : s.transitions.station.creds = s.station.creds := by
  unfold State.transitions State.countListen State.enterAlone State.enterMember State.countSeek State.decideNewcomer
    State.pairTimeout State.countLeaving
  repeat' split
  all_goals simp [State.forgetViews]

/-- The playout frame after a cycle end (R133 to R135). -/
theorem State.endCycle_playout {s : State} (c : Cycle) (order : DeadlineOrder) (hl : s.chan.late = [])
    (ho : order = .stateFirst ∨ s.bearer.state ≠ .ending) :
    (s.endCycle c order).codec.playout =
      List.zipWith (speakerSample s.config) (s.endCycle c order).speakerSum s.codec.capture := by
  unfold State.endCycle
  rw [hl]
  have hq := (State.cycleWork_bearer (s.atInstant c.planned) c).ending
  have hcc : ((s.atInstant c.planned).cycleWork c).config = s.config := by simp
  have hcd : ((s.atInstant c.planned).cycleWork c).codec = s.codec := by simp
  generalize (s.atInstant c.planned).cycleWork c = u at hq hcc hcd
  have last : ∀ t : State, ((t.rotateViews.beginCycle c).lateEffects []).codec.playout = t.codec.playout ∧
      ((t.rotateViews.beginCycle c).lateEffects []).speakerSum = t.speakerSum := fun t =>
    ⟨by simp [State.lateEffects, State.beginCycle],
      State.speakerSum_congr (by simp [State.lateEffects]) (by simp [State.lateEffects]) (by simp)⟩
  rw [(last _).1, (last _).2, ← hcc, ← hcd]
  cases order with
  | stateFirst =>
    show u.transitions.deadline.codec.playout = List.zipWith _ u.transitions.deadline.speakerSum _
    rw [State.deadline_playout]
    simp
  | deadlineFirst =>
    have hb : s.bearer.state ≠ .ending := ho.resolve_left (by decide)
    have he := u.deadline_bearerState
    have hs := State.transitions_streams (s := u.deadline) fun _ => by rw [he]; exact fun x => absurd (hq.1 x) hb
    show u.deadline.transitions.codec.playout = List.zipWith _ u.deadline.transitions.speakerSum _
    rw [State.speakerSum_congr hs.1 (State.transitions_creds _) (by simp), (State.transitions_frame _).2.2.2.2.2.2.2.2.2.2.1,
      State.deadline_playout]

/-- The uplink work of a deadline, on the records that the deadline leaves. -/
theorem State.deadline_uplink (s : State) :
    (s.bearer.state.claims = false →
      s.deadline.bearer.uplink = s.bearer.uplink ∧ s.deadline.flagSet .uplinkOverrun = s.flagSet .uplinkOverrun) ∧
    (s.bearer.state.claims = true →
      let j := joinSamples s.bearer.uplink.length s.deadline.uplinkFrame
      s.deadline.bearer.uplink = joinedQueue s.bearer.uplink j ∧
        s.deadline.flagSet .uplinkOverrun =
          (s.flagSet .uplinkOverrun || decide (640 < s.bearer.uplink.length + j.length))) := by
  set v := ((s.updateStreams s.peers).prepareVoice).takeDownlink with hv
  have hd : s.deadline = v.uplinkWork.handFrames := rfl
  have hb : v.bearer.uplink = s.bearer.uplink ∧ v.bearer.state = s.bearer.state := by
    rw [hv]
    unfold State.takeDownlink State.makeTake
    repeat' split
    all_goals simp [Bearer.afterFrame]
  have hr : ∀ (t : State) (b : Bool) (f : Flag), f ≠ .uplinkOverrun →
      (t.raiseIf b f).flagSet .uplinkOverrun = t.flagSet .uplinkOverrun := fun t b f h => by
    rw [State.raiseIf_flagSet]
    simp [h]
  have hf : v.flagSet .uplinkOverrun = s.flagSet .uplinkOverrun := by
    have h2 : ∀ t : State, t.takeDownlink.flagSet .uplinkOverrun = t.flagSet .uplinkOverrun := fun t => by
      unfold State.takeDownlink State.makeTake
      repeat' split
      · exact hr _ _ _ (by decide)
      · rfl
      · rfl
    have h1 : ∀ t : State, t.prepareVoice.flagSet .uplinkOverrun = t.flagSet .uplinkOverrun := fun t => by
      unfold State.flagSet
      simp
    have h0 : (s.updateStreams s.peers).flagSet .uplinkOverrun = s.flagSet .uplinkOverrun := by
      unfold State.updateStreams State.updateFromAir State.silenceStreams State.raiseFarEvents
      split
      · rw [hr _ _ _ (by decide), hr _ _ _ (by decide)]
        rfl
      · rw [hr _ _ _ (by decide)]
        rfl
    rw [hv, h2, h1, h0]
  have hu : s.deadline.uplinkFrame = v.uplinkFrame := by
    have e1 : s.deadline.streams = v.streams := by rw [hd]; simp
    have e2 : s.deadline.config = v.config := by rw [hd]; simp
    unfold State.uplinkFrame
    rw [e1, e2]
  have hh : ∀ t : State, t.handFrames.bearer = t.bearer ∧ t.handFrames.flagSet .uplinkOverrun = t.flagSet .uplinkOverrun :=
    fun t => ⟨rfl, by unfold State.flagSet; simp⟩
  rw [hu]
  rw [hd, (hh _).1, (hh _).2]
  unfold State.uplinkWork
  rw [hb.2]
  constructor <;> intro h <;> rw [h]
  · exact ⟨hb.1, hf⟩
  · simp only [if_true]
    unfold State.joinUplink
    simp only []
    rw [← hb.1, ← hf, State.raiseIf_flagSet]
    exact ⟨by simp, by simp [State.flagSet]⟩

/-- The transitions of a cycle end leave the bearer's state or end the role, and raise no overrun of the uplink queue. -/
theorem State.transitions_role (s : State) :
    (s.transitions.bearer.state = s.bearer.state ∨ s.transitions.bearer.state = .none) ∧
      s.transitions.flagSet .uplinkOverrun = s.flagSet .uplinkOverrun := by
  by_cases h : s.station.state = .member → s.bearer.state = .ending → s.farEnd.state ≠ .none
  · exact ⟨Or.inl (by rw [(State.transitions_streams h).2]), State.transitions_audio h _ rfl⟩
  · simp only [Classical.not_imp, not_not] at h
    have e : s.transitions = s.bearerToNone := by
      unfold State.transitions
      rw [h.1]
      exact if_pos h.2
    rw [e]
    refine ⟨Or.inr (by rw [State.bearerToNone_bearer]; rfl), ?_⟩
    unfold State.bearerToNone State.farRecordAbsent
    rw [State.raiseIf_flagSet]
    simp [State.flagSet]

/-- The uplink queue and its overrun after a cycle end (R136, R153, R154). -/
theorem State.endCycle_uplink {s : State} (c : Cycle) (order : DeadlineOrder) (hl : s.chan.late = []) :
    (s.bearer.state = .none → (s.endCycle c order).bearer.uplink = s.bearer.uplink ∧
      (s.endCycle c order).flagSet .uplinkOverrun = s.flagSet .uplinkOverrun) ∧
    (s.bearer.state.claims = true →
      let j := joinSamples s.bearer.uplink.length (s.endCycle c order).uplinkFrame
      (s.endCycle c order).bearer.uplink = joinedQueue s.bearer.uplink j ∧
        (s.endCycle c order).flagSet .uplinkOverrun =
          (s.flagSet .uplinkOverrun || decide (640 < s.bearer.uplink.length + j.length))) ∧
    (s.bearer.state = .ending → (s.endCycle c order).flagSet .uplinkOverrun = s.flagSet .uplinkOverrun ∧
      (roleMatches s.bearer.state s.farEnd.state = true → s.jumpDue c = false →
        (s.endCycle c order).bearer.uplink = s.bearer.uplink)) := by
  unfold State.endCycle
  rw [hl]
  have hq := State.cycleWork_bearer (s.atInstant c.planned) c
  have hn := fun hr hj => State.cycleWork_ending (s := s.atInstant c.planned) hr (c := c) hj
  have hF : s.keepsAudioFlags ((s.atInstant c.planned).cycleWork c) :=
    State.keepsAudioFlags.trans (.of_flags rfl) (State.cycleWork_audio _ c)
  generalize (s.atInstant c.planned).cycleWork c = u at hq hF hn
  change s.bearer.sameQueues u.bearer at hq
  have hup : u.bearer.uplink = s.bearer.uplink := by
    have := congrArg Bearer.uplink hq.2.2
    exact this
  have last : ∀ t : State, ((t.rotateViews.beginCycle c).lateEffects []).bearer = t.bearer ∧
      ((t.rotateViews.beginCycle c).lateEffects []).flagSet .uplinkOverrun = t.flagSet .uplinkOverrun ∧
      ((t.rotateViews.beginCycle c).lateEffects []).uplinkFrame = t.uplinkFrame := fun t => by
    refine ⟨by simp [State.lateEffects], by unfold State.flagSet; simp [State.lateEffects], ?_⟩
    unfold State.uplinkFrame
    simp [State.lateEffects]
  rw [(last _).1, (last _).2.1, (last _).2.2, ← hup, ← hF _ rfl]
  have key : (u.bearer.state = .ending → u.farEnd.state ≠ .none) →
      (u.bearer.state.claims = false → (u.deadlineWork order).bearer.uplink = u.bearer.uplink ∧
        (u.deadlineWork order).flagSet .uplinkOverrun = u.flagSet .uplinkOverrun) ∧
      (u.bearer.state.claims = true →
        let j := joinSamples u.bearer.uplink.length (u.deadlineWork order).uplinkFrame
        (u.deadlineWork order).bearer.uplink = joinedQueue u.bearer.uplink j ∧
          (u.deadlineWork order).flagSet .uplinkOverrun =
            (u.flagSet .uplinkOverrun || decide (640 < u.bearer.uplink.length + j.length))) := fun he => by
    cases order with
    | stateFirst =>
      have k := State.deadline_uplink u.transitions
      rw [(State.transitions_streams (fun _ => he)).2, State.transitions_audio (fun _ => he) _ rfl] at k
      exact k
    | deadlineFirst =>
      have hd : u.deadline.bearer.state = .ending → u.deadline.farEnd.state ≠ .none := by
        rw [u.deadline_bearerState]
        simpa using he
      have k := State.deadline_uplink u
      have e : u.deadline.transitions.uplinkFrame = u.deadline.uplinkFrame := by
        unfold State.uplinkFrame
        rw [(State.transitions_streams (fun _ => hd)).1, (State.transitions_frame u.deadline).2.2.2.2.2.2.2.2.1]
      have f := State.transitions_audio (fun _ => hd) Flag.uplinkOverrun rfl
      have w : u.deadlineWork .deadlineFirst = u.deadline.transitions := rfl
      rw [w, f, e, (State.transitions_streams (fun _ => hd)).2]
      exact k
  refine ⟨fun h => ?_, fun h => ?_, fun h => ⟨?_, fun hr hj => ?_⟩⟩
  · have h1 := hq.1.2 h
    exact (key fun x => by rw [h1] at x; cases x).1 (by rw [h1]; rfl)
  · have h1 := hq.2.1.trans h
    exact (key (fun x => by rw [x] at h1; cases h1)).2 h1
  · have h1 : u.bearer.state = .ending := hq.ending.2 h
    cases order with
    | stateFirst =>
      refine Eq.trans ((State.deadline_uplink u.transitions).1 ?_).2 u.transitions_role.2
      rcases u.transitions_role.1 with e | e <;> rw [e]
      · rw [h1]; rfl
      · rfl
    | deadlineFirst => exact u.deadline.transitions_role.2.trans ((State.deadline_uplink u).1 (by rw [h1]; rfl)).2
  · exact ((key (hn hr hj)).1 (by rw [hq.ending.2 h]; rfl)).1

end Sys2Proof.Machine
end

