-- ==== Sys2Proof/Laws/Events.lean ====
section
/-! SUPPORT. Which events each piece of a cycle end can raise: one lemma for each piece, with the list of its events, so
that a proof about one event passes over every piece that does not raise it. -/

namespace Sys2Proof.Machine

/-- From `s` to `t` no event outside the list is raised, and none is cleared. -/
def State.raisesOnly (s t : State) (fs : List Flag) : Prop := ∀ g, g ∉ fs → t.flagSet g = s.flagSet g

/-- One stage after another. -/
theorem State.raisesOnly.trans {s t u : State} {fs gs : List Flag} (h : s.raisesOnly t fs) (k : t.raisesOnly u gs) :
    s.raisesOnly u (fs ++ gs) := fun g hg => by
  simp only [List.mem_append, not_or] at hg
  exact (k g hg.2).trans (h g hg.1)

/-- A longer list. -/
theorem State.raisesOnly.mono {s t : State} {fs gs : List Flag} (h : s.raisesOnly t fs) (i : ∀ f ∈ fs, f ∈ gs) :
    s.raisesOnly t gs := fun g hg => h g fun k => hg (i g k)

/-- The flags alone count. -/
theorem State.raisesOnly.of_flags {s t : State} (e : t.flags = s.flags) (fs : List Flag) : s.raisesOnly t fs :=
  fun g _ => by unfold State.flagSet; rw [e]

/-- One event raised. -/
theorem State.raisesOnly.raise {s t : State} {fs : List Flag} (h : s.raisesOnly t fs) {f : Flag} (hf : f ∈ fs) :
    s.raisesOnly (t.raise f) fs := fun g hg => by
  have : f ≠ g := fun e => hg (e ▸ hf)
  rw [State.raise_flagSet, h g hg]
  simp [this]

/-- One event raised or not. -/
theorem State.raisesOnly.raiseIf {s t : State} {fs : List Flag} (h : s.raisesOnly t fs) (b : Bool) {f : Flag}
    (hf : f ∈ fs) : s.raisesOnly (t.raiseIf b f) fs := by
  unfold State.raiseIf
  split
  · exact h.raise hf
  · exact h

/-- Several events raised. -/
theorem State.raisesOnly.raiseAll {s t : State} {fs : List Flag} (h : s.raisesOnly t fs) (gs : List Flag)
    (hg : ∀ g ∈ gs, g ∈ fs) : s.raisesOnly (t.raiseAll gs) fs := by
  unfold State.raiseAll
  induction gs generalizing t with
  | nil => exact h
  | cons g gs ih => exact ih (h.raise (hg g (by simp))) fun x hx => hg x (by simp [hx])

/-- Either of two stages. -/
theorem State.raisesOnly.ite {s t u : State} {fs : List Flag} (b : Prop) [Decidable b] (h : s.raisesOnly t fs)
    (k : s.raisesOnly u fs) : s.raisesOnly (if b then t else u) fs := by
  split
  · exact h
  · exact k

/-- Two stages with events of one list. -/
theorem State.raisesOnly.andThen {s t u : State} {fs : List Flag} (h : s.raisesOnly t fs) (k : t.raisesOnly u fs) :
    s.raisesOnly u fs := fun g hg => (k g hg).trans (h g hg)

/-! ### The pieces before the transitions -/

/-- The step jump. -/
theorem State.jumpIfDue_raises (s : State) (c : Cycle) : s.raisesOnly (s.jumpIfDue c) [.stepJump] := by
  unfold State.jumpIfDue
  split
  · unfold State.stepJump State.makeJump
    refine State.raisesOnly.trans (fs := []) (gs := [.stepJump]) (.of_flags ?_ _)
      (t := ({ s.jumpClaims.forgetViews.jumpLapse with
        timer := { s.timer with stepLoss := 0, lastCorrection := 0 } } : State)) (.raise (.of_flags rfl _) (by simp))
    simp [State.forgetViews]
  · exact .of_flags rfl _

/-- The claim work. -/
theorem State.claimWork_raises (s : State) :
    s.raisesOnly s.claimWork [.groupFull, .claimConfirmed, .claimLost, .bearerUp] := by
  have hd : ∀ (cl : Claim) (f : ClaimFacts) (o : Option SlotIx), ∀ g ∈ (cl.decideOn f o).2,
      g ∈ [Flag.groupFull, .claimConfirmed, .claimLost, .bearerUp] := by
    intro cl f o g
    unfold Claim.decideOn Claim.decideWaiting Claim.decideTentative Claim.decideConfirmed Claim.decideHoldoff
    repeat' split
    all_goals simp
    all_goals (intro h; subst h; decide)
  have hv : ∀ (s : State) (f : ClaimFacts),
      s.raisesOnly (s.decideVoice f) [.groupFull, .claimConfirmed, .claimLost, .bearerUp] := fun s f => by
    unfold State.decideVoice
    exact State.raisesOnly.raiseAll (.of_flags rfl _) _ (hd _ _ _)
  have hf : ∀ (s : State) (f : ClaimFacts),
      s.raisesOnly (s.decideFar f) [.groupFull, .claimConfirmed, .claimLost, .bearerUp] := fun s f => by
    unfold State.decideFar
    have h : s.raisesOnly (State.raiseAll { s with
        farEnd := (s.farEnd.decideOn f s.voice.slot).1.clearMarks, early := { s.early with farDecided := true } }
        (s.farEnd.decideOn f s.voice.slot).2) [.groupFull, .claimConfirmed, .claimLost, .bearerUp] :=
      State.raisesOnly.raiseAll (.of_flags rfl _) _ (hd _ _ _)
    refine h.andThen ?_
    unfold State.bearerFollows
    exact .ite _ (.raise (.of_flags rfl _) (by simp)) (.ite _ (.of_flags rfl _) (.of_flags rfl _))
  unfold State.claimWork State.decideClaims
  have h1 := State.raisesOnly.ite (s.early.voiceDecided = true) (.of_flags rfl _) (hv s (s.claimFacts s.countedPeers))
  exact .ite _ (.ite _ h1 (h1.andThen (hf _ _))) (.of_flags rfl _)

/-- The ageing. -/
theorem State.peerWork_raises (s : State) : s.raisesOnly s.peerWork [.peerLost] := by
  unfold State.peerWork State.agePeers
  split
  · exact .raiseIf (.of_flags rfl _) _ (by simp)
  · exact .of_flags rfl _

/-- The surplus episode. -/
theorem State.surplusWork_raises (s : State) : s.raisesOnly s.surplusWork [.wearerSurplus] := by
  unfold State.surplusWork State.deriveSurplus
  split
  · exact .raiseIf (.of_flags rfl _) _ (by simp)
  · exact .of_flags rfl _

/-- The countdowns of pairing. -/
theorem State.pairingWork_raises (s : State) : s.raisesOnly s.pairingWork [.pairingEnded] := by
  have hw : s.raisesOnly s.countWindow [.pairingEnded] := by
    unfold State.countWindow
    split
    · dsimp only
      split
      · unfold State.closeWindow
        split
        · exact .raise (.of_flags rfl _) (by simp [CloseCause.flag])
        · exact .of_flags rfl _
      · exact .of_flags rfl _
    · exact .of_flags rfl _
  unfold State.pairingWork
  split
  · have h1 := State.raisesOnly.ite (s.early.windowCounted = true) (.of_flags rfl _) hw
    exact .ite _ h1 (h1.andThen (.of_flags (by simp) _))
  · exact .of_flags rfl _

/-- All the work before the transitions. -/
theorem State.cycleWork_raises (s : State) (c : Cycle) :
    s.raisesOnly (s.cycleWork c) [.stepJump, .groupFull, .claimConfirmed, .claimLost, .bearerUp, .peerLost, .wearerSurplus,
      .pairingEnded] := by
  unfold State.cycleWork
  have h1 := (s.jumpIfDue_raises c).trans (State.raisesOnly.of_flags (t := (s.jumpIfDue c).timerWork c) rfl [])
  have h2 := h1.trans (State.claimWork_raises _)
  have h3 := h2.trans (State.raisesOnly.of_flags (t := ((s.jumpIfDue c).timerWork c).claimWork.ageBearer) (by simp) [])
  have h4 := ((h3.trans (State.peerWork_raises _)).trans (State.surplusWork_raises _)).trans (State.pairingWork_raises _)
  exact h4

/-! ### The transitions and the audio work -/

/-- The change of station state, the newcomer's countdowns and the end of a role. -/
theorem State.transitions_raises (s : State) :
    s.raisesOnly s.transitions [.stateChanged, .pairTimeout, .farendDown] := by
  have he : ∀ (t : State) (st : StationState), t.raisesOnly (t.enter st) [.stateChanged, .pairTimeout, .farendDown] :=
    fun t st => by
      unfold State.enter
      exact .raise (.of_flags rfl _) (by simp)
  have hp : ∀ t : State, t.raisesOnly t.pairTimeout [.stateChanged, .pairTimeout, .farendDown] := fun t => by
    unfold State.pairTimeout
    exact .raise ((State.raisesOnly.of_flags rfl _).andThen (he t.dropNewcomer _)) (by simp)
  unfold State.transitions
  split
  · unfold State.countListen
    dsimp only
    split
    · unfold State.enterAlone State.enterMember
      have hm := he { s with station := { s.station with listenCount := min (s.station.listenCount + 1) 4 } } .member
      exact (State.raisesOnly.of_flags rfl _).andThen (hm.andThen (.of_flags rfl _))
    · exact .of_flags rfl _
  · unfold State.countSeek
    split
    · exact .of_flags rfl _
    · split
      · exact hp s
      · exact .of_flags rfl _
  · unfold State.decideNewcomer
    split
    · exact .of_flags rfl _
    · split
      · exact .of_flags rfl _
      · split
        · exact .of_flags rfl _
        · exact hp s
  · unfold State.settleRole
    split
    · unfold State.bearerToNone State.farRecordAbsent
      exact .raiseIf (.of_flags rfl _) _ (by simp)
    · exact .of_flags rfl _
  · unfold State.countLeaving
    split
    · exact he _ _
    · exact .of_flags rfl _
  · exact .of_flags rfl _
  · exact .of_flags rfl _

/-- The stream records' update. -/
theorem State.updateStreams_raises (s : State) (ps : List Peer) :
    s.raisesOnly (s.updateStreams ps) [.farendUp, .farendDown] := by
  unfold State.updateStreams
  split
  · unfold State.updateFromAir State.raiseFarEvents
    exact .raiseIf (.raiseIf (.of_flags rfl _) _ (by simp)) _ (by simp)
  · unfold State.silenceStreams
    exact .raiseIf (.of_flags rfl _) _ (by simp)

/-- The take. -/
theorem State.takeDownlink_raises (s : State) : s.raisesOnly s.takeDownlink [.downlinkUnderrun] := by
  unfold State.takeDownlink State.makeTake
  split
  · split
    · exact .raiseIf (.of_flags rfl _) _ (by simp)
    · exact .of_flags rfl _
  · exact .of_flags rfl _

/-- The uplink work. -/
theorem State.uplinkWork_raises (s : State) : s.raisesOnly s.uplinkWork [.uplinkOverrun] := by
  unfold State.uplinkWork State.joinUplink
  split
  · dsimp only
    exact .raiseIf (.of_flags (by simp only) _) _ (List.mem_singleton.mpr rfl)
  · exact .of_flags rfl _

/-- The audio work of a frame deadline. -/
theorem State.deadline_raises (s : State) :
    s.raisesOnly s.deadline [.farendUp, .farendDown, .downlinkUnderrun, .uplinkOverrun] := by
  unfold State.deadline
  have h1 := (s.updateStreams_raises s.peers).trans
    (State.raisesOnly.of_flags (t := (s.updateStreams s.peers).prepareVoice) rfl [])
  have h2 := (h1.trans (State.takeDownlink_raises _)).trans (State.uplinkWork_raises _)
  exact h2.trans (State.raisesOnly.of_flags rfl [])

/-- Transitions and audio work, in either order. -/
theorem State.deadlineWork_raises (s : State) (order : DeadlineOrder) :
    s.raisesOnly (s.deadlineWork order) [.stateChanged, .pairTimeout, .farendUp, .farendDown, .downlinkUnderrun,
      .uplinkOverrun] := by
  cases order with
  | stateFirst => exact ((State.transitions_raises s).trans (State.deadline_raises _)).mono (by simp)
  | deadlineFirst => exact ((State.deadline_raises s).trans (State.transitions_raises _)).mono (by simp)

/-! ### The whole cycle end where no effect of slot 15 waits -/

/-- The state from which the transitions and the audio work start. -/
def State.atDeadline (s : State) (c : Cycle) : State := (s.atInstant c.planned).cycleWork c

/-- A cycle end without a late effect: the views and the cycle timer's next cycle apart, what the transitions and the
audio work leave. -/
theorem State.endCycle_eq {s : State} (hl : s.chan.late = []) (c : Cycle) (order : DeadlineOrder) :
    s.endCycle c order = (((s.atDeadline c).deadlineWork order).rotateViews).beginCycle c := by
  unfold State.endCycle State.atDeadline
  rw [hl]
  rfl

/-- What the beginning of the next cycle leaves alone. -/
theorem State.begun_frame (t : State) (c : Cycle) :
    let u := t.rotateViews.beginCycle c
    u.flags = t.flags ∧ u.station = t.station ∧ u.peers = t.peers ∧ u.surplus = t.surplus ∧ u.voice = t.voice ∧
      u.farEnd = t.farEnd ∧ u.pairing = t.pairing ∧ u.streams = t.streams ∧ u.bearer = t.bearer ∧
      u.chan.voicePayload = t.chan.voicePayload ∧ u.chan.farPayload = t.chan.farPayload ∧
      u.chan.cutSpans = t.chan.cutSpans ∧ u.chan.onSince = t.chan.onSince ∧ u.now = t.now ∧
      u.timer.lastCorrection = t.timer.lastCorrection ∧ u.timer.stepLoss = t.timer.stepLoss ∧
      u.timer.cycle = some (t.nextCycle c) := by
  refine ⟨?_, ?_, ?_, ?_, ?_, ?_, ?_, ?_, ?_, ?_, ?_, ?_, ?_, ?_, ?_, ?_, ?_⟩
  all_goals (unfold State.rotateViews; split <;> rfl)

/-- The events of a cycle end without a late effect, of those that neither the transitions nor the audio work raise. -/
theorem State.endCycle_flag {s : State} (hl : s.chan.late = []) (c : Cycle) (order : DeadlineOrder) {g : Flag}
    (hg : g ∉ [Flag.stateChanged, .pairTimeout, .farendUp, .farendDown, .downlinkUnderrun, .uplinkOverrun]) :
    (s.endCycle c order).flagSet g = (s.atDeadline c).flagSet g := by
  rw [State.endCycle_eq hl]
  have h := (State.begun_frame ((s.atDeadline c).deadlineWork order) c).1
  unfold State.flagSet at *
  rw [h]
  exact State.deadlineWork_raises _ order g hg

end Sys2Proof.Machine
end

