-- ==== Sys2Proof/Laws/PeerTable.lean ====
section
/-! SUPPORT. What the shared operations do to the peer table: each keeps it in its form (R44). -/

namespace Sys2Proof.Machine

/-- A peer table that a station of this number may hold. -/
def tableOk (own : StationNo) (ps : List Peer) : Bool :=
  decide (ps.length ≤ 15) && ascending ps && ps.all fun p => p.number.valid && p.number != own

/-- Soundness of the table, its emptiness in the states of Table 3-1 apart. -/
theorem State.peersOk_iff (s : State) :
    s.peersOk = true ↔
      tableOk s.station.creds.number s.peers = true ∧ (s.station.state.noPeers = true → s.peers = []) := by
  simp [State.peersOk, tableOk]
  intro _ _ _
  cases s.station.state.noPeers <;> simp

/-- Soundness reads the table, the station number and the station state alone. -/
theorem State.peersOk_of {s t : State} (h : s.peersOk = true) (hp : t.peers = s.peers)
    (hs : t.station = s.station) : t.peersOk = true := by
  rw [State.peersOk_iff] at *
  rw [hp, hs]
  exact h

/-- An empty table. -/
theorem State.peersOk_nil {s : State} (h : s.peers = []) : s.peersOk = true := by
  rw [State.peersOk_iff, h]; exact ⟨rfl, fun _ => rfl⟩

/-- A table that is sound under the same number, in a state that may hold one. -/
theorem State.peersOk_held {s : State} (h : tableOk s.station.creds.number s.peers = true)
    (hs : s.station.state.noPeers = false) : s.peersOk = true := by
  rw [State.peersOk_iff]; exact ⟨h, fun e => by rw [hs] at e; exact absurd e (by simp)⟩

/-- Ascending tables, by their first entry. -/
theorem ascending_cons {p : Peer} {ps : List Peer} :
    ascending (p :: ps) = true ↔ (∀ q ∈ ps, p.number < q.number) ∧ ascending ps = true := by
  simp [ascending]

/-- A sublist of an ascending table is ascending. -/
theorem ascending_filterMap {f : Peer → Option Peer} (hf : ∀ p q, f p = some q → q.number = p.number) {ps : List Peer}
    (h : ascending ps = true) : ascending (ps.filterMap f) = true := by
  induction ps with
  | nil => rfl
  | cons p ps ih =>
    obtain ⟨h1, h2⟩ := ascending_cons.1 h
    rw [List.filterMap_cons]
    split
    · exact ih h2
    · rename_i q hq
      refine ascending_cons.2 ⟨?_, ih h2⟩
      intro r hr
      obtain ⟨x, hx, hxr⟩ := List.mem_filterMap.1 hr
      rw [hf _ _ hq, hf _ _ hxr]
      exact h1 x hx

/-- A table whose entries are dropped or changed but for their numbers stays sound. -/
theorem tableOk_filterMap {own : StationNo} {f : Peer → Option Peer} (hf : ∀ p q, f p = some q → q.number = p.number)
    {ps : List Peer} (h : tableOk own ps = true) : tableOk own (ps.filterMap f) = true := by
  simp only [tableOk, Bool.and_eq_true, decide_eq_true_eq, List.all_eq_true] at *
  obtain ⟨⟨h1, h2⟩, h3⟩ := h
  refine ⟨⟨le_trans (List.length_filterMap_le _ _) h1, ascending_filterMap hf h2⟩, ?_⟩
  intro q hq
  obtain ⟨p, hp, hpq⟩ := List.mem_filterMap.1 hq
  rw [hf _ _ hpq]
  exact h3 p hp

/-- Entries changed but for their numbers. -/
theorem tableOk_update {own : StationNo} {n : StationNo} {f : Peer → Peer} (hf : ∀ p, (f p).number = p.number)
    {ps : List Peer} (h : tableOk own ps = true) : tableOk own (updatePeer n f ps) = true := by
  have : updatePeer n f ps = ps.filterMap fun p => some (if p.number = n then f p else p) := by
    simp [updatePeer]
  rw [this]
  refine tableOk_filterMap ?_ h
  intro p q hq
  simp only [Option.some.injEq] at hq
  subst hq
  split
  · exact hf p
  · rfl

/-- An entry removed. -/
theorem tableOk_remove {own : StationNo} (n : StationNo) {ps : List Peer} (h : tableOk own ps = true) :
    tableOk own (removePeer n ps) = true := by
  have : removePeer n ps = ps.filterMap fun p => if p.number != n then some p else none := by
    simp only [removePeer]
    rw [← List.filterMap_eq_filter]
    rfl
  rw [this]
  refine tableOk_filterMap ?_ h
  intro p q hq
  split at hq <;> simp_all

/-- The numbers of a table after an insertion. -/
theorem mem_insertPeer {p q : Peer} {ps : List Peer} : q ∈ insertPeer p ps ↔ q = p ∨ q ∈ ps := by
  induction ps with
  | nil => simp [insertPeer]
  | cons x xs ih =>
    unfold insertPeer
    split
    · simp
    · simp [ih]; tauto

/-- The length of a table after an insertion. -/
theorem length_insertPeer (p : Peer) (ps : List Peer) : (insertPeer p ps).length = ps.length + 1 := by
  induction ps with
  | nil => rfl
  | cons x xs ih => unfold insertPeer; split <;> simp [ih]

/-- A new number inserted in its place. -/
theorem ascending_insert {p : Peer} {ps : List Peer} (h : ascending ps = true) (hn : ∀ q ∈ ps, q.number ≠ p.number) :
    ascending (insertPeer p ps) = true := by
  induction ps with
  | nil => simp [insertPeer, ascending]
  | cons x xs ih =>
    obtain ⟨h1, h2⟩ := ascending_cons.1 h
    unfold insertPeer
    split
    · rename_i hlt
      refine ascending_cons.2 ⟨?_, h⟩
      intro q hq
      rcases List.mem_cons.1 hq with rfl | hq
      · exact hlt
      · exact lt_trans hlt (h1 q hq)
    · rename_i hlt
      refine ascending_cons.2 ⟨?_, ih h2 fun q hq => hn q (by simp [hq])⟩
      intro q hq
      rcases mem_insertPeer.1 hq with rfl | hq
      · exact lt_of_le_of_ne (not_lt.1 hlt) (hn x (by simp))
      · exact h1 q hq

/-- A new entry of a valid number that is not the station's own. -/
theorem tableOk_insert {own : StationNo} {p : Peer} {ps : List Peer} (h : tableOk own ps = true) (hl : ps.length < 15)
    (hn : ∀ q ∈ ps, q.number ≠ p.number) (hv : p.number.valid = true) (ho : p.number ≠ own) :
    tableOk own (insertPeer p ps) = true := by
  simp only [tableOk, Bool.and_eq_true, decide_eq_true_eq, List.all_eq_true] at *
  obtain ⟨⟨_, h2⟩, h3⟩ := h
  refine ⟨⟨by rw [length_insertPeer]; omega, ascending_insert h2 hn⟩, ?_⟩
  intro q hq
  rcases mem_insertPeer.1 hq with rfl | hq
  · simp [hv, ho]
  · exact h3 q hq

/-- No entry of a number. -/
theorem findPeer_none {n : StationNo} {ps : List Peer} (h : findPeer n ps = none) : ∀ q ∈ ps, q.number ≠ n := by
  intro q hq
  have := List.find?_eq_none.1 h q hq
  simpa using this

/-- The evicted entry stands in the table. -/
theorem evictee_mem {ps : List Peer} {v : Peer} (h : evictee ps = some v) : v ∈ ps := by
  have key : ∀ (l : List Peer) (best : Option Peer), (∀ b, best = some b → b ∈ ps) → (∀ p ∈ l, p ∈ ps) →
      ∀ v, l.foldl (fun best p =>
        match best with
        | none => some p
        | some q => if q.missed < p.missed ∨ (q.missed = p.missed ∧ p.number < q.number) then some p else some q) best =
          some v → v ∈ ps := by
    intro l
    induction l with
    | nil => intro best hb _ v hv; exact hb v hv
    | cons x xs ih =>
      intro best hb hl v hv
      refine ih _ ?_ (fun p hp => hl p (by simp [hp])) v hv
      intro b hbx
      dsimp only at hbx
      split at hbx
      · simp only [Option.some.injEq] at hbx; subst hbx; exact hl x (by simp)
      · split at hbx <;> simp only [Option.some.injEq] at hbx <;> subst hbx
        · exact hl x (by simp)
        · exact hb _ rfl
  exact key _ none (by simp) (fun p hp => (List.mem_filter.1 hp).1) v h

/-- A removal of an entry that stands in the table shortens it. -/
theorem length_removePeer_lt {p : Peer} {ps : List Peer} (h : p ∈ ps) : (removePeer p.number ps).length < ps.length := by
  refine List.length_filter_lt_length_iff_exists.2 ⟨p, h, by simp⟩

/-- A creation, of a valid number without an entry that is not the station's own. -/
theorem State.createPeer_table {s : State} (h : tableOk s.station.creds.number s.peers = true) {b : Burst} {d : Int}
    (hv : b.sender.valid = true) (ho : b.sender ≠ s.station.creds.number) (hf : findPeer b.sender s.peers = none) :
    tableOk s.station.creds.number (s.createPeer b d).peers = true := by
  have hn := findPeer_none hf
  unfold State.createPeer
  split
  · rename_i hl
    have e : ∀ (ps : List Peer) (n : StationNo), (({ s with peers := ps } : State).peerCreated n).peers = ps := by simp
    rw [e]
    exact tableOk_insert h hl hn hv ho
  · split
    · simpa using h
    · rename_i v hv'
      have e : ∀ (ps : List Peer) (n : StationNo), (({ s with peers := ps } : State).peerCreated n).peers = ps := by simp
      rw [e]
      have hm := evictee_mem hv'
      have hl : s.peers.length ≤ 15 := by simp [tableOk] at h; exact h.1.1
      refine tableOk_insert (tableOk_remove _ h) (lt_of_lt_of_le (length_removePeer_lt hm) hl) ?_ hv ho
      intro q hq
      exact hn q (List.mem_filter.1 hq).1

/-- The peer view's work at a reception of another station. -/
theorem State.peerView_table {s : State} (h : tableOk s.station.creds.number s.peers = true) {b : Burst} (d : Int)
    (hv : b.kind = .voice ∨ b.kind = .farend → b.sender.valid = true) (ho : b.sender ≠ s.station.creds.number) :
    tableOk s.station.creds.number (s.peerView b d).peers = true := by
  unfold State.peerView
  split
  · rename_i hf
    split
    · rename_i hk; exact State.createPeer_table h (hv (Or.inl hk)) ho hf
    · rename_i hk; exact State.createPeer_table h (hv (Or.inr hk)) ho hf
    all_goals exact h
  · split
    · unfold State.peerLeave
      split
      · simpa using tableOk_update (n := b.sender) (f := fun q => q.farLeave b d) (fun _ => rfl) h
      · simpa using tableOk_remove b.sender h
    · refine tableOk_update ?_ h
      intro p
      unfold Peer.refresh Peer.takeSlots
      dsimp only
      split <;> split <;> rfl

/-- A burst that a receiver accepts has passed the header checks, and its payload was read by its kind (R12). -/
theorem parseBurst_checked {bs : List Byte} {b : Burst} (h : parseBurst bs = some b) :
    headerOk b = true ∧ ∃ p, bodyOfBytes b.kind b.hush p = some b.body := by
  unfold parseBurst at h
  split at h
  · exact absurd h (by simp)
  split at h
  · exact absurd h (by simp)
  unfold burstOfCovered at h
  dsimp only at h
  split at h
  · exact absurd h (by simp)
  split at h
  · exact absurd h (by simp)
  split at h
  · exact absurd h (by simp)
  rename_i hb
  split at h
  · rename_i hx
    simp only [Option.some.injEq] at h
    rw [← h]
    exact ⟨hx, _, hb⟩
  · exact absurd h (by simp)

/-- The sender of a burst that a receiver accepts has a valid number, in the kinds that create an entry. -/
theorem parseBurst_sender {bs : List Byte} {b : Burst} (h : parseBurst bs = some b)
    (hk : b.kind = .voice ∨ b.kind = .farend) : b.sender.valid = true := by
  have hh := (parseBurst_checked h).1
  rcases hk with hk | hk <;> simp [headerOk, hk] at hh <;> exact hh.1.2

/-- What a slot held clean was accepted by the receiver. -/
theorem heldBy_clean {c : Cycle} {k : Nat} {xs : List AirItem} {h : Heard} (hh : heldBy c k xs = .clean h) :
    ∃ bytes, parseBurst bytes = some h.burst := by
  unfold heldBy at hh
  split at hh
  · exact absurd hh (by simp)
  · unfold heldOne at hh
    split at hh
    · exact absurd hh (by simp)
    · split at hh
      · exact absurd hh (by simp)
      · rename_i bytes _ b hb
        simp only [Held.clean.injEq] at hh
        exact ⟨bytes, by rw [← hh]; exact hb⟩
  · exact absurd hh (by simp)

/-- The yield of a number clash. -/
theorem State.clashYield_peersOk {s : State} (h : tableOk s.station.creds.number s.peers = true) :
    s.clashYield.peersOk = true := by
  refine State.peersOk_held ?_ ?_
  · have e : s.clashYield.station.creds = s.station.creds := by simp [State.clashYield]
    rw [e]
    simpa using h
  · simp [State.clashYield, StationState.noPeers]

/-- A reception as a station in the group takes it. -/
theorem State.heardAsMember_peersOk {s : State} (h : s.peersOk = true) (hs : s.station.state.noPeers = false) (l : Bool)
    {b : Burst} (d : Int) (hv : b.kind = .voice ∨ b.kind = .farend → b.sender.valid = true) :
    (s.heardAsMember l b d).peersOk = true := by
  have ht := (s.peersOk_iff.1 h).1
  unfold State.heardAsMember
  dsimp only
  split
  · unfold State.clash State.nowOrLate
    split
    · split
      · exact State.peersOk_of h rfl rfl
      · exact State.clashYield_peersOk ht
    · exact State.peersOk_of h rfl rfl
  · rename_i hn
    have hp := State.peerView_table (s := s.readMap b.heardMap) ht d hv (by simpa using hn)
    refine State.peersOk_held ?_ (by simpa using hs)
    simpa [State.heardPeer] using hp

/-- A clean burst that a slot held was parsed. -/
theorem State.slotHeld_clean {s : State} {c : Cycle} {k : Nat} {xs : List AirItem} {r : Heard}
    (h : s.slotHeld c k xs = .clean r) : ∃ bytes, parseBurst bytes = some r.burst := by
  unfold State.slotHeld at h
  split at h
  · cases h
  · exact heldBy_clean h

/-- The hand-off of what a slot held. -/
theorem State.handOff_peersOk {s : State} (h : s.peersOk = true) (c : Cycle) (k : SlotIx) (tr : Nat) (l : Bool) (e : Entry)
    {hd : Held} (hh : ∀ r, hd = .clean r → ∃ bytes, parseBurst bytes = some r.burst) :
    (s.handOff c k tr l e hd).peersOk = true := by
  unfold State.handOff
  split
  · exact h
  · exact h
  · exact h
  · rename_i r
    obtain ⟨bytes, hb⟩ := hh r rfl
    have hv : r.burst.kind = .voice ∨ r.burst.kind = .farend → r.burst.sender.valid = true := parseBurst_sender hb
    split
    · unfold State.heardOwn
      dsimp only
      split
      · rename_i hs
        have hnil : s.peers = [] := (s.peersOk_iff.1 h).2 (by
          have : s.station.state = .listen := hs
          simp [this, StationState.noPeers])
        unfold State.heardInListen
        split
        · refine State.heardAsMember_peersOk (State.peersOk_nil ?_) rfl l 0 hv
          simpa using hnil
        · exact State.peersOk_of h rfl rfl
      · rename_i hs
        have : s.station.state = .member := hs
        exact State.heardAsMember_peersOk (State.peersOk_of h (by simp) (by simp)) (by simp [this, StationState.noPeers]) l _ hv
      · rename_i hs
        have : s.station.state = .leaving := hs
        exact State.heardAsMember_peersOk (State.peersOk_of h (by simp) (by simp)) (by simp [this, StationState.noPeers]) l _ hv
      all_goals exact State.peersOk_of h rfl rfl
    · exact State.peersOk_of h (by simp) (by simp)
    · unfold State.heardForeign
      split
      · split
        · exact State.peersOk_of h (by simp) (by simp)
        · exact h
      · split
        · exact State.peersOk_of h rfl rfl
        · exact h
      · rename_i hs
        split
        · refine State.peersOk_nil ?_
          simpa using (s.peersOk_iff.1 h).2 (by simp [hs, StationState.noPeers])
        · exact h
      all_goals exact h
    all_goals exact h

/-- The end of a slot of the station's own. -/
theorem State.ownSlotEnd_peersOk {s : State} (h : s.peersOk = true) (k : SlotIx) (tr : Nat) :
    (s.ownSlotEnd k tr).peersOk = true := by
  unfold State.ownSlotEnd
  generalize hu : State.settleRole _ = u
  have ht : u.peersOk = true := by subst hu; exact State.peersOk_of h (by simp) (by simp)
  have hj : ∀ a : Accepted, u.station.state = .joining → (u.joinDone a tr).peersOk = true := by
    intro a hs
    refine State.peersOk_nil ?_
    simpa [State.joinDone] using (u.peersOk_iff.1 ht).2 (by simp [hs, StationState.noPeers])
  dsimp only
  split
  · exact ht
  · split
    · split
      · rename_i hc; exact hj _ hc.2
      · exact ht
    all_goals exact ht

/-- The work of a slot end. -/
theorem State.endSlot_peersOk {s : State} (h : s.peersOk = true) (c : Cycle) (k : SlotIx) (o : ReceptionOrder)
    (air : List AirItem) : (s.endSlot c k o air).peersOk = true := by
  unfold State.endSlot
  dsimp only
  generalize hg : s.closeSlot _ _ _ _ = t
  have ht : t.peersOk = true := by subst hg; exact State.peersOk_of h (by simp) (by simp)
  have key : ∀ (u : State) (q : Offer → Bool), u.peersOk = true → (u.settleAt14 k q).peersOk = true := fun u q hu =>
    State.peersOk_of hu (by simp) (by simp)
  split
  · exact key _ _ (State.ownSlotEnd_peersOk ht k _)
  · exact key _ _ (State.handOff_peersOk ht c k _ _ _ fun r hr => State.slotHeld_clean hr)

/-- The ageing of a cycle end. -/
theorem tableOk_age {own : StationNo} (skip : List StationNo) {ps : List Peer} (h : tableOk own ps = true) :
    tableOk own (ps.filterMap (agePeer skip)) = true := by
  refine tableOk_filterMap ?_ h
  intro p q hq
  unfold agePeer at hq
  split at hq
  · simp only [Option.some.injEq] at hq; rw [hq]
  · split at hq
    · exact absurd hq (by simp)
    · simp only [Option.some.injEq] at hq; rw [← hq]; rfl

/-- A transition into a state that may hold a table. -/
theorem State.enter_peersOk {s : State} (h : s.peersOk = true) {st : StationState} (hs : st.noPeers = false) :
    (s.enter st).peersOk = true :=
  State.peersOk_held (s.peersOk_iff.1 h).1 hs

/-- The transitions at a cycle end. -/
theorem State.transitions_peersOk {s : State} (h : s.peersOk = true) : s.transitions.peersOk = true := by
  have hp : s.pairTimeout.peersOk = true := State.peersOk_held (s.peersOk_iff.1 h).1 rfl
  unfold State.transitions
  split
  · unfold State.countListen
    dsimp only
    split
    · exact State.peersOk_held (s.peersOk_iff.1 h).1 rfl
    · rename_i hs _
      exact State.peersOk_nil ((s.peersOk_iff.1 h).2 (by simp [hs, StationState.noPeers]))
  · unfold State.countSeek
    split
    · exact h
    · split
      · exact hp
      · exact State.peersOk_of h rfl rfl
  · split
    · exact h
    · unfold State.decideNewcomer
      split
      · exact h
      · split
        · exact State.peersOk_of h rfl rfl
        · exact hp
  · exact State.peersOk_of h (by simp) (by simp)
  · rename_i hs
    unfold State.countLeaving
    split
    · exact State.enter_peersOk h rfl
    · exact State.peersOk_held (s.peersOk_iff.1 h).1 (by simp [hs, StationState.noPeers])
  all_goals exact h

/-- The effects that come late. -/
theorem State.lateEffects_peersOk {s : State} (h : s.peersOk = true) (es : List LateEffect) :
    (s.lateEffects es).peersOk = true := by
  unfold State.lateEffects
  induction es generalizing s with
  | nil => exact h
  | cons e es ih =>
    refine ih ?_
    unfold State.lateEffect
    split
    · split
      · exact State.clashYield_peersOk (s.peersOk_iff.1 h).1
      · exact h
    · split
      · exact State.peersOk_of h (by simp) (by simp)
      · exact h
    · exact State.peersOk_of h (by simp) (by simp)

/-- The whole cycle end. -/
theorem State.endCycle_peersOk {s : State} (h : s.peersOk = true) (c : Cycle) (o : DeadlineOrder) :
    (s.endCycle c o).peersOk = true := by
  have hw : ((s.atInstant c.planned).cycleWork c).peersOk = true := by
    unfold State.cycleWork
    generalize hg : State.ageBearer _ = t
    have ht : t.peersOk = true := by subst hg; exact State.peersOk_of h (by simp) (by simp)
    have ha : t.peerWork.peersOk = true := by
      unfold State.peerWork
      split
      · rw [State.peersOk_iff] at ht ⊢
        refine ⟨by simpa [State.agePeers, State.countedPeers] using tableOk_age t.ageSkip ht.1, ?_⟩
        intro hs
        simp [State.agePeers, State.countedPeers, ht.2 (by simpa [State.agePeers] using hs)]
      · exact ht
    exact State.peersOk_of ha (by simp) (by simp)
  have hd : (((s.atInstant c.planned).cycleWork c).deadlineWork o).peersOk = true := by
    unfold State.deadlineWork
    split
    · exact State.peersOk_of (State.transitions_peersOk hw) (by simp) (by simp)
    · exact State.transitions_peersOk (State.peersOk_of hw (by simp) (by simp))
  unfold State.endCycle
  exact State.lateEffects_peersOk (State.peersOk_of hd (by simp) (by simp)) _

end Sys2Proof.Machine
end

