-- ==== Sys2Proof/Laws/Decisions.lean ====
section
/-! SUPPORT. The decisions of a cycle end: what the claim work makes of each claim and of the role, which receptions
choose the cycle that begins, the countdowns of pairing, and the two payloads that the frame deadline prepares. -/

namespace Sys2Proof.Machine

/-! ### The claims -/

/-- Where no jump is due: the claims and the role from which the transitions start. -/
theorem State.atDeadline_noJump {s : State} {c : Cycle} (hj : s.jumpDue c = false) :
    let t := (((s.atInstant c.planned).timerWork c).claimWork)
    (s.atDeadline c).voice = t.voice ∧ (s.atDeadline c).farEnd = t.farEnd ∧
      (s.atDeadline c).bearer = t.ageBearer.bearer ∧ (s.atDeadline c).station = s.station := by
  have hj' : (s.atInstant c.planned).jumpDue c = false := hj
  unfold State.atDeadline State.cycleWork
  have : (s.atInstant c.planned).jumpIfDue c = s.atInstant c.planned := by unfold State.jumpIfDue; simp [hj']
  rw [this]
  refine ⟨?_, ?_, ?_, ?_⟩ <;> simp

/-- Several events raised: what each flag reads. -/
theorem State.raiseAll_flagSet (s : State) (fs : List Flag) (g : Flag) :
    (s.raiseAll fs).flagSet g = (s.flagSet g || decide (g ∈ fs)) := by
  unfold State.raiseAll
  induction fs generalizing s with
  | nil => simp
  | cons f fs ih =>
    rw [List.foldl_cons, ih, State.raise_flagSet]
    by_cases h : f = g
    · subst h; simp
    · have h' : ¬g = f := fun e => h e.symm
      simp [h, h']

/-- Cleared marks keep the slot. -/
theorem Claim.clearMarks_slot (c : Claim) : c.clearMarks.slot = c.slot := rfl

/-- What the claim work makes of one claim: as it is, without an event, where a row has decided it already. -/
def Claim.decideUnless (c : Claim) (done : Bool) (f : ClaimFacts) (other : Option SlotIx) : Claim × List Flag :=
  if done then (c, []) else ((c.decideOn f other).1.clearMarks, (c.decideOn f other).2)

/-- The voice claim's part of the claim work. -/
theorem State.decideVoiceUnless (s : State) (f : ClaimFacts) :
    let v := s.voice.decideUnless s.early.voiceDecided f s.farEnd.slot
    let t := if s.early.voiceDecided then s else s.decideVoice f
    t.voice = v.1 ∧ (∀ g, t.flagSet g = (s.flagSet g || decide (g ∈ v.2))) ∧ t.farEnd = s.farEnd ∧ t.bearer = s.bearer ∧
      t.early.farDecided = s.early.farDecided := by
  unfold Claim.decideUnless
  dsimp only
  split
  · exact ⟨rfl, fun g => by simp, rfl, rfl, rfl⟩
  · refine ⟨by simp [State.decideVoice], fun g => ?_, by simp, by simp, by simp [State.decideVoice]⟩
    unfold State.decideVoice
    rw [State.raiseAll_flagSet]
    rfl

/-- The far-end claim's part of the claim work, with the role that follows it. -/
theorem State.decideFarUnless (s : State) (f : ClaimFacts) :
    let w := s.farEnd.decideUnless s.early.farDecided f s.voice.slot
    let t := if s.early.farDecided then s else s.decideFar f
    t.farEnd = w.1 ∧ t.voice = s.voice ∧ t.bearer = (s.bearerFollows s.farEnd.state w.1.state).bearer ∧
      (∀ g, g ≠ .bearerUp → t.flagSet g = (s.flagSet g || decide (g ∈ w.2))) ∧
      (t.flagSet .bearerUp = (s.flagSet .bearerUp || decide (.bearerUp ∈ w.2) ||
        decide (s.bearer.state = .claiming ∧ s.farEnd.state = .tentative ∧ w.1.state = .confirmed))) := by
  unfold Claim.decideUnless
  dsimp only
  split
  · have hne : ∀ x y : ClaimState, x ≠ y → ¬(s.farEnd.state = x ∧ s.farEnd.state = y) :=
      fun x y n h => n (h.1.symm.trans h.2)
    refine ⟨rfl, rfl, ?_, fun g _ => by simp, ?_⟩
    · unfold State.bearerFollows
      rw [if_neg fun h => hne _ _ (by decide) h.2, if_neg fun h => hne _ _ (by decide) h.2]
    · simp [hne .tentative .confirmed (by decide)]
  · set w := s.farEnd.decideOn f s.voice.slot
    have e : s.decideFar f = (State.raiseAll { s with
        farEnd := w.1.clearMarks, early := { s.early with farDecided := true } } w.2).bearerFollows s.farEnd.state
          w.1.state := rfl
    have hs : w.1.clearMarks.state = w.1.state := rfl
    rw [e, hs]
    refine ⟨by simp, by simp, ?_, fun g hg => ?_, ?_⟩
    · unfold State.bearerFollows
      simp only [State.raiseAll_frame]
      split <;> (try split) <;> simp
    · have hr := State.raiseAll_flagSet { s with
        farEnd := w.1.clearMarks, early := { s.early with farDecided := true } } w.2 g
      unfold State.bearerFollows
      split
      · rw [State.raise_flagSet]
        simpa [Ne.symm hg, State.flagSet] using hr
      · split <;> simpa [State.flagSet] using hr
    · have hr := State.raiseAll_flagSet { s with
        farEnd := w.1.clearMarks, early := { s.early with farDecided := true } } w.2 .bearerUp
      unfold State.bearerFollows
      simp only [State.raiseAll_frame]
      split
      · rename_i h
        rw [State.raise_flagSet]
        simp [h]
      · rename_i h
        rw [decide_eq_false h, Bool.or_false]
        split <;> simpa [State.flagSet] using hr

/-- The claim work: the voice claim first, the far-end claim under the slot it then has, each unless a row has decided it,
the events of both, and the role that follows (R64, R143). -/
theorem State.claimWork_decides {s : State} (hg : s.station.state.inGroup = true) (hj : s.early.jump = none) :
    let f := s.claimFacts s.countedPeers
    let v := s.voice.decideUnless s.early.voiceDecided f s.farEnd.slot
    let w := s.farEnd.decideUnless s.early.farDecided f v.1.slot
    s.claimWork.voice = v.1 ∧ s.claimWork.farEnd = w.1 ∧
      (∀ g, g ≠ .bearerUp → s.claimWork.flagSet g = (s.flagSet g || decide (g ∈ v.2) || decide (g ∈ w.2))) ∧
      s.claimWork.bearer = (s.bearerFollows s.farEnd.state w.1.state).bearer ∧
      (s.claimWork.flagSet .bearerUp = (s.flagSet .bearerUp || decide (.bearerUp ∈ v.2) || decide (.bearerUp ∈ w.2) ||
        decide (s.bearer.state = .claiming ∧ s.farEnd.state = .tentative ∧ w.1.state = .confirmed))) := by
  intro f v w
  obtain ⟨v1, v2, v3, v4, v5⟩ := s.decideVoiceUnless f
  obtain ⟨w1, w2, w3, w4, w5⟩ := (if s.early.voiceDecided then s else s.decideVoice f).decideFarUnless f
  have e : s.claimWork = s.decideClaims f := by
    unfold State.claimWork
    simp only [hg, hj, Option.isNone_none, Bool.and_self, if_true]
    rfl
  have hb : ∀ (t : State), t.bearer = s.bearer → ∀ x y, (t.bearerFollows x y).bearer = (s.bearerFollows x y).bearer := by
    intro t h x y
    unfold State.bearerFollows
    rw [h]
    split <;> (try split) <;> simp [h]
  rw [e]
  unfold State.decideClaims
  dsimp only at *
  generalize (if s.early.voiceDecided then s else s.decideVoice f) = t at *
  rw [v1, v3] at w1 w3 w4 w5
  rw [v4] at w5
  rw [v5] at w1 w2 w3 w4 w5 ⊢
  exact ⟨w2.trans v1, w1, fun g hg => by rw [w4 g hg, v2 g], by rw [w3, hb t v4], by rw [w5, v2]⟩

/-- The audio work keeps the bearer age. -/
theorem State.deadline_age (s : State) : s.deadline.bearer.age = s.bearer.age := by
  unfold State.deadline State.takeDownlink State.makeTake State.uplinkWork State.joinUplink State.handFrames
    State.prepareVoice
  simp only []
  repeat' split
  all_goals simp [Bearer.afterFrame]

/-- In MEMBER and LEAVING no transition of a cycle end touches a claim. -/
theorem State.transitions_claims (s : State) (hg : s.station.state.inGroup = true) :
    s.transitions.voice = s.voice ∧ s.transitions.farEnd = s.farEnd := by
  unfold State.transitions
  split <;> simp_all [StationState.inGroup, State.countLeaving, State.settleRole]
  all_goals (split <;> simp)

/-- Nor the bearer record, unless an ENDING role is over. -/
theorem State.transitions_bearer (s : State) (he : s.bearer.state = .ending → s.farEnd.state ≠ .none) :
    s.transitions.bearer = s.bearer := by
  have h : ¬(s.bearer.state = .ending ∧ s.farEnd.state = .none) := fun x => he x.1 x.2
  unfold State.transitions State.countListen State.countSeek State.decideNewcomer State.pairTimeout State.countLeaving
    State.settleRole
  simp only [h, if_false]
  repeat' split
  all_goals simp

/-- The claims, the bearer state and its age after a cycle end that makes no jump. -/
theorem State.endCycle_claims {s : State} (hl : s.chan.late = []) {c : Cycle} (order : DeadlineOrder)
    (hg : s.station.state.inGroup = true) (hd : s.jumpDue c = false)
    (hr : roleMatches s.bearer.state s.farEnd.state = true) :
    let t := ((s.atInstant c.planned).timerWork c).claimWork
    (s.endCycle c order).voice = t.voice ∧ (s.endCycle c order).farEnd = t.farEnd ∧
      (s.endCycle c order).bearer.state = t.bearer.state ∧
      (s.endCycle c order).bearer.age = t.ageBearer.bearer.age := by
  intro t
  rw [State.endCycle_eq hl]
  obtain ⟨h1, h2, h3, h4⟩ := State.atDeadline_noJump hd
  have hne : (s.atDeadline c).bearer.state = .ending → (s.atDeadline c).farEnd.state ≠ .none :=
    State.cycleWork_ending (s := s.atInstant c.planned) hr (c := c) hd
  have hst : (s.atDeadline c).station.state.inGroup = true := by rw [h4]; exact hg
  generalize s.atDeadline c = u at *
  obtain ⟨-, -, -, -, b5, b6, -, -, b9, -⟩ := State.begun_frame (u.deadlineWork order) c
  rw [b5, b6, b9]
  have hb : t.ageBearer.bearer.state = t.bearer.state := by unfold State.ageBearer; split <;> rfl
  rw [← hb, ← h1, ← h2, ← h3]
  cases order with
  | stateFirst =>
    obtain ⟨k1, k2⟩ := State.transitions_claims u hst
    simp only [State.deadlineWork]
    rw [State.deadline_bearerState, State.deadline_age, State.transitions_bearer u hne]
    simp [k1]
  | deadlineFirst =>
    obtain ⟨k1, k2⟩ := State.transitions_claims u.deadline (by simpa using hst)
    have k3 := State.transitions_bearer u.deadline (by rw [State.deadline_bearerState]; simpa using hne)
    simp only [State.deadlineWork]
    rw [k1, k2, k3, State.deadline_bearerState, State.deadline_age]
    simp

/-- The lowest FREE slot (R65). -/
theorem freeSlot_some {v1 v2 : List Entry} {o : Option SlotIx} {k : SlotIx} :
    freeSlot v1 v2 o = some k ↔
      (k.val ≤ 13 ∧ v1.getD k.val .unknown = .empty ∧ v2.getD k.val .unknown = .empty ∧ o ≠ some k) ∧
        ∀ j : SlotIx, j < k →
          ¬(j.val ≤ 13 ∧ v1.getD j.val .unknown = .empty ∧ v2.getD j.val .unknown = .empty ∧ o ≠ some j) := by
  unfold freeSlot
  rw [List.find?_eq_some_iff_getElem]
  simp only [List.length_finRange, List.getElem_finRange, emptyIn]
  constructor
  · rintro ⟨hp, i, hi, rfl, h⟩
    refine ⟨by simpa [and_assoc] using hp, fun j hj => ?_⟩
    have := h j.val hj
    rw [Bool.not_eq_true', ← Bool.not_eq_true] at this
    simpa [and_assoc] using this
  · rintro ⟨hp, h⟩
    refine ⟨by simpa [and_assoc] using hp, k.val, k.isLt, rfl, fun j hj => ?_⟩
    have := h ⟨j, by omega⟩ hj
    rw [Bool.not_eq_true', ← Bool.not_eq_true]
    simpa [and_assoc] using this

/-- No FREE slot (R65). -/
theorem freeSlot_none {v1 v2 : List Entry} {o : Option SlotIx} :
    freeSlot v1 v2 o = none ↔ ∀ j : SlotIx,
      ¬(j.val ≤ 13 ∧ v1.getD j.val .unknown = .empty ∧ v2.getD j.val .unknown = .empty ∧ o ≠ some j) := by
  unfold freeSlot
  simp [emptyIn]

/-- The picture is complete (R66). -/
theorem pictureComplete_iff {v1 v2 : List Entry} : pictureComplete v1 v2 = true ↔
    ∀ k : SlotIx, k.val ≤ 13 → v1.getD k.val .unknown ≠ .unknown ∧ v2.getD k.val .unknown ≠ .unknown := by
  unfold pictureComplete
  simp only [List.all_eq_true, List.mem_range, Bool.and_eq_true, bne_iff_ne]
  exact ⟨fun h k hk => h k.val (by omega), fun h x hx => h ⟨x, by omega⟩ (by simp; omega)⟩

/-- The role goes with the far-end claim in sound claims. -/
theorem State.roleMatches_of_claimsOk {s : State} (h : s.claimsOk = true) :
    roleMatches s.bearer.state s.farEnd.state = true := by
  unfold State.claimsOk at h
  simp only [Bool.and_eq_true] at h
  exact h.2

/-- The conflict run of a sound CONFIRMED claim. -/
theorem Claim.ok_run {c : Claim} (h : c.ok = true) (hc : c.state = .confirmed) : c.run ≤ 1 := by
  unfold Claim.ok at h
  cases hs : c.slot <;> simp_all

/-- The decision on one claim and its events, by the rows of Table 4-4 and R65 to R70. -/
theorem Claim.decideOn_rows (cl : Claim) (f : ClaimFacts) (o : Option SlotIx) (hok : cl.ok = true) :
    let next := (cl.decideOn f o).1.clearMarks
    let evs := (cl.decideOn f o).2
    let kept := { cl with clean := false, conflict := false }
    let confirms := cl.state = .tentative ∧ cl.conflict = false ∧ (cl.clean = true ∨ f.alone = true)
    let loses := cl.state = .confirmed ∧ cl.conflict = true ∧ 1 ≤ cl.run
    let fills := cl.state = .waiting ∧ freeSlot f.v1 f.v2 o = none ∧ pictureComplete f.v1 f.v2 = true
    (cl.state = .none → next = kept) ∧
    (cl.state = .waiting →
      (∀ k, freeSlot f.v1 f.v2 o = some k → next = { Claim.gone with state := .tentative, slot := some k }) ∧
      (fills → next = { kept with cycles := min (cl.cycles + 1) 255 }) ∧
      (freeSlot f.v1 f.v2 o = none → ¬pictureComplete f.v1 f.v2 = true → next = kept)) ∧
    (cl.state = .tentative →
      (confirms → next = { Claim.gone with state := .confirmed, slot := cl.slot }) ∧
      (cl.conflict = true ∨ (¬confirms ∧ 7 ≤ cl.cycles) → next = { Claim.gone with state := .holdoff }) ∧
      (cl.conflict = false → ¬confirms → cl.cycles < 7 → next = { kept with cycles := cl.cycles + 1 })) ∧
    (cl.state = .confirmed →
      (loses → next = { Claim.gone with state := .holdoff }) ∧
      (cl.conflict = true → cl.run = 0 → next = { kept with run := 1 }) ∧
      (cl.conflict = false → next = { kept with run := 0 })) ∧
    (cl.state = .holdoff →
      (f.hold ≤ cl.cycles + 1 → next = { Claim.gone with state := .waiting }) ∧
      (cl.cycles + 1 < f.hold → next = { kept with cycles := cl.cycles + 1 })) ∧
    (cl.state = .releasing → next = { kept with cycles := 1 }) ∧
    (.groupFull ∈ evs ↔ fills ∧ cl.cycles = 0) ∧ (.claimConfirmed ∈ evs ↔ confirms) ∧ (.claimLost ∈ evs ↔ loses) ∧
    .bearerUp ∉ evs ∧ ((cl.state = .tentative ∧ next.state = .confirmed) ↔ confirms) ∧
    ((cl.state = .confirmed ∧ next.state = .holdoff) ↔ loses) := by
  have hrun := Claim.ok_run hok
  clear hok
  obtain ⟨st, sl, cy, rn, cn, cf⟩ := cl
  simp only at hrun
  cases st <;>
    simp only [Claim.decideOn, Claim.decideWaiting, Claim.decideTentative, Claim.decideConfirmed, Claim.decideHoldoff,
      Claim.clearMarks, Claim.confirm, Claim.inState, Claim.gone] <;>
    repeat' split
  all_goals simp_all
  all_goals omega

/-- What the claim work makes of one claim and its events, by the rows of Table 4-4 and R65 to R70, where no row has decided
it; where one has, nothing. -/
theorem Claim.decideUnless_rows (cl : Claim) (done : Bool) (f : ClaimFacts) (o : Option SlotIx) (hok : cl.ok = true) :
    let next := (cl.decideUnless done f o).1
    let evs := (cl.decideUnless done f o).2
    let kept := { cl with clean := false, conflict := false }
    let confirms := done = false ∧ cl.state = .tentative ∧ cl.conflict = false ∧ (cl.clean = true ∨ f.alone = true)
    let loses := done = false ∧ cl.state = .confirmed ∧ cl.conflict = true ∧ 1 ≤ cl.run
    let fills := done = false ∧ cl.state = .waiting ∧ freeSlot f.v1 f.v2 o = none ∧ pictureComplete f.v1 f.v2 = true
    (¬done = false → next = cl) ∧ (done = false →
    (cl.state = .none → next = kept) ∧
    (cl.state = .waiting →
      (∀ k, freeSlot f.v1 f.v2 o = some k → next = { Claim.gone with state := .tentative, slot := some k }) ∧
      (fills → next = { kept with cycles := min (cl.cycles + 1) 255 }) ∧
      (freeSlot f.v1 f.v2 o = none → ¬pictureComplete f.v1 f.v2 = true → next = kept)) ∧
    (cl.state = .tentative →
      (confirms → next = { Claim.gone with state := .confirmed, slot := cl.slot }) ∧
      (cl.conflict = true ∨ (¬confirms ∧ 7 ≤ cl.cycles) → next = { Claim.gone with state := .holdoff }) ∧
      (cl.conflict = false → ¬confirms → cl.cycles < 7 → next = { kept with cycles := cl.cycles + 1 })) ∧
    (cl.state = .confirmed →
      (loses → next = { Claim.gone with state := .holdoff }) ∧
      (cl.conflict = true → cl.run = 0 → next = { kept with run := 1 }) ∧
      (cl.conflict = false → next = { kept with run := 0 })) ∧
    (cl.state = .holdoff →
      (f.hold ≤ cl.cycles + 1 → next = { Claim.gone with state := .waiting }) ∧
      (cl.cycles + 1 < f.hold → next = { kept with cycles := cl.cycles + 1 })) ∧
    (cl.state = .releasing → next = { kept with cycles := 1 })) ∧
    (.groupFull ∈ evs ↔ fills ∧ cl.cycles = 0) ∧ (.claimConfirmed ∈ evs ↔ confirms) ∧ (.claimLost ∈ evs ↔ loses) ∧
    .bearerUp ∉ evs ∧ ((cl.state = .tentative ∧ next.state = .confirmed) ↔ confirms) ∧
    ((cl.state = .confirmed ∧ next.state = .holdoff) ↔ loses) := by
  cases done with
  | false =>
    obtain ⟨h1, h2, h3, h4, h5, h6, h7⟩ := Claim.decideOn_rows cl f o hok
    simp only [not_true_eq_false, false_implies, true_and, forall_const]
    exact ⟨⟨h1, h2, h3, h4, h5, h6⟩, h7⟩
  | true => simp [Claim.decideUnless]; constructor <;> (intro h; rw [h]; decide)

/-- The claim work marks what it has decided and changes nothing else of what the early rows have made. -/
theorem State.claimWork_early (s : State) :
    ∃ a b, s.claimWork.early = { s.early with voiceDecided := a, farDecided := b } := by
  have hv : ∀ (t : State) f, (t.decideVoice f).early = { t.early with voiceDecided := true } := fun t f => by
    unfold State.decideVoice; simp
  have hf : ∀ (t : State) f, (t.decideFar f).early = { t.early with farDecided := true } := fun t f => by
    unfold State.decideFar; simp
  unfold State.claimWork State.decideClaims
  split
  · dsimp only
    split <;> split
    · exact ⟨_, _, rfl⟩
    · exact ⟨_, _, hf _ _⟩
    · exact ⟨_, _, hv _ _⟩
    · exact ⟨true, true, by rw [hf, hv]⟩
  · exact ⟨_, _, rfl⟩


/-! ### The cycle timer -/

/-- The receptions that count, as one filter. -/
theorem Cycle.counted_eq (c : Cycle) (rs : List TimerRx) : c.counted rs = rs.filter c.countsRx := by
  unfold Cycle.counted Cycle.countsRx
  cases h : c.kind
  · simp
  · rfl
  · rfl

/-- The OWN receptions that count. -/
theorem ownRx_counted (s : State) (c : Cycle) :
    ownRx (s.countedRx c) = s.timer.log.filter fun r => r.inStep && c.countsRx r := by
  unfold ownRx State.countedRx
  rw [Cycle.counted_eq, List.filter_filter]

/-- The STRAY receptions that count. -/
theorem strayRx_counted (s : State) (c : Cycle) :
    strayRx (s.countedRx c) = s.timer.log.filter fun r => !r.inStep && c.countsRx r := by
  unfold strayRx State.countedRx
  rw [Cycle.counted_eq, List.filter_filter]

/-- The outnumbered cycle (R22). -/
theorem State.outnumberedNow_iff (s : State) (c : Cycle) :
    s.outnumberedNow c = true ↔ s.station.state = .member ∧ s.wasOutnumbered c := by
  unfold State.outnumberedNow outnumbered State.wasOutnumbered
  simp [ownRx_counted, strayRx_counted, and_assoc]

/-- A step jump is due (R22). -/
theorem State.jumpDue_iff (s : State) (c : Cycle) : s.jumpDue c = true ↔
      s.early.jump = none ∧ s.station.state = .member ∧ s.wasOutnumbered c ∧ 2 ≤ s.timer.stepLoss := by
  unfold State.jumpDue
  simp [State.outnumberedNow_iff, and_assoc]

/-- The fold over the STRAY receptions finds the earliest of the lowest-numbered sender (R23). -/
theorem betterReference_fold (rest : List TimerRx) (r : TimerRx) :
    let b := rest.foldl betterReference r
    b ∈ r :: rest ∧ ∀ q ∈ r :: rest, b.sender < q.sender ∨ (b.sender = q.sender ∧ b.arrival ≤ q.arrival) := by
  induction rest generalizing r with
  | nil => simp
  | cons x xs ih =>
    obtain ⟨h1, h2⟩ := ih (betterReference r x)
    simp only [List.foldl_cons]
    have hb : betterReference r x = r ∨ betterReference r x = x := by
      unfold betterReference; split <;> simp
    have hr : ∀ q, (q = r ∨ q = x) → (betterReference r x).sender < q.sender ∨
        ((betterReference r x).sender = q.sender ∧ (betterReference r x).arrival ≤ q.arrival) := by
      intro q hq
      unfold betterReference
      split <;> rename_i hc <;> rcases hq with hq | hq <;> rw [hq] <;>
        simp only [Fin.lt_def, Fin.ext_iff, true_and] at hc ⊢ <;> omega
    refine ⟨?_, ?_⟩
    · simp only [List.mem_cons] at h1 ⊢
      rcases h1 with h1 | h1
      · rw [h1]; rcases hb with h | h <;> simp [h]
      · exact .inr (.inr h1)
    · intro q hq
      have hbb := h2 (betterReference r x) (by simp)
      simp only [List.mem_cons] at hq
      rcases hq with hq | hq | hq
      · have := hr q (.inl hq)
        simp only [Fin.lt_def, Fin.ext_iff] at this hbb ⊢; omega
      · have := hr q (.inr hq)
        simp only [Fin.lt_def, Fin.ext_iff] at this hbb ⊢; omega
      · exact h2 q (by simp [hq])

/-- The reference of a jump exists in an outnumbered cycle (R23). -/
theorem jumpReference_is {s : State} {c : Cycle} (h : s.wasOutnumbered c) :
    ∃ r, jumpReference (s.countedRx c) = some r ∧ s.jumpReferenceIs c r := by
  unfold jumpReference
  rw [strayRx_counted]
  have hne : (s.timer.log.filter fun r => !r.inStep && c.countsRx r) ≠ [] := by
    intro e
    unfold State.wasOutnumbered at h
    simp only [e] at h
    simp at h
  cases hx : (s.timer.log.filter fun r => !r.inStep && c.countsRx r) with
  | nil => exact absurd hx hne
  | cons r rest =>
    refine ⟨_, rfl, ?_⟩
    obtain ⟨h1, h2⟩ := betterReference_fold rest r
    rw [← hx] at h1 h2
    unfold State.jumpReferenceIs
    simp only [List.mem_filter] at h1 h2
    exact ⟨by simpa using h1, fun q hq => h2 q (by simpa using hq)⟩

/-- The end that R23 places: the phase moved by whole steps into its window. -/
theorem placeEnd_spec (p base e : Int) :
    placeEnd p base = e ↔ base + 5000 ≤ e ∧ e ≤ base + 14999 ∧ ∃ k : Int, e = p + 10000 * k := by
  unfold placeEnd
  constructor
  · rintro rfl
    refine ⟨by omega, by omega, -((p - base - 5000) / 10000), by omega⟩
  · rintro ⟨h1, h2, k, rfl⟩
    omega

/-- That end lies after the cycle's start. -/
theorem placeEnd_toNat (p : Int) (n : Nat) : (((placeEnd p n).toNat : Nat) : Int) = placeEnd p n := by
  have := (placeEnd_spec p n _).1 rfl
  omega

/-! ### The countdowns of pairing -/

/-! ### The payloads -/

/-- What a take reads and changes of the bearer record, the uplink queue apart. -/
def Bearer.takeState (b : Bearer) : Bool × Bool × Sample × List Sample :=
  (b.primed, b.underrun, b.holdSample, b.downlink)

/-- The countdowns of pairing at a cycle end in MEMBER (R82, R90). -/
theorem State.pairingWork_rows {v : State} (hmv : v.station.state = .member) :
    v.pairingWork.pairing.newcomer = v.pairing.newcomer ∧
     ((v.pairing.window.state = .opened ∧ v.early.windowCounted = false) → v.pairing.window.remaining ≤ 1 →
       v.pairingWork.pairing = { v.pairing with
              window := { state := .closed, kind := none, remaining := 0, lastCause := .timeout }
              offer := none
              lapse := none } ∧ v.pairingWork.flagSet .pairingEnded = true) ∧
     ((v.pairing.window.state = .opened ∧ v.early.windowCounted = false) → 1 < v.pairing.window.remaining →
        v.pairingWork.pairing.window = { v.pairing.window with remaining := v.pairing.window.remaining - 1 }) ∧
     (¬(v.pairing.window.state = .opened ∧ v.early.windowCounted = false) →
        v.pairingWork.pairing.window = v.pairing.window) ∧
     (¬((v.pairing.window.state = .opened ∧ v.early.windowCounted = false) ∧ v.pairing.window.remaining ≤ 1) →
        v.pairingWork.pairing.offer = v.pairing.offer ∧
        v.pairingWork.pairing.lapse = if v.early.lapseAged = true then v.pairing.lapse else
          match v.pairing.lapse with
          | none => none
          | some l => if 8 ≤ l.age + 1 then none else some { l with age := l.age + 1 }) := by
  unfold State.pairingWork
  rw [if_pos hmv]
  unfold State.countWindow State.ageLapse State.closeWindow State.windowOpen
  generalize hvp : v.pairing = P at *
  obtain ⟨⟨ws, wk, wr, wc⟩, of, la, nc⟩ := P
  have hz : (wr ≤ 1 ∧ wr - 1 = 0) ∨ (¬wr ≤ 1 ∧ ¬wr - 1 = 0) := by omega
  cases hx : v.early.windowCounted <;> cases hy : v.early.lapseAged <;> cases ws <;> cases la <;>
    rcases hz with ⟨hz, hz'⟩ | ⟨hz, hz'⟩ <;>
    simp_all [CloseCause.flag]


/-- Claim and role in step: the take state stays. -/
theorem State.bearerFollows_takeState (s : State) (a b : ClaimState) :
    (s.bearerFollows a b).bearer.takeState = s.bearer.takeState := by
  unfold State.bearerFollows; split
  · rfl
  · split <;> rfl


/-- So it does in the claim work. -/
theorem State.claimWork_takeState (s : State) : s.claimWork.bearer.takeState = s.bearer.takeState := by
  have hv : ∀ (t : State) f, (t.decideVoice f).bearer = t.bearer := fun t f => by unfold State.decideVoice; simp
  have hf : ∀ (t : State) f, (t.decideFar f).bearer.takeState = t.bearer.takeState := fun t f => by
    unfold State.decideFar; rw [State.bearerFollows_takeState]; simp
  unfold State.claimWork State.decideClaims
  split
  · dsimp only
    split <;> split <;> simp [hf]
  · rfl


/-- And in a step jump. -/
theorem State.jumpIfDue_takeState (s : State) (c : Cycle) :
    (s.jumpIfDue c).bearer.takeState = s.bearer.takeState := by
  unfold State.jumpIfDue State.stepJump State.makeJump
  split
  · show s.jumpClaims.forgetViews.jumpLapse.bearer.takeState = _
    simp [State.forgetViews, State.jumpClaims]
    split <;> rfl
  · rfl


/-- And in all the work before the transitions. -/
theorem State.atDeadline_takeState (s : State) (c : Cycle) :
    (s.atDeadline c).bearer.takeState = s.bearer.takeState := by
  unfold State.atDeadline State.cycleWork
  have ha : ∀ t : State, t.ageBearer.bearer.takeState = t.bearer.takeState := fun t => by
    unfold State.ageBearer
    split <;> rfl
  simp [ha, State.claimWork_takeState, State.timerWork]
  rw [State.jumpIfDue_takeState]; rfl


/-- A take depends on the take state and its one event alone. -/
theorem State.makeTake_congr {s t : State} (h : s.bearer.takeState = t.bearer.takeState)
    (hf : s.flagSet .downlinkUnderrun = t.flagSet .downlinkUnderrun) :
    s.makeTake.bearer.takeState = t.makeTake.bearer.takeState ∧
    s.makeTake.bearer.lastTake = t.makeTake.bearer.lastTake ∧
    s.makeTake.chan.farPayload = t.makeTake.chan.farPayload ∧
    s.makeTake.flagSet .downlinkUnderrun = t.makeTake.flagSet .downlinkUnderrun := by
  unfold Bearer.takeState at *
  simp only [Prod.mk.injEq] at h
  obtain ⟨h1, h2, h3, h4⟩ := h
  unfold State.makeTake
  rw [h1, h2, h3, h4]
  split
  · rw [State.raiseIf_flagSet, State.raiseIf_flagSet]
    refine ⟨?_, ?_, ?_, ?_⟩
    · simp [Bearer.afterFrame, h4]
    · simp [Bearer.afterFrame]
    · simp
    · simp only [State.flagSet] at hf ⊢; rw [hf]
  · exact ⟨by simp [h1, h2, h3, h4], rfl, rfl, hf⟩


/-- The payloads that a frame deadline prepares: the take where the far-end claim holds a slot, and the voice payload
(R98, R150). -/
theorem State.deadline_payloads (s : State) :
   s.deadline.bearer.takeState = (if s.farEnd.sending then s.makeTake else s).bearer.takeState ∧
   s.deadline.bearer.lastTake = (if s.farEnd.sending then s.makeTake.bearer.lastTake else .none) ∧
   s.deadline.chan.farPayload = (if s.farEnd.sending then s.makeTake else s).chan.farPayload ∧
   s.deadline.flagSet .downlinkUnderrun = (if s.farEnd.sending then s.makeTake else s).flagSet .downlinkUnderrun ∧
   s.deadline.chan.voicePayload = s.voicePayloadNow := by
  have hu : ∀ t : State, t.uplinkWork.bearer.takeState = t.bearer.takeState ∧
      t.uplinkWork.bearer.lastTake = t.bearer.lastTake ∧ t.uplinkWork.chan = t.chan ∧
      t.uplinkWork.flagSet .downlinkUnderrun = t.flagSet .downlinkUnderrun := by
    intro t
    refine ⟨?_, ?_, ?_, State.uplinkWork_raises _ _ (by decide)⟩
    all_goals (unfold State.uplinkWork; split <;> (try unfold State.joinUplink) <;> simp [Bearer.takeState])
  set v := (s.updateStreams s.peers).prepareVoice with hv
  have e : s.deadline = v.takeDownlink.uplinkWork.handFrames := rfl
  have hvh : v.bearer.takeState = s.bearer.takeState := by simp [hv, State.prepareVoice]
  have hvf : v.flagSet .downlinkUnderrun = s.flagSet .downlinkUnderrun := by
    have := s.updateStreams_raises s.peers .downlinkUnderrun (by decide)
    exact this
  have hvs : v.farEnd = s.farEnd := by simp [hv, State.prepareVoice]
  have hvc : v.chan.farPayload = s.chan.farPayload := by simp [hv, State.prepareVoice]
  have hvp : v.chan.voicePayload = s.voicePayloadNow := by
    simp [hv, State.prepareVoice, State.voicePayloadNow, State.effectiveMute]
  obtain ⟨u1, u2, u3, u4⟩ := hu v.takeDownlink
  obtain ⟨m1, m2, m3, m4⟩ := State.makeTake_congr hvh hvf
  have hf : s.deadline.flagSet .downlinkUnderrun = v.takeDownlink.uplinkWork.flagSet .downlinkUnderrun := by
    rw [e]
    unfold State.flagSet
    simp
  rw [hf, u4, e]
  simp only [State.handFrames_frame, u1, u2, u3]
  unfold State.takeDownlink
  rw [hvs]
  have hvm : v.makeTake.chan.voicePayload = v.chan.voicePayload := by unfold State.makeTake; split <;> simp
  split
  · exact ⟨m1, m2, m3, m4, by rw [hvm, hvp]⟩
  · exact ⟨hvh, rfl, hvc, hvf, hvp⟩


/-- The own partner's line mute, from a sound table (R107). -/
theorem partnerMuted_iff (cr : Credentials) (ps : List Peer) (hn : tableOk cr.number ps = true) :
    partnerMuted cr ps = true ↔
      cr.number ∈ admitted cr ps cr.wearer ∧ ∃ p ∈ ps, p.number ∈ admitted cr ps cr.wearer ∧ p.lineMute = true := by
  obtain ⟨h1, h2, h3⟩ : ps.length ≤ 15 ∧ ascending ps = true ∧
      ∀ p ∈ ps, p.number.valid = true ∧ p.number ≠ cr.number := by
    unfold tableOk at hn; simpa [and_assoc] using hn
  have hlen : (admitted cr ps cr.wearer).length ≤ 2 := by unfold admitted; simp
  have hfind : ∀ p ∈ ps, findPeer p.number ps = some p := by
    clear h1 h3 hn hlen
    intro p hp
    induction ps with
    | nil => simp at hp
    | cons q qs ih =>
      have hh := (ascending_cons (p := q) (ps := qs)).1 h2
      unfold findPeer
      rw [List.find?_cons]
      simp only [List.mem_cons] at hp
      rcases hp with rfl | hp
      · simp
      · have : (q.number == p.number) = false := by
          have := hh.1 p hp
          simp; intro e; rw [e] at this; exact absurd this (lt_irrefl _)
        rw [this]; exact ih hh.2 hp
  have hmem : ∀ n p, findPeer n ps = some p → p ∈ ps ∧ p.number = n := by
    intro n p h; unfold findPeer at h
    exact ⟨List.mem_of_find?_eq_some h, by simpa using List.find?_some h⟩
  unfold partnerMuted ownPartner ownAdmitted
  generalize admitted cr ps cr.wearer = l at *
  by_cases ho : cr.number ∈ l
  · have : l.contains cr.number = true := by simpa using ho
    rw [if_pos this]
    cases hx : l.find? (fun n => n != cr.number) with
    | none =>
      simp only [List.find?_eq_none] at hx
      simp only [Bool.false_eq_true, false_iff, not_and, not_exists]
      intro _ p hp hpl _
      have := hx p.number hpl
      simp at this
      exact absurd this (h3 p hp).2
    | some n =>
      have hnl := List.mem_of_find?_eq_some hx
      have hnn : n ≠ cr.number := by simpa using List.find?_some hx
      have honly : ∀ m ∈ l, m ≠ cr.number → m = n := by
        rcases l with _ | ⟨a, _ | ⟨b, _ | ⟨d, l⟩⟩⟩
        · simp at ho
        · simp at ho hnl ⊢; intro h; rw [hnl]
        · simp only [List.mem_cons, List.not_mem_nil, or_false] at ho hnl ⊢
          rintro m (rfl | rfl) hm <;> rcases ho with rfl | rfl <;> rcases hnl with rfl | rfl <;>
            first | rfl | exact absurd rfl hm | exact absurd rfl hnn
        · simp at hlen
      simp only []
      cases hy : findPeer n ps with
      | none =>
        simp only [Bool.false_eq_true, false_iff, not_and, not_exists]
        intro _ p hp hpl _
        have e := honly _ hpl (h3 p hp).2
        have := hfind p hp
        rw [e, hy] at this; simp at this
      | some p =>
        obtain ⟨m1, m2⟩ := hmem n p hy
        simp only []
        refine ⟨fun h => ⟨ho, p, m1, by rw [m2]; exact hnl, h⟩, ?_⟩
        rintro ⟨-, p', x1, x2, x3⟩
        have e := honly _ x2 (h3 p' x1).2
        have := hfind p' x1
        rw [e, hy] at this; simp at this; rw [this]; exact x3
  · have : ¬ l.contains cr.number = true := by simpa using ho
    rw [if_neg this]
    simp [ho]


end Sys2Proof.Machine
end

