-- ==== Sys2Proof/Laws/FarEnd.lean ====
section
/-! SUPPORT. The far-end record's decision at a frame deadline, row by row: its source, the LOST test, the feeds. -/

namespace Sys2Proof.Machine

/-- A candidate for the far-end source, as the statements say it (R122). -/
theorem Peer.farCandidate_iff (p : Peer) :
    p.farCandidate = true ↔ p.state ≠ .lost ∧ p.farSlot ≠ none ∧ p.bearer = true := by
  unfold Peer.farCandidate
  cases p.farSlot <;> simp

/-- The fold of R122 ends at the candidate of the greatest age and then the lowest number. -/
theorem betterSource_best (rest : List Peer) : ∀ p : Peer, ∃ b, b ∈ p :: rest ∧ rest.foldl betterSource p = b ∧
    ∀ q ∈ p :: rest, q.age.toNat < b.age.toNat ∨ (q.age = b.age ∧ b.number ≤ q.number) := by
  induction rest with
  | nil => intro p; exact ⟨p, by simp, rfl, by intro q hq; simp at hq; subst hq; right; exact ⟨rfl, le_refl _⟩⟩
  | cons x xs ih =>
    intro p
    obtain ⟨b, hb, he, ha⟩ := ih (betterSource p x)
    have hpx : (betterSource p x = p ∨ betterSource p x = x) ∧
      (∀ q, q = p ∨ q = x → q.age.toNat < (betterSource p x).age.toNat ∨
        (q.age = (betterSource p x).age ∧ (betterSource p x).number ≤ q.number)) := by
      unfold betterSource
      split
      · rename_i h
        refine ⟨.inr rfl, ?_⟩
        rintro q (rfl | rfl)
        · rcases h with h | h
          · exact .inl h
          · exact .inr ⟨h.1, le_of_lt h.2⟩
        · exact .inr ⟨rfl, le_refl _⟩
      · rename_i h
        rw [not_or] at h
        refine ⟨.inl rfl, ?_⟩
        rintro q (rfl | rfl)
        · exact .inr ⟨rfl, le_refl _⟩
        · by_cases e : p.age = q.age
          · right; refine ⟨e.symm, ?_⟩
            have := h.2
            rw [not_and] at this
            exact not_lt.1 (this e)
          · left
            have := h.1
            have : p.age.toNat ≠ q.age.toNat := fun x => e (BitVec.eq_of_toNat_eq x)
            omega
    refine ⟨b, ?_, he, ?_⟩
    · rcases List.mem_cons.1 hb with h | h
      · rcases hpx.1 with g | g <;> rw [h, g] <;> simp
      · simp [h]
    · intro q hq
      have key : ∀ q, q = p ∨ q = x → q.age.toNat < b.age.toNat ∨ (q.age = b.age ∧ b.number ≤ q.number) := by
        intro q hq
        have h1 := hpx.2 q hq
        have h2 := ha (betterSource p x) (by simp)
        rcases h1 with h1 | h1 <;> rcases h2 with h2 | h2
        · left; omega
        · left; rw [← h2.1]; exact h1
        · left; rw [h1.1]; exact h2
        · right; exact ⟨h1.1.trans h2.1, le_trans h2.2 h1.2⟩
      simp only [List.mem_cons] at hq
      rcases hq with h | h | h
      · exact key q (.inl h)
      · exact key q (.inr h)
      · exact ha q (by simp [h])

/-- The candidate of the greatest age and then the lowest number is the far-end source (R122). -/
theorem farSource_eq {ps : List Peer} {p : Peer} (hp : p ∈ ps ∧ p.farCandidate = true)
    (hb : ∀ q, q ∈ ps ∧ q.farCandidate = true → q.age.toNat < p.age.toNat ∨ (q.age = p.age ∧ p.number ≤ q.number)) :
    farSource ps = some p.number := by
  unfold farSource
  have hm : p ∈ ps.filter Peer.farCandidate := List.mem_filter.2 hp
  cases h : ps.filter Peer.farCandidate with
  | nil => rw [h] at hm; simp at hm
  | cons x xs =>
    dsimp only
    obtain ⟨b, h1, h2, h3⟩ := betterSource_best xs x
    rw [h2]
    have hb' := hb b (List.mem_filter.1 (h ▸ h1))
    have hp' := h3 p (h ▸ hm)
    congr 1
    rcases hb' with g | g <;> rcases hp' with g' | g'
    · omega
    · rw [g'.1] at g; omega
    · rw [g.1] at g'; omega
    · exact le_antisymm g'.2 g.2

/-- Without a candidate there is no far-end source (R122). -/
theorem farSource_none {ps : List Peer} (h : ∀ p, ¬(p ∈ ps ∧ p.farCandidate = true)) : farSource ps = none := by
  unfold farSource
  have : ps.filter Peer.farCandidate = [] := by
    rw [List.filter_eq_nil_iff]
    intro p hp hc
    exact h p ⟨hp, hc⟩
  rw [this]

/-- The far-end record at a deadline fed from the air, row by row (R122 to R124, R126). -/
theorem State.farDecided_rows (v : State) (ps : List Peer) :
    let own := v.station.creds.number
    let loud := fun e : Nat => decide (v.config.tAct.toNat ≤ e)
    let energy := fun f : Frame => ((f.map fun x => x.toInt.natAbs).sum) / 160
    let absent := fun q : StreamRec => { q.withoutSource with hang := q.hang }
    let r := v.streams.farEnd
    let bears := v.bearer.state ≠ .none
    let candidate := fun p : Peer => p ∈ ps ∧ p.state ≠ .lost ∧ p.farSlot ≠ none ∧ p.bearer = true
    let tested := v.farTested ps
    let fed := (v.farDecided ps).1.hangUpdate v.config.tAct.toNat (v.farDecided ps).2;
      (let lost := ∃ n, r.source = some n ∧ (¬bears ∨ n ≠ own) ∧
          ∀ p, findPeer n ps = some p → p.state = .lost
       (lost → tested = absent r) ∧ (¬lost → tested = r)) ∧
      (¬bears → (∀ p, ¬candidate p) → fed = tested.withoutSource) ∧
      (¬bears → ∀ p, candidate p →
        (∀ q, candidate q → q.age.toNat < p.age.toNat ∨ (q.age = p.age ∧ p.number ≤ q.number)) →
        let heard := rxLookup p.number true v.streams.list
        (heard = some .hush → fed = tested.withHush p.number) ∧
        (∀ f e, heard = some (.frame f e) → fed = tested.withFrame f (loud e) p.number false) ∧
        (heard = none → tested.state = .absent → fed = tested.withoutSource) ∧
        (heard = none → tested.state ≠ .absent → fed = { tested.withNothing with source := some p.number })) ∧
      (bears →
        (∀ p, v.bearer.lastTake = .frame → v.chan.farPayload = some p →
          fed = tested.withFrame (decodePayload p) (loud (energy (decodePayload p))) own false) ∧
        (v.bearer.lastTake = .hush → fed = tested.withHush own) ∧
        (v.bearer.lastTake = .none → fed = tested.withNothing)) := by
  intro own loud energy absent r bears candidate tested fed
  have hc : ∀ p, candidate p ↔ p ∈ ps ∧ p.farCandidate = true := fun p => by
    simp only [candidate, Peer.farCandidate_iff]
  refine ⟨?_, ?_, ?_, ?_⟩
  · intro lost
    have key : v.farSourceLost ps = true ↔ lost := by
      unfold State.farSourceLost peerGone
      simp only [lost, r, bears, own]
      cases v.streams.farEnd.source with
      | none => simp
      | some n =>
        simp only [Option.some.injEq, exists_eq_left', Bool.and_eq_true, Bool.not_eq_true', Bool.and_eq_false_iff,
          bne_eq_false_iff_eq, beq_eq_false_iff_ne, not_not]
        refine and_congr Iff.rfl ?_
        cases findPeer n ps <;> simp
    refine ⟨fun h => ?_, fun h => ?_⟩
    · simp only [tested, State.farTested, key.2 h, if_true]; rfl
    · simp only [tested, State.farTested, mt key.1 h]; rfl
  · intro hb hn
    have hb' : v.bearer.state = .none := not_not.1 hb
    simp only [fed, State.farDecided, hb', if_true, farSource_none fun p hp => hn p ((hc p).2 hp), peerFarFeed]
    exact StreamRec.toAbsent_withoutSource _ _ _
  · intro hb p hp hbest heard
    have hb' : v.bearer.state = .none := not_not.1 hb
    have hs := farSource_eq ((hc p).1 hp) fun q hq => hbest q ((hc q).2 hq)
    have hf : v.farDecided ps = peerFarFeed v.streams.list (some p.number) tested := by
      simp only [State.farDecided, hb', if_true, hs]; rfl
    simp only [fed, hf, peerFarFeed]
    refine ⟨?_, ?_, ?_, ?_⟩
    · intro h; rw [show rxLookup p.number true v.streams.list = _ from h]
      exact StreamRec.hushed_withHush _ _ _ _
    · intro f e h; rw [show rxLookup p.number true v.streams.list = _ from h]
      exact StreamRec.take_withFrame _ _ _ _ _ _
    · intro h ha; rw [show rxLookup p.number true v.streams.list = _ from h]
      simp only [StreamRec.nothingFrom, StreamRec.nothing, ha, if_true]
      exact StreamRec.toAbsent_withoutSource _ _ _
    · intro h ha; rw [show rxLookup p.number true v.streams.list = _ from h]
      simp only [StreamRec.nothingFrom, ha, if_false]
      have := StreamRec.nothing_withNothing tested v.config.tAct.toNat none
      rw [← this]; rfl
  · intro hb
    have hf : v.farDecided ps = ownFarFeed v.bearer.lastTake v.chan.farPayload v.station.creds.number tested := by
      simp only [State.farDecided, if_neg hb]; rfl
    simp only [fed, hf]
    refine ⟨?_, ?_, ?_⟩
    · intro p h1 h2; rw [h1, h2]
      exact StreamRec.take_withFrame _ _ _ _ _ _
    · intro h1; rw [h1]
      have : ownFarFeed .hush v.chan.farPayload v.station.creds.number tested = (tested.hushed own, none) := by
        cases v.chan.farPayload <;> rfl
      rw [this]
      exact StreamRec.hushed_withHush _ _ _ _
    · intro h1; rw [h1]
      have : ownFarFeed .none v.chan.farPayload v.station.creds.number tested = (tested.nothing, none) := by
        cases v.chan.farPayload <;> rfl
      rw [this]
      exact StreamRec.nothing_withNothing _ _ _

end Sys2Proof.Machine
end

