-- ==== Sys2Proof/Laws/Grid.lean ====
section
/-! SUPPORT. The slot grid: where slots start, which occur, the first of them, and the start of the next cycle's first slot
(R1, R3, R13, R27). -/

namespace Sys2Proof.Machine

/-- The first of sixteen numbers that passes a check. -/
theorem find_range16 (p : Nat → Bool) (k : Nat) (hk : k < 16) :
    (List.range 16).find? p = some k ↔ p k = true ∧ ∀ j, j < k → p j = false := by
  rw [List.find?_range_eq_some]
  simp [hk]

/-- None of sixteen numbers passes a check. -/
theorem find_range16_none (p : Nat → Bool) : (List.range 16).find? p = none ↔ ∀ j, j < 16 → p j = false := by
  simp

/-- The first slot that occurs. -/
theorem Cycle.firstSlot_iff (c : Cycle) (k : SlotIx) :
    c.firstSlot = k.val ↔ c.occurs k.val = true ∧ ∀ j : SlotIx, j < k → c.occurs j.val = false := by
  have hk := k.isLt
  unfold Cycle.firstSlot
  have h := find_range16 c.occurs k.val hk
  have e : ((List.range 16).find? c.occurs).getD 16 = k.val ↔ (List.range 16).find? c.occurs = some k.val := by
    cases (List.range 16).find? c.occurs with
    | none => simp; omega
    | some x => simp
  rw [e, h]
  refine and_congr_right fun _ => ⟨fun g j hj => g j.val hj, fun g j hj => g ⟨j, by omega⟩ hj⟩

/-- No slot occurs. -/
theorem Cycle.firstSlot_none (c : Cycle) : c.firstSlot = 16 ↔ ∀ j : SlotIx, c.occurs j.val = false := by
  unfold Cycle.firstSlot
  have h := find_range16_none c.occurs
  have e : ((List.range 16).find? c.occurs).getD 16 = 16 ↔ (List.range 16).find? c.occurs = none := by
    cases g : (List.range 16).find? c.occurs with
    | none => simp
    | some x => have := List.mem_of_find?_eq_some g; simp at this; simp; omega
  rw [e, h]
  exact ⟨fun g j => g j.val j.isLt, fun g j hj => g ⟨j, hj⟩⟩

/-- The slots of a jump cycle lie backward from its end (R3). -/
theorem Cycle.slotStart_jump (c : Cycle) (h : c.kind ≠ .ordinary) (k : Nat) :
    c.slotStart k = c.planned - 10000 + 625 * k := by
  unfold Cycle.slotStart; cases e : c.kind <;> simp_all

/-- The slots of an ordinary cycle lie forward from its start (R1). -/
theorem Cycle.slotStart_ordinary (c : Cycle) (h : c.kind = .ordinary) (k : Nat) : c.slotStart k = c.start + 625 * k := by
  unfold Cycle.slotStart; rw [h]

/-- The slots that occur (R3). -/
theorem Cycle.occurs_iff (c : Cycle) (k : SlotIx) :
    c.occurs k.val = true ↔ c.kind = .ordinary ∨ (c.gridInstant : Int) ≤ c.slotStart k.val := by
  unfold Cycle.occurs
  simp

/-- Two instants within 24 ticks (R13). -/
theorem near_iff (x y : Int) : near x y = true ↔ y ≤ x + 24 ∧ x ≤ y + 24 := by
  unfold near; simp; omega

/-- The start of the next cycle's first slot, behind its lead-in after an alignment (R3, R27). -/
theorem Cycle.nextStart_eq (c : Cycle) (next : Int) (h0 : c.nextPhase = none → next = c.planned)
    (h1 : ∀ p, c.nextPhase = some p →
      let length := placeEnd p c.planned - c.planned
      next = c.planned + (if 10000 ≤ length then length - 10000 else length % 625)) : c.nextStart = next := by
  unfold Cycle.nextStart
  cases hp : c.nextPhase with
  | none => rw [h0 hp]
  | some p =>
    rw [h1 p hp]
    have hb : (c.planned : Int) + 5000 ≤ placeEnd p c.planned ∧ placeEnd p c.planned ≤ c.planned + 14999 := by
      unfold placeEnd; omega
    dsimp only
    generalize placeEnd p c.planned = e at hb ⊢
    obtain ⟨n, rfl⟩ : ∃ n : Nat, e = n := ⟨e.toNat, by omega⟩
    have hk : (jumpCycle .aligned c.planned n).kind ≠ .ordinary := by simp [jumpCycle]
    rw [Int.toNat_natCast]
    set d := jumpCycle .aligned c.planned n with hd
    have hs : ∀ k, d.slotStart k = n - 10000 + 625 * k := Cycle.slotStart_jump d hk
    have ho : ∀ k : SlotIx, d.occurs k.val = true ↔ (c.planned : Int) ≤ n - 10000 + 625 * k.val := fun k => by
      rw [Cycle.occurs_iff, hs]; simp [hk]; rfl
    show d.slotStart d.firstSlot = _
    obtain ⟨K, hK⟩ : ∃ K : Nat, K = if 10000 ≤ (n : Int) - c.planned then 0
        else (10000 - (n - c.planned) + 624) / 625 := ⟨_, rfl⟩
    have hK16 : K < 16 := by subst hK; split <;> omega
    have hf : d.firstSlot = K := by
      refine (Cycle.firstSlot_iff d ⟨K, hK16⟩).2 ⟨(ho _).2 ?_, fun j hj => ?_⟩
      · show (c.planned : Int) ≤ n - 10000 + 625 * (K : Int)
        rw [hK]; split <;> (push_cast; omega)
      · have hj' : j.val < K := hj
        cases e : d.occurs j.val with
        | false => rfl
        | true => have := (ho j).1 e; rw [hK] at hj'; split at hj' <;> omega
    rw [hs, hf, hK]
    split <;> (push_cast; omega)

end Sys2Proof.Machine
end

