-- ==== Sys2Proof/Laws/Reception.lean ====
section
/-! SUPPORT. What the end of a slot does, said once: what an accepted burst has passed, the items that reach a slot, and
SLOT_END as the entry, the hand-off and the settling of an offer. -/

namespace Sys2Proof.Machine

/-! ### What an accepted burst has passed (R12) -/

/-- The kind that a payload tells. -/
theorem parseBurst_kind {bs : List Byte} {b : Burst} (h : parseBurst bs = some b) :
    match b.body with
    | .absent => b.kind = .voice ∨ b.kind = .farend ∨ b.kind = .leave
    | .frame _ => b.kind = .voice ∨ b.kind = .farend
    | .join _ _ => b.kind = .join
    | .offer _ _ _ => b.kind = .offer
    | .confirm _ _ _ => b.kind = .confirm := by
  obtain ⟨_, p, hp⟩ := parseBurst_checked h
  generalize b.kind = k at *
  generalize b.body = x at *
  generalize b.hush = u at *
  cases k <;> cases u <;> simp [bodyOfBytes, Option.bind_eq_some_iff] at hp
  all_goals first
    | (subst hp; simp)
    | (obtain ⟨y, _, h2⟩ := hp
       first
         | (subst h2; simp)
         | (obtain ⟨z, _, h3⟩ := h2; subst h3; simp))

/-- A JOIN or CONFIRM is the burst without a sender, and names slot 14; every other names a slot 0..13, an OFFER slot 15. -/
theorem parseBurst_header {bs : List Byte} {b : Burst} (h : parseBurst bs = some b) :
    match b.kind with
    | .voice | .farend | .leave => b.group ≠ 0 ∧ b.sender ≠ 0 ∧ b.slot.val ≤ 13
    | .offer => b.group ≠ 0 ∧ b.sender ≠ 0 ∧ b.slot = 15
    | .join => b.group = 0 ∧ b.sender = 0 ∧ b.slot = 14
    | .confirm => b.group ≠ 0 ∧ b.sender = 0 ∧ b.slot = 14 := by
  have hh := (parseBurst_checked h).1
  have valid : ∀ n : StationNo, n.valid = true → n ≠ 0 := by decide
  unfold headerOk at hh
  cases hk : b.kind <;>
    simp only [hk, Bool.and_eq_true, bne_iff_ne, beq_iff_eq, decide_eq_true_eq] at hh <;>
    first
    | exact ⟨hh.1.1, valid _ hh.1.2, hh.2⟩
    | exact ⟨hh.1.1, hh.1.2, hh.2⟩

/-- In step, as the statements and the model say it (R14). -/
theorem Burst.inStepAt_iff (b : Burst) (c : Cycle) (k : SlotIx) (a : Nat) :
    b.inStepAt c k a ↔
      Heard.inWindow { burst := b, arrival := a, offset := (a : Int) - c.slotStart k.val } k = true := by
  simp only [Burst.inStepAt, Heard.inWindow, near, Bool.and_eq_true, decide_eq_true_eq, beq_iff_eq]
  constructor
  · rintro ⟨h1, h2, h3⟩; exact ⟨⟨by omega, by omega⟩, h1⟩
  · rintro ⟨⟨h2, h3⟩, h1⟩; exact ⟨h1, by omega, by omega⟩

/-! ### SLOT_END -/

/-- Without an outstanding offer slot 14 settles nothing. -/
theorem State.settleAt14_none {s : State} (h : s.pairing.offer = none) (k : SlotIx) (g : Offer → Bool) :
    s.settleAt14 k g = s := by
  unfold State.settleAt14 State.settleOffer
  split <;> simp [h]

/-- Where no CONFIRM completes it, slot 14 lets the offer lapse in its cycle and leaves everything else (R89). -/
theorem State.settleAt14_lapse {s : State} {k : SlotIx} {g : Offer → Bool}
    (h : ∀ o, k = 14 → s.pairing.offer = some o → s.timer.counter = o.cycleSent + 1 → g o = false) :
    s.settleAt14 k g = { s with pairing := s.pairingAfter k } := by
  unfold State.settleAt14 State.settleOffer State.pairingAfter
  cases ho : s.pairing.offer with
  | none => split <;> rfl
  | some o =>
    by_cases hk : k = 14
    · by_cases hc : s.timer.counter = o.cycleSent + 1
      · simp [hk, hc, h o hk ho hc, State.lapseOffer]
      · simp only [hk, if_true, if_neg hc, true_and]
    · simp [hk]

/-- Another slot than 14 keeps the pairing records. -/
theorem State.pairingAfter_other {k : SlotIx} (h : k ≠ 14) (s : State) : s.pairingAfter k = s.pairing := by
  unfold State.pairingAfter
  split
  · rfl
  · rw [if_neg fun x => h x.1]

/-- Another slot than 14 settles nothing. -/
theorem State.settleAt14_other {k : SlotIx} (h : k ≠ 14) (s : State) (g : Offer → Bool) : s.settleAt14 k g = s := by
  simp [State.settleAt14, h]

/-- The close of a slot leaves the state that the statements name. -/
theorem State.closeSlot_eq (s : State) (c : Cycle) (k : SlotIx) (e : Entry) (later : List AirItem) :
    s.closeSlot k (c.slotEnd k.val).toNat e later = s.slotOver c k e later := rfl

/-- SLOT_END where it is due, whatever the air held. -/
theorem State.endsSlot_exec {s : State} {c : Cycle} {k : SlotIx} (h : s.endsSlot c k) (order : ReceptionOrder)
    (air : List AirItem) : execSlotEnd order air s = .next (s.endSlot c k order air) :=
  execSlotEnd_due h.1 h.2.1 h.2.2.1 h.2.2.2 order air

/-- The station's own transmission does not overlap an item that the receiver takes. -/
theorem State.takes_sent {s : State} {x : AirItem} (h : s.takes x) : overlapsSent s.chan.sent x = false := by
  unfold overlapsSent
  split
  · rfl
  · rename_i o ho
    rcases h.2.2 o ho with hx | hx <;> simp <;> omega

/-- An item that the receiver takes is heard and not abandoned. -/
theorem State.takes_hears {s : State} {x : AirItem} (h : s.takes x) :
    s.chan.hears x = true ∧ s.chan.abandons x = false := by
  refine ⟨decide_eq_true h.1, ?_⟩
  simp only [Channel.abandons, List.any_eq_false]
  intro p hp
  have := h.2.1 p hp
  simp; omega

/-- The items that a slot end takes up are those that fall in its slot and are not shut out; those held over it are the
later ones (R13). -/
theorem State.airItems_split (s : State) (c : Cycle) (k : SlotIx) (air : List AirItem) :
    itemsIn c k.val (s.airItems c air) =
        (s.itemsOf c k air).filter (fun x => !overlapsSent s.chan.sent x && !beforeJump c x) ∧
      itemsAfter c k.val (s.airItems c air) = s.laterItems c k air := by
  refine ⟨?_, ?_⟩
  · simp only [itemsIn, State.airItems, State.itemsOf, List.filter_filter]
    refine List.filter_congr fun x _ => ?_
    simp only [Bool.and_comm, Bool.beq_eq_decide_eq]
  · simp only [itemsAfter, State.airItems, State.laterItems, List.filter_filter]
    refine List.filter_congr fun x _ => ?_
    rw [Bool.and_assoc]
    cases fallsIn c x <;> rfl

/-- What reaches a slot that receives every item that falls in it. -/
theorem State.receivesIn_items {s : State} {c : Cycle} {k : SlotIx} {air : List AirItem}
    (h : ∀ x ∈ s.itemsOf c k air, s.receivesIn c k x) :
    itemsIn c k.val (s.airItems c air) = s.itemsOf c k air ∧
      s.slotHeld c k.val (itemsIn c k.val (s.airItems c air)) = heldBy c k.val (s.itemsOf c k air) := by
  have hi : itemsIn c k.val (s.airItems c air) = s.itemsOf c k air := by
    rw [(s.airItems_split c k air).1, List.filter_eq_self]
    intro x hx
    simp [State.takes_sent (h x hx).1, (h x hx).2.2.2]
  have hm : (s.itemsOf c k air).any (s.chan.masks c) = false := by
    simp only [List.any_eq_false]
    intro x hx
    simp [Channel.masks, State.takes_hears (h x hx).1, (h x hx).2.2.1]
  have hf : (s.itemsOf c k air).filter s.chan.hears = s.itemsOf c k air := by
    simp only [List.filter_eq_self]
    intro x hx
    exact (State.takes_hears (h x hx).1).1
  exact ⟨hi, by simp [State.slotHeld, hi, hm, hf]⟩

/-- The end of a slot that held one clean burst alone, and in which the station sent nothing: its entry, the hand-off,
and at slot 14 the settling of an offer. -/
theorem State.hearsAlone_exec {s : State} {c : Cycle} {k : SlotIx} {air : List AirItem} {a f : Nat} {bytes : List Byte}
    {b : Burst} (h : s.hearsAlone c k air a f bytes b) (order : ReceptionOrder) :
    let r : Heard := { burst := b, arrival := a, offset := (a : Int) - c.slotStart k.val }
    let e := s.entryOf k (.clean r)
    execSlotEnd order air s = .next
      (((s.slotOver c k e (s.laterItems c k air)).handOff c k (c.slotEnd k.val).toNat (isLate k order) e
        (.clean r)).settleAt14 k (s.confirms k e (.clean r))) := by
  obtain ⟨he, hs, hi, hx, hp⟩ := h
  have hh := (State.receivesIn_items (s := s) (c := c) (k := k) (air := air) (by rw [hi]; simpa using hx)).2
  have hb : heldBy c k.val [.burst a f bytes] =
      .clean { burst := b, arrival := a, offset := (a : Int) - c.slotStart k.val } := by
    simp [heldBy, heldOne, hp]
  rw [hi, hb] at hh
  rw [State.endsSlot_exec he]
  simp only [State.endSlot, (s.airItems_split c k air).2, hh, hs, State.closeSlot_eq]
  rfl

/-- The same where the burst is of the own group and in step: an OWN reception (R15, R16). -/
theorem State.hearsAlone_own {s : State} {c : Cycle} {k : SlotIx} {air : List AirItem} {a f : Nat} {bytes : List Byte}
    {b : Burst} (h : s.hearsAlone c k air a f bytes b) (order : ReceptionOrder)
    (ho : s.station.state.receiverOn = true) (hg : b.group = s.ownGroup) (hn : b.sender ≠ 0)
    (hw : s.station.state.wide = true ∨ b.inStepAt c k a) :
    execSlotEnd order air s = .next
      (((s.slotOver c k (.own b.sender) (s.laterItems c k air)).heardOwn c (c.slotEnd k.val).toNat (isLate k order)
        { burst := b, arrival := a, offset := (a : Int) - c.slotStart k.val }).settleAt14 k fun _ => false) := by
  have hi : s.inStep { burst := b, arrival := a, offset := (a : Int) - c.slotStart k.val } k = true := by
    rw [Burst.inStepAt_iff] at hw
    simpa [State.inStep] using hw
  have he : s.entryOf k (.clean { burst := b, arrival := a, offset := (a : Int) - c.slotStart k.val }) =
      .own b.sender := by
    simp [State.entryOf, State.classify, ho, h.2.1, hg, hn, hi]
  have hx := State.hearsAlone_exec h order
  simp only [he] at hx
  exact hx

/-- A burst of a station with a number never names slot 14. -/
theorem parseBurst_not14 {bytes : List Byte} {b : Burst} {k : SlotIx} (hp : parseBurst bytes = some b)
    (hk : b.slot = k) (hs : b.sender ≠ 0) : k ≠ 14 := by
  have := parseBurst_header hp
  rintro rfl
  cases hkind : b.kind <;> rw [hkind] at this <;> simp only [hk] at this
  all_goals first | exact hs this.2.1 | exact absurd this.2.2 (by decide)

/-- An OWN reception of another station in MEMBER or LEAVING: the hand-off, and what it finds. -/
theorem State.hearsPeer_exec {s : State} {c : Cycle} {k : SlotIx} {air : List AirItem} {a f : Nat}
    {bytes : List Byte} {b : Burst} (hh : s.hearsAlone c k air a f bytes b) (order : ReceptionOrder)
    (hst : b.inStepAt c k a) (hml : s.station.state = .member ∨ s.station.state = .leaving)
    (hg : b.group = s.station.creds.group) (hn : b.sender ≠ s.station.creds.number) (hn0 : b.sender ≠ 0) :
    ∃ v : State, exec (.slotEnd order air) s = .next
        (v.heardPeer (isLate k order) b ((a : Int) - c.slotStart k.val)) ∧
      v.bearer = s.bearer ∧ v.station = s.station ∧ v.flags = s.flags ∧ v.streams = s.streams ∧
      v.peers = s.peers ∧ v.pairing = s.pairing ∧
      v.chan.late = s.chan.late ∧ v.chan.held = s.laterItems c k air ∧
      v.voice = s.voice.readMap s.station.creds.number b.heardMap ∧
      v.farEnd = s.farEnd.readMap s.station.creds.number b.heardMap ∧
      v.views = { s.views with filling := s.views.filling.set k.val (.own b.sender) } ∧ v.store = s.store ∧
      s.sameFrame v := by
  have hon : s.station.state.receiverOn = true := by rcases hml with h | h <;> rw [h] <;> rfl
  have hgo : b.group = s.ownGroup := by
    unfold State.ownGroup; rw [hg]; rcases hml with h | h <;> rw [h]
  have hx := State.hearsAlone_own hh order hon hgo hn0 (.inr hst)
  have hk := parseBurst_not14 hh.2.2.2.2 hst.1 hn0
  rw [State.settleAt14_other hk] at hx
  let d : Int := (a : Int) - c.slotStart k.val
  have hr : ∀ t : State, t.station = s.station →
      t.heardAsMember (isLate k order) b d = (t.readMap b.heardMap).heardPeer (isLate k order) b d := by
    intro t ht; unfold State.heardAsMember; rw [if_neg]; rw [ht]; exact hn
  rcases hml with h | h
  · refine ⟨(((s.slotOver c k (.own b.sender) (s.laterItems c k air)).markHeard b.sender).logRx true
      { burst := b, arrival := a, offset := d }).readMap b.heardMap, ?_, ?_⟩
    · rw [← hr _ (by simp [State.markHeard, State.slotOver])]
      refine hx.trans ?_
      unfold State.heardOwn
      have : (s.slotOver c k (.own b.sender) (s.laterItems c k air)).station.state = .member := h
      simp only [this, d]
    · unfold State.readMap State.markHeard State.slotOver State.logRx State.sameFrame
      simp
      split <;> simp
  · refine ⟨((s.slotOver c k (.own b.sender) (s.laterItems c k air)).markHeard b.sender).readMap b.heardMap, ?_, ?_⟩
    · rw [← hr _ (by simp [State.markHeard, State.slotOver])]
      refine hx.trans ?_
      unfold State.heardOwn
      have : (s.slotOver c k (.own b.sender) (s.laterItems c k air)).station.state = .leaving := h
      simp only [this, d]
    · exact ⟨rfl, rfl, rfl, rfl, rfl, rfl, rfl, rfl, rfl, rfl, rfl, rfl, rfl, rfl, rfl, rfl, rfl, rfl⟩

/-! ### What an OWN reception gives the cycle timer and the ageing (R16, R21, R22, R49) -/

/-- A transition keeps what the cycle has heard. -/
theorem Channel.turn_heard (ch : Channel) (was now : Bool) (t : Nat) : (ch.turn was now t).heard = ch.heard := by
  cases was <;> cases now <;> rfl

/-- A turn of the receiver keeps what falls in a later slot. -/
theorem Channel.turn_held (ch : Channel) (a b : Bool) (n : Nat) : (ch.turn a b n).held = ch.held := by
  cases a <;> cases b <;> rfl

/-- The yields keep what the cycle has heard. -/
theorem State.yields_heard (s : State) : s.clashYield.chan.heard = s.chan.heard ∧
    s.electionYield.chan.heard = s.chan.heard ∧ (s.closeWindow .yielded).chan.heard = s.chan.heard := by
  refine ⟨?_, ?_, ?_⟩
  · unfold State.clashYield State.enter
    simp [Channel.turn_heard]
  · unfold State.electionYield
    simp
  · simp

/-- A yield now or late keeps what the cycle has heard. -/
theorem State.nowOrLate_heard {s t : State} (h : t.chan.heard = s.chan.heard) (late : Bool) (e : LateEffect) :
    (s.nowOrLate late e t).chan.heard = s.chan.heard := by
  unfold State.nowOrLate
  split
  · rfl
  · exact h

/-- The hand-off to a station in the group keeps what the cycle has heard. -/
theorem State.heardAsMember_heard (s : State) (late : Bool) (b : Burst) (d : Int) :
    (s.heardAsMember late b d).chan.heard = s.chan.heard := by
  have hr : (s.readMap b.heardMap).chan = s.chan := rfl
  have he : ∀ t : State, (t.election late b).chan.heard = t.chan.heard := fun t => by
    unfold State.election
    split
    · exact State.nowOrLate_heard t.yields_heard.2.1 _ _
    · rfl
  have hw : ∀ t : State, (t.windowYield late b).chan.heard = t.chan.heard := fun t => by
    unfold State.windowYield
    split
    · exact State.nowOrLate_heard t.yields_heard.2.2 _ _
    · rfl
  unfold State.heardAsMember
  dsimp only
  split
  · unfold State.clash
    split
    · rw [State.nowOrLate_heard (State.yields_heard _).1, hr]
    · rw [hr]
  · unfold State.heardPeer
    simp only [State.storeReception_frame]
    rw [hw, he, (State.peerView_frame _ _ _).2.2.2.2.2.2.1, hr]

/-- An OWN reception in MEMBER or LEAVING, of another station's burst or of one under the own number. -/
theorem State.hearsAlone_counts {s : State} {c : Cycle} {k : SlotIx} {air : List AirItem} {a f : Nat}
    {bytes : List Byte} {b : Burst} (hh : s.hearsAlone c k air a f bytes b) (order : ReceptionOrder)
    (hst : b.inStepAt c k a) (hml : s.station.state = .member ∨ s.station.state = .leaving)
    (hg : b.group = s.station.creds.group) (hn0 : b.sender ≠ 0) :
    ∃ t, exec (.slotEnd order air) s = .next t ∧ s.countsOwn c k a b t := by
  have hon : s.station.state.receiverOn = true := by rcases hml with h | h <;> rw [h] <;> rfl
  have hgo : b.group = s.ownGroup := by
    unfold State.ownGroup
    rw [hg]
    rcases hml with h | h <;> rw [h]
  have hx := State.hearsAlone_own hh order hon hgo hn0 (.inr hst)
  rw [State.settleAt14_other (parseBurst_not14 hh.2.2.2.2 hst.1 hn0)] at hx
  refine ⟨_, hx, ?_⟩
  have hst' : (s.slotOver c k (.own b.sender) (s.laterItems c k air)).station.state = s.station.state := rfl
  unfold State.heardOwn State.countsOwn State.hearsAlso
  rcases hml with h | h
  · rw [hst', h]
    dsimp only
    rw [State.heardAsMember_heard, (State.heardAsMember_frame _ _ _ _).2.2.2.1]
    have e : ((s.slotOver c k (.own b.sender) (s.laterItems c k air)).markHeard b.sender).station.state = .member := h
    unfold State.logRx
    rw [if_pos e]
    exact ⟨fun _ => rfl, fun x => by (cases x), fun m => by simp [State.markHeard, State.slotOver]⟩
  · rw [hst', h]
    dsimp only
    rw [State.heardAsMember_heard, (State.heardAsMember_frame _ _ _ _).2.2.2.1]
    exact ⟨fun x => by (cases x), fun _ => rfl, fun m => by simp [State.markHeard, State.slotOver]⟩

/-- An OWN reception in LISTEN counts its sender, whether it aligns or not. -/
theorem State.hearsAlone_heard {s : State} {c : Cycle} {k : SlotIx} {air : List AirItem} {a f : Nat}
    {bytes : List Byte} {b : Burst} (hh : s.hearsAlone c k air a f bytes b) (order : ReceptionOrder)
    (hl : s.station.state = .listen) (hg : b.group = s.station.creds.group) (hn0 : b.sender ≠ 0) :
    ∃ t, exec (.slotEnd order air) s = .next t ∧ t.hearsAlso s b.sender := by
  have hgo : b.group = s.ownGroup := by
    unfold State.ownGroup
    rw [hg, hl]
  have hx := State.hearsAlone_own hh order (by rw [hl]; rfl) hgo hn0 (.inl (by rw [hl]; rfl))
  refine ⟨_, hx, ?_⟩
  have hst' : (s.slotOver c k (.own b.sender) (s.laterItems c k air)).station.state = .listen := hl
  have hs : ∀ (t : State) g, (t.settleAt14 k g).chan.heard = t.chan.heard := fun t g => by
    unfold State.settleAt14
    split <;> simp
  unfold State.heardOwn State.hearsAlso
  rw [hst', hs]
  dsimp only
  unfold State.heardInListen
  split
  · rw [State.heardAsMember_heard]
    intro m
    simp [State.enterMember, State.enter, State.align, State.forgetViews, Channel.turn_heard, State.markHeard,
      State.slotOver]
  · intro m
    simp [State.markHeard, State.slotOver]

end Sys2Proof.Machine
end

