-- ==== Sys2Proof/Laws/Handoff.lean ====
section
/-! SUPPORT. What an OWN reception of another station makes of the reception list, the claims, the stream records and the
events, said once, beside the peer view's own work on the table. -/

namespace Sys2Proof.Machine

/-- The reception list after a reception is as the statements say (R114). -/
theorem State.storeReception_stores {s t : State} {b : Burst} {bytes : List Byte} (hp : parseBurst bytes = some b)
    (h : t.streams.list = (s.storeReception b).streams.list) : s.storesOutcome b t := by
  have look : ∀ (n : StationNo) (far : Bool) (o : RxOutcome) (l : List RxEntry),
      rxLookup n far (rxStore n far o l) = some o ∧
        ∀ m g, m ≠ n ∨ g ≠ far → rxLookup m g (rxStore n far o l) = rxLookup m g l := fun n far o l => by
    have gone : (l.filter fun e => !e.under n far).find? (RxEntry.under n far) = none := by
      rw [List.find?_eq_none]
      intro e he
      simpa using (List.mem_filter.1 he).2
    refine ⟨?_, fun m g hm => ?_⟩
    · unfold rxLookup rxStore
      rw [List.find?_append, gone]
      simp [RxEntry.under]
    · have other : (l.filter fun e => !e.under n far).find? (RxEntry.under m g) = l.find? (RxEntry.under m g) := by
        rw [List.find?_filter]
        congr 1
        funext e
        simp only [RxEntry.under]
        by_cases h1 : e.sender = m <;> by_cases h2 : e.farEnd = g <;> simp [h1, h2]
        rcases hm with hm | hm
        · exact .inl hm
        · exact .inr hm
      unfold rxLookup rxStore
      rw [List.find?_append, other]
      have hno : RxEntry.under m g { sender := n, farEnd := far, outcome := o } = false := by
        by_contra hx
        simp only [RxEntry.under, Bool.not_eq_false, Bool.and_eq_true, beq_iff_eq] at hx
        rcases hm with hm | hm
        · exact hm hx.1.symm
        · exact hm hx.2.symm
      rw [List.find?_cons_of_neg (by simp [hno])]
      simp
  have hb := parseBurst_kind hp
  unfold State.storesOutcome
  rw [h]
  unfold State.storeReception outcomeOf
  cases hx : b.body <;> rw [hx] at hb <;> simp only [] at hb
  all_goals cases hk : b.kind <;> simp only [hk, reduceCtorEq, or_self, or_false, or_true] at hb ⊢
  all_goals first
    | exact ⟨fun _ => look _ _ _ _, fun x => absurd rfl x⟩
    | exact ⟨fun _ => look _ _ _ _, fun _ x => absurd rfl x⟩
    | exact ⟨fun x => x.elim, fun _ _ => trivial⟩

/-- A claim after a heard map is as the statements say (R67). -/
theorem State.readsMap_of {s t : State} {id : ClaimId} {b : Burst}
    (h : t.claim id = (s.claim id).readMap s.station.creds.number b.heardMap) : s.readsMap id b t := by
  unfold State.readsMap
  rw [h]
  unfold Claim.readMap
  refine ⟨fun j hj hs => ?_, fun h1 h2 => ?_⟩
  · rw [hj]
    rcases hs with hs | hs <;> simp only [hs] <;> unfold Claim.report <;>
      generalize b.heardMap.getD j.val 0 = r <;> by_cases h0 : r = 0 <;> by_cases h1 : r = s.station.creds.number <;>
      cases hc : s.claim id <;> simp_all
    split <;> simp_all
  · cases hj : (s.claim id).slot with
    | none => rfl
    | some k => cases hs : (s.claim id).state <;> simp_all

/-- The peer view leaves the reception list. -/
theorem State.peerView_list (s : State) (b : Burst) (d : Int) : (s.peerView b d).streams.list = s.streams.list := by
  unfold State.peerView State.createPeer State.peerCreated State.peerLeave State.farSourceGone State.farRecordAbsent
    State.wearersLose
  repeat' split
  all_goals simp

/-- The end of a role raises FAREND_DOWN alone, where the far-end record was present (R127). -/
theorem State.bearerToNone_flagSet (s : State) (g : Flag) :
    s.bearerToNone.flagSet g = (s.flagSet g || (s.streams.farEnd.state != .absent && decide (.farendDown = g))) := by
  unfold State.bearerToNone State.farRecordAbsent
  rw [State.raiseIf_flagSet]
  rfl

/-- A lost election raises BEARER_CONFLICT besides (R144). -/
theorem State.electionYield_flagSet (s : State) (g : Flag) :
    s.electionYield.flagSet g =
      (s.flagSet g || (s.streams.farEnd.state != .absent && decide (.farendDown = g)) ||
        decide (.bearerConflict = g)) := by
  unfold State.electionYield
  rw [State.raise_flagSet, State.bearerToNone_flagSet]
  rfl

/-- The flags that the bearer unit and the pairing controller may raise at a reception. -/
def Flag.ofYield (g : Flag) : Bool := g == .farendDown || g == .bearerConflict || g == .pairingEnded

/-- The election's part in a reception: nothing but the yield, here and now, or kept for after the cycle end. -/
theorem State.election_parts (w : State) (late : Bool) (b : Burst) :
    let y := w.election late b
    y.chan.held = w.chan.held ∧ y.chan.heard = w.chan.heard ∧ y.streams.wearers = w.streams.wearers ∧
      y.streams.list = w.streams.list ∧ (∀ g : Flag, g.ofYield = false → y.flagSet g = w.flagSet g) ∧
      (w.streams.farEnd.state = .absent → y.flagSet .farendDown = w.flagSet .farendDown) ∧
      (¬(w.losesElection b = true ∧ late = false) →
        y.farEnd = w.farEnd ∧ y.streams.farEnd = w.streams.farEnd ∧ y.flagSet .farendDown = w.flagSet .farendDown) ∧
      (w.losesElection b = true ∧ late = false → y.streams.farEnd = w.streams.farEnd.toAbsent) := by
  intro y
  simp only [y]
  unfold State.election State.nowOrLate
  by_cases h : w.losesElection b = true
  · rw [if_pos h]
    cases late with
    | true => exact ⟨rfl, rfl, rfl, rfl, fun _ _ => rfl, fun _ => rfl, fun _ => ⟨rfl, rfl, rfl⟩, fun x => by cases x.2⟩
    | false =>
      rw [if_neg (by decide)]
      refine ⟨by simp [State.electionYield], by simp [State.electionYield], by simp [State.electionYield],
        by simp [State.electionYield], fun g hg => ?_, fun ha => ?_, fun x => absurd ⟨h, rfl⟩ x,
        fun _ => by simp [State.electionYield]⟩
      · rw [State.electionYield_flagSet]
        cases g <;> simp_all [Flag.ofYield]
      · rw [State.electionYield_flagSet, ha]
        simp
  · rw [if_neg h]
    exact ⟨rfl, rfl, rfl, rfl, fun _ _ => rfl, fun _ => rfl, fun _ => ⟨rfl, rfl, rfl⟩, fun x => absurd x.1 h⟩

/-- The window's yield leaves the receptions, and every event but PAIRING_ENDED. -/
theorem State.windowYield_parts (x : State) (late : Bool) (b : Burst) :
    let z := x.windowYield late b
    z.chan.held = x.chan.held ∧ z.chan.heard = x.chan.heard ∧
      ∀ g : Flag, g ≠ .pairingEnded → z.flagSet g = x.flagSet g := by
  intro z
  simp only [z]
  unfold State.windowYield State.nowOrLate
  split
  · cases late with
    | true => exact ⟨rfl, rfl, fun _ _ => rfl⟩
    | false =>
      refine ⟨by simp, by simp, fun g hg => ?_⟩
      rw [if_neg (by decide)]
      unfold State.closeWindow
      split
      · rw [State.raise_flagSet]
        simp [CloseCause.flag, Ne.symm hg, State.flagSet]
      · rfl
  · exact ⟨rfl, rfl, fun _ _ => rfl⟩

/-- What the bearer unit, the pairing controller and the stream unit leave of what the peer view has made at a reception;
where the burst does not end the role here and now, the far-end claim, record and event as well. -/
theorem State.heardPeer_parts (v : State) (late : Bool) (b : Burst) (d : Int) :
    let t := v.heardPeer late b d
    let w := v.peerView b d
    t.station = v.station ∧ t.views = v.views ∧ t.store = v.store ∧ v.sameFrame t ∧ t.timer = v.timer ∧
      t.chan.held = v.chan.held ∧ t.chan.heard = v.chan.heard ∧ t.peers = w.peers ∧ t.voice = v.voice ∧
      t.streams.wearers = w.streams.wearers ∧ t.streams.list = (v.storeReception b).streams.list ∧
      (∀ g : Flag, g.ofYield = false → t.flagSet g = w.flagSet g) ∧
      (w.streams.farEnd.state = .absent → t.flagSet .farendDown = w.flagSet .farendDown) ∧
      (¬(v.losesElection b = true ∧ late = false) →
        t.farEnd = v.farEnd ∧ t.streams.farEnd = w.streams.farEnd ∧ t.flagSet .farendDown = w.flagSet .farendDown) ∧
      (v.losesElection b = true ∧ late = false → t.streams.farEnd = w.streams.farEnd.toAbsent) := by
  intro t w
  have hw := State.peerView_frame v b d
  have hl : w.losesElection b = v.losesElection b := by
    unfold State.losesElection
    simp only [w, hw]
  have hs : ∀ x : State, (x.storeReception b).streams.wearers = x.streams.wearers ∧
      (x.storeReception b).streams.farEnd = x.streams.farEnd ∧
      (x.streams.list = v.streams.list → (x.storeReception b).streams.list = (v.storeReception b).streams.list) ∧
      ∀ g, (x.storeReception b).flagSet g = x.flagSet g := fun x => by
    unfold State.storeReception
    refine ⟨?_, ?_, fun h => ?_, fun g => ?_⟩ <;> split <;> simp_all [State.flagSet]
  obtain ⟨y1, y2, y3, y4, y5, y6, y7, y8⟩ := State.election_parts w late b
  obtain ⟨z1, z2, z3⟩ := State.windowYield_parts (w.election late b) late b
  have zs : ((w.election late b).windowYield late b).streams = (w.election late b).streams := by simp
  obtain ⟨s1, s2, s3, s4⟩ := hs ((w.election late b).windowYield late b)
  have hp := State.peerView_list v b d
  have e : t = ((w.election late b).windowYield late b).storeReception b := rfl
  rw [zs] at s1 s2
  rw [hl] at y7 y8
  refine ⟨?_, ?_, ?_, ?_, ?_, ?_, ?_, ?_, ?_, ?_, ?_, ?_, ?_, ?_, ?_⟩
  · rw [e]; simp [w]
  · rw [e]; simp [w]
  · rw [e]; simp [w]
  · rw [e]; unfold State.sameFrame; simp [w]
  · rw [e]; simp [w]
  · rw [e]; simp [z1, y1, w]
  · rw [e]; simp [z2, y2, w]
  · rw [e]; simp [w]
  · rw [e]; simp [w]
  · rw [e, s1, y3]
  · rw [e, s3 (by rw [zs, y4]; exact hp)]
  · intro g hg
    rw [e, s4, z3 g (by rintro rfl; cases hg), y5 g hg]
  · intro ha
    rw [e, s4, z3 _ (by decide), y6 ha]
  · intro h
    rw [e, s4, s2, z3 _ (by decide), (y7 h).2.1, (y7 h).2.2]
    refine ⟨?_, rfl, rfl⟩
    simp [(y7 h).1, w]
  · intro h
    rw [e, s2, y8 h]

/-- One change after another. -/
theorem State.sameFrame.trans {s t u : State} (h : s.sameFrame t) (k : t.sameFrame u) : s.sameFrame u :=
  ⟨k.1.trans h.1, k.2.1.trans h.2.1, k.2.2.1.trans h.2.2.1, k.2.2.2.1.trans h.2.2.2.1, k.2.2.2.2.1.trans h.2.2.2.2.1,
    k.2.2.2.2.2.trans h.2.2.2.2.2⟩

/-- What the end of a slot makes of an OWN reception of another station, beside the peer view's own work (R16, R67, R114,
R144): `w` is the state as the peer view leaves it. -/
theorem State.hearsPeer_facts {s : State} {c : Cycle} {k : SlotIx} {air : List AirItem} {a f : Nat}
    {bytes : List Byte} {b : Burst} (hh : s.hearsAlone c k air a f bytes b) (order : ReceptionOrder)
    (hst : b.inStepAt c k a) (hml : s.station.state = .member ∨ s.station.state = .leaving)
    (hg : b.group = s.station.creds.group) (hn : b.sender ≠ s.station.creds.number) (hn0 : b.sender ≠ 0) :
    ∃ v t : State, exec (.slotEnd order air) s = .next t ∧
      v.station = s.station ∧ v.flags = s.flags ∧ v.streams = s.streams ∧ v.peers = s.peers ∧ v.pairing = s.pairing ∧
      (let w := v.peerView b ((a : Int) - c.slotStart k.val)
       t.views = { s.views with filling := s.views.filling.set k.val (.own b.sender) } ∧ t.station = s.station ∧
        t.store = s.store ∧ s.sameFrame t ∧ s.countsOwn c k a b t ∧ t.chan.held = s.laterItems c k air ∧
        t.peers = w.peers ∧ t.streams.wearers = w.streams.wearers ∧ s.storesOutcome b t ∧ s.readsMap .voice b t ∧
        (∀ g : Flag, g.ofYield = false → t.flagSet g = w.flagSet g) ∧
        (w.streams.farEnd.state = .absent → t.flagSet .farendDown = w.flagSet .farendDown) ∧
        (¬s.endsRole k order b → s.readsMap .farEnd b t ∧ t.streams.farEnd = w.streams.farEnd ∧
          t.flagSet .farendDown = w.flagSet .farendDown) ∧
        (s.endsRole k order b → t.streams.farEnd = w.streams.farEnd.toAbsent)) := by
  obtain ⟨v, hx, h1, h2, h3, h4, h5, h6, -, h8, h9, h10, h11, h12, h13⟩ := State.hearsPeer_exec hh order hst hml hg hn hn0
  obtain ⟨t, ht, hc⟩ := State.hearsAlone_counts hh order hst hml hg hn0
  rw [ht] at hx
  simp only [Host.Outcome.next.injEq] at hx
  subst hx
  obtain ⟨p1, p2, p3, p4, -, p6, -, p8, p9, p10, p11, p12, p13, p14, p15⟩ :=
    State.heardPeer_parts v (isLate k order) b ((a : Int) - c.slotStart k.val)
  have hl : s.endsRole k order b ↔ v.losesElection b = true ∧ isLate k order = false := by
    unfold State.endsRole isLate State.losesElection
    rw [h1, h2]
    refine and_congr Iff.rfl ?_
    cases order <;> simp
  refine ⟨v, _, ht, h2, h3, h4, h5, h6, p2.trans h11, p1.trans h2, p3.trans h12, h13.trans p4, hc, p6.trans h8, p8, p10,
    ?_, ?_, p12, p13, fun h => ?_, fun h => p15 (hl.1 h)⟩
  · exact State.storeReception_stores hh.2.2.2.2 (p11.trans (by unfold State.storeReception; split <;> simp [h4]))
  · exact State.readsMap_of (p9.trans h9)
  · have := p14 (mt hl.2 h)
    exact ⟨State.readsMap_of (this.1.trans h10), this.2⟩

/-- What is held over the end of a slot that held one clean burst alone: the later items, whoever sent the burst and in
every station state (R13, R17). -/
theorem State.hearsAlone_held {s : State} {c : Cycle} {k : SlotIx} {air : List AirItem} {a f : Nat} {bytes : List Byte}
    {b : Burst} (hh : s.hearsAlone c k air a f bytes b) (order : ReceptionOrder) :
    ∃ t, exec (.slotEnd order air) s = .next t ∧ t.chan.held = s.laterItems c k air := by
  refine ⟨_, State.hearsAlone_exec hh order, ?_⟩
  have st : ∀ (t : State) g, (t.settleAt14 k g).chan.held = t.chan.held := fun t g => by
    unfold State.settleAt14 State.settleOffer State.lapseOffer
    repeat' split
    all_goals simp
  rw [st]
  have key : ∀ t : State, ∀ e h,
      (t.handOff c k (c.slotEnd k.val).toNat (isLate k order) e h).chan.held = t.chan.held := by
    intro t e h
    have hm : ∀ (u : State) l x d, (u.heardAsMember l x d).chan.held = u.chan.held := by
      intro u l x d
      unfold State.heardAsMember
      dsimp only
      split
      · unfold State.clash State.nowOrLate
        split
        · split
          · rfl
          · unfold State.clashYield State.enter; simp [Channel.turn_held]
        · rfl
      · exact (State.heardPeer_parts _ _ _ _).2.2.2.2.2.1
    unfold State.handOff State.heardOwn State.heardInListen State.heardForeign State.logRx State.markHeard
    repeat' split
    all_goals first
      | rfl
      | exact hm _ _ _ _
      | (rw [hm]; split <;> rfl)
      | (rw [hm]; simp [State.enterMember, State.enter, State.align, State.forgetViews, Channel.turn_held])
      | (unfold State.foreignAtMember State.joinHeard; repeat' split
         all_goals simp)
      | simp [State.seekFound, State.enter, State.align, State.forgetViews, Channel.turn_held]
  rw [key]; rfl

end Sys2Proof.Machine
end

