-- ==== Sys2Proof/Laws/LateEffects.lean ====
section
/-! SUPPORT. What the effects of slot 15 find that come after the cycle end (assumption log 7): the state in which the next
cycle begins, in MEMBER and LEAVING, and what a yield of the window makes of it. -/

namespace Sys2Proof.Machine

/-- The late effects follow the beginning of the next cycle. -/
theorem State.endCycle_late (s : State) (c : Cycle) (order : DeadlineOrder) :
    s.endCycle c order = (((s.atDeadline c).deadlineWork order).rotateViews.beginCycle c).lateEffects s.chan.late := rfl

/-- A turn of the receiver or transmitter keeps no effect back. -/
@[simp] theorem Channel.turn_late (ch : Channel) (a b : Bool) (n : Nat) : (ch.turn a b n).late = ch.late := by
  cases a <;> cases b <;> rfl

/-- A late effect keeps no other back. -/
@[simp] theorem State.lateEffect_late (s : State) (e : LateEffect) : (s.lateEffect e).chan.late = s.chan.late := by
  unfold State.lateEffect State.clashYield State.electionYield
  repeat' split
  all_goals simp [State.enter]

/-- After a cycle end no effect waits. -/
theorem State.endCycle_noneLate (s : State) (c : Cycle) (order : DeadlineOrder) : (s.endCycle c order).chan.late = [] := by
  have h : ∀ (es : List LateEffect) (t : State), (t.lateEffects es).chan.late = t.chan.late := fun es => by
    unfold State.lateEffects
    induction es with
    | nil => exact fun _ => rfl
    | cons e es ih => exact fun t => (ih _).trans (t.lateEffect_late e)
  rw [State.endCycle_late, h]
  rfl

/-! ### What falls in a later slot -/

/-- The late effects of slot 15 keep it. -/
theorem State.lateEffects_held (es : List LateEffect) (s : State) : (s.lateEffects es).chan.held = s.chan.held := by
  unfold State.lateEffects
  induction es generalizing s with
  | nil => rfl
  | cons e es ih =>
    refine (ih _).trans ?_
    unfold State.lateEffect State.clashYield State.electionYield
    repeat' split
    all_goals simp [State.enter, Channel.turn_held]

/-- The transitions of a cycle end keep it. -/
theorem State.transitions_held (s : State) : s.transitions.chan.held = s.chan.held := by
  unfold State.transitions State.countListen State.countSeek State.decideNewcomer State.pairTimeout State.countLeaving
    State.enterAlone State.enterMember State.dropNewcomer State.forgetViews State.enter State.settleRole
  repeat' split
  all_goals simp [Channel.turn_held]

/-- The audio work keeps it. -/
theorem State.deadline_held (s : State) : s.deadline.chan.held = s.chan.held := by
  unfold State.deadline State.takeDownlink State.makeTake State.uplinkWork State.joinUplink State.handFrames
    State.prepareVoice State.raiseIf
  simp only []
  repeat' split
  all_goals simp

/-- What is held for a later slot is held over the cycle end (R13, R17). -/
theorem State.endCycle_held (s : State) (c : Cycle) (o : DeadlineOrder) : (s.endCycle c o).chan.held = s.chan.held := by
  unfold State.endCycle
  rw [State.lateEffects_held]
  have : ∀ t : State, (t.rotateViews.beginCycle c).chan.held = t.chan.held := fun t => by
    unfold State.rotateViews State.beginCycle; split <;> rfl
  rw [this]
  have e : ((s.atInstant c.planned).cycleWork c).chan = s.chan := by simp
  cases o
  · show (State.deadline (State.transitions _)).chan.held = _
    rw [State.deadline_held, State.transitions_held, e]
  · show (State.transitions (State.deadline _)).chan.held = _
    rw [State.transitions_held, State.deadline_held, e]

/-! ### The window at a cycle end -/

/-- A step jump marks the lapse memory as aged exactly where it lapses an offer (R91). -/
theorem State.jumpLapse_early (s : State) :
    s.jumpLapse.early = { s.early with lapseAged := s.early.lapseAged || s.pairing.offer.isSome } := by
  unfold State.jumpLapse
  cases h : s.pairing.offer <;> simp

/-- A step jump leaves the window and the newcomer, and does not count the window. -/
theorem State.jumpIfDue_window (s : State) (c : Cycle) :
    (s.jumpIfDue c).pairing.window = s.pairing.window ∧ (s.jumpIfDue c).pairing.newcomer = s.pairing.newcomer ∧
      (s.jumpIfDue c).early.windowCounted = s.early.windowCounted := by
  unfold State.jumpIfDue State.stepJump State.makeJump State.jumpLapse State.lapseOffer State.forgetViews State.jumpClaims
  split
  · simp only [State.raise_early, State.raise_pairing]
    split <;> simp
  · exact ⟨rfl, rfl, rfl⟩

/-- The pairing records of `p` with the window closed. -/
def Pairing.closedBy (p : Pairing) (cause : CloseCause) : Pairing :=
  { p with
      window := { state := .closed, kind := none, remaining := 0, lastCause := cause }
      offer := none
      lapse := none }

/-- What became of the window of `s` in `t`: closed as before, timed out, or still open (R82). -/
def State.windowCounts (s t : State) : Prop :=
  t.pairing.newcomer = s.pairing.newcomer ∧
    (s.pairing.window.state = .closed → t.pairing.window = s.pairing.window) ∧
    (s.pairing.window.state = .opened →
      if s.windowTimesOut then t.pairing = s.pairing.closedBy .timeout ∧ t.flagSet .pairingEnded = true
      else t.pairing.window.state = .opened)

/-- The window before the transitions and the audio work. -/
theorem State.atDeadline_window {s : State} (c : Cycle) (hm : s.station.state = .member ∨ s.station.state = .leaving) :
    s.windowCounts (s.atDeadline c) := by
  unfold State.windowCounts State.atDeadline State.cycleWork
  set v := (((((s.atInstant c.planned).jumpIfDue c).timerWork c).claimWork).ageBearer).peerWork.surplusWork with hv
  have hst : v.station = s.station := by simp [hv]
  obtain ⟨j1, j2, j3⟩ := State.jumpIfDue_window (s.atInstant c.planned) c
  have hvp : v.pairing = ((s.atInstant c.planned).jumpIfDue c).pairing := by simp [hv]
  have hve : v.early.windowCounted = s.early.windowCounted := by
    refine Eq.trans ?_ j3
    obtain ⟨a, b, e⟩ := State.claimWork_early (((s.atInstant c.planned).jumpIfDue c).timerWork c)
    simp [hv, e]
  rw [← hvp] at j1 j2
  change v.pairing.window = s.pairing.window at j1
  change v.pairing.newcomer = s.pairing.newcomer at j2
  rcases hm with hm | hm
  · obtain ⟨r1, r2, r3, r4, -⟩ := State.pairingWork_rows (v := v) (by rw [hst]; exact hm)
    rw [r1, j2]
    refine ⟨rfl, fun h => by rw [r4 (by rw [j1, h]; simp), j1], fun h => ?_⟩
    unfold State.windowTimesOut
    rw [hm]
    simp only [beq_self_eq_true, Bool.true_and]
    cases hw : s.early.windowCounted with
    | true =>
      simp only [Bool.not_true, Bool.false_and, Bool.false_eq_true, if_false]
      rw [r4 (by rw [hve, hw]; simp), j1, h]
    | false =>
      by_cases hr : s.pairing.window.remaining ≤ 1
      · rw [if_pos (by simp [hr])]
        obtain ⟨q1, q2⟩ := r2 ⟨by rw [j1, h], by rw [hve, hw]⟩ (by rw [j1]; exact hr)
        exact ⟨by rw [q1]; unfold Pairing.closedBy; rw [← j2], q2⟩
      · rw [if_neg (by simp [hr]), r3 ⟨by rw [j1, h], by rw [hve, hw]⟩ (by rw [j1]; omega), j1]
        exact h
  · have e : v.pairingWork = v := by unfold State.pairingWork; rw [if_neg (by rw [hst, hm]; decide)]
    rw [e, j1, j2]
    refine ⟨rfl, fun _ => rfl, fun h => ?_⟩
    unfold State.windowTimesOut
    rw [hm]
    simpa using h

/-- What the transitions of a cycle end in MEMBER or LEAVING do to the station and to the pairing records (R42). -/
theorem State.transitions_inGroup {v : State} (hm : v.station.state = .member ∨ v.station.state = .leaving) :
    v.transitions.pairing = v.pairing ∧ v.transitions.station.creds = v.station.creds ∧
      (v.station.state = .member → v.transitions.station = v.station) ∧
      (v.station.state = .leaving →
        if 1 ≤ v.station.leavingEnds then
          v.transitions.station.state = .idle ∧ v.transitions.flagSet .stateChanged = true
        else v.transitions.station.state = .leaving) := by
  unfold State.transitions
  rcases hm with hm | hm <;> rw [hm] <;> dsimp only
  · simp
  · unfold State.countLeaving
    by_cases h : 1 ≤ v.station.leavingEnds
    · rw [if_pos (by omega), if_pos h]
      refine ⟨by simp, by simp, by simp, fun _ => ⟨by simp [State.enter], ?_⟩⟩
      unfold State.enter
      rw [State.raise_flagSet]
      simp
    · rw [if_neg (by omega), if_neg h]
      exact ⟨rfl, rfl, by simp, fun _ => hm⟩

/-- So do the transitions and the audio work, in either order. -/
theorem State.deadlineWork_inGroup {v : State} (order : DeadlineOrder)
    (hm : v.station.state = .member ∨ v.station.state = .leaving) :
    (v.deadlineWork order).pairing = v.pairing ∧ (v.deadlineWork order).station.creds = v.station.creds ∧
      (v.station.state = .member → (v.deadlineWork order).station = v.station) ∧
      (v.station.state = .leaving →
        if 1 ≤ v.station.leavingEnds then
          (v.deadlineWork order).station.state = .idle ∧ (v.deadlineWork order).flagSet .stateChanged = true
        else (v.deadlineWork order).station.state = .leaving) := by
  cases order with
  | stateFirst =>
    have k := State.transitions_inGroup hm
    unfold State.deadlineWork
    simp only [State.deadline_frame, State.deadline_raises v.transitions .stateChanged (by decide)]
    exact k
  | deadlineFirst =>
    have k := State.transitions_inGroup (v := v.deadline) (by simpa using hm)
    unfold State.deadlineWork
    simp only [State.deadline_frame] at k
    exact k

/-- The state in which the next cycle begins, the late effects still to come, in MEMBER and LEAVING. -/
structure State.begins (s w : State) : Prop where
  window : s.windowCounts w
  peers : w.peers = s.countedPeers
  creds : w.station.creds = s.station.creds
  member : s.station.state = .member → w.station = s.station
  leaving : s.station.state = .leaving →
    if 1 ≤ s.station.leavingEnds then w.station.state = .idle ∧ w.flagSet .stateChanged = true
    else w.station.state = .leaving
  clash : w.flagSet .numberClash = s.flagSet .numberClash

/-- It is the state that the late effects of `State.endCycle_late` find. -/
theorem State.endCycle_begins {s : State} (c : Cycle) (order : DeadlineOrder)
    (hm : s.station.state = .member ∨ s.station.state = .leaving) :
    s.begins (((s.atDeadline c).deadlineWork order).rotateViews.beginCycle c) := by
  have hs : (s.atDeadline c).station = s.station := by unfold State.atDeadline; simp
  have hp : (s.atDeadline c).peers = s.countedPeers := by
    refine State.cycleWork_peers (s := s.atInstant c.planned) ?_ c
    rcases hm with h | h <;> (show s.station.state.listening = true; rw [h]; rfl)
  have hc : (s.atDeadline c).flagSet .numberClash = s.flagSet .numberClash :=
    State.cycleWork_raises (s.atInstant c.planned) c .numberClash (by decide)
  obtain ⟨p1, p2, p3⟩ := State.atDeadline_window c hm
  generalize s.atDeadline c = v at hs hp hc p1 p2 p3
  have hcl := State.deadlineWork_raises v order .numberClash (by decide)
  have hpe := State.deadlineWork_raises v order .pairingEnded (by decide)
  obtain ⟨d1, d2, d3, d4⟩ := State.deadlineWork_inGroup (v := v) order (by rw [hs]; exact hm)
  have f := State.begun_frame (v.deadlineWork order) c
  dsimp only at f
  have fl : ∀ g, ((v.deadlineWork order).rotateViews.beginCycle c).flagSet g = (v.deadlineWork order).flagSet g :=
    fun g => by unfold State.flagSet; rw [f.1]
  rw [hs] at d3 d4
  constructor <;> (try unfold State.windowCounts) <;> simp only [f, fl]
  · rw [d1, hpe]
    exact ⟨p1, p2, p3⟩
  · simpa using hp
  · rw [d2, hs]
  · exact d3
  · exact d4
  · rw [hcl, hc]

/-- A yield of the window that comes after the cycle end: YIELDED, unless the window timed out there or was closed. -/
theorem State.windowCounts.yielded {s w : State} (h : s.windowCounts w) :
    (s.pairing.window.state = .closed → (w.closeWindow .yielded).pairing.window = s.pairing.window) ∧
      (s.pairing.window.state = .opened →
        (w.closeWindow .yielded).pairing = s.pairing.closedBy (if s.windowTimesOut then .timeout else .yielded) ∧
          (w.closeWindow .yielded).flagSet .pairingEnded = true) := by
  obtain ⟨h1, h2, h3⟩ := h
  unfold State.closeWindow State.windowOpen
  refine ⟨fun h => by rw [h2 h, h]; exact h2 h, fun h => ?_⟩
  have k := h3 h
  split at k
  · rename_i ht
    rw [k.1, ht]
    exact ⟨k.1, k.2⟩
  · rename_i ht
    rw [if_pos (by rw [k]; rfl), if_neg ht]
    refine ⟨?_, ?_⟩
    · simp [Pairing.closedBy, h1]
    · rw [State.raise_flagSet]
      simp [CloseCause.flag]

end Sys2Proof.Machine
end

