-- ==== Sys2Proof/Laws/PerInstr.lean ====
section
/-! SUPPORT. A family of statements over the commands as syntax: the bytes of a host command are its code and as many
argument bytes as Table 12-4 gives that code. One lemma for each constructor. -/

namespace Sys2Proof.Laws.PortLength

/-- The bytes by which the host gives a well-formed command are its code and that code's argument bytes. -/
def Statement (i : Instr) : Prop :=
  ∀ (code : Byte) (args : List Byte), i.wf = true → bytesOfCommand i = some (code :: args) →
    args.length = argumentBytes code.toNat

theorem readId : Statement .readId :=
  fun _ _ _ h => by cases Option.some.inj h; rfl

theorem writeConfig (t : Nat) (args : ConfigArgs) : Statement (.writeConfig t args) :=
  fun _ _ _ h => by cases Option.some.inj h; rfl

theorem start (place : Byte) (t : Nat) : Statement (.start place t) :=
  fun _ _ _ h => by cases Option.some.inj h; rfl

theorem stop (t : Nat) : Statement (.stop t) :=
  fun _ _ _ h => by cases Option.some.inj h; rfl

theorem foundGroup (t : Nat) : Statement (.foundGroup t) :=
  fun _ _ _ h => by cases Option.some.inj h; rfl

theorem joinGroup (kind : Byte) (t : Nat) : Statement (.joinGroup kind t) :=
  fun _ _ _ h => by cases Option.some.inj h; rfl

theorem openPairing (kind : Byte) : Statement (.openPairing kind) :=
  fun _ _ _ h => by cases Option.some.inj h; rfl

theorem closePairing : Statement .closePairing :=
  fun _ _ _ h => by cases Option.some.inj h; rfl

theorem bearCall : Statement .bearCall :=
  fun _ _ _ h => by cases Option.some.inj h; rfl

theorem endCall : Statement .endCall :=
  fun _ _ _ h => by cases Option.some.inj h; rfl

theorem setLevels (vol gSide : BitVec 16) : Statement (.setLevels vol gSide) :=
  fun _ _ _ h => by cases Option.some.inj h; rfl

theorem readStatus : Statement .readStatus :=
  fun _ _ _ h => by cases Option.some.inj h; rfl

theorem readEvents : Statement .readEvents :=
  fun _ _ _ h => by cases Option.some.inj h; rfl

theorem readPeers : Statement .readPeers :=
  fun _ _ _ h => by cases Option.some.inj h; rfl

theorem readBond (place : Byte) : Statement (.readBond place) :=
  fun _ _ _ h => by cases Option.some.inj h; rfl

theorem retireBond (t : Nat) (place : Byte) : Statement (.retireBond t place) :=
  fun _ _ _ h => by cases Option.some.inj h; rfl

theorem lockBond (t : Nat) (place : Byte) : Statement (.lockBond t place) :=
  fun _ _ _ h => by cases Option.some.inj h; rfl

theorem eraseBond (t : Nat) (place : Byte) : Statement (.eraseBond t place) :=
  fun _ _ _ h => by cases Option.some.inj h; rfl

theorem clearFault : Statement .clearFault :=
  fun _ _ _ h => by cases Option.some.inj h; rfl

theorem writeDownlink (n : BitVec 16) : Statement (.writeDownlink n) :=
  fun _ _ _ h => by cases Option.some.inj h; rfl

theorem readUplink (n : BitVec 16) : Statement (.readUplink n) :=
  fun _ _ _ h => by cases Option.some.inj h; rfl

theorem softReset : Statement .softReset :=
  fun _ _ _ h => by cases Option.some.inj h; rfl

theorem unknownCommand (code : Byte) : Statement (.unknownCommand code) := by
  intro c args hw h
  simp only [bytesOfCommand, Option.some.injEq, List.cons.injEq] at h
  obtain ⟨rfl, rfl⟩ := h
  simp only [Instr.wf, commandCodes, Bool.not_eq_true', List.contains_eq_mem, decide_eq_false_iff_not] at hw
  unfold argumentBytes
  split <;> simp_all

theorem downlinkSample (v : Sample) : Statement (.downlinkSample v) :=
  fun _ _ _ h => nomatch h

theorem uplinkSamplePosition : Statement .uplinkSamplePosition :=
  fun _ _ _ h => nomatch h

theorem csnRise (t : Nat) (cut : CutChoice) : Statement (.csnRise t cut) :=
  fun _ _ _ h => nomatch h

theorem powerOnReset (cut : CutChoice) : Statement (.powerOnReset cut) :=
  fun _ _ _ h => nomatch h

theorem rstnFall (cut : CutChoice) : Statement (.rstnFall cut) :=
  fun _ _ _ h => nomatch h

theorem resetEnd (t : Nat) : Statement (.resetEnd t) :=
  fun _ _ _ h => nomatch h

theorem muteLineChange (t : Nat) : Statement (.muteLineChange t) :=
  fun _ _ _ h => nomatch h

theorem debounceExpiry : Statement .debounceExpiry :=
  fun _ _ _ h => nomatch h

theorem slotStart : Statement .slotStart :=
  fun _ _ _ h => nomatch h

theorem slotEnd (order : ReceptionOrder) (air : List AirItem) : Statement (.slotEnd order air) :=
  fun _ _ _ h => nomatch h

theorem cycleEnd (order : DeadlineOrder) : Statement (.cycleEnd order) :=
  fun _ _ _ h => nomatch h

theorem stepJump : Statement .stepJump :=
  fun _ _ _ h => nomatch h

theorem peerSilent (n : StationNo) : Statement (.peerSilent n) :=
  fun _ _ _ h => nomatch h

theorem peerLost (n : StationNo) : Statement (.peerLost n) :=
  fun _ _ _ h => nomatch h

theorem peerRemoved (n : StationNo) : Statement (.peerRemoved n) :=
  fun _ _ _ h => nomatch h

theorem listenTimeout : Statement .listenTimeout :=
  fun _ _ _ h => nomatch h

theorem tentativeExpiry (claim : ClaimId) : Statement (.tentativeExpiry claim) :=
  fun _ _ _ h => nomatch h

theorem claimLost (claim : ClaimId) : Statement (.claimLost claim) :=
  fun _ _ _ h => nomatch h

theorem holdoffExpiry (claim : ClaimId) : Statement (.holdoffExpiry claim) :=
  fun _ _ _ h => nomatch h

theorem pairingWindowTimeout : Statement .pairingWindowTimeout :=
  fun _ _ _ h => nomatch h

theorem lapseMemoryExpiry : Statement .lapseMemoryExpiry :=
  fun _ _ _ h => nomatch h

theorem seekTimeout : Statement .seekTimeout :=
  fun _ _ _ h => nomatch h

theorem joinHoldExpiry : Statement .joinHoldExpiry :=
  fun _ _ _ h => nomatch h

theorem joinAttemptsExhausted : Statement .joinAttemptsExhausted :=
  fun _ _ _ h => nomatch h

theorem pendingWriteStart : Statement .pendingWriteStart :=
  fun _ _ _ h => nomatch h

theorem programDone (held : Option BondValue) : Statement (.programDone held) :=
  fun _ _ _ h => nomatch h

theorem erasePartDone : Statement .erasePartDone :=
  fun _ _ _ h => nomatch h

theorem retireDone : Statement .retireDone :=
  fun _ _ _ h => nomatch h

theorem lockDone : Statement .lockDone :=
  fun _ _ _ h => nomatch h

theorem eraseDone : Statement .eraseDone :=
  fun _ _ _ h => nomatch h

theorem scanRetireDone : Statement .scanRetireDone :=
  fun _ _ _ h => nomatch h

theorem sampleFrameStart (cdin : CdinLevels) : Statement (.sampleFrameStart cdin) :=
  fun _ _ _ h => nomatch h

theorem csnFall : Statement .csnFall :=
  fun _ _ _ h => nomatch h

end Sys2Proof.Laws.PortLength
end

