-- ==== Sys2Proof/Laws/Sizes.lean ====
section
/-! SUPPORT. Lengths: of what is laid out in bytes, of frames encoded, decoded and mixed, and of what a take, a join and a
reception bring. -/

namespace Sys2Proof.Machine

/-! ### Bytes -/

/-- As many digits as were asked for. -/
theorem length_toDigits (base k n : Nat) : (toDigits base k n).length = k := by
  induction k generalizing n with
  | zero => rfl
  | succ k ih => simp [toDigits, ih]

/-- As many bytes as were asked for. -/
@[simp] theorem length_bytesOfNat (k n : Nat) : (bytesOfNat k n).length = k := by
  simp [bytesOfNat, length_toDigits]

/-- A number below `base ^ k` is read back from its `k` digits. -/
theorem ofDigits_toDigits (base k n : Nat) (hn : n < base ^ k) : ofDigits base (toDigits base k n) = n := by
  have key : ∀ (ds : List Nat) (d acc : Nat), (ds ++ [d]).foldl (fun a x => a * base + x) acc =
      ds.foldl (fun a x => a * base + x) acc * base + d := by
    intro ds d acc
    simp
  induction k generalizing n with
  | zero => simp [toDigits, ofDigits] at *; omega
  | succ k ih =>
    have hb : 0 < base := by
      rcases Nat.eq_zero_or_pos base with h | h
      · subst h; simp at hn
      · exact h
    have hq : n / base < base ^ k := by
      rw [Nat.div_lt_iff_lt_mul hb]
      rwa [pow_succ] at hn
    have hi := ih (n / base) hq
    simp only [toDigits, ofDigits] at *
    rw [key, hi]
    exact Nat.div_add_mod' n base

/-- A number of at most `k` bytes is read back from its bytes. -/
theorem natOfBytes_bytesOfNat (k n : Nat) (hn : n < 256 ^ k) : natOfBytes (bytesOfNat k n) = n := by
  have hm : ∀ (k n : Nat), ((toDigits 256 k n).map (BitVec.ofNat 8)).map BitVec.toNat = toDigits 256 k n := by
    intro k
    induction k with
    | zero => intro n; rfl
    | succ k ih => intro n; simp only [toDigits, List.map_append, ih]; simp
  unfold natOfBytes bytesOfNat
  rw [hm]
  exact ofDigits_toDigits 256 k n hn

/-! ### Frames -/

/-- A take's frame has 160 samples, whatever the fill. -/
theorem length_takeFrame (hold : Sample) (q : List Sample) : (takeFrame hold q).length = 160 := by
  unfold takeFrame
  (repeat' split) <;> simp <;> omega

/-- A frame of 160 samples encodes into a payload of five sub-blocks of 32. -/
theorem encodeFrame_ok {f : Frame} (h : frameOk f = true) : payloadOk (encodeFrame f) = true := by
  simp only [frameOk, decide_eq_true_eq] at h
  simp only [payloadOk, encodeFrame, encodeBlock, Bool.and_eq_true, decide_eq_true_eq, List.all_eq_true]
  refine ⟨by simp, ?_⟩
  intro b hb
  obtain ⟨j, hj, rfl⟩ := List.mem_map.1 hb
  have : j < 5 := List.mem_range.1 hj
  simp [h]
  omega

/-- A sound payload decodes into a frame of 160 samples. -/
theorem decodePayload_ok {p : Payload} (h : payloadOk p = true) : frameOk (decodePayload p) = true := by
  simp only [payloadOk, Bool.and_eq_true, decide_eq_true_eq, List.all_eq_true] at h
  obtain ⟨h1, h2⟩ := h
  have key : ∀ q : Payload, (∀ b ∈ q, b.mantissas.length = 32) → (decodePayload q).length = 32 * q.length := by
    intro q
    induction q with
    | nil => intro _; rfl
    | cons b q ih =>
      intro hq
      have hi := ih fun c hc => hq c (by simp [hc])
      have hb := hq b (by simp)
      simp only [decodePayload, List.flatMap_cons, List.length_append, decodeBlock, List.length_map] at *
      rw [hi, hb]
      simp
      omega
  simp [frameOk, key p h2, h1]

/-- A sum of frames of 160 samples has 160 entries. -/
theorem length_mixInto (e : Int) (rs : List StreamRec) (acc : List Int) (ha : acc.length = 160)
    (hr : ∀ r ∈ rs, r.current.length = 160) : (mixInto e rs acc).length = 160 := by
  unfold mixInto
  induction rs generalizing acc with
  | nil => exact ha
  | cons r rs ih =>
    refine ih _ ?_ fun x hx => hr x (by simp [hx])
    simp [addScaled, ha, hr r (by simp)]

/-- What joins the uplink queue is at most one sample more than the frame. -/
theorem length_joinSamples (fill : Nat) (u : Frame) : (joinSamples fill u).length ≤ u.length + 1 := by
  unfold joinSamples
  (repeat' split) <;> simp

/-- The uplink queue never exceeds 640 samples after a join of at most 640. -/
theorem length_joinedQueue (q j : List Sample) (hj : j.length ≤ 640) : (joinedQueue q j).length ≤ 640 := by
  simp [joinedQueue]
  omega

/-- The frame of a burst that a receiver accepts has five sub-blocks of 32. -/
theorem blocksOfBytes_ok {k : Nat} {bs : List Byte} {p : Payload} (h : blocksOfBytes k bs = some p)
    (hl : bs.length = 33 * k) : p.length = k ∧ ∀ b ∈ p, b.mantissas.length = 32 := by
  induction k generalizing bs p with
  | zero => simp [blocksOfBytes] at h; subst h; simp
  | succ k ih =>
    cases bs with
    | nil => simp [blocksOfBytes] at h
    | cons e rest =>
      simp only [blocksOfBytes] at h
      split at h
      · obtain ⟨more, hm, rfl⟩ := Option.map_eq_some_iff.1 h
        have hr : rest.length = 33 * k + 32 := by simp at hl; omega
        obtain ⟨i1, i2⟩ := ih hm (by simp [hr])
        refine ⟨by simp [i1], ?_⟩
        intro b hb
        rcases List.mem_cons.1 hb with rfl | hb
        · simp [hr]
        · exact i2 b hb
      · exact absurd h (by simp)

end Sys2Proof.Machine
end

