-- ==== Sys2Proof/Laws/Window.lean ====
section
/-! SUPPORT. What the shared operations do to the pairing controller's records: each keeps a window sound. -/

namespace Sys2Proof.Machine

/-- Soundness of the window reads the pairing records and the station state alone. -/
theorem State.windowOk_congr {s t : State} (hp : t.pairing = s.pairing) (hs : t.station.state = s.station.state) :
    t.windowOk = s.windowOk := by
  simp [State.windowOk, State.windowOpen, hp, hs]

/-- A state with the same pairing records and station state. -/
theorem State.windowOk_of {s t : State} (h : s.windowOk = true) (hp : t.pairing = s.pairing)
    (hs : t.station.state = s.station.state) : t.windowOk = true := by
  rw [State.windowOk_congr hp hs]; exact h

/-- Outside MEMBER a sound window is closed. -/
theorem State.windowOk_closed {s : State} (h : s.windowOk = true) (hm : s.station.state ≠ .member) :
    s.pairing.window.state = .closed := by
  cases hw : s.pairing.window.state
  · rfl
  · simp [State.windowOk, State.windowOpen, hw, hm] at h

/-- A sound window with an offer is open. -/
theorem State.windowOk_offer {s : State} (h : s.windowOk = true) {o : Offer} (ho : s.pairing.offer = some o) :
    s.pairing.window.state = .opened := by
  cases hw : s.pairing.window.state
  · simp [State.windowOk, State.windowOpen, hw, ho] at h
  · rfl

/-- With the window closed, the station state does not matter. -/
theorem State.windowOk_of_closed {s t : State} (h : s.windowOk = true) (hw : s.pairing.window.state = .closed)
    (h1 : t.pairing.window = s.pairing.window) (h2 : t.pairing.offer = s.pairing.offer)
    (h3 : t.pairing.lapse = s.pairing.lapse) : t.windowOk = true := by
  simp_all [State.windowOk, State.windowOpen]

/-- A transition out of a state whose window is closed, or into MEMBER. -/
theorem State.enter_windowOk {s : State} (h : s.windowOk = true) {st : StationState}
    (hw : s.pairing.window.state = .closed ∨ st = .member) : (s.enter st).windowOk = true := by
  rcases hw with hw | rfl
  · exact State.windowOk_of_closed h hw (by simp) (by simp) (by simp)
  · unfold State.windowOk at *
    simp [State.windowOpen] at *
    split at h <;> simp_all

/-- The entry to MEMBER. -/
theorem State.enterMember_windowOk {s : State} (h : s.windowOk = true) : s.enterMember.windowOk = true := by
  exact State.windowOk_of (State.enter_windowOk h (st := .member) (Or.inr rfl)) (by simp) rfl

/-- A close leaves the window closed. -/
theorem State.closeWindow_closed_after (s : State) (c : CloseCause) :
    (s.closeWindow c).pairing.window.state = .closed := by
  cases hw : s.pairing.window.state
  · rw [State.closeWindow_closed hw]; exact hw
  · rw [State.closeWindow_open hw]

/-- A close. -/
theorem State.closeWindow_windowOk {s : State} (h : s.windowOk = true) (c : CloseCause) :
    (s.closeWindow c).windowOk = true := by
  cases hw : s.pairing.window.state
  · rw [State.closeWindow_closed hw]; exact h
  · rw [State.closeWindow_open hw]; simp [State.windowOk, State.windowOpen]

/-- The opening, in MEMBER. -/
theorem State.openWindow_windowOk {s : State} (hm : s.station.state = .member) (k : JoinKind) :
    (s.openWindow k).windowOk = true := by
  simp [State.windowOk, State.windowOpen, hm]

/-- A JOIN heard. -/
theorem State.joinHeard_windowOk {s : State} (h : s.windowOk = true) (id : FactoryId) (k : JoinKind) :
    (s.joinHeard id k).windowOk = true := by
  unfold State.joinHeard
  split
  · rename_i hc
    simp only [Bool.and_eq_true] at hc
    split
    · simp_all [State.windowOk, State.windowOpen]
    · exact State.windowOk_of h (by simp) (by simp)
  · exact h

/-- A lapse of the outstanding offer. -/
theorem State.lapseOffer_windowOk {s : State} (h : s.windowOk = true) {o : Offer} (ho : s.pairing.offer = some o) :
    (s.lapseOffer o).windowOk = true := by
  have hw := State.windowOk_offer h ho
  simp_all [State.windowOk, State.windowOpen, State.lapseOffer]

/-- The outstanding offer settled. -/
theorem State.settleOffer_windowOk {s : State} (h : s.windowOk = true) (q : Offer → Bool) :
    (s.settleOffer q).windowOk = true := by
  unfold State.settleOffer
  split
  · exact h
  · rename_i o ho
    split
    · split
      · exact State.closeWindow_windowOk h _
      · exact State.lapseOffer_windowOk h ho
    · exact h

/-- The lapse at a step jump. -/
theorem State.jumpLapse_windowOk {s : State} (h : s.windowOk = true) : s.jumpLapse.windowOk = true := by
  unfold State.jumpLapse
  split
  · exact h
  · rename_i o ho
    exact State.windowOk_of (State.lapseOffer_windowOk h ho) rfl rfl

/-- The countdown of the window. -/
theorem State.countWindow_windowOk {s : State} (h : s.windowOk = true) : s.countWindow.windowOk = true := by
  unfold State.countWindow
  split
  · rename_i hw
    have hk : ({ s with pairing := { s.pairing with window :=
        { s.pairing.window with remaining := s.pairing.window.remaining - 1 } } } : State).windowOk = true := by
      simp_all [State.windowOk, State.windowOpen]; omega
    dsimp only
    split
    · exact State.closeWindow_windowOk hk _
    · exact hk
  · exact h

/-- The ageing of the lapse memory. -/
theorem State.ageLapse_windowOk {s : State} (h : s.windowOk = true) : s.ageLapse.windowOk = true := by
  unfold State.ageLapse
  split
  · exact h
  · rename_i l hl
    unfold State.windowOk State.windowOpen at *
    split at h <;> simp_all

/-- SEEKING or JOINING ends. -/
theorem State.pairTimeout_windowOk {s : State} (h : s.windowOk = true) (hm : s.station.state ≠ .member) :
    s.pairTimeout.windowOk = true :=
  State.windowOk_of_closed h (State.windowOk_closed h hm) (by simp [State.pairTimeout]) (by simp [State.pairTimeout])
    (by simp [State.pairTimeout])

/-- The newcomer's decision. -/
theorem State.decideNewcomer_windowOk {s : State} (h : s.windowOk = true) (hm : s.station.state ≠ .member) :
    s.decideNewcomer.windowOk = true := by
  unfold State.decideNewcomer
  split
  · exact h
  · split
    · exact State.windowOk_of_closed h (State.windowOk_closed h hm) rfl rfl rfl
    · exact State.pairTimeout_windowOk h hm

/-- The seek count. -/
theorem State.countSeek_windowOk {s : State} (h : s.windowOk = true) (hm : s.station.state ≠ .member) :
    s.countSeek.windowOk = true := by
  unfold State.countSeek
  split
  · exact h
  · split
    · exact State.pairTimeout_windowOk h hm
    · exact State.windowOk_of_closed h (State.windowOk_closed h hm) rfl rfl rfl

/-- The yield of a number clash. -/
theorem State.clashYield_windowOk {s : State} (h : s.windowOk = true) : s.clashYield.windowOk = true := by
  have h1 : ({ s with voice := Claim.inState .none, farEnd := Claim.inState .none } : State).bearerToNone.windowOk = true :=
    State.windowOk_of h (by simp) (by simp)
  have h2 := State.closeWindow_windowOk h1 .yielded
  exact State.windowOk_of (State.enter_windowOk h2 (st := .idle) (Or.inl (State.closeWindow_closed_after _ _))) rfl rfl

/-- STOP in MEMBER. -/
theorem State.stopMember_windowOk {s : State} (h : s.windowOk = true) : s.stopMember.windowOk = true := by
  unfold State.stopMember
  refine State.enter_windowOk ?_ (Or.inl ?_)
  · rw [State.windowOk_congr (s := s.closeWindow .closed) (by simp) (by simp)]; exact State.closeWindow_windowOk h _
  · simpa using State.closeWindow_closed_after s .closed

/-- A peer entry created. -/
theorem State.peerCreated_windowOk {s : State} (h : s.windowOk = true) (n : StationNo) :
    (s.peerCreated n).windowOk = true := by
  have hr : (s.raise .peerNew).windowOk = true := h
  unfold State.peerCreated
  dsimp only
  split
  · exact hr
  · split
    · exact State.closeWindow_windowOk hr _
    · exact hr

/-- The peer view's work at a reception. -/
theorem State.peerView_windowOk {s : State} (h : s.windowOk = true) (b : Burst) (d : Int) :
    (s.peerView b d).windowOk = true := by
  have hp : ∀ ps n, (({ s with peers := ps } : State).peerCreated n).windowOk = true := fun ps n =>
    State.peerCreated_windowOk (s := { s with peers := ps }) h n
  have hc : (s.createPeer b d).windowOk = true := by
    unfold State.createPeer
    split
    · exact hp _ _
    · split
      · exact h
      · exact hp _ _
  unfold State.peerView
  split
  · split <;> first | exact hc | exact h
  · split
    · exact State.windowOk_of h (by simp) (by simp)
    · exact h

/-- A reception handed on from another station. -/
theorem State.heardPeer_windowOk {s : State} (h : s.windowOk = true) (l : Bool) (b : Burst) (d : Int) :
    (s.heardPeer l b d).windowOk = true := by
  unfold State.heardPeer
  rw [State.windowOk_congr (s := ((s.peerView b d).election l b).windowYield l b) (by simp) (by simp)]
  have h1 := State.peerView_windowOk h b d
  have h2 : ((s.peerView b d).election l b).windowOk = true := by
    exact State.windowOk_of h1 (by simp) (by simp)
  unfold State.windowYield State.nowOrLate
  split
  · split
    · exact h2
    · exact State.closeWindow_windowOk h2 _
  · exact h2

/-- A reception as a station in the group takes it. -/
theorem State.heardAsMember_windowOk {s : State} (h : s.windowOk = true) (l : Bool) (b : Burst) (d : Int) :
    (s.heardAsMember l b d).windowOk = true := by
  have hr : (s.readMap b.heardMap).windowOk = true := h
  unfold State.heardAsMember
  dsimp only
  split
  · unfold State.clash State.nowOrLate
    split
    · split
      · exact hr
      · exact State.clashYield_windowOk hr
    · exact hr
  · exact State.heardPeer_windowOk hr l b d

/-- The hand-off of a slot. -/
theorem State.handOff_windowOk {s : State} (h : s.windowOk = true) (c : Cycle) (k : SlotIx) (tr : Nat) (l : Bool) (e : Entry)
    (hd : Held) : (s.handOff c k tr l e hd).windowOk = true := by
  have seek : ∀ (p : Int) (g : GroupCode), s.station.state = .seeking → ((s.align c p tr).seekFound g).windowOk = true := by
    intro p g hs
    exact State.windowOk_of_closed h (State.windowOk_closed h (by simp [hs])) (by simp [State.seekFound])
      (by simp [State.seekFound]) (by simp [State.seekFound])
  unfold State.handOff
  split
  · exact h
  · exact h
  · exact h
  · rename_i r
    split
    · unfold State.heardOwn
      dsimp only
      split
      · unfold State.heardInListen
        split
        · refine State.heardAsMember_windowOk (State.enterMember_windowOk (State.windowOk_of h ?_ ?_)) _ _ _ <;> simp
        · exact h
      · exact State.heardAsMember_windowOk (State.windowOk_of h (by simp) (by simp)) _ _ _
      · exact State.heardAsMember_windowOk (State.windowOk_of h (by simp) (by simp)) _ _ _
      all_goals exact State.windowOk_of h (by simp) (by simp)
    · exact State.windowOk_of h (by simp) (by simp)
    · unfold State.heardForeign
      split
      · split
        · unfold State.foreignAtMember
          split <;> first | exact State.joinHeard_windowOk h _ _ | exact h
        · exact h
      · split
        · rename_i hs _
          exact State.windowOk_of_closed h (State.windowOk_closed h (by simp [hs])) rfl rfl rfl
        · exact h
      · rename_i hs
        split
        · exact seek _ _ hs
        · exact h
      all_goals exact h
    all_goals exact h

/-- The end of a slot of the station's own. -/
theorem State.ownSlotEnd_windowOk {s : State} (h : s.windowOk = true) (k : SlotIx) (tr : Nat) :
    (s.ownSlotEnd k tr).windowOk = true := by
  unfold State.ownSlotEnd
  generalize hu : State.settleRole _ = u
  have ht : u.windowOk = true := by subst hu; exact State.windowOk_of h (by simp) (by simp)
  have hj : ∀ a : Accepted, u.station.state = .joining → (u.joinDone a tr).windowOk = true := by
    intro a hs
    exact State.windowOk_of_closed ht (State.windowOk_closed ht (by simp [hs])) (by simp [State.joinDone])
      (by simp [State.joinDone]) (by simp [State.joinDone])
  dsimp only
  split
  · exact ht
  · split
    · split
      · rename_i hc; exact hj _ hc.2
      · exact ht
    all_goals exact ht

/-- The work of a slot end. -/
theorem State.endSlot_windowOk {s : State} (h : s.windowOk = true) (c : Cycle) (k : SlotIx) (o : ReceptionOrder)
    (air : List AirItem) : (s.endSlot c k o air).windowOk = true := by
  have key : ∀ (t : State) (q : Offer → Bool), t.windowOk = true → (t.settleAt14 k q).windowOk = true := by
    intro t q ht
    unfold State.settleAt14
    split
    · exact State.settleOffer_windowOk ht q
    · exact ht
  unfold State.endSlot
  dsimp only
  split
  · exact key _ _ (State.ownSlotEnd_windowOk (State.windowOk_of h (by simp) (by simp)) _ _)
  · exact key _ _ (State.handOff_windowOk (State.windowOk_of h (by simp) (by simp)) _ _ _ _ _ _)

/-- The transitions at a cycle end. -/
theorem State.transitions_windowOk {s : State} (h : s.windowOk = true) : s.transitions.windowOk = true := by
  unfold State.transitions
  split
  · rename_i hs
    refine State.windowOk_of_closed h (State.windowOk_closed h (by simp [hs])) ?_ ?_ ?_ <;> simp
  · rename_i hs; exact State.countSeek_windowOk h (by simp [hs])
  · rename_i hs
    split
    · exact h
    · exact State.decideNewcomer_windowOk h (by simp [hs])
  · exact State.windowOk_of h (by simp) (by simp)
  · rename_i hs
    unfold State.countLeaving
    split
    · exact State.enter_windowOk h (Or.inl (State.windowOk_closed h (by simp [hs])))
    · exact h
  all_goals exact h

/-- The step jump. -/
theorem State.stepJump_windowOk {s : State} (h : s.windowOk = true) (c : Cycle) : (s.stepJump c).windowOk = true := by
  have h1 : s.jumpClaims.forgetViews.windowOk = true := State.windowOk_of h (by simp) (by simp)
  exact State.windowOk_of (State.jumpLapse_windowOk h1) rfl rfl

/-- The effects that come late. -/
theorem State.lateEffects_windowOk {s : State} (h : s.windowOk = true) (es : List LateEffect) :
    (s.lateEffects es).windowOk = true := by
  unfold State.lateEffects
  induction es generalizing s with
  | nil => exact h
  | cons e es ih =>
    refine ih ?_
    unfold State.lateEffect
    split
    · split
      · exact State.clashYield_windowOk h
      · exact h
    · split
      · exact State.windowOk_of h (by simp) (by simp)
      · exact h
    · exact State.closeWindow_windowOk h _

/-- The whole cycle end. -/
theorem State.endCycle_windowOk {s : State} (h : s.windowOk = true) (c : Cycle) (o : DeadlineOrder) :
    (s.endCycle c o).windowOk = true := by
  have h0 : (s.atInstant c.planned).windowOk = true := h
  have h1 : ((s.atInstant c.planned).jumpIfDue c).windowOk = true := by
    unfold State.jumpIfDue
    split
    · exact State.stepJump_windowOk h0 c
    · exact h0
  have h2 : ((s.atInstant c.planned).cycleWork c).windowOk = true := by
    unfold State.cycleWork State.pairingWork
    have hp : (((((((s.atInstant c.planned).jumpIfDue c).timerWork c).claimWork).ageBearer).peerWork).surplusWork).windowOk
        = true := by
      exact State.windowOk_of h1 (by simp) (by simp)
    split
    · dsimp only
      split <;> split
      · exact hp
      · exact State.countWindow_windowOk hp
      · exact State.ageLapse_windowOk hp
      · exact State.ageLapse_windowOk (State.countWindow_windowOk hp)
    · exact hp
  have h3 : (((s.atInstant c.planned).cycleWork c).deadlineWork o).windowOk = true := by
    unfold State.deadlineWork
    split
    · rw [State.windowOk_congr (s := ((s.atInstant c.planned).cycleWork c).transitions) (by simp) (by simp)]
      exact State.transitions_windowOk h2
    · refine State.transitions_windowOk ?_
      exact State.windowOk_of h2 (by simp) (by simp)
  unfold State.endCycle
  refine State.lateEffects_windowOk ?_ _
  rw [State.windowOk_congr (s := ((s.atInstant c.planned).cycleWork c).deadlineWork o) (by simp) (by simp)]
  exact h3

end Sys2Proof.Machine
end

