-- ==== Sys2Proof/Tests/Slice0.lean ====
section
/-! SUPPORT. The model's own checks: ill-formed commands that the check refuses, the control port's bytes, worked
examples of the manual one operation at a time, and for every statement that has hypotheses a state that meets them
(theorems `test_meets_<statement>`, at boundary values). -/

namespace Sys2Proof.Tests

open Sys2Proof.Machine

set_option Elab.async false

/-! ### Builders -/

/-- A device in reset state with a named factory ID and no flag set. -/
def dev : State := { State.reset with factoryId := 0x3C719E2405A1#48, flags := 0#25 }

/-- The same with CSN low and no command taken. -/
def asked (s : State) : State := { s with port := { s.port with phase := .waiting } }

/-- In a station state. -/
def inState (st : StationState) (s : State) : State := { s with station := { s.station with state := st } }

/-- Under a station number and a wearer number of group 0x51A0C3. -/
def under (n : StationNo) (w : WearerNo) (s : State) : State :=
  { s with station := { s.station with creds := { group := 0x51A0C3#24, number := n, wearer := w } } }

/-- A member of that group. -/
def member (n : StationNo) (w : WearerNo) : State := inState .member (under n w dev)

/-- In a cycle. -/
def inCycle (c : Cycle) (s : State) : State := { s with timer := { s.timer with cycle := some c } }

/-- The free-running cycle 0..10000. -/
def free : Cycle := ordinaryCycle 0 0

/-- At the end of that cycle, every slot and sample frame over. -/
def atEnd (s : State) : State :=
  let t := inCycle free s
  { t with chan := { t.chan with nextSlot := 16, inSlot := false }, codec := { t.codec with frameIx := 160 } }

/-- In slot `k` of that cycle. -/
def inSlot (k : Nat) (s : State) : State :=
  let t := inCycle free s
  { t with chan := { t.chan with nextSlot := k, inSlot := true } }

/-- Before slot `k` of that cycle. -/
def beforeSlot (k : Nat) (s : State) : State :=
  let t := inCycle free s
  { t with chan := { t.chan with nextSlot := k, inSlot := false } }

/-- A peer heard in the cycle just ended. -/
def peer (n : StationNo) (w : WearerNo) : Peer :=
  { number := n, wearer := w, state := .active, missed := 0, voiceSlot := some 0, farSlot := none, offset := 0,
    lineMute := false, hush := false, pairingOpen := false, bearer := false, age := 0#8 }

/-- With a peer table. -/
def withPeers (ps : List Peer) (s : State) : State := { s with peers := ps }

/-- A claim in a state, in a slot. -/
def claimOf (st : ClaimState) (k : Option SlotIx) : Claim := { Claim.inState st with slot := k }

/-- With the bearer's role in a state and its claim. -/
def inRole (b : BearerState) (cl : Claim) (s : State) : State :=
  { s with bearer := { s.bearer with state := b }, farEnd := cl }

/-- With an open pairing window and `left` cycles to go. -/
def withWindow (left : Nat) (s : State) : State :=
  { s with pairing := { s.pairing with
      window := { state := .opened, kind := some .newWearer, remaining := left, lastCause := .none } } }

/-- A VOICE of that group as a hush. -/
def voiceFrom (n : StationNo) (w : WearerNo) (k : SlotIx) : Burst :=
  { group := 0x51A0C3#24, kind := .voice, sender := n, wearer := w, slot := k, lineMute := false, hush := true,
    pairingOpen := false, bearer := false, age := 0#8, heardMap := List.replicate 16 0, body := .absent }

/-- A burst in the air from an arrival on. -/
def airAt (a : Nat) (b : Burst) : AirItem := .burst a (a + airTime b) (burstBytes b)

/-- A bond. -/
def bondOf (seq : BitVec 16) : BondValue := { group := 0x51A0C3#24, station := 3, wearer := 2, seq := seq }

/-- A place in a state. -/
def placeOf (st : PlaceState) (seq : BitVec 16) : Place := { state := st, locked := false, value := bondOf seq }

/-- With these places, the copy equal to them. -/
def withPlaces (ps : List Place) (s : State) : State := { s with store := { s.store with places := ps, copy := ps } }

/-- Sixteen places that begin with these. -/
def places (ps : List Place) : List Place := ps ++ List.replicate (16 - ps.length) Place.blank

/-- With an operation in flight from instant 100 on. -/
def flying (op : StoreOp) (i : Nat) (s : State) : State :=
  { s with store := { s.store with state := .busy, flight := some { op := op, place := i, start := 100 } } }

/-- What a cut leaves when nothing took. -/
def noCut : CutChoice := { took := false, group := false, station := false, wearer := false, seq := false }

/-- The state a command leaves; the state itself if it did not answer one. -/
def after (c : Instr) (s : State) : State :=
  match exec c s with
  | .next t => t
  | .fault _ => s
  | .refused _ => s

/-- Whether a step answers a next state. -/
def steps (s : State) : Bool :=
  match step s with
  | .next _ => true
  | .fault _ => false
  | .refused _ => false

/-- The configuration of Table 11-3's defaults as the host writes it, mask clear. -/
def defaultArgs : ConfigArgs :=
  { format := 0x02#8, tAct := 300#16, gFar := 16384#16, gVoice := 16384#16, gUp := 16384#16, gSide := 2048#16,
    vol := 16384#16, mask := 0#32 }

/-- The clauses of `State.hearsAlone` as a check of numerals. -/
def hearsCheck (s : State) (c : Cycle) (k : SlotIx) (air : List AirItem) (a f : Nat) (bytes : List Byte) (b : Burst) :
    Bool :=
  decide (s.hold = none) && decide (s.timer.cycle = some c) && s.chan.inSlot && decide (s.chan.nextSlot = k.val) &&
    !s.chan.sentInSlot && decide (s.itemsOf c k air = [.burst a f bytes]) && decide (s.chan.onSince ≤ a) &&
    s.chan.cutSpans.all (fun p => decide (p.2 ≤ a)) &&
    (match s.chan.sent with
      | none => true
      | some o => decide (o.finish ≤ a) || decide (f ≤ o.start)) &&
    decide (fallsIn c (.burst a f bytes) = some k.val) && !inLeadIn c (.burst a f bytes) &&
    !beforeJump c (.burst a f bytes) && decide (parseBurst bytes = some b)

theorem hears_of {s : State} {c : Cycle} {k : SlotIx} {air : List AirItem} {a f : Nat} {bytes : List Byte} {b : Burst}
    (h : hearsCheck s c k air a f bytes b = true) : s.hearsAlone c k air a f bytes b := by
  unfold hearsCheck at h
  simp only [Bool.and_eq_true, decide_eq_true_eq, Bool.not_eq_true', List.all_eq_true] at h
  obtain ⟨⟨⟨⟨⟨⟨⟨⟨⟨⟨⟨⟨h1, h2⟩, h3⟩, h4⟩, h5⟩, h6⟩, h7⟩, h8⟩, h9⟩, h10⟩, h11⟩, h12⟩, h13⟩ := h
  refine ⟨⟨h1, h2, h3, h4⟩, h5, h6, ⟨⟨h7, h8, fun o ho => ?_⟩, h10, h11, h12⟩, h13⟩
  rw [ho] at h9
  simp only [Bool.or_eq_true, decide_eq_true_eq] at h9
  exact h9

/-- A burst of `b` from arrival `a`, heard alone in slot `k` of the free-running cycle, with these items of the air. -/
abbrev hearsAmong (air : List AirItem) (s : State) (k : SlotIx) (a : Nat) (b : Burst) : Prop :=
  s.hearsAlone free k air a (a + airTime b) (burstBytes b) b

/-- The same where the air held that burst alone. -/
abbrev hearsBurst (s : State) (k : SlotIx) (a : Nat) (b : Burst) : Prop := hearsAmong [airAt a b] s k a b

/-- With an item held since an earlier slot. -/
def holding (x : AirItem) (s : State) : State := { s with chan := { s.chan with held := [x] } }

/-- The same burst lies in the step window of the slot. -/
theorem inStep_of {b : Burst} {c : Cycle} {k : SlotIx} {a : Nat}
    (h : (decide (b.slot = k) && decide (c.slotStart k.val ≤ a + 24) && decide ((a : Int) ≤ c.slotStart k.val + 24)) = true) :
    b.inStepAt c k a := by
  simp only [Bool.and_eq_true, decide_eq_true_eq] at h
  exact ⟨h.1.1, h.1.2, h.2⟩

/-- The end of the slot in progress with one burst in the air from `a`. -/
def hear (a : Nat) (b : Burst) (s : State) : State := after (.slotEnd .receptionFirst [airAt a b]) s

/-! ### Ill-formed commands are refused by the check -/

theorem test_wf_known_code_is_not_unknown : (Instr.unknownCommand 0x01).wf = false := by decide
theorem test_wf_unknown_code : (Instr.unknownCommand 0x03).wf = true := by decide
theorem test_wf_peer_silent_zero : (Instr.peerSilent 0).wf = false := by decide
theorem test_wf_peer_lost_31 : (Instr.peerLost 31).wf = false := by decide
theorem test_wf_peer_removed_31 : (Instr.peerRemoved 31).wf = false ∧ (Instr.peerRemoved 30).wf = true := by decide
theorem test_wf_burst_without_length : (Instr.slotEnd .receptionFirst [.burst 10 10 []]).wf = false := by decide
theorem test_wf_burst_too_long :
    (Instr.slotEnd .receptionFirst [.burst 10 410 []]).wf = false ∧
      (Instr.slotEnd .receptionFirst [.burst 10 409 []]).wf = true := by decide
theorem test_wf_overlapping_bursts :
    (Instr.slotEnd .receptionFirst [.burst 10 50 [], .burst 49 90 []]).wf = false ∧
      (Instr.slotEnd .receptionFirst [.burst 10 50 [], .burst 50 90 []]).wf = true := by decide
theorem test_wf_energy_inside_burst :
    (Instr.slotEnd .receptionFirst [.burst 10 50 [], .energy 20]).wf = false := by decide
theorem test_wf_read_back_station_31 :
    (Instr.programDone (some { bondOf 1 with station := 31 })).wf = false := by decide

/-! ### The control port's bytes (Tables 12-4, 12-6) -/

theorem test_bytes_without_arguments :
    commandOfBytes 7 [0x01] = some .readId ∧ commandOfBytes 7 [0x11] = some (.stop 7) ∧
      commandOfBytes 7 [0x12] = some (.foundGroup 7) ∧ commandOfBytes 7 [0x15] = some .closePairing ∧
      commandOfBytes 7 [0x20] = some .bearCall ∧ commandOfBytes 7 [0x21] = some .endCall ∧
      commandOfBytes 7 [0x30] = some .readStatus ∧ commandOfBytes 7 [0x31] = some .readEvents ∧
      commandOfBytes 7 [0x32] = some .readPeers ∧ commandOfBytes 7 [0x44] = some .clearFault ∧
      commandOfBytes 7 [0x7F] = some .softReset := by decide +kernel

theorem test_bytes_with_one_argument :
    commandOfBytes 7 [0x10, 0xFF] = some (.start 0xFF 7) ∧ commandOfBytes 7 [0x13, 0x02] = some (.joinGroup 2 7) ∧
      commandOfBytes 7 [0x14, 0x01] = some (.openPairing 1) ∧ commandOfBytes 7 [0x40, 0x0F] = some (.readBond 15) ∧
      commandOfBytes 7 [0x41, 0x05] = some (.retireBond 7 5) ∧ commandOfBytes 7 [0x42, 0x05] = some (.lockBond 7 5) ∧
      commandOfBytes 7 [0x43, 0x05, 0xAA] = some (.eraseBond 7 5) := by decide +kernel

theorem test_bytes_with_words :
    commandOfBytes 7 [0x22, 0x40, 0x00, 0x08, 0x00] = some (.setLevels 16384 2048) ∧
      commandOfBytes 7 [0x50, 0x02, 0x80] = some (.writeDownlink 640) ∧
      commandOfBytes 7 [0x51, 0x00, 0xA0] = some (.readUplink 160) ∧ commandOfBytes 7 [0x51, 0x00] = none ∧
      commandOfBytes 7 [0x03] = some (.unknownCommand 3) := by decide +kernel

theorem test_bytes_of_write_config :
    commandOfBytes 7 [0x02, 0x02, 0x01, 0x2C, 0x40, 0x00, 0x40, 0x00, 0x40, 0x00, 0x08, 0x00, 0x40, 0x00, 0x00, 0x00, 0x00,
      0x00] = some (.writeConfig 7 defaultArgs) := by decide +kernel

theorem test_defaults_register_as_defaults : registerConfig defaultArgs = ConfigBlock.defaults := by decide +kernel

theorem test_samples_of_bytes :
    samplesOfBytes [0x12, 0x34, 0xFF, 0xFE, 0x55] = [0x1234#16, 0xFFFE#16] ∧
      commandsOfBytes 7 [0x50, 0x00, 0x01, 0xAA, 0x12, 0x34, 0x56, 0x78] = [.writeDownlink 1, .downlinkSample 0x1234#16] ∧
      commandsOfBytes 7 [0x50, 0x00, 0x02, 0xAA, 0x12, 0x34, 0x56] = [.writeDownlink 2, .downlinkSample 0x1234#16] ∧
      commandsOfBytes 7 [0x51, 0x00, 0x02, 0x00] = [.readUplink 2] := by decide +kernel

theorem test_no_word_spells_a_command : decodeTableWord 8 0x01 = none ∧ dev.withFetchWord 8 0x01 = dev := by
  decide +kernel

/-! ### Worked examples: the group channel and the cycle (Tables 1-10 to 1-12, 2-1, 2-2, 2-5) -/

/-- Station 3 of the example of Table 1-10 in the slot that ends next. -/
def station3 (k : Nat) : State := inSlot k { member 3 2 with voice := claimOf .confirmed (some 4) }

/-- The entry that slot `k` gets from what the air held. -/
def entryAfter (k : Nat) (air : List AirItem) (s : State) : Entry :=
  (after (.slotEnd .receptionFirst air) s).views.filling.getD k .unknown

theorem test_slot_0_own : entryAfter 0 [airAt 4 (voiceFrom 1 0 0)] (station3 0) = .own 1 := by decide +kernel
theorem test_slot_2_own : entryAfter 2 [airAt 1243 (voiceFrom 5 0 2)] (station3 2) = .own 5 := by decide +kernel
theorem test_slot_6_corrupt : entryAfter 6 [.burst 3751 4110 [1, 2]] (station3 6) = .corrupt := by decide +kernel
theorem test_slot_9_stray :
    entryAfter 9 [.burst 5310 5679 (burstBytes (voiceFrom 2 0 7))] (station3 9) = .stray ∧
      (after (.slotEnd .receptionFirst [.burst 5310 5679 (burstBytes (voiceFrom 2 0 7))]) (station3 9)).timer.log =
        [{ inStep := false, sender := 2, offset := -315, arrival := 5310, slot := 7 }] := by decide +kernel
theorem test_slot_10_foreign :
    entryAfter 10 [airAt 6250 { voiceFrom 9 0 10 with group := 7#24, kind := .farend }] (station3 10) = .foreign := by
  decide +kernel
theorem test_slot_11_stray : entryAfter 11 [airAt 6906 (voiceFrom 8 0 11)] (station3 11) = .stray := by decide +kernel
theorem test_slot_14_join_is_foreign :
    entryAfter 14 [airAt 8753 (newcomerBurst .join 0#24 (.join 0x3C719E2405A1#48 .newWearer))] (station3 14) =
      .foreign := by decide +kernel

theorem test_heard_map_of_table_1_12 :
    ([.own 1, .empty, .own 5, .empty, .mine, .corrupt, .stray, .foreign, .unknown] : List Entry).map (Entry.report 3) =
      [1, 0, 5, 0, 3, 31, 31, 31, 0] := by decide

/-- Receptions in step with these offsets. -/
def offsets (ds : List Int) : List TimerRx :=
  ds.map fun d => { inStep := true, sender := 1, offset := d, arrival := 0, slot := 0 }

theorem test_corrections_of_table_2_1 :
    correctionOf [] = 0 ∧ correctionOf (offsets [5, -2, 9, 20]) = 6 ∧ correctionOf (offsets [-4, -3]) = -2 ∧
      correctionOf (offsets [24, 24, 24]) = 6 ∧ correctionOf (offsets [11, 11, -3]) = 4 ∧
      correctionOf (offsets [1]) = 0 := by decide +kernel

/-- Station 6 at the jump of Table 2-2. -/
def station6 : State :=
  let s := atEnd { member 6 1 with voice := claimOf .confirmed (some 3) }
  { s with timer := { s.timer with stepLoss := 2, log :=
      [{ inStep := true, sender := 9, offset := 2, arrival := 1252, slot := 2 },
        { inStep := false, sender := 4, offset := 77, arrival := 6702, slot := 8 },
        { inStep := false, sender := 2, offset := 160, arrival := 8285, slot := 3 },
        { inStep := false, sender := 2, offset := 160, arrival := 9535, slot := 5 }] } }

theorem test_jump_of_table_2_2 :
    station6.jumpDue free = true ∧ station6.jumpEnd free = 16410 ∧
      (after (.cycleEnd .stateFirst) station6).timer.cycle = some (jumpCycle .stepJump 10000 16410) ∧
      (after (.cycleEnd .stateFirst) station6).voice = Claim.inState .waiting := by decide +kernel

theorem test_grid_of_a_jump_cycle :
    (jumpCycle .stepJump 10000 16410).firstSlot = 6 ∧ (jumpCycle .stepJump 10000 16410).slotStart 6 = 10160 ∧
      (jumpCycle .stepJump 10000 16410).slotEnd 15 = 16410 := by decide +kernel

theorem test_alignment_case_b :
    (free.align 16000 8125).planned = 8750 ∧ (free.align 16000 8125).nextPhase = some 16000 ∧
      placeEnd 16000 8750 = 16000 := by decide +kernel

/-- A cycle of a given length from 0. -/
def lasting (l : Nat) : Cycle := jumpCycle .stepJump 0 l

theorem test_sample_starts_of_table_2_5 :
    ([1, 2, 80, 159].map (lasting 10000).sampleStart = [62, 125, 5000, 9937]) ∧
      ([1, 2, 80, 159].map (lasting 10006).sampleStart = [62, 125, 5003, 9943]) ∧
      ([1, 2, 80, 159].map (lasting 9994).sampleStart = [62, 124, 4997, 9931]) ∧
      ([1, 2, 80, 159].map (lasting 6410).sampleStart = [40, 80, 3205, 6369]) ∧
      [1, 2, 80, 159].map (lasting 14999).sampleStart = [93, 187, 7499, 14905] := by decide +kernel

/-! ### Worked examples: admission, offers, frames, the mix (Tables 3-11, 5-6, 6-5, 6-11, 7-5, chapter 8) -/

/-- A peer in a given state. -/
def peerIn (st : PeerState) (n : StationNo) (w : WearerNo) : Peer := { peer n w with state := st }

/-- Table 5-6, station 7 in a given state. -/
def table5_6 (seven : PeerState) : List Peer :=
  [peer 1 0, peer 3 0, peerIn .lost 4 3, peerIn .silent 6 2, peerIn seven 7 1]

theorem test_offer_of_table_5_6 :
    assignStation 2 (table5_6 .lost) = some 5 ∧
      assignWearer .newWearer { group := 0x51A0C3#24, number := 2, wearer := 1 } (table5_6 .lost) = some 4 ∧
      assignWearer .partner { group := 0x51A0C3#24, number := 2, wearer := 1 } (table5_6 .lost) = some 1 ∧
      assignWearer .partner { group := 0x51A0C3#24, number := 2, wearer := 1 } (table5_6 .silent) = none := by
  decide +kernel

theorem test_admission_of_table_3_12 :
    (([0, 1, 2, 3] : List WearerNo).map
      (admitted { group := 0x51A0C3#24, number := 6, wearer := 2 }
        [peer 1 0, peer 2 0, peerIn .silent 3 1, peer 5 2, peerIn .silent 7 2, peer 8 0, peerIn .lost 9 3])) =
      [[1, 2], [3], [5, 6], []] := by decide +kernel

theorem test_energies_of_table_6_11 :
    energyOf ((List.range 80).flatMap fun _ => [1000#16, BitVec.ofInt 16 (-1000)]) = 1000 ∧
      energyOf (List.replicate 159 0#16 ++ [0x8000#16]) = 204 ∧ energyOf (List.replicate 160 2#16) = 2 := by
  decide +kernel

theorem test_offer_numbers_of_a_full_group :
    assignStation 1 ((List.range 15).map fun i => peer (Fin.ofNat 32 (i + 2)) 0) = some 17 := by decide +kernel

theorem test_companding_of_table_6_5 :
    exponentOf 1000 = 3 ∧
      ([1000, -1001, 12, -12, 3, 1020] : List Int).map (fun x => (mantissaOf 3 (BitVec.ofInt 16 x)).toInt) =
        [125, -125, 2, -1, 0, 127] ∧
      ([125, -125, 2, -1, 0, 127] : List Int).map (fun m => (decodeSample 3 (BitVec.ofInt 8 m)).toInt) =
        [1000, -1000, 16, -8, 0, 1016] := by decide +kernel

theorem test_companding_at_full_scale :
    exponentOf (peakOf 0x8000#16) = 8 ∧ (mantissaOf 8 0x8000#16).toInt = -128 ∧ (mantissaOf 8 0x7FFF#16).toInt = 127 ∧
      (decodeSample 8 127#8).toInt = 32512 := by decide +kernel

theorem test_ramp_of_table_7_5 :
    ([0, 1, 79, 158, 159].map fun i => (rampSample i 1600#16).toInt) = [10, 20, 800, 1590, 1600] ∧
      ([0, 1, 79, 158, 159].map fun i => (rampSample i (BitVec.ofInt 16 (-1000))).toInt) =
        [-6, -12, -500, -993, -1000] ∧
      ([0, 1, 79, 158, 159].map fun i => (rampSample i (BitVec.ofInt 16 (-32768))).toInt) =
        [-204, -409, -16384, -32563, -32768] := by decide +kernel

theorem test_gain_of_table_8_3 :
    [1, 2, 3, 4].map (effectiveGain 32767#15) = [32767, 24575, 20479, 16384] := by decide +kernel

theorem test_speaker_sample_of_chapter_8 :
    (speakerSample ConfigBlock.defaults 235520000 4000#16).toInt = 14875 := by decide +kernel

theorem test_crc_and_lengths :
    (burstBytes (voiceFrom 1 0 0)).length = 19 ∧ airTime (voiceFrom 1 0 0) = 38 ∧
      airTime { voiceFrom 1 0 0 with hush := false, body := .frame (encodeFrame silence) } = 368 ∧
      airTime (newcomerBurst .join 0#24 (.join 1#48 .partner)) = 52 := by decide +kernel

/-! ### States that meet the statements' hypotheses: machine and control port -/

theorem test_meets_StepRunsTheFrontCommand : dev.pending = [] ∧ step dev = .next dev := ⟨rfl, rfl⟩

/-- Held in reset. -/
def held (s : State) : State := { s with hold := some .rstn }

theorem test_meets_TransactionsFrameHostCommands :
    (dev.port.phase = .high ∧ dev.hold = none ∧ (after .csnFall dev).port.phase = .waiting) ∧
      ((held dev).port.phase = .high ∧ (held dev).hold ≠ none ∧ (after .csnFall (held dev)).port.phase = .deaf) ∧
      ((asked dev).port.phase ≠ .high ∧ (asked dev).port.softReset = false ∧
        (after (.csnRise 5 noCut) (asked dev)).port.phase = .high) ∧
      (bytesOfCommand (.start 0 0)).isSome ∧ ¬dev.listensToHost ∧ ¬(held (asked dev)).listensToHost ∧
      ¬(after .readId (asked dev)).listensToHost := by decide +kernel

theorem test_meets_RefusedCommandsChangeNothing :
    (asked dev).listensToHost ∧ (bytesOfCommand (.stop 9)).isSome ∧
      (after (.stop 9) (asked dev)).port.reply.head? ≠ some 0x00 ∧ after (.stop 9) (asked dev) = (asked dev).took [0x01] ∧
      (Instr.unknownCommand 0x00).wf ∧ (Instr.unknownCommand 0xFF).wf := by
  decide +kernel

theorem test_meets_SoftResetIsTakenAtTheRiseOfCsn :
    let s := after .softReset (asked { dev with flags := 5#25 })
    let o := after .softReset (asked (withPlaces (places [placeOf .valid 3, placeOf .opened 4]) dev))
    ((asked dev).listensToHost ∧ s.port.phase ≠ .high ∧ s.port.softReset = true ∧
      (∀ p ∈ (after (.csnRise 9 noCut) s).store.places, p.state ≠ .opened) ∧
      (after (.csnRise 9 noCut) s).flags = Flag.storeDone.mark) ∧
    (o.port.phase ≠ .high ∧ o.port.softReset = true ∧
      ((after (.csnRise 9 noCut) o).store.places.findIdx? fun p => p.state == .opened) = some 1 ∧
      (after (.csnRise 9 noCut) o).store.state = .scanning) := by decide +kernel

theorem test_meets_ResetPinsStopEveryBlock :
    (after (.powerOnReset noCut) (asked dev)).hold = some .powerOn ∧
      (after (.rstnFall noCut) (asked dev)).port.phase = .deaf := by decide +kernel

/-- Each row of Table 10-5 on place 1, and that no other place and no idle store changes. -/
theorem test_meets_ResetPinsStopEveryBlock_places :
    let cutAll : CutChoice := { took := true, group := true, station := true, wearer := true, seq := true }
    let ps := places [placeOf .valid 3, placeOf .opened 4, placeOf .valid 5]
    let left := fun (op : StoreOp) (cut : CutChoice) =>
      (after (.rstnFall cut) (flying op 1 (withPlaces ps dev))).store.places
    let opened := fun v : BondValue => ps.set 1 { state := .opened, locked := false, value := v }
    let zero : BondValue := { group := 0, station := 0, wearer := 0, seq := 0 }
    (flying .retire 1 (withPlaces ps dev)).store.flight = some { op := .retire, place := 1, start := 100 } ∧
      1 < ps.length ∧ (after (.powerOnReset cutAll) (withPlaces ps dev)).store.places = ps ∧
      left (.program (bondOf 9)) noCut = ps.set 1 Place.blank ∧
      left (.program (bondOf 9)) cutAll = opened (bondOf 9) ∧
      left (.program (bondOf 9)) { noCut with took := true } = opened zero ∧
      left .retire noCut = ps ∧ left .scanRetire cutAll = ps.set 1 (placeOf .retired 4) ∧
      left .erase noCut = opened zero ∧ left .erase { noCut with seq := true } = opened { zero with seq := 4 } ∧
      left (.eraseProgram (bondOf 9) false) cutAll = opened (bondOf 4) ∧
      left (.eraseProgram (bondOf 9) true) cutAll = opened (bondOf 9) ∧
      left (.eraseProgram (bondOf 9) true) noCut = ps.set 1 Place.blank ∧
      ((after (.rstnFall cutAll) (flying .lock 2 (withPlaces ps dev))).store.places.getD 2 Place.blank).locked = true := by
  decide +kernel

theorem test_meets_ResetEndStartsTheScan :
    let held := withPlaces (places [placeOf .valid 3, placeOf .opened 4]) { dev with hold := some .rstn }
    (held.hold ≠ none ∧ (held.store.places.findIdx? fun p => p.state == .opened) = some 1 ∧
      (after (.resetEnd 50) held).store.state = .scanning) ∧
    ({ dev with hold := some .powerOn }.hold ≠ none ∧
      (∀ p ∈ ({ dev with hold := some .powerOn } : State).store.places, p.state ≠ .opened) ∧
      (after (.resetEnd 50) { dev with hold := some .powerOn }).store.state = .idle) := by decide +kernel

theorem test_meets_ReadsReportTheirRecords :
    (asked dev).listensToHost ∧ (after .readId (asked dev)).port.reply = [0, 0x3C, 0x71, 0x9E, 0x24, 0x05, 0xA1] ∧
      (after (.readBond 15) (asked dev)).port.reply = [0, 0, 0, 0, 0, 0, 0, 0, 0, 0] ∧
      (after (.readBond 16) (asked dev)).port.reply = [0x08] ∧ (Instr.readBond 16).wf ∧
      bytesOfCommand (.readBond 16) = some [0x40, 0x10] ∧ dev.port.phase = .high ∧ (held dev).hold ≠ none := by
  decide +kernel

theorem test_sdo_bytes :
    ([0, 1, 2, 3, 4].map fun i => (after (.readBond 16) (asked dev)).sdoByte 0x40 i) =
        [some 0, some 0, some 8, some 0, some 0] ∧
      ([0, 1, 2, 3, 8].map fun i => (after .readId (asked dev)).sdoByte 0x01 i) =
        [some 0, some 0, some 0x3C, some 0x71, some 0] ∧
      dev.sdoByte 0x01 0 = none ∧ (held (asked dev)).sdoByte 0x01 0 = none := by decide +kernel

theorem test_fields_of_records :
    peerRecord { peer 30 7 with
        state := .lost, missed := 0x0123, voiceSlot := some 13, farSlot := none, offset := -24, lineMute := true
        pairingOpen := true, age := 255 } = [30, 7, 2, 0x01, 0x23, 13, 0xFF, 0xE8, 0x0A, 0xFF] ∧
      bondRecord false { placeOf .valid 0x0102 with locked := true } = [2, 1, 0x51, 0xA0, 0xC3, 3, 2, 0x01, 0x02] ∧
      bondRecord true (placeOf .retired 7) = [4, 0, 0x51, 0xA0, 0xC3, 3, 2, 0, 7] := by decide +kernel

theorem test_meets_ReadEventsClearsWhatItReports :
    let s := asked { dev with flags := 0x1000001#25 }
    s.listensToHost ∧ (after .readEvents s).port.reply = [0, 0x01, 0, 0, 0x01] ∧ (after .readEvents s).flags = 0#25 ∧
      dev.hold = none ∧ dev.port.readingEvents = false ∧ dev.config.mask.getLsbD Flag.storeFault.bit = false := by
  decide +kernel

theorem test_meets_ReadEventsClearsWhatItReports_irq :
    let s := (after .readEvents (asked { dev with flags := 1#25 })).raise .peerNew
    let m : State := { dev with flags := 1#25, config := { dev.config with mask := 1#25 } }
    s.hold = none ∧ s.port.readingEvents = true ∧ s.irqAsserted = false ∧ s.port.phase ≠ .high ∧
      s.port.softReset = false ∧ (after (.csnRise 9 noCut) s).irqAsserted = true ∧ dev.irqAsserted = false ∧
      m.port.readingEvents = false ∧ m.irqAsserted = false ∧ (m.raise .stepJump).irqAsserted = true := by
  decide +kernel

theorem test_meets_PortBytesNameTheirCommand :
    (Instr.writeConfig 7 defaultArgs).wf ∧ (bytesOfCommand (.writeConfig 7 defaultArgs)).isSome ∧
      (Instr.unknownCommand 0x60).wf ∧ bytesOfCommand (.unknownCommand 0x60) = some [0x60] ∧
      bytesOfCommand (.setLevels 16384 2048) = some [0x22, 0x40, 0, 0x08, 0] ∧
      commandsOfBytes 7 (0x50 :: bytesOfNat 2 640 ++ 0 :: ([5#16, 6#16].flatMap fun v => bytesOfNat 2 v.toNat) ++ [9]) =
        [.writeDownlink 640, .downlinkSample 5, .downlinkSample 6] := by decide +kernel

/-! ### Configuration -/

theorem test_meets_WriteConfigStartsOrKeepsTheTimer :
    (asked dev).listensToHost ∧ dev.station.state = .unconfigured ∧
      (after (.writeConfig 40 defaultArgs) (asked dev)).timer.cycle = some (ordinaryCycle 40 0) ∧
      (ordinaryCycle 40 0).length = 10000 ∧ (after (.writeConfig 40 defaultArgs) (asked dev)).chan.nextSlot = 0 ∧
      (asked (inState .idle dev)).listensToHost ∧ (inState .idle dev).station.state = .idle ∧
      (asked (inState .leaving dev)).station.state ≠ .unconfigured ∧ (inState .leaving dev).station.state ≠ .idle ∧
      (after (.writeConfig 40 defaultArgs) (asked (inState .leaving dev))).port.reply = [0x01] := by decide +kernel

theorem test_levels_are_registered_at_the_limit :
    registerLevel 32767#16 = 32767#15 ∧ registerLevel 32768#16 = 32767#15 ∧ registerLevel 65535#16 = 32767#15 := by
  decide +kernel

theorem test_meets_SetLevelsReplacesBothLevels :
    (asked dev).listensToHost ∧ (after (.setLevels 40000 0) (asked dev)).config.vol = 32767#15 ∧
      (after (.setLevels 40000 0) (asked dev)).config.gSide = 0#15 := by decide +kernel

/-! ### Station -/

/-- An idle station with CSN low over some places. -/
def idleOver (ps : List Place) : State := asked (withPlaces (places ps) (inState .idle dev))

theorem test_meets_StartLoadsTheChosenBond :
    (asked dev).listensToHost ∧ dev.station.state ≠ .idle ∧
      (after (.start 16 9) (idleOver [])).port.reply = [0x08] ∧ (after (.start 0xFE 9) (idleOver [])).port.reply = [0x08] ∧
      (after (.start 0xFF 9) { idleOver [] with store := { dev.store with state := .scanning } }).port.reply = [0x02] ∧
      (placeAt (idleOver []).store.copy 15).state ≠ .valid ∧ (after (.start 15 9) (idleOver [])).port.reply = [0x03] ∧
      (∀ p ∈ (idleOver [placeOf .retired 9]).store.copy, p.state ≠ .valid) ∧
      (after (.start 0xFF 9) (idleOver [placeOf .retired 9])).port.reply = [0x03] := by decide +kernel

/-- Three VALID places, the later two of one sequence number, told apart by their wearers. -/
def tied : List Place :=
  [placeOf .valid 4, { placeOf .valid 7 with value := { bondOf 7 with wearer := 5 } },
    { placeOf .valid 7 with value := { bondOf 7 with wearer := 6 } }]

theorem test_meets_StartLoadsTheChosenBond_tied :
    (idleOver tied).listensToHost ∧ (idleOver tied).station.state = .idle ∧ (idleOver tied).store.state ≠ .scanning ∧
      (∀ k < 16, (placeAt (idleOver tied).store.copy k).state = .valid → k ≠ 1 →
        (placeAt (idleOver tied).store.copy k).value.seq.toNat < 7 ∨
          ((placeAt (idleOver tied).store.copy k).value.seq = 7 ∧ 1 < k)) ∧
      (after (.start 0xFF 9) (idleOver tied)).station.creds.wearer = 5 ∧
      (after (.start 2 9) (idleOver tied)).station.creds.wearer = 6 ∧
      (after (.start 0xFF 9) { idleOver tied with views := { dev.views with v1 := List.replicate 16 .mine } }).views =
        Views.unknown := by decide +kernel

/-- A bearing member with an open window, asked. -/
def busyMember : State :=
  asked (withWindow 1 (inRole .bearing (claimOf .confirmed (some 5)) { member 3 2 with
    voice := claimOf .confirmed (some 4) }))

theorem test_meets_StopLeavesTheGroup :
    ((asked dev).listensToHost ∧ dev.station.state = .unconfigured ∧ (after (.stop 9) (asked dev)).port.reply = [0x01] ∧
      (asked (inState .joining dev)).listensToHost ∧ (inState .joining dev).station.state = .joining ∧
      (after (.stop 9) (asked (inState .joining dev))).station.state = .idle ∧
      (after (.stop 9) (asked (inState .listen dev))).chan.cutSpans = [(0, 9)]) ∧
    busyMember.listensToHost ∧ busyMember.station.state = .member ∧ busyMember.claimsOk ∧
      (after (.stop 9) busyMember).voice = claimOf .releasing (some 4) ∧
      (after (.stop 9) busyMember).bearer.state = .ending ∧
      (after (.stop 9) busyMember).pairing.window.lastCause = .closed ∧
      (asked { member 3 2 with voice := Claim.inState .waiting }).claimsOk ∧
      (asked (inRole .claiming (Claim.inState .holdoff) { member 3 2 with voice := Claim.inState .waiting })).claimsOk :=
  by decide +kernel

theorem test_meets_StopLeavesTheGroup_ending :
    let e := { busyMember with
      voice := Claim.gone, farEnd := claimOf .releasing (some 5), bearer := { busyMember.bearer with state := .ending } }
    let w := { busyMember with
      voice := claimOf .releasing (some 4), farEnd := Claim.inState .waiting
      bearer := { busyMember.bearer with state := .claiming } }
    e.claimsOk ∧ w.claimsOk ∧ (after (.stop 9) e).voice = e.voice ∧ (after (.stop 9) e).farEnd = e.farEnd ∧
      (after (.stop 9) e).bearer = e.bearer ∧ (after (.stop 9) e).station.state = .leaving ∧
      (after (.stop 9) w).voice = w.voice ∧ (after (.stop 9) w).farEnd = Claim.gone ∧
      (after (.stop 9) w).bearer = Bearer.gone := by decide +kernel

theorem test_meets_FoundGroupAndJoinGroupLeaveIdle :
    (after (.foundGroup 9) (asked dev)).port.reply = [0x01] ∧
      (after (.foundGroup 9) { idleOver [] with store :=
        { (idleOver []).store with waiting := some Credentials.zero } }).port.reply = [0x02] ∧
      (idleOver []).listensToHost ∧ (idleOver []).store.waiting = none ∧ dev.factoryId.toNat % 2 ^ 24 ≠ 0 ∧
      (after (.foundGroup 9) (idleOver [])).station.creds.group = 0x2405A1#24 ∧
      (after (.foundGroup 9) { idleOver [] with factoryId := 0x3C719E000000#48 }).station.creds.group = 1#24 := by
  decide +kernel

theorem test_meets_FoundGroupAndJoinGroupLeaveIdle_store :
    let ps := places [placeOf .valid 65534]
    ((idleOver [placeOf .valid 65534]).store.copy.findIdx? fun p => p.state == .erased) = some 1 ∧ ps.length = 16 ∧
      (after (.foundGroup 9) (idleOver [placeOf .valid 65534])).store.flight =
        some { op := .program { group := 0x2405A1#24, station := 1, wearer := 0, seq := 65535#16 }, place := 1,
               start := 9 } := by decide +kernel

/-- Stores without an ERASED place: one RETIRED place, and none. -/
def retiredAt (i : Nat) : List Place := (List.replicate 16 (placeOf .valid 4)).set i (placeOf .retired 9)

theorem test_meets_FoundGroupAndJoinGroupLeaveIdle_full_store :
    let r := idleOver (retiredAt 15)
    let f := idleOver (List.replicate 16 (placeOf .valid 4))
    (r.store.state = .idle ∧ (r.store.copy.findIdx? fun p => p.state == .erased) = none ∧
      (r.store.copy.findIdx? fun p => p.state == .retired) = some 15 ∧
      (after (.foundGroup 9) r).store.flight =
        some { op := .eraseProgram { group := 0x2405A1#24, station := 1, wearer := 0, seq := 10 } false, place := 15,
               start := 9 } ∧ (after (.foundGroup 9) r).flagSet .storeFault = false) ∧
    ((f.store.copy.findIdx? fun p => p.state == .retired) = none ∧
      (after (.foundGroup 9) f).store = { f.store with cause := .full } ∧
      (after (.foundGroup 9) f).flagSet .storeFault ∧ (after (.foundGroup 9) f).station.state = .listen) ∧
    (after (.foundGroup 9) { f with store := { f.store with state := .scanning } }).store.waiting.isSome := by
  decide +kernel

theorem test_meets_FoundGroupAndJoinGroupLeaveIdle_join :
    (after (.joinGroup 1 9) (asked dev)).port.reply = [0x01] ∧ (after (.joinGroup 0 9) (idleOver [])).port.reply = [0x08] ∧
      (after (.joinGroup 3 9) (idleOver [])).port.reply = [0x08] ∧
      (after (.joinGroup 2 9) { idleOver [] with store :=
        { (idleOver []).store with waiting := some Credentials.zero } }).port.reply = [0x02] ∧
      (after (.joinGroup 2 9) (idleOver [])).pairing.newcomer = some (Newcomer.fresh .partner) := by decide +kernel

/-! ### Pairing -/

theorem test_meets_PairingWindowOpensAndCloses :
    (after (.openPairing 1) (asked dev)).port.reply = [0x01] ∧
      (after (.openPairing 3) (asked (member 3 2))).port.reply = [0x08] ∧
      (after (.openPairing 2) busyMember).port.reply = [0x01] ∧
      (after (.openPairing 1) (asked (withPeers [{ peer 5 1 with pairingOpen := true }] (member 3 2)))).port.reply =
        [0x07] ∧
      (after (.openPairing 1) (asked (withPeers [peer 5 1] (member 3 2)))).pairing.window.remaining = 3000 ∧
      (after .closePairing (asked (member 3 2))).port.reply = [0x01] ∧
      (after .closePairing busyMember).pairing.window.lastCause = .closed := by decide +kernel

theorem test_meets_OfferedNumbersAreTheLowestFree :
    (∀ p ∈ table5_6 .lost, p.number ≠ 2) ∧
      assignWearer .newWearer { group := 1#24, number := 9, wearer := 0 }
        ((List.finRange 8).map fun w => peer 1 w) = none := by decide +kernel

/-- A member with an open window in slot 13 or 15, and the lapse of number 9 on record. -/
def yielding (k : Nat) : State :=
  let s := inSlot k (withWindow 9 (withPeers [peer 1 0] (member 3 2)))
  { s with pairing := { s.pairing with lapse := some { number := 9, age := 7 } } }

/-- A VOICE of a station with an open window; an OFFER of it. -/
def openVoice (n : StationNo) : Burst := { voiceFrom n 1 13 with pairingOpen := true }

def openOffer (n : StationNo) : Burst :=
  { voiceFrom n 1 15 with kind := .offer, hush := false, pairingOpen := true, body := .offer 5#48 30 7 }

theorem test_meets_PairingWindowOpensAndCloses_reception :
    hearsBurst (yielding 13) 13 8125 (openVoice 2) ∧ (openVoice 2).inStepAt free 13 8125 ∧
      hearsBurst (yielding 13) 13 8101 (openVoice 4) ∧ hearsBurst (yielding 13) 13 8149 (voiceFrom 9 1 13) ∧
      hearsBurst (yielding 15) 15 9375 (openOffer 1) ∧ (openOffer 1).inStepAt free 15 9375 :=
  ⟨hears_of (by decide +kernel), inStep_of (by decide +kernel), hears_of (by decide +kernel), hears_of (by decide +kernel),
    hears_of (by decide +kernel), inStep_of (by decide +kernel)⟩

theorem test_window_at_a_reception :
    (hear 8125 (openVoice 2) (yielding 13)).pairing.window.lastCause = .yielded ∧
      (hear 8125 (openVoice 2) (yielding 13)).flagSet .pairingEnded ∧
      (hear 8101 (openVoice 4) (yielding 13)).pairing = (yielding 13).pairing ∧
      (hear 8149 (voiceFrom 9 1 13) (yielding 13)).pairing.window.lastCause = .done ∧
      (hear 8149 (voiceFrom 9 1 13) (yielding 13)).flagSet .paired ∧
      (hear 9375 (openOffer 1) (yielding 15)).pairing.window.lastCause = .yielded ∧
      (after (.slotEnd .cycleEndFirst [airAt 9375 (openOffer 1)]) (yielding 15)).chan.late = [.windowYield] ∧
      (after (.slotEnd .cycleEndFirst [airAt 9375 (openOffer 1)]) (yielding 15)).pairing = (yielding 15).pairing := by
  decide +kernel

/-- With these effects of slot 15 kept for the end of the cycle. -/
def keptLate (es : List LateEffect) (s : State) : State := { s with chan := { s.chan with late := es } }

/-- A bearer with an open window at a cycle end, `left` cycles to go. -/
def yieldsLate (left : Nat) (es : List LateEffect) : State :=
  keptLate es (atEnd (withWindow left (inRole .bearing (claimOf .confirmed (some 5)) (member 3 2))))

theorem test_meets_PairingWindowOpensAndCloses_cycle_end :
    let y := yieldsLate 9 [.windowYield]
    let e := yieldsLate 9 [.electionYield, .windowYield]
    let o := yieldsLate 1 [.windowYield]
    let t := after (.cycleEnd .deadlineFirst)
    (State.endsCycle y free ∧ y.station.state = .member ∧ y.pairing.window.state = .opened) ∧
    ((t y).pairing.window.lastCause = .yielded ∧ (t y).flagSet .pairingEnded ∧ (t y).chan.late = []) ∧
    ((t e).pairing.window.lastCause = .yielded ∧ (t e).bearer = Bearer.gone ∧ (t e).flagSet .bearerConflict) ∧
    ((t o).pairing.window.lastCause = .timeout ∧ (t o).flagSet .pairingEnded) ∧
    (t (keptLate [.windowYield] (atEnd (member 3 2)))).pairing.window = (member 3 2).pairing.window := by
  decide +kernel

/-- A factory ID and a JOIN and CONFIRM that carry it. -/
def joinId : FactoryId := 0x0000000000A5#48

def joinOf (kind : JoinKind) : Burst := newcomerBurst .join 0#24 (.join joinId kind)

def confirmOf (offerer station : StationNo) : Burst :=
  newcomerBurst .confirm 0x51A0C3#24 (.confirm joinId offerer station)

/-- A member in slot 14 with an open window. -/
def pairingAt : State := inSlot 14 (withWindow 9 (withPeers [peer 1 0] (member 3 2)))

/-- The same a cycle after its offer of number 2 and wearer 1. -/
def offered : State :=
  { pairingAt with
      pairing := { pairingAt.pairing with
        offer := some { target := joinId, station := 2, wearer := 1, cycleSent := 0#32, sent := true } }
      timer := { pairingAt.timer with counter := 1#32 } }

theorem test_meets_OffersAreMadeAndSettled :
    hearsBurst pairingAt 14 8726 (joinOf .newWearer) ∧ (joinOf .newWearer).inStepAt free 14 8726 ∧
      hearsBurst pairingAt 14 8774 (joinOf .partner) ∧ (joinOf .partner).inStepAt free 14 8774 ∧
      hearsBurst offered 14 8750 (confirmOf 3 2) ∧ (confirmOf 3 2).inStepAt free 14 8750 ∧
      hearsBurst offered 14 8750 (confirmOf 1 2) :=
  ⟨hears_of (by decide +kernel), inStep_of (by decide +kernel), hears_of (by decide +kernel), inStep_of (by decide +kernel),
    hears_of (by decide +kernel), inStep_of (by decide +kernel), hears_of (by decide +kernel)⟩

theorem test_offers_made_and_settled :
    (hear 8726 (joinOf .newWearer) pairingAt).pairing.offer =
        some { target := joinId, station := 2, wearer := 1, cycleSent := 0#32, sent := false } ∧
      (hear 8774 (joinOf .partner) pairingAt).pairing.offer = none ∧
      (hear 8775 (joinOf .newWearer) pairingAt).pairing.offer = none ∧
      (hear 8750 (joinOf .newWearer) (withPeers ((List.finRange 8).map fun w => peer (Fin.ofNat 32 (w.val + 10)) w)
        pairingAt)).flagSet .pairingFull ∧
      (hear 8750 (confirmOf 3 2) offered).pairing.window.lastCause = .done ∧
      (hear 8750 (confirmOf 3 2) offered).flagSet .paired ∧
      (hear 8750 (confirmOf 1 2) offered).pairing.lapse = some { number := 2, age := 0 } ∧
      (after (.slotEnd .receptionFirst []) offered).pairing.lapse = some { number := 2, age := 0 } := by decide +kernel

theorem test_meets_OffersAreMadeAndSettled_clauses :
    pairingAt.endsSlot free 14 ∧ pairingAt.station.state = .member ∧ pairingAt.chan.sentInSlot = false ∧
      pairingAt.pairing.offer = none ∧ pairingAt.pairing.window.kind = some .newWearer ∧
      assignStation 3 pairingAt.peers = some 2 ∧
      assignWearer .newWearer pairingAt.station.creds pairingAt.peers = some 1 ∧ offered.endsSlot free 14 ∧
      offered.itemsOf free 14 [] = [] ∧ offered.timer.counter = 0#32 + 1 :=
  ⟨⟨rfl, rfl, rfl, rfl⟩, rfl, rfl, rfl, rfl, by decide +kernel, by decide +kernel, ⟨rfl, rfl, rfl, rfl⟩, rfl, rfl⟩

/-- Lapses whatever the slot held: nothing, energy, an unreadable burst, two bursts. -/
theorem test_offers_lapse_at_every_slot :
    let lapsed := some ({ number := 2, age := 0 } : Lapse)
    (fallsIn free (.energy 8800) = some 14 ∧ fallsIn free (.burst 8750 9000 [1, 2]) = some 14 ∧
      parseBurst [1, 2] = none ∧ beforeJump free (.energy 8800) = false ∧ inLeadIn free (.energy 8800) = false) ∧
    ([[], [.energy 8800], [.burst 8750 9000 [1, 2]], [airAt 8750 (confirmOf 3 2), airAt 8850 (confirmOf 3 2)],
        [airAt 8750 (joinOf .newWearer)]].map
      fun air : List AirItem => (after (.slotEnd .receptionFirst air) offered).pairing.lapse) =
        List.replicate 5 lapsed ∧
    entryAfter 14 [.energy 8800] offered = .corrupt ∧ entryAfter 14 [.burst 8750 9000 [1, 2]] offered = .corrupt := by
  decide +kernel

/-- A newcomer in JOINING. -/
def joinerAt (order : JoinOrder) (attempts hold seek : Nat) (s : State) : State :=
  { s with pairing := { s.pairing with newcomer := some { Newcomer.fresh .newWearer with
      target := some 0x51A0C3#24, seek := seek, attempts := attempts, hold := hold, order := order } } }

/-- An OFFER of number 30 and wearer 7 to `id` from station 1. -/
def offerTo (id : FactoryId) : Burst :=
  { voiceFrom 1 0 15 with kind := .offer, hush := false, pairingOpen := true, body := .offer id 30 7 }

/-- A newcomer in slot 15 of its JOIN, and in slot 14 of its CONFIRM. -/
def joining : State := inSlot 15 (joinerAt .join 1 0 0 (inState .joining dev))

def confirming : State :=
  let s := inSlot 14 (joinerAt .confirm 1 0 0 (inState .joining (withPlaces (places [placeOf .valid 8]) dev)))
  { s with
      chan := { s.chan with sentInSlot := true }
      pairing := { s.pairing with newcomer := s.pairing.newcomer.map fun nc =>
        { nc with accepted := some { group := 0x51A0C3#24, offerer := 1, station := 30, wearer := 7 } } } }

theorem test_meets_NewcomerAcceptsAndEnters :
    hearsBurst joining 15 9375 (offerTo 0x3C719E2405A1#48) ∧ (offerTo 0x3C719E2405A1#48).inStepAt free 15 9375 ∧
      hearsBurst joining 15 9399 (offerTo 5#48) ∧ joining.station.state = .joining ∧ confirming.endsSlot free 14 ∧
      confirming.claimsOk :=
  ⟨hears_of (by decide +kernel), inStep_of (by decide +kernel), hears_of (by decide +kernel), rfl, ⟨rfl, rfl, rfl, rfl⟩,
    by decide +kernel⟩

theorem test_newcomer_accepts_and_enters :
    ((hear 9375 (offerTo 0x3C719E2405A1#48) joining).pairing.newcomer.bind fun nc => nc.accepted) =
        some { group := 0x51A0C3#24, offerer := 1, station := 30, wearer := 7 } ∧
      ((hear 9399 (offerTo 5#48) joining).pairing.newcomer.bind fun nc => nc.accepted) = none ∧
      (after (.slotEnd .receptionFirst []) confirming).station.creds =
        { group := 0x51A0C3#24, number := 30, wearer := 7 } ∧
      (after (.slotEnd .receptionFirst []) confirming).station.state = .member ∧
      (after (.slotEnd .receptionFirst []) confirming).store.flight =
        some { op := .program { group := 0x51A0C3#24, station := 30, wearer := 7, seq := 9 }, place := 1,
               start := 9375 } := by decide +kernel

theorem test_meets_NewcomerAcceptsAndEnters_full_store :
    let r := withPlaces (retiredAt 0) confirming
    let f := withPlaces (List.replicate 16 (placeOf .valid 4)) confirming
    let b : State := { r with store := { r.store with state := .busy } }
    (r.store.state = .idle ∧ r.claimsOk ∧ (r.store.copy.findIdx? fun p => p.state == .erased) = none) ∧
    (after (.slotEnd .receptionFirst []) r).store.flight =
      some { op := .eraseProgram { group := 0x51A0C3#24, station := 30, wearer := 7, seq := 10 } false, place := 0,
             start := 9375 } ∧
    (after (.slotEnd .receptionFirst []) f).store.cause = .full ∧
    (after (.slotEnd .receptionFirst []) f).flagSet .storeFault ∧
    (after (.slotEnd .receptionFirst []) b).store.waiting =
      some { group := 0x51A0C3#24, number := 30, wearer := 7 } := by decide +kernel

theorem test_meets_PairingCountdownsCountAndRunOut :
    let w := atEnd (withWindow 1 (member 3 2))
    let l : State := { inSlot 15 (withWindow 9 (member 3 2)) with pairing :=
      { (withWindow 9 dev).pairing with lapse := some { number := 7, age := 7 } } }
    let k := atEnd (joinerAt .none 0 0 2999 (inState .seeking dev))
    (w.atCycleEndOrSlot15 ∧ w.early.windowCounted = false ∧ w.pairing.window.remaining = 1 ∧
      (after .pairingWindowTimeout w).pairing.window.lastCause = .timeout) ∧
    (l.atCycleEndOrSlot15 ∧ l.early.lapseAged = false ∧ (after .lapseMemoryExpiry l).pairing.lapse = none) ∧
    (k.atCycleEndOrSlot15 ∧ (after .seekTimeout k).station.state = .idle) := by decide +kernel

/-- A member at a cycle end whose window has `left` cycles and whose lapse memory has an age. -/
def counting (left age : Nat) : State :=
  let s := atEnd (withWindow left (member 3 2))
  { s with pairing := { s.pairing with lapse := some { number := 7, age := age } } }

theorem test_meets_PairingCountdownsCountAndRunOut_cycle_end :
    let t := fun s => (after (.cycleEnd .stateFirst) s).pairing
    let j : State := { station6 with pairing := { offered.pairing with lapse := none } }
    let k := fun n => atEnd (joinerAt .none 0 0 n (inState .seeking dev))
    (State.endsCycle (counting 2 6) free ∧ (counting 2 6).chan.late = [] ∧ (counting 2 6).early.windowCounted = false ∧
      (counting 2 6).early.lapseAged = false ∧ j.jumpDue free = true ∧ State.endsCycle j free) ∧
    (t (counting 2 6)).window.remaining = 1 ∧ (t (counting 2 6)).lapse = some { number := 7, age := 7 } ∧
    (t (counting 2 7)).lapse = none ∧ (t (counting 1 3)).window.lastCause = .timeout ∧ (t (counting 1 3)).lapse = none ∧
    (t j).offer = none ∧ (t j).lapse = some { number := 2, age := 0 } ∧
    ((t (k 2998)).newcomer.map fun nc => nc.seek) = some 2999 ∧ (t (k 2999)).newcomer = none := by decide +kernel

/-- With a newcomer's order changed. -/
def ordered (o : JoinOrder) (s : State) : State :=
  { s with pairing := { s.pairing with newcomer := s.pairing.newcomer.map fun nc => { nc with order := o } } }

/-- What a CYCLE_END leaves of a newcomer's order and hold. -/
def orderAfter (s : State) : Option (JoinOrder × Nat) :=
  (after (.cycleEnd .stateFirst) s).pairing.newcomer.map fun nc => (nc.order, nc.hold)

theorem test_meets_NewcomerOrdersAndGivesUp :
    let js := fun (order : JoinOrder) (attempts hold : Nat) =>
      atEnd (joinerAt order attempts hold 0 (inState .joining dev))
    ((js .none 63 1).atCycleEnd ∧ (js .none 63 1).codec.frameIx = 160 ∧ (js .none 63 1).early.joinDecided = false ∧
      (js .none 63 1).early.jump = none ∧ free.nextPhase = none ∧
      (after .joinHoldExpiry (js .none 63 1)).pairing.newcomer.map (fun nc => nc.order) = some .join) ∧
    (after .joinAttemptsExhausted (js .join 64 0)).station.state = .idle ∧
    orderAfter (js .none 63 1) = some (.join, 0) ∧ orderAfter (js .none 63 2) = some (.none, 1) ∧
    orderAfter (js .none 63 0) = some (.none, 0) ∧ orderAfter (js .join 63 0) = some (.none, 2) ∧
    (after (.cycleEnd .deadlineFirst) (js .join 64 0)).flagSet .pairTimeout ∧
    orderAfter (atEnd (ordered .join confirming)) = some (.confirm, 0) := by decide +kernel

/-- A newcomer whose hold a row has run out keeps its JOIN order at the CYCLE_END that follows (assumption log 6). -/
theorem test_meets_NewcomerOrdersAndGivesUp_decided :
    let s := after .joinHoldExpiry (atEnd (joinerAt .none 63 1 0 (inState .joining dev)))
    State.endsCycle s free ∧ s.early.joinDecided = true ∧ orderAfter s = some (.join, 0) ∧
      (after (.cycleEnd .stateFirst) s).early = State.reset.early := by decide +kernel

/-! ### The call -/

theorem test_meets_CallCommandsTakeAndEndTheRole_bear :
    (after .bearCall (asked dev)).port.reply = [0x01] ∧ (after .bearCall busyMember).port.reply = [0x01] ∧
      (after .bearCall (asked (withPeers [{ peer 5 1 with bearer := true }] (member 3 2)))).port.reply = [0x06] ∧
      (after .bearCall (asked (withPeers [{ peer 5 1 with bearer := true, state := .silent }] (member 3 2)))).bearer.state =
        .claiming := by decide +kernel

theorem test_meets_CallCommandsTakeAndEndTheRole_end :
    (after .endCall (asked (member 3 2))).port.reply = [0x01] ∧ (after .endCall busyMember).bearer.state = .ending ∧
      (after .endCall (asked (inRole .claiming (Claim.inState .holdoff) (member 3 2)))).bearer.state = .none := by
  decide +kernel

theorem test_meets_AudioTransfersMoveSamples_begin :
    (after (.writeDownlink 1) (asked (member 3 2))).port.reply = [0x01] ∧
      (after (.writeDownlink 0) busyMember).port.reply = [0x08] ∧
      (after (.writeDownlink 641) busyMember).port.reply = [0x08] ∧
      (after (.writeDownlink 1) busyMember).port.transfer = .downlink 1 ∧
      (after (.writeDownlink 640) busyMember).port.transfer = .downlink 640 ∧
      (after (.readUplink 641) busyMember).port.reply = [0x08] ∧
      (after (.readUplink 640) busyMember).port.reply = [0, 0x80, 0] ∧
      (after (.readUplink 0) (asked dev)).port.transfer = .uplink 0 := by decide +kernel

/-- A bearer in CLAIMING with a transfer in progress and this many samples in each queue. -/
def moving (x : Transfer) (fill : Nat) : State :=
  { member 3 2 with
      port := { dev.port with phase := .taken, transfer := x }
      bearer := { dev.bearer with
        state := .claiming, downlink := List.replicate fill 5#16, uplink := List.replicate fill 6#16 } }

theorem test_meets_AudioTransfersMoveSamples :
    (moving (.downlink 1) 639).hold = none ∧
      (after (.downlinkSample 9) (moving (.downlink 1) 639)).bearer.downlink.length = 640 ∧
      (after (.downlinkSample 9) (moving (.downlink 1) 640)).flagSet .downlinkOverrun ∧
      (after (.downlinkSample 9) { moving (.downlink 1) 0 with bearer := Bearer.gone }).bearer.downlink = [] ∧
      after (.downlinkSample 9) (moving (.downlink 0) 3) = moving (.downlink 0) 3 ∧
      after (.downlinkSample 9) (moving .none 3) = moving .none 3 ∧
      (after .uplinkSamplePosition (moving (.uplink 1) 1)).port.reply = [0, 6] ∧
      (after .uplinkSamplePosition (moving (.uplink 1) 0)).port.reply = [0, 0] ∧
      (after .uplinkSamplePosition (moving (.uplink 0) 3)).bearer.uplink.length = 3 := by decide +kernel

/-- A take at a fill. -/
def takeAt (primed : Bool) (fill : Nat) : State :=
  ({ dev with bearer := { dev.bearer with
      primed := primed, holdSample := 77#16, downlink := (List.range fill).map (BitVec.ofNat 16) } } : State).makeTake

theorem test_meets_CycleEndPreparesThePayloads :
    (takeAt false 239).bearer.lastTake = .hush ∧ (takeAt false 240).bearer.downlink.length = 80 ∧
      (takeAt true 0).bearer.holdSample = 77#16 ∧ (takeAt true 159).bearer.underrun = true ∧
      (takeAt true 160).bearer.downlink.length = 1 ∧ (takeAt true 239).bearer.holdSample = 158#16 ∧
      (takeAt true 240).bearer.holdSample = 159#16 ∧ (takeAt true 400).bearer.downlink.length = 240 ∧
      (takeAt true 401).bearer.downlink.length = 240 ∧ (takeAt true 401).bearer.holdSample = 159#16 := by
  decide +kernel

/-- A bearer at a cycle end with a far-end claim in a state and this many downlink samples. -/
def takingAt (f : Claim) (b : BearerState) (fill : Nat) : State :=
  let s := atEnd (inRole b f (member 3 2))
  { s with bearer := { s.bearer with downlink := List.replicate fill 5#16, lastTake := .frame } }

/-- A member of wearer 2 at a cycle end with partner 5, muted by the line of either. -/
def mutedAt (own partner : Bool) : State :=
  let s := atEnd (withPeers [{ peer 5 2 with lineMute := partner }] (member 3 2))
  { s with mute := { s.mute with debounced := own } }

theorem test_meets_CycleEndPreparesThePayloads_cycle_end :
    let t := after (.cycleEnd .stateFirst)
    let ten := { claimOf .tentative (some 4) with cycles := 7 }
    (State.endsCycle (takingAt ten .claiming 240) free ∧ (takingAt ten .claiming 240).chan.late = [] ∧
      (takingAt ten .claiming 240).peersOk ∧ (mutedAt false true).peersOk ∧
      admitted (member 3 2).station.creds (mutedAt false true).countedPeers 2 = [3, 5]) ∧
    (t (takingAt (claimOf .confirmed (some 4)) .bearing 240)).bearer.downlink.length = 80 ∧
    (t (takingAt (claimOf .confirmed (some 4)) .bearing 239)).bearer.lastTake = .hush ∧
    (t (takingAt { ten with conflict := true } .claiming 240)).bearer.lastTake = .none ∧
    (t (takingAt { ten with conflict := true } .claiming 240)).bearer.downlink.length = 240 ∧
    (t (takingAt (claimOf .releasing (some 4)) .ending 240)).bearer.lastTake = .none ∧
    (t (mutedAt false false)).chan.voicePayload = .frame (encodeFrame silence) ∧
    (t (mutedAt true false)).chan.voicePayload = .hush ∧ (t (mutedAt false true)).chan.voicePayload = .hush ∧
    (t (atEnd (inState .leaving (member 3 2)))).chan.voicePayload = .none := by decide +kernel

theorem test_meets_ExactlyOneOfTwoBearersYields :
    let s := inRole .bearing (claimOf .confirmed (some 5)) (member 3 2)
    let t := inRole .claiming (Claim.inState .waiting) (member 4 1)
    let b := { voiceFrom 3 2 0 with bearer := true }
    let d := { voiceFrom 4 1 0 with bearer := true }
    s.bearer.state = .bearing ∧ t.bearer.state = .claiming ∧ s.station.creds.number ≠ t.station.creds.number ∧
      b.sender = s.station.creds.number ∧ d.sender = t.station.creds.number ∧ b.age.toNat = s.bearer.age ∧
      d.age.toNat = t.bearer.age ∧ t.losesElection b = true ∧ s.losesElection d = false := by decide +kernel

/-- A bearer of age 4 under number 3 in slot `k`, and a burst of another with an age. -/
def electing (k : Nat) : State :=
  let s := inSlot k (inRole .bearing (claimOf .confirmed (some 5)) (member 3 2))
  { s with bearer := { s.bearer with age := 4 } }

def bearerVoice (n : StationNo) (age : Byte) : Burst := { voiceFrom n 1 13 with bearer := true, age := age }

def bearerOffer : Burst := { openOffer 9 with bearer := true, age := 5 }

theorem test_meets_ExactlyOneOfTwoBearersYields_reception :
    hearsBurst (electing 13) 13 8125 (bearerVoice 2 4) ∧ (bearerVoice 2 4).inStepAt free 13 8125 ∧
      hearsBurst (electing 13) 13 8149 (bearerVoice 4 4) ∧ hearsBurst (electing 13) 13 8101 (bearerVoice 9 5) ∧
      hearsBurst (electing 15) 15 9375 bearerOffer ∧ bearerOffer.inStepAt free 15 9375 :=
  ⟨hears_of (by decide +kernel), inStep_of (by decide +kernel), hears_of (by decide +kernel), hears_of (by decide +kernel),
    hears_of (by decide +kernel), inStep_of (by decide +kernel)⟩

theorem test_election_at_a_reception :
    let late := after (.slotEnd .cycleEndFirst [airAt 9375 bearerOffer]) (electing 15)
    let e := atEnd (electing 15)
    let q : State := { e with chan := { e.chan with late := [.electionYield] } }
    (hear 8125 (bearerVoice 2 4) (electing 13)).bearer = Bearer.gone ∧
      (hear 8125 (bearerVoice 2 4) (electing 13)).flagSet .bearerConflict ∧
      (hear 8149 (bearerVoice 4 4) (electing 13)).bearer = (electing 13).bearer ∧
      (hear 8101 (bearerVoice 9 5) (electing 13)).farEnd = Claim.gone ∧
      (hear 9375 bearerOffer (electing 15)).bearer = Bearer.gone ∧ late.bearer = (electing 15).bearer ∧
      late.chan.late = [.electionYield] ∧ State.endsCycle q free ∧
      (after (.cycleEnd .stateFirst) q).bearer = Bearer.gone ∧
      (after (.cycleEnd .deadlineFirst) q).flagSet .bearerConflict := by decide +kernel

/-! ### The bond store -/

theorem test_meets_StoreCommandsFollowTheirChecks :
    (after (.lockBond 9 16) (idleOver [])).port.reply = [0x08] ∧
      (after (.retireBond 9 15) (flying .lock 0 (idleOver [placeOf .valid 1]))).port.reply = [0x02] ∧
      (after (.eraseBond 9 0) (idleOver [{ placeOf .valid 1 with locked := true }])).port.reply = [0x04] ∧
      (after (.lockBond 9 0) (idleOver [{ placeOf .valid 1 with locked := true }])).port.reply = [0x05] ∧
      (after (.lockBond 9 0) (idleOver [placeOf .valid 1])).store.flight =
        some { op := .lock, place := 0, start := 9 } ∧
      (after (.retireBond 9 0) (idleOver [placeOf .opened 1])).store.state = .busy ∧
      (after (.eraseBond 9 0) (idleOver [placeOf .valid 1])).port.reply = [0x05] ∧
      (after .clearFault (idleOver [])).port.reply = [0x00] ∧
      (after .clearFault (flying .lock 0 (idleOver []))).port.reply = [0x02] := by decide +kernel

/-- A store with an operation in flight on place 1 of a VALID, an OPEN and another OPEN place. -/
def operating (op : StoreOp) : State :=
  flying op 1 (withPlaces (places [placeOf .valid 1, placeOf .opened 2, placeOf .opened 3]) dev)

theorem test_meets_StoreOperationsEndAndProgramsReadBack :
    (operating .retire).hold = none ∧
      (placeAt (after .retireDone (operating .retire)).store.places 1).state = .retired ∧
      (placeAt (after .lockDone (operating .lock)).store.places 1).locked = true ∧
      (after .eraseDone (operating .erase)).now = 80100 ∧
      (after .erasePartDone (operating (.eraseProgram (bondOf 9) false))).store.flight =
        some { op := .eraseProgram (bondOf 9) true, place := 1, start := 100 } ∧
      (((operating .scanRetire).store.copy.set 1 { placeOf .opened 2 with state := .retired }).findIdx? fun q =>
        q.state == .opened) = some 2 ∧
      (after .scanRetireDone (operating .scanRetire)).store.flight =
        some { op := .scanRetire, place := 2, start := 1100 } := by decide +kernel

theorem test_meets_StoreOperationsEndAndProgramsReadBack_scan :
    let s := flying .scanRetire 15 (withPlaces (List.replicate 15 Place.blank ++ [placeOf .opened 2]) dev)
    (∀ q ∈ s.store.copy.set 15 { placeAt s.store.places 15 with state := .retired }, q.state ≠ .opened) ∧
      (after .scanRetireDone s).flagSet .storeDone := by decide +kernel

theorem test_meets_StoreOperationsEndAndProgramsReadBack_program :
    (operating (.program (bondOf 9))).hold = none ∧
      (placeAt (after (.programDone none) (operating (.program (bondOf 9)))).store.places 1).state = .valid ∧
      (placeAt (after (.programDone (some (bondOf 8))) (operating (.program (bondOf 9)))).store.places 1).state =
        .opened ∧
      (after (.programDone (some (bondOf 9))) (operating (.eraseProgram (bondOf 9) true))).now = 86100 := by
  decide +kernel

/-- A store with a pending write. -/
def waitingOver (ps : List Place) : State :=
  let s := withPlaces ps dev
  { s with store := { s.store with state := .busy, waiting := some { group := 1#24, number := 1, wearer := 0 } } }

theorem test_meets_PendingWriteIsPlaced :
    (waitingOver (places [])).hold = none ∧ (waitingOver (places [])).store.flight = none ∧
      (firstIn .erased (places [])) = some 0 ∧
      (after .pendingWriteStart (waitingOver (List.replicate 15 (placeOf .valid 65535) ++
        [placeOf .retired 4]))).store.flight =
        some { op := .eraseProgram { group := 1#24, station := 1, wearer := 0, seq := 65535#16 } false, place := 15,
               start := 0 } ∧
      (after .pendingWriteStart (waitingOver (List.replicate 16 (placeOf .valid 1)))).store.cause = .full := by
  decide +kernel

theorem test_meets_LockedBondsStay :
    let s : State := { withPlaces (places [{ placeOf .valid 1 with locked := true }]) dev with
      pending := [.powerOnReset { noCut with took := true }] }
    s.bondsOk ∧ (placeAt s.store.places 0).locked = true ∧ steps s = true := by decide +kernel

/-! ### The mute input, the codec port, the group channel -/

/-- A mute input with a debounce code and a timer. -/
def muteAt (code : BitVec 2) (expiry : Option Nat) : State :=
  { dev with config := { dev.config with debounce := code }, mute := { dev.mute with expiry := expiry } }

theorem test_meets_MuteLineIsDebounced :
    (muteAt 2 (some 90)).hold = none ∧ (after (.muteLineChange 50) (muteAt 2 (some 90))).mute.expiry = none ∧
      (after (.muteLineChange 50) (muteAt 0 none)).mute.debounced = true ∧
      (after (.muteLineChange 50) (muteAt 1 none)).mute.expiry = some 4050 ∧
      (after (.muteLineChange 50) (muteAt 2 none)).mute.expiry = some 16050 ∧
      (after (.muteLineChange 50) (muteAt 3 none)).mute.expiry = some 64050 ∧
      (after .debounceExpiry (muteAt 2 (some 90))).now = 90 := by decide +kernel

/-- CDIN with a sample in the first 16 bit clocks at the rising edges, everything else high. -/
def cdinOf (v : Sample) : CdinLevels := { onRising := v ++ 0xFFFF#16, onFalling := 0xFFFFFFFF#32 }

theorem test_meets_SampleFramesMoveOneSampleEachWay :
    let s : State := { inCycle free dev with codec := { dev.codec with frameIx := 159 } }
    s.hold = none ∧ s.timer.cycle = some free ∧ s.codec.frameIx < 160 ∧ free.respaced = [] ∧
      (after (.sampleFrameStart (cdinOf 0x8001#16)) s).codec.capture.getD 159 0 = 0x8001#16 ∧
      (after (.sampleFrameStart (cdinOf 12#16)) s).now = 9937 := by decide +kernel

/-- The microphone sample and the lines in a sample frame, in the format of the defaults and in the reverse one (R33). -/
theorem test_meets_SampleFramesMoveOneSampleEachWay_lines :
    let s : State := { inCycle free dev with codec := { dev.codec with playout := List.replicate 160 0xC001#16 } }
    let r : State := { s with codec := { s.codec with syncLow := true, edgeReversed := true } }
    let d : CdinLevels := { onRising := 0x1234FFFF#32, onFalling := 0xFEDC0000#32 }
    let f := after (.sampleFrameStart d)
    let low := List.replicate 31 false
    ((f s).hold = none ∧ (f s).timer.cycle ≠ none ∧ (f s).codec.shifting = some 0xC001#16) ∧
    ((f s).codec.capture.getD 0 0 = 0x1234#16 ∧ (f r).codec.capture.getD 0 0 = 0xFEDC#16) ∧
    ((f s).cfsyLevels = true :: low ∧ (f r).cfsyLevels = (true :: low).map not) ∧
    (f s).cdoutBits = [true, true] ++ List.replicate 13 false ++ [true] ++ List.replicate 16 false ∧
    ((f s).cbckHeld = none ∧ (f s).cdoutOnRising = false ∧ (f r).cdoutOnRising = true) := by decide +kernel

/-- The lines while the timer is stopped, while the device is held in reset, and after the last sample frame of a cycle. -/
theorem test_meets_SampleFramesMoveOneSampleEachWay_rest :
    let off := fun s : State => decide (s.cfsyLevels = List.replicate 32 s.codec.syncLow) &&
      decide (s.cdoutBits = List.replicate 32 false) && s.cbckHeld.isSome
    let shifts : State := { inCycle free dev with codec := { dev.codec with shifting := some 0xC001#16, syncLow := true } }
    off State.reset ∧ off { shifts with timer := State.reset.timer } ∧ off { shifts with hold := some .rstn } ∧
      off (after (.cycleEnd .stateFirst) (atEnd shifts)) ∧ off shifts = false := by decide +kernel

/-- The bit clocks of sample frames of 62 and 63 ticks, in 32nds of a tick. -/
theorem test_meets_SampleFramesMoveOneSampleEachWay_clocks :
    free.sampleStart 1 ≤ free.sampleStart 2 ∧ free.bitClockStart 0 1 = 62 ∧ free.bitClockStart 1 0 = 32 * 62 ∧
      free.bitClockStart 1 31 = 32 * 62 + 31 * 63 ∧ free.bitClockStart 159 32 = 320000 := by decide +kernel

/-- A cycle aligned twice: the sample frames started under the first re-spacing keep their places (R32). -/
theorem test_frames_of_a_cycle_aligned_twice :
    let c := free.endAt 3000 9000 none
    let d := c.endAt 5000 12000 none
    free.framesStarted 3000 = 48 ∧ c.sampleStart 47 = 2937 ∧ c.sampleStart 48 = 3000 ∧ c.sampleStart 160 = 9000 ∧
      c.framesStarted 5000 = 86 ∧ d.sampleStart 47 = 2937 ∧ d.sampleStart 50 = c.sampleStart 50 ∧
      d.sampleStart 86 = 5000 ∧ d.sampleStart 160 = 12000 := by decide +kernel

/-- A member in slot `k` whose voice claim and far-end claim stand so. -/
def withClaims (v f : Claim) (b : BearerState) (s : State) : State := inRole b f { s with voice := v }

theorem test_meets_SlotStartSendsWhatTheRecordsOrder :
    let voice := withClaims (claimOf .tentative (some 13)) (claimOf .confirmed (some 0)) .bearing (member 3 2)
    let leaving := withClaims { claimOf .releasing (some 13) with cycles := 1 } (claimOf .releasing (some 0)) .ending
      (member 3 2)
    let payload := encodeFrame silence
    let loud : State := { voice with chan := { voice.chan with voicePayload := .frame payload, farPayload := some payload } }
    let offer : State := { offered with timer := { offered.timer with counter := 0#32 }, pairing := { offered.pairing with
      offer := offered.pairing.offer.map fun o => { o with sent := false } } }
    (voice.claimsOk ∧ voice.windowOk ∧ leaving.claimsOk ∧ leaving.windowOk ∧ offer.claimsOk ∧ offer.windowOk ∧
      joining.windowOk) ∧
    ((voice.transmitOrder 13).map fun b => (b.kind, b.hush)) = some (.voice, true) ∧
    ((voice.transmitOrder 0).map fun b => (b.kind, b.hush)) = some (.farend, true) ∧
    ((loud.transmitOrder 13).map fun b => (b.kind, b.body)) = some (.voice, .frame payload) ∧
    ((loud.transmitOrder 0).map fun b => (b.kind, b.bearer)) = some (.farend, true) ∧ voice.transmitOrder 5 = none ∧
    ((leaving.transmitOrder 13).map fun b => b.kind) = some .leave ∧ leaving.transmitOrder 0 = none ∧
    ((joining.transmitOrder 14).map fun b => b.kind) = some .join ∧
    ((confirming.transmitOrder 14).map fun b => b.group) = some 0x51A0C3#24 ∧ (member 3 2).transmitOrder 14 = none ∧
    ((offer.transmitOrder 15).map fun b => (b.kind, b.pairingOpen)) = some (.offer, true) ∧
    offered.transmitOrder 15 = none := by decide +kernel

theorem test_meets_SlotStartSendsWhatTheRecordsOrder_slot_start :
    let s := beforeSlot 13 { member 3 2 with voice := claimOf .tentative (some 13) }
    let j := beforeSlot 14 (joinerAt .join 1 0 0 (inState .joining dev))
    let o : State := { beforeSlot 15 offered with timer := { (beforeSlot 15 offered).timer with counter := 0#32 }, pairing :=
      { offered.pairing with offer := offered.pairing.offer.map fun o => { o with sent := false } } }
    s.hold = none ∧ s.timer.cycle = some free ∧ s.chan.inSlot = false ∧ s.chan.nextSlot = (13 : SlotIx).val ∧
      s.transmitOrder 13 = some { voiceFrom 3 2 13 with heardMap := List.replicate 16 0 } ∧
      (beforeSlot 0 (member 3 2)).transmitOrder 0 = none ∧
      (after .slotStart s).chan.sent.map (fun x => (x.start, x.finish)) = some (8125, 8163) ∧
      (after .slotStart j).pairing.newcomer.map (fun nc => nc.attempts) = some 2 ∧
      (after .slotStart o).pairing.offer.map (fun o => o.sent) = some true := by decide +kernel

theorem test_meets_SlotsLieOnTheGridAndBurstsFallInThem :
    free.kind = .ordinary ∧ free.nextPhase = none ∧ free.start + 9994 ≤ free.planned ∧
      fallsIn free (.burst 601 639 []) = some 1 ∧ fallsIn free (.burst 600 630 []) = some 1 ∧
      fallsIn free (.burst 649 687 []) = some 1 ∧ fallsIn free (.burst 587 625 []) = some 0 ∧
      fallsIn free (.burst 588 626 []) = some 1 ∧ fallsIn free (.burst 9976 10014 []) = some 16 ∧
      fallsIn free (.burst 9962 10000 []) = some 15 := by decide +kernel

/-- The jump cycles of R3 of 5,000 and of 12,000 ticks, and the cycle in progress of Table 2-4 with its following one. -/
theorem test_meets_SlotsLieOnTheGridAndBurstsFallInThem_jump :
    let short := jumpCycle .stepJump 20000 25000
    let long := jumpCycle .stepJump 20000 32000
    let b := free.align 6000 8125
    short.kind ≠ .ordinary ∧ short.gridInstant = short.start ∧ short.firstSlot = 8 ∧ short.slotStart 8 = 20000 ∧
      short.occurs 7 = false ∧ long.firstSlot = 0 ∧ long.slotStart 0 = 22000 ∧ long.slotEnd 15 = 32000 ∧
      inLeadIn long (.burst 21999 22040 []) = true ∧ inLeadIn long (.burst 22000 22040 []) = false ∧
      fallsIn long (.burst 21976 22014 []) = some 0 ∧ fallsIn long (.burst 21900 21938 []) = none ∧
      fallsIn long (.burst 22100 22138 []) = some 0 ∧ fallsIn long (.burst 31980 32018 []) = some 16 ∧
      b.planned = 8750 ∧ b.nextPhase = some 6000 ∧ b.firstSlot = 15 ∧ b.slotStart 15 = 8125 ∧
      fallsIn b (.burst 9101 9139 []) = some 16 ∧ fallsIn b (.burst 8760 8798 []) = none ∧
      { jumpCycle .stepJump 0 500 with gridInstant := 400 }.firstSlot = 16 := by decide +kernel

/-- A cycle of a step jump whose lead-in is 10000..10160, and its slot 6. -/
def jumped (s : State) : State :=
  let c := jumpCycle .stepJump 10000 16410
  { s with timer := { s.timer with cycle := some c }, chan := { s.chan with nextSlot := 6, inSlot := true } }

/-- A listener whose receiver was on 0..1900 and is on again from 1950, in slot 3. -/
def restarted : State :=
  let on := asked (inSlot 3 (inState .listen (withPlaces (places [placeOf .valid 1]) dev)))
  let off := asked (after (.stop 1900) on)
  after (.start 0 1950) off

/-- A burst of another group. -/
def foreignAt (k : SlotIx) : Burst := { voiceFrom 9 0 k with group := 7#24 }

theorem test_entries_of_a_receiver_turned_off_and_on :
    restarted.station.state = .listen ∧ restarted.chan.onSince = 1950 ∧ restarted.chan.cutSpans = [(0, 1900)] ∧
      entryAfter 3 [airAt 1899 (foreignAt 3)] restarted = .unknown ∧
      entryAfter 3 [airAt 1900 (foreignAt 3)] restarted = .empty ∧
      entryAfter 3 [airAt 1950 (foreignAt 3)] restarted = .foreign ∧
      entryAfter 3 [airAt 1880 (foreignAt 3), airAt 1960 (foreignAt 3)] restarted = .unknown ∧
      entryAfter 3 [] restarted = .empty := by decide +kernel

theorem test_entries_of_a_lead_in :
    entryAfter 6 [airAt 10159 (voiceFrom 1 0 6)] (jumped (member 3 2)) = .unknown ∧
      entryAfter 6 [airAt 10160 (voiceFrom 1 0 6)] (jumped (member 3 2)) = .own 1 ∧
      entryAfter 6 [airAt 9999 (voiceFrom 1 0 6)] (jumped (member 3 2)) = .empty ∧
      (hear 10159 (voiceFrom 1 0 6) (jumped (member 3 2))).peers = [] := by decide +kernel

theorem test_meets_SlotEndWritesTheEntry :
    let s := { inSlot 13 { member 3 2 with voice := claimOf .confirmed (some 13) } with
      chan := { (inSlot 13 dev).chan with sentInSlot := true } }
    (s.hold = none ∧ s.chan.inSlot = true ∧ s.pairing.offer = none ∧ s.claimsOk ∧ s.voice.leaves 13 = false ∧
      s.pairing.newcomer = none ∧ entryAfter 13 [] s = .mine) ∧
    ((inSlot 15 (inState .idle dev)).station.state = .idle ∧ (inSlot 15 dev).chan.sentInSlot = false ∧
      entryAfter 15 [airAt 9375 (voiceFrom 1 0 15)] (inSlot 15 (inState .idle dev)) = .unknown) ∧
    (fallsIn free (airAt 601 (voiceFrom 1 0 1)) = some 1 ∧
      entryAfter 0 [airAt 601 (voiceFrom 1 0 1)] (inSlot 0 (member 3 2)) = .empty) ∧
    (fallsIn free (airAt 1899 (foreignAt 3)) = some 3 ∧ overlapsSent restarted.chan.sent (airAt 1899 (foreignAt 3)) = false ∧
      beforeJump free (airAt 1899 (foreignAt 3)) = false) ∧
    entryAfter 6 [.energy 3800] (station3 6) = .corrupt ∧
    entryAfter 6 [airAt 3750 (voiceFrom 1 0 6), airAt 3800 (voiceFrom 2 0 6)] (station3 6) = .corrupt := by decide +kernel

theorem test_meets_SlotEndWritesTheEntry_clean :
    hearsBurst (station3 6) 6 3750 (foreignAt 6) ∧ hearsBurst (station3 6) 6 3775 (voiceFrom 1 0 6) ∧
      ¬(voiceFrom 1 0 6).inStepAt free 6 3775 ∧ hearsBurst (station3 6) 6 3750 (voiceFrom 1 0 7) ∧
      ¬(voiceFrom 1 0 7).inStepAt free 6 3750 ∧ hearsBurst (inState .leaving (station3 6)) 6 3775 (voiceFrom 1 0 6) ∧
      hearsBurst (inSlot 6 (inState .joining dev)) 6 3750 (voiceFrom 1 0 6) :=
  ⟨hears_of (by decide +kernel), hears_of (by decide +kernel), fun h => absurd h.2.2 (by decide),
    hears_of (by decide +kernel), fun h => absurd h.1 (by decide), hears_of (by decide +kernel),
    hears_of (by decide +kernel)⟩

/-- Slot 14 with the own offer outstanding since this cycle, and slot 15 after that offer has gone out. -/
def offering (k : Nat) (sent : Bool) : State :=
  let s := inSlot k { offered with timer := { offered.timer with counter := 0#32 } }
  { s with chan := { s.chan with sentInSlot := sent } }

theorem test_meets_SlotEndWritesTheEntry_offers :
    hearsBurst pairingAt 14 8775 (joinOf .newWearer) ∧ ¬(joinOf .newWearer).inStepAt free 14 8775 ∧
      hearsBurst joining 15 9400 (offerTo 0x3C719E2405A1#48) ∧ ¬(offerTo 0x3C719E2405A1#48).inStepAt free 15 9400 ∧
      hearsBurst offered 14 8750 (joinOf .newWearer) ∧ hearsBurst (offering 14 false) 14 8750 (confirmOf 3 2) :=
  ⟨hears_of (by decide +kernel), fun h => absurd h.2.2 (by decide), hears_of (by decide +kernel),
    fun h => absurd h.2.2 (by decide), hears_of (by decide +kernel), hears_of (by decide +kernel)⟩

/-- Out of step a JOIN at a member and an OFFER at a newcomer are FOREIGN and change nothing; a JOIN that finds an offer is
ignored; the own OFFER's slot is MINE and keeps the offer, which lapses at slot 14 of the next cycle alone. -/
theorem test_entries_of_slots_of_an_offer :
    let closes := fun (air : List AirItem) => after (.slotEnd .receptionFirst air)
    let o := offering 15 true
    entryAfter 14 [airAt 8775 (joinOf .newWearer)] pairingAt = .foreign ∧
      (hear 8775 (joinOf .newWearer) pairingAt).pairing = pairingAt.pairing ∧
      entryAfter 15 [airAt 9400 (offerTo 0x3C719E2405A1#48)] joining = .foreign ∧
      (hear 9400 (offerTo 0x3C719E2405A1#48) joining).pairing = joining.pairing ∧
      entryAfter 14 [airAt 8750 (joinOf .newWearer)] offered = .foreign ∧
      (hear 8750 (joinOf .newWearer) offered).pairing = offered.pairingAfter 14 ∧
      (hear 8750 (confirmOf 3 2) (offering 14 false)).pairing = offered.pairing ∧
      (o.claimsOk ∧ o.voice.leaves 15 = false ∧ entryAfter 15 [] o = .mine ∧ (closes [] o).pairing = o.pairing) := by
  decide +kernel

theorem test_entries_of_clean_bursts :
    entryAfter 6 [airAt 3750 (foreignAt 6)] (station3 6) = .foreign ∧
      entryAfter 6 [airAt 3775 (voiceFrom 1 0 6)] (station3 6) = .stray ∧
      entryAfter 6 [airAt 3774 (voiceFrom 1 0 6)] (station3 6) = .own 1 ∧
      entryAfter 6 [airAt 3750 (voiceFrom 1 0 7)] (station3 6) = .stray ∧
      (hear 3775 (voiceFrom 1 0 6) (inState .leaving (station3 6))).timer.log = [] ∧
      entryAfter 6 [airAt 3750 (voiceFrom 1 0 6)] (inSlot 6 (inState .joining dev)) = .foreign := by decide +kernel

/-- An item that falls in a later slot is held for it, over the cycle end where that is the next cycle's first slot, and
gives its slot's entry there; one that falls in no slot to come is held no longer. -/
theorem test_items_are_held_for_their_slot :
    let x := airAt 9995 (voiceFrom 1 0 0)
    let s := after (.slotEnd .receptionFirst [airAt 9360 (voiceFrom 1 0 1), x]) (inSlot 15 (member 3 2))
    let t := after (.cycleEnd .deadlineFirst) (holding x (atEnd (member 3 2)))
    let u := after (.slotEnd .receptionFirst []) (after .slotStart t)
    (member 3 2).itemsOf free 15 [airAt 9360 (voiceFrom 1 0 1), x] = [airAt 9360 (voiceFrom 1 0 1)] ∧
      fallsIn free x = some 16 ∧ s.chan.held = [x] ∧ t.chan.held = [x] ∧ u.views.filling.getD 0 .unknown = .own 1 ∧
      u.chan.held = [] ∧ (after (.slotEnd .receptionFirst []) (holding x (inSlot 3 (member 3 2)))).chan.held = [x] := by
  decide +kernel

/-- A member in slot 13 with this many peers, from number 4 on, in a state. -/
def crowd (n : Nat) (st : PeerState) : State :=
  inSlot 13 (withPeers ((List.range n).map fun i => { peerIn st (Fin.ofNat 32 (i + 4)) 0 with missed := 7 }) (member 3 2))

theorem test_meets_FirstBurstCreatesAPeer :
    hearsBurst (crowd 14 .active) 13 8101 (voiceFrom 30 1 13) ∧ (voiceFrom 30 1 13).inStepAt free 13 8101 ∧
      hearsBurst (crowd 15 .silent) 13 8149 (voiceFrom 30 1 13) ∧ (voiceFrom 30 1 13).inStepAt free 13 8149 ∧
      hearsBurst (crowd 15 .lost) 13 8125 { voiceFrom 30 1 13 with kind := .farend, bearer := true } :=
  ⟨hears_of (by decide +kernel), inStep_of (by decide +kernel), hears_of (by decide +kernel), inStep_of (by decide +kernel),
    hears_of (by decide +kernel)⟩

theorem test_meets_FirstBurstCreatesAPeer_held :
    let x := airAt 8125 (voiceFrom 30 1 13)
    hearsAmong [] (holding x (crowd 14 .active)) 13 8125 (voiceFrom 30 1 13) ∧
      hearsAmong [airAt 8760 (joinOf .newWearer)] (holding x (inState .leaving (crowd 14 .active))) 13 8125
        (voiceFrom 30 1 13) ∧
      hearsBurst (inState .leaving (crowd 3 .active)) 13 8125 { voiceFrom 30 1 13 with kind := .leave, hush := false } ∧
      hearsBurst (inSlot 15 (crowd 3 .active)) 15 9375 (openOffer 1) :=
  ⟨hears_of (by decide +kernel), hears_of (by decide +kernel), hears_of (by decide +kernel), hears_of (by decide +kernel)⟩

/-- In LEAVING a first burst creates as in MEMBER, also one held since an earlier slot; a LEAVE or OFFER creates nothing.
With or without an entry the outcome is stored and both claims read the heard map. -/
theorem test_first_burst_leaving_held_and_without_entry :
    let claims := fun s : State => { s with
      voice := claimOf .confirmed (some 0), farEnd := claimOf .tentative (some 1)
      bearer := { s.bearer with state := .claiming } }
    let b : Burst := { voiceFrom 30 1 13 with heardMap := 3 :: 9 :: List.replicate 14 0 }
    let x := airAt 8760 (joinOf .newWearer)
    let l := after (.slotEnd .receptionFirst [x]) (holding (airAt 8125 b) (inState .leaving (crowd 14 .active)))
    let f := hear 8125 b (claims (crowd 15 .active))
    let d := hear 8125 { b with kind := .leave, hush := false } (claims (crowd 3 .active))
    let o := hear 9375 (openOffer 1) (inSlot 15 (crowd 3 .active))
    ((findPeer 30 l.peers).isSome ∧ l.flagSet .peerNew ∧ l.chan.held = [x] ∧ l.timer.log = []) ∧
      (f.peers = (crowd 15 .active).peers ∧ f.flagSet .peerTableFull ∧ rxLookup 30 false f.streams.list = some .hush ∧
        f.voice.clean = true ∧ f.farEnd.conflict = true) ∧
      (d.peers = (crowd 3 .active).peers ∧ d.flags = (crowd 3 .active).flags ∧ d.streams.list = [] ∧
        d.voice.clean = true ∧ d.farEnd.conflict = true) ∧
      o.peers = (crowd 3 .active).peers ∧ o.flagSet .peerNew = false ∧ o.streams = (crowd 3 .active).streams := by
  decide +kernel

theorem test_first_burst_creates_a_peer :
    (∀ p ∈ (crowd 15 .lost).peers, p.number ≠ 30) ∧ (crowd 15 .lost).peers.length = 15 ∧
      (findPeer 30 (hear 8101 (voiceFrom 30 1 13) (crowd 14 .active)).peers).map (fun p => p.offset) = some (-24) ∧
      (hear 8149 (voiceFrom 30 1 13) (crowd 15 .silent)).flagSet .peerTableFull ∧
      findPeer 4 (hear 8125 (voiceFrom 30 1 13) (crowd 15 .lost)).peers = none ∧
      (findPeer 5 (hear 8125 (voiceFrom 30 1 13) (crowd 15 .lost)).peers).isSome ∧
      (hear 8125 { voiceFrom 30 1 13 with kind := .farend, bearer := true } (crowd 15 .lost)).peers.map (fun p => p.farSlot)
        = List.replicate 14 none ++ [some 13] := by decide +kernel

/-- A member in slot 2 that has peer 7 with a far-end slot, follows it for wearer 1 and the far end, and holds slot 0. -/
def following : State :=
  let s := inSlot 2 (withPeers [{ peer 7 1 with voiceSlot := some 2, farSlot := some 2, bearer := true, missed := 3 }]
    { member 3 2 with voice := claimOf .confirmed (some 0) })
  let r := (StreamRec.withFrame StreamRec.reset (List.replicate 160 9#16) true 7 false)
  { s with streams := { s.streams with wearers := s.streams.wearers.set 1 r, farEnd := r } }

/-- A burst of peer 7 of a kind, with a bearer flag. -/
def fromSeven (kind : BurstKind) (bearer : Bool) : Burst :=
  { voiceFrom 7 1 2 with kind := kind, bearer := bearer, hush := kind != .leave, heardMap := 5 :: List.replicate 15 0 }

theorem test_meets_LaterBurstsRefreshOrRemoveTheEntry :
    hearsBurst following 2 1250 (fromSeven .voice true) ∧ (fromSeven .voice true).inStepAt free 2 1250 ∧
      hearsBurst following 2 1226 (fromSeven .farend false) ∧ (fromSeven .farend false).inStepAt free 2 1226 ∧
      hearsBurst following 2 1274 (fromSeven .leave true) ∧
      hearsBurst (inSlot 15 following) 15 9375
        { voiceFrom 7 1 15 with kind := .offer, body := .offer joinId 8 1, bearer := true } :=
  ⟨hears_of (by decide +kernel), inStep_of (by decide +kernel), hears_of (by decide +kernel), inStep_of (by decide +kernel),
    hears_of (by decide +kernel), hears_of (by decide +kernel)⟩

theorem test_later_bursts :
    let v := hear 1250 (fromSeven .voice true) following
    let f := hear 1226 (fromSeven .farend false) following
    let l := hear 1274 (fromSeven .leave true) following
    let w := hear 1274 (fromSeven .leave true) (withPeers [peer 7 1] following)
    ((findPeer 7 v.peers).map fun p => (p.voiceSlot, p.farSlot, p.missed)) = some (some 2, none, 0) ∧
      v.voice.conflict = true ∧ rxLookup 7 false v.streams.list = some .hush ∧
      ((findPeer 7 f.peers).map fun p => (p.voiceSlot, p.farSlot, p.offset)) = some (none, none, -24) ∧
      ((findPeer 7 l.peers).map fun p => (p.voiceSlot, p.farSlot)) = some (some 2, none) ∧
      l.streams.farEnd.state = .absent ∧ l.flagSet .farendDown ∧
      (l.streams.wearers.map fun r => r.source) = following.streams.wearers.map (fun r => r.source) ∧
      w.peers = [] ∧ w.flagSet .peerLeft ∧ (w.streams.wearers.map fun r => r.source) = List.replicate 8 none := by
  decide +kernel

/-- The records that follow another station stay at a LEAVE, and all of them at any other burst. -/
theorem test_records_of_other_stations_stay :
    let s : State := { following with streams := { following.streams with
      farEnd := { following.streams.farEnd with source := some 9 } } }
    let l := hear 1274 (fromSeven .leave true) s
    let v := hear 1250 (fromSeven .voice true) s
    let f := hear 1226 (fromSeven .farend false) following
    l.streams.farEnd = s.streams.farEnd ∧ l.flagSet .farendDown = false ∧ v.streams.farEnd = s.streams.farEnd ∧
      v.streams.wearers = s.streams.wearers ∧ f.streams.farEnd = following.streams.farEnd ∧
      f.streams.wearers = following.streams.wearers ∧ rxLookup 7 true f.streams.list = some .hush := by decide +kernel

/-- An OWN reception is counted with its arrival offset in MEMBER alone, and its sender is heard in LEAVING as well (R21,
R49). -/
theorem test_own_receptions_are_counted :
    let s : State := { following with timer := { following.timer with stepLoss := 1 } }
    let m := hear 1226 (fromSeven .voice false) s
    let l := hear 1226 (fromSeven .voice false) (inState .leaving s)
    m.timer = { s.timer with
      log := [{ inStep := true, sender := 7, offset := -24, arrival := 1226, slot := 2 }] } ∧
      m.chan.heard = [7] ∧ l.timer = s.timer ∧ l.chan.heard = [7] := by decide +kernel

/-- Marks of both claims at one reception: a conflict on the voice slot, a clean report on the far-end slot. -/
theorem test_marks_of_both_claims :
    let s := inRole .bearing (claimOf .confirmed (some 1)) following
    let t := hear 1250 { fromSeven .voice false with heardMap := 5 :: 3 :: List.replicate 14 0 } s
    let u := hear 1250 { fromSeven .voice false with heardMap := 5 :: 3 :: List.replicate 14 0 }
      { s with bearer := { s.bearer with state := .claiming }, farEnd := claimOf .tentative (some 1) }
    s.losesElection (fromSeven .voice false) = false ∧ t.voice.conflict = true ∧ t.voice.clean = false ∧
      t.farEnd.clean = true ∧ t.farEnd.conflict = false ∧ u.farEnd.clean = false := by decide +kernel

theorem test_meets_LeaveSlotEndsTheClaim :
    let s := withClaims { claimOf .releasing (some 13) with cycles := 1 } Claim.gone .none (inSlot 13 (member 3 2))
    let f := withClaims Claim.gone { claimOf .releasing (some 0) with cycles := 1 } .ending
      (inSlot 0 (inState .leaving (member 3 2)))
    let sent := fun u : State => { u with chan := { u.chan with sentInSlot := true } }
    (s.claimsOk ∧ f.claimsOk ∧ s.pairing.newcomer = none ∧ s.pairing.offer = none) ∧
      (after (.slotEnd .receptionFirst []) (sent s)).voice = Claim.gone ∧
      (after (.slotEnd .receptionFirst []) (sent f)).bearer = Bearer.gone := by decide +kernel

/-- Station 3, its voice claim in slot 4, in slot `k` of a clash. -/
def clashing (st : ClaimState) (k : Nat) : State := inSlot k { busyMember with voice := claimOf st (some 4) }

theorem test_meets_NumberClashKeepsOrYields :
    hearsBurst (clashing .confirmed 4) 4 2500 (voiceFrom 3 1 4) ∧ (voiceFrom 3 1 4).inStepAt free 4 2500 ∧
      hearsBurst (clashing .confirmed 3) 3 1875 (voiceFrom 3 1 3) ∧ hearsBurst (clashing .tentative 13) 13 8125
        (voiceFrom 3 1 13) ∧
      hearsBurst (clashing .tentative 15) 15 9375 { voiceFrom 3 1 15 with kind := .offer, body := .offer joinId 8 1 } :=
  ⟨hears_of (by decide +kernel), inStep_of (by decide +kernel), hears_of (by decide +kernel), hears_of (by decide +kernel),
    hears_of (by decide +kernel)⟩

theorem test_number_clash :
    (hear 2500 (voiceFrom 3 1 4) (clashing .confirmed 4)).station.state = .member ∧
      (hear 1875 (voiceFrom 3 1 3) (clashing .confirmed 3)).station.state = .idle ∧
      (hear 1875 (voiceFrom 3 1 3) (clashing .confirmed 3)).pairing.window.lastCause = .yielded ∧
      (hear 8125 (voiceFrom 3 1 13) (clashing .tentative 13)).bearer = Bearer.gone ∧
      (after (.slotEnd .cycleEndFirst [airAt 9375 { voiceFrom 3 1 15 with kind := .offer, body := .offer joinId 8 1 }])
        (clashing .tentative 15)).chan.late = [.clashYield] := by decide +kernel

/-- A clash that keeps the number, and one whose yield waits for the cycle end, read the heard map (R67). -/
theorem test_marks_at_a_clash :
    let b : Burst := { voiceFrom 3 1 4 with heardMap := [0, 0, 0, 0, 9, 3] ++ List.replicate 10 0 }
    let s : State := { clashing .confirmed 4 with
      farEnd := claimOf .confirmed (some 5), bearer := { busyMember.bearer with state := .bearing } }
    let k := hear 2500 b s
    let o : Burst := { b with kind := .offer, slot := 15, body := .offer joinId 8 1 }
    let y := after (.slotEnd .cycleEndFirst [airAt 9375 o]) (inSlot 15 { s with voice := claimOf .tentative (some 4) })
    k.voice.conflict = true ∧ k.farEnd.clean = true ∧ k.station.state = .member ∧ y.voice.conflict = true ∧
      y.farEnd.clean = true ∧ y.chan.late = [.clashYield] := by decide +kernel

/-- A bearer with an open window in this state at a cycle end, its own number heard in slot 15 after it. -/
def clashesLate (st : StationState) (ends left : Nat) : State :=
  let s := inState st (yieldsLate left [.clashYield])
  { s with station := { s.station with leavingEnds := ends } }

theorem test_meets_NumberClashKeepsOrYields_cycle_end :
    let t := after (.cycleEnd .stateFirst)
    let yields := fun s => decide ((t s).station.state = .idle) && decide ((t s).voice = Claim.gone) &&
      decide ((t s).farEnd = Claim.gone) && decide ((t s).bearer = Bearer.gone) && (t s).flagSet .numberClash &&
      (t s).flagSet .stateChanged && decide ((t s).chan.late = [])
    let jumps : State := keptLate [.clashYield] (inRole .bearing (claimOf .confirmed (some 5)) station6)
    (State.endsCycle (clashesLate .member 0 9) free ∧ State.endsCycle (clashesLate .leaving 1 9) free ∧
      State.endsCycle jumps free ∧ jumps.jumpDue free = true) ∧
    (yields (clashesLate .member 0 9) ∧ (t (clashesLate .member 0 9)).pairing.window.lastCause = .yielded) ∧
    (yields (clashesLate .member 0 1) ∧ (t (clashesLate .member 0 1)).pairing.window.lastCause = .timeout) ∧
    yields (clashesLate .leaving 0 9) ∧ yields jumps ∧
    ((t (clashesLate .leaving 1 9)).station.state = .idle ∧
      (t (clashesLate .leaving 1 9)).flagSet .numberClash = false) := by decide +kernel

/-- A yield by a station that bears no role still makes a present far-end record ABSENT, with FAREND_DOWN (R56). -/
theorem test_yield_without_a_role_drops_the_far_end :
    let s : State := { following with chan := { following.chan with nextSlot := 2 }, voice := Claim.inState .waiting }
    let t := hear 1250 (voiceFrom 3 1 2) s
    s.bearer.state = .none ∧ t.station.state = .idle ∧ t.streams.farEnd.state = .absent ∧ t.flagSet .farendDown := by
  decide +kernel

/-- A listener in slot `k`; a newcomer in SEEKING there. -/
def listener (k : Nat) : State := inSlot k (inState .listen (under 3 2 dev))

def seeker (k : Nat) : State := inSlot k (joinerAt .none 0 0 5 (inState .seeking dev))

theorem test_meets_AlignmentTakesTheReferencesPhase :
    hearsBurst (listener 4) 4 2800 (voiceFrom 1 0 9) ∧ hearsBurst (listener 13) 13 8300 (voiceFrom 1 0 0) ∧
      hearsBurst (listener 15) 15 9400 (voiceFrom 3 0 9) ∧ hearsBurst (listener 4) 4 2800 (fromSeven .leave true) ∧
      hearsBurst (seeker 4) 4 2800 { foreignAt 9 with pairingOpen := true } ∧
      hearsBurst (seeker 15) 15 9375 (offerTo 5#48) :=
  ⟨hears_of (by decide +kernel), hears_of (by decide +kernel), hears_of (by decide +kernel), hears_of (by decide +kernel),
    hears_of (by decide +kernel), hears_of (by decide +kernel)⟩

/-- Cases A, B and C of Table 2-3, in LISTEN and SEEKING. -/
theorem test_alignments :
    let a := hear 2800 (voiceFrom 1 0 9) (listener 4)
    let b := hear 8300 (voiceFrom 1 0 0) (listener 13)
    let y := hear 9400 (voiceFrom 3 0 9) (listener 15)
    let j := hear 2800 { foreignAt 9 with pairingOpen := true } (seeker 4)
    (a.station.state = .member ∧ (a.timer.cycle.map fun c => (c.planned, c.nextPhase)) = some (7175, none) ∧
      (a.peers.map fun p => (p.number, p.voiceSlot, p.offset)) = [(1, some 9, 0)]) ∧
    ((b.timer.cycle.map fun c => (c.planned, c.nextPhase)) = some (9375, some 8300)) ∧
    (y.station.state = .idle ∧ (y.timer.cycle.map fun c => (c.planned, c.nextPhase)) = some (10000, some 3775)) ∧
    (hear 2800 (fromSeven .leave true) (listener 4)).station.state = .listen ∧
    (j.station.state = .joining ∧ (j.timer.cycle.map fun c => c.planned) = some 7175 ∧
      (j.pairing.newcomer.map fun nc => (nc.target, nc.hold)) = some (some 7#24, 1)) := by decide +kernel

/-- The own number counts for the cycle timer too (R21), and an alignment reference and a departure in LISTEN are heard. -/
theorem test_own_number_is_counted :
    let o := hear 2503 (voiceFrom 3 1 4) (clashing .confirmed 4)
    o.timer.log = [{ inStep := true, sender := 3, offset := 3, arrival := 2503, slot := 4 }] ∧ o.chan.heard = [3] ∧
      (hear 2800 (voiceFrom 1 0 9) (listener 4)).chan.heard = [1] ∧
      (hear 2800 (fromSeven .leave true) (listener 4)).chan.heard = [7] ∧
      (hear 2800 { foreignAt 9 with pairingOpen := true } (seeker 4)).chan.heard = [] := by decide +kernel

/-- The own number in slot 15 after the cycle end: the entry stands, and the yield is kept. -/
theorem test_late_yield_of_an_alignment :
    let y := after (.slotEnd .cycleEndFirst [airAt 9400 (voiceFrom 3 0 9)]) (listener 15)
    y.station.state = .member ∧ y.voice = Claim.inState .waiting ∧ y.peers = [] ∧ y.chan.late = [.clashYield] := by
  decide +kernel

theorem test_meets_BurstsAreReadBackWhole :
    (voiceFrom 30 7 13).ok ∧
      { voiceFrom 1 0 0 with hush := false, body := .frame (encodeFrame (List.replicate 160 0x8000#16)) }.ok ∧
      { voiceFrom 1 0 15 with kind := .offer, hush := false, body := .offer 5#48 30 7 }.ok ∧
      (newcomerBurst .join 0#24 (.join 5#48 .partner)).ok ∧
      (newcomerBurst .confirm 9#24 (.confirm 5#48 1 30)).ok ∧ { voiceFrom 1 0 0 with kind := .leave, hush := false }.ok :=
  by decide +kernel

/-! ### The cycle end -/

/-- A full view of entries, to tell a rotation from UNKNOWN. -/
def viewed (s : State) : State :=
  { s with views :=
      { filling := List.replicate 16 .mine, v1 := List.replicate 16 .stray, v2 := List.replicate 16 .empty } }

theorem test_meets_CycleEndBeginsTheNextCycle :
    let m := viewed (atEnd (member 3 2))
    let early : State := { m with early := { m.early with viewsSet := true } }
    let aligned : State := { m with timer := { m.timer with cycle := some { free with nextPhase := some 16000 } } }
    let alone : State := { viewed (atEnd (inState .listen dev)) with station := { dev.station with
      state := .listen, listenCount := 3 } }
    (m.timer.cycle = some free ∧ m.atCycleEnd ∧ m.codec.frameIx = 160 ∧ aligned.atCycleEnd ∧ alone.atCycleEnd ∧
      (after (.cycleEnd .deadlineFirst) m).timer.cycle = some (ordinaryCycle 10000 0)) ∧
    (after (.cycleEnd .stateFirst) m).views =
      { filling := List.replicate 16 .empty, v1 := List.replicate 16 .mine, v2 := List.replicate 16 .stray } ∧
    (after (.cycleEnd .stateFirst) early).views = Views.unknown ∧
    (after (.cycleEnd .stateFirst) (viewed station6)).views = Views.unknown ∧
    (after (.cycleEnd .stateFirst) aligned).views = Views.unknown ∧
    (after (.cycleEnd .stateFirst) alone).views = Views.unknown ∧
    (after (.cycleEnd .stateFirst) { alone with station := { alone.station with listenCount := 2 } }).views.v1 =
      List.replicate 16 .mine := by decide +kernel

/-- The length of the cycle that begins is that of its plan, whatever its kind; nothing re-spaces it yet (R27, R31). -/
theorem test_length_of_the_next_cycle :
    let aligned : State := { atEnd (member 3 2) with timer :=
      { (atEnd (member 3 2)).timer with cycle := some { free with nextPhase := some 16000 } } }
    let begins : Nat → Nat → State → Bool := fun planned length s =>
      match (after (.cycleEnd .stateFirst) s).timer.cycle with
      | none => false
      | some c => decide (c.start = 10000) && decide (c.planned = planned) && decide (c.length = length) &&
          c.respaced.isEmpty && c.nextPhase.isNone
    begins 20000 10000 (atEnd (member 3 2)) ∧ begins 16410 6410 station6 ∧ begins 16000 6000 aligned := by decide +kernel

theorem test_meets_CycleTimerChoosesTheNextCycle :
    (atEnd dev).station.state ≠ .member ∧ (atEnd (member 3 2)).jumpDue free = false ∧ station6.jumpDue free = true ∧
      station6.atCycleEnd ∧ station6.codec.frameIx = 160 ∧ station6.early.jump = none ∧ free.nextPhase = none := by
  decide +kernel

/-- A member at a cycle end with receptions logged, and a newcomer at the end of a case B or C alignment. -/
def logged (l : List TimerRx) : State :=
  let s := atEnd (member 3 2)
  { s with timer := { s.timer with log := l, stepLoss := 1 } }

def stray (n : StationNo) : TimerRx := { inStep := false, sender := n, offset := 77, arrival := 6702, slot := 8 }

theorem test_meets_CycleTimerChoosesTheNextCycle_values :
    let t := fun s => (after (.cycleEnd .stateFirst) s).timer
    let made : State := { atEnd (member 3 2) with early := { Early.clear with jump := some 16410, viewsSet := true } }
    let aligned : State := { logged [] with timer := { (logged []).timer with
      cycle := some { free with nextPhase := some 16000 } } }
    (State.endsCycle (logged []) free ∧ State.endsCycle station6 free ∧ jumpReference (station6.countedRx free) =
        some { inStep := false, sender := 2, offset := 160, arrival := 8285, slot := 3 } ∧ State.endsCycle made free ∧
      State.endsCycle aligned { free with nextPhase := some 16000 }) ∧
    (t (logged (offsets [5, -2, 9, 20]))).lastCorrection = 6 ∧ (t (logged (offsets [-4, -3]))).lastCorrection = -2 ∧
    (t (logged (offsets [-4, -3]))).cycle = some (ordinaryCycle 10000 (-2)) ∧
    (t (logged [stray 2])).stepLoss = 2 ∧ (t (logged [stray 4])).stepLoss = 0 ∧
    (t (logged [stray 4, stray 5])).stepLoss = 2 ∧ (logged [stray 2]).jumpDue free = false ∧
    ((t station6).cycle.map fun c => c.planned) = some 16410 ∧ ((t made).cycle.map fun c => c.planned) = some 16410 ∧
    ((t aligned).cycle.map fun c => (c.planned, c.correction)) = some (16000, 0) ∧
    placeEnd 16000 10000 = 16000 ∧ placeEnd 5000 10000 = 15000 ∧ placeEnd 4999 10000 = 24999 := by decide +kernel

theorem test_meets_StepJumpSendsClaimsToWaiting :
    let s := inRole .bearing (claimOf .confirmed (some 5)) station6
    let e := inRole .ending (claimOf .releasing (some 5)) station6
    s.timer.cycle = some free ∧ s.atCycleEnd ∧ s.jumpDue free = true ∧ s.claimsOk ∧ e.claimsOk ∧
      (after .stepJump s).bearer.state = .claiming ∧ (after .stepJump e).bearer.state = .none := by decide +kernel

theorem test_meets_StepJumpSendsClaimsToWaiting_cycle_end :
    let s := inRole .bearing (claimOf .confirmed (some 5)) station6
    let e := inRole .ending (claimOf .releasing (some 5)) station6
    let t := after (.cycleEnd .deadlineFirst)
    (s.codec.frameIx = 160 ∧ s.chan.late = []) ∧ (t s).farEnd = Claim.inState .waiting ∧
      (t s).bearer.state = .claiming ∧ (t s).bearer.age = 1 ∧ (t s).flagSet .stepJump ∧ (t e).bearer = Bearer.gone ∧
      (t e).farEnd.state = .none := by decide +kernel

/-- The far-end record at a step jump of its own row: kept under a role that goes on, ABSENT where an ENDING role ends. -/
theorem test_far_end_at_a_step_jump :
    let r := StreamRec.withFrame StreamRec.reset (List.replicate 160 9#16) true 6 false
    let s := fun (b : BearerState) (cl : Claim) =>
      let u := inRole b cl station6
      ({ u with streams := { u.streams with farEnd := r } } : State)
    let k := after .stepJump (s .bearing (claimOf .confirmed (some 5)))
    let e := after .stepJump (s .ending (claimOf .releasing (some 5)))
    k.streams.farEnd = r ∧ k.flagSet .farendDown = false ∧ e.streams.farEnd.state = .absent ∧ e.streams.farEnd.hang = 3 ∧
      e.flagSet .farendDown := by decide +kernel

/-- A step jump marks the lapse memory as aged where it lapses an offer, and only there (R91). -/
theorem test_marks_of_a_step_jump :
    let o : State := { station6 with pairing := offered.pairing }
    (after .stepJump o).early = { station6.early with jump := some 16410, viewsSet := true, lapseAged := true } ∧
      (after .stepJump station6).early = { station6.early with jump := some 16410, viewsSet := true } := by decide +kernel

/-- A member at a cycle end with one peer of a missed count. -/
def missing (st : PeerState) (m : Nat) : State :=
  atEnd (withPeers [{ peerIn st 7 1 with missed := m }] (member 3 2))

theorem test_meets_AgeingChangesTheEntry :
    (missing .active 4).atCycleEnd ∧ (missing .active 4).peersOk ∧ (7 : StationNo) ∉ (missing .active 4).chan.heard ∧
      (7 : StationNo) ∉ (missing .active 4).early.aged ∧
      (findPeer 7 (after (.peerSilent 7) (missing .active 4)).peers).map (fun p => p.state) = some .silent ∧
      (findPeer 7 (after (.peerLost 7) (missing .silent 99)).peers).map (fun p => p.state) = some .lost ∧
      (after (.peerRemoved 7) (missing .lost 2999)).peers = [] := by decide +kernel

theorem test_meets_AgeingChangesTheEntry_early :
    steps { missing .silent 99 with pending := [.peerLost 7] } = true ∧
      after (.peerLost 7) (missing .silent 99) ≠ missing .silent 99 ∧
      (after (.peerLost 7) (missing .silent 99)).countedPeers = (missing .silent 99).countedPeers := by
  decide +kernel

theorem test_meets_AgeingChangesTheEntry_cycle_end :
    let t := fun s => after (.cycleEnd .stateFirst) s
    let at' := fun st m => (findPeer 7 (t (missing st m)).peers).map fun p => (p.state, p.missed)
    let heard : State := { missing .active 4 with chan := { (missing .active 4).chan with heard := [7] } }
    let aged : State := { missing .active 4 with early := { Early.clear with aged := [7] } }
    (State.endsCycle (missing .active 4) free ∧ (missing .lost 2999).peersOk ∧
      State.endsCycle (inState .idle (missing .active 4)) free) ∧
    at' .active 3 = some (.active, 4) ∧ at' .active 4 = some (.silent, 5) ∧ at' .silent 99 = some (.lost, 100) ∧
    (t (missing .silent 99)).flagSet .peerLost ∧ at' .lost 2998 = some (.lost, 2999) ∧ at' .lost 2999 = none ∧
    (t heard).peers = heard.peers ∧ (t aged).peers = aged.peers ∧
    (t (inState .idle (missing .active 4))).peers = (missing .active 4).peers := by decide +kernel

theorem test_meets_AdmissionAndSurplusFollowTheTable : (withPeers [peer 1 2, peer 5 2, peer 30 2] (member 3 2)).peersOk ∧
    admitted (member 3 2).station.creds [peer 1 2, peer 5 2, peer 30 2] 2 = [1, 3] := by decide +kernel

/-- Station 3 of wearer 2 at a cycle end beside these peers. -/
def crowded (ns : List StationNo) (old : Bool) : State :=
  { atEnd (withPeers (ns.map fun n => peer n 2) (member 3 2)) with surplus := old }

theorem test_meets_AdmissionAndSurplusFollowTheTable_cycle_end :
    let t := after (.cycleEnd .stateFirst)
    let last := fun s : State => { s with station := { s.station with state := .leaving, leavingEnds := 1 } }
    (State.endsCycle (crowded [1, 2] false) free ∧ (crowded [1, 2] false).chan.late = []) ∧
    (t (crowded [1, 2] false)).surplus = true ∧ (t (crowded [1, 2] false)).flagSet .wearerSurplus ∧
    (t (crowded [1, 2] true)).surplus = true ∧ (t (crowded [1, 2] true)).flagSet .wearerSurplus = false ∧
    (t (crowded [1, 5] true)).surplus = false ∧ (t (last (crowded [1, 2] true))).surplus = false := by decide +kernel

theorem test_meets_ListenAndLeavingEndAtTheirCounts :
    let s : State := { atEnd (inState .listen dev) with station :=
      { (inState .listen dev).station with listenCount := 3 } }
    s.atCycleEnd ∧ s.station.state = .listen ∧ (after .listenTimeout s).station.state = .member := by decide +kernel

theorem test_meets_ListenAndLeavingEndAtTheirCounts_cycle_end :
    let t := after (.cycleEnd .deadlineFirst)
    let l : Nat → State := fun n => { atEnd dev with station := { dev.station with state := .listen, listenCount := n } }
    let v : Nat → State := fun n => { atEnd (member 3 2) with station := { (member 3 2).station with
      state := .leaving, leavingEnds := n } }
    (State.endsCycle (l 0) free ∧ (l 0).chan.late = [] ∧ State.endsCycle (v 0) free) ∧
    (t (l 2)).station.listenCount = 3 ∧ (t (l 2)).station.state = .listen ∧ (t (l 3)).station.state = .member ∧
    (t (v 0)).station.leavingEnds = 1 ∧ (t (v 0)).station.state = .leaving ∧ (t (v 1)).station.state = .idle ∧
    (t (v 1)).flagSet .stateChanged ∧ (t (v 1)).chan.cutSpans = [(0, 10000)] := by decide +kernel

/-- Views after which exactly these slots are FREE, every other one held by station 9. -/
def freeIn (ks : List Nat) (s : State) : State :=
  let v := (List.range 16).map fun k => if ks.contains k then Entry.empty else .own 9
  { s with views := { filling := v, v1 := v, v2 := v } }

/-- A member at a cycle end whose two claims stand so, with these FREE slots and one peer. -/
def deciding (ks : List Nat) (v f : Claim) (b : BearerState) : State :=
  freeIn ks (atEnd (withPeers [peer 9 1] (inRole b f { member 3 2 with voice := v })))

theorem test_meets_ClaimsAreDecidedAtTheCycleEnd :
    let w := claimOf .waiting none
    let s := deciding [3, 13] w w .claiming
    (State.endsCycle s free ∧ s.chan.late = [] ∧ s.claimsOk ∧ s.station.state = .member ∧ s.early.jump = none ∧
      s.jumpDue free = false ∧ s.early.voiceDecided = false ∧ s.early.farDecided = false) ∧
    (deciding [14, 15] { w with cycles := 255 } w .claiming).claimsOk ∧
    (deciding [] { claimOf .tentative (some 0) with cycles := 7 } { claimOf .confirmed (some 13) with run := 1 }
      .bearing).claimsOk ∧
    (deciding [] (claimOf .holdoff none) { claimOf .holdoff none with cycles := 3 } .claiming).claimsOk ∧
    (deciding [] (claimOf .releasing (some 13)) (claimOf .releasing (some 0)) .ending).claimsOk := by decide +kernel

theorem test_claims_decided_at_the_cycle_end :
    let w := claimOf .waiting none
    let t := after (.cycleEnd .stateFirst)
    let both := fun s => ((t s).voice, (t s).farEnd)
    let ten := claimOf .tentative (some 4)
    let con := claimOf .confirmed (some 4)
    both (deciding [3, 13] w w .claiming) = (claimOf .tentative (some 3), claimOf .tentative (some 13)) ∧
    both (deciding [13, 14] w w .claiming) = (claimOf .tentative (some 13), { w with cycles := 1 }) ∧
    (t (deciding [14, 15] w Claim.gone .none)).flagSet .groupFull ∧
    (t (deciding [15] { w with cycles := 255 } Claim.gone .none)).voice = { w with cycles := 255 } ∧
    (t (deciding [15] { w with cycles := 1 } Claim.gone .none)).flagSet .groupFull = false ∧
    (t { deciding [] w Claim.gone .none with views := Views.unknown }).voice = w ∧
    (t (deciding [] { ten with clean := true } Claim.gone .none)).voice = con ∧
    (t (deciding [] { ten with clean := true } Claim.gone .none)).flagSet .claimConfirmed ∧
    (t (withPeers [] (deciding [] ten Claim.gone .none))).voice = con ∧
    (t (deciding [] { ten with clean := true, conflict := true } Claim.gone .none)).voice = claimOf .holdoff none ∧
    (t (deciding [] { ten with cycles := 7 } Claim.gone .none)).voice = claimOf .holdoff none ∧
    (t (deciding [] { ten with cycles := 6 } Claim.gone .none)).voice = { ten with cycles := 7 } ∧
    (t (deciding [] { con with conflict := true } Claim.gone .none)).voice = { con with run := 1 } ∧
    (t (deciding [] { con with run := 1, conflict := true } Claim.gone .none)).flagSet .claimLost ∧
    (t (deciding [] { con with run := 1 } Claim.gone .none)).voice = con ∧
    (t (deciding [] { claimOf .holdoff none with cycles := 3 } Claim.gone .none)).voice = w ∧
    (t (deciding [] (claimOf .releasing (some 13)) Claim.gone .none)).voice =
      { claimOf .releasing (some 13) with cycles := 1 } := by decide +kernel

theorem test_the_role_follows_its_claim :
    let t := fun s => after (.cycleEnd .deadlineFirst) s
    let c := deciding [] Claim.gone { claimOf .tentative (some 4) with clean := true } .claiming
    let l := deciding [] Claim.gone { claimOf .confirmed (some 4) with run := 1, conflict := true } .bearing
    let old : State := { l with bearer := { l.bearer with age := 255 } }
    (t c).bearer.state = .bearing ∧ (t c).flagSet .bearerUp ∧ (t c).bearer.age = 1 ∧ (t l).bearer.state = .claiming ∧
      (t old).bearer.age = 255 := by decide +kernel

/-- A member at a cycle end whose two claims stand so, with one peer heard. -/
def claiming (v f : Claim) (b : BearerState) (n : StationNo) : State :=
  atEnd (withPeers [{ peer 9 1 with missed := 4 }] (inRole b f { member n 2 with voice := v }))

theorem test_meets_ClaimCountsRunOut :
    let t := { claimOf .tentative (some 4) with cycles := 7 }
    let c := { claimOf .confirmed (some 5) with run := 1, conflict := true }
    let h := { claimOf .holdoff none with cycles := 3 }
    ((claiming t c .bearing 3).atCycleEnd ∧ (∃ p ∈ (claiming t c .bearing 3).countedPeers, p.state ≠ .lost) ∧
      (after (.tentativeExpiry .voice) (claiming t c .bearing 3)).voice = Claim.inState .holdoff) ∧
    (after (.claimLost .farEnd) (claiming t c .bearing 3)).bearer.state = .claiming ∧
    (h.cycles = (3 : StationNo).val % 4 ∧
      (after (.holdoffExpiry .farEnd) (claiming t h .claiming 3)).farEnd = Claim.inState .waiting) ∧
    (after (.holdoffExpiry .voice) (claiming (claimOf .holdoff none) Claim.gone .none 28)).voice =
      Claim.inState .waiting := by decide +kernel

/-- A claim that a row has decided is left alone by the CYCLE_END that follows; the other one is decided there, and the
marks are clear in the next cycle (assumption log 6). -/
theorem test_meets_ClaimsAreDecidedAtTheCycleEnd_decided :
    let t := { claimOf .tentative (some 4) with cycles := 7 }
    let c := { claimOf .confirmed (some 5) with run := 1, conflict := true }
    let h := { claimOf .holdoff none with cycles := 3 }
    let u := after (.tentativeExpiry .voice) (claiming t c .bearing 3)
    let l := after (.claimLost .farEnd) (claiming t c .bearing 3)
    let e := after (.holdoffExpiry .farEnd) (claiming t h .claiming 3)
    let n := after (.cycleEnd .stateFirst)
    (State.endsCycle u free ∧ u.early = { (Early.clear) with voiceDecided := true } ∧
      l.early = { (Early.clear) with farDecided := true } ∧ e.early.farDecided = true) ∧
    ((n u).voice = Claim.inState .holdoff ∧ (n u).farEnd = Claim.inState .holdoff ∧ (n u).early = Early.clear) ∧
    ((n l).farEnd = l.farEnd ∧ (n l).voice = Claim.inState .holdoff) ∧
    ((n e).farEnd = Claim.inState .waiting ∧ (n e).early = Early.clear) := by decide +kernel

/-! ### The frame deadline -/

/-- A frame of one sample value; its outcome in the reception list. -/
def level (v : Sample) : Frame := List.replicate 160 v

def rxOf (n : StationNo) (far : Bool) (o : RxOutcome) : RxEntry := { sender := n, farEnd := far, outcome := o }

/-- A member at a cycle end with peers 5 and 7 of wearer 1 and a reception list. -/
def deadlineOf (l : List RxEntry) (s : State) : State :=
  let t := atEnd (withPeers [peer 5 1, { peer 7 1 with farSlot := some 3, bearer := true, age := 9#8 }] s)
  { t with streams := { t.streams with list := l }, chan := { t.chan with heard := [5, 7] } }

/-- State, source, hang and missing counter of a record; a wearer's and the far-end record after a CYCLE_END. -/
def recordIs (st : StreamState) (src : Option StationNo) (hang missing : Nat) (r : StreamRec) : Bool :=
  decide (r.state = st) && decide (r.source = src) && decide (r.hang = hang) && decide (r.missing = missing)

def wearerAfter (w : Nat) (s : State) : StreamRec :=
  ((after (.cycleEnd .stateFirst) s).streams.wearers[w]?).getD StreamRec.reset

def farAfter (s : State) : StreamRec := (after (.cycleEnd .stateFirst) s).streams.farEnd

/-- A member at a cycle end whose voice payload served the cycle. -/
def voiced (p : VoicePayload) : State :=
  let s := deadlineOf [] (member 3 2)
  { s with chan := { s.chan with voicePayload := p } }

theorem test_meets_WearerRecordsFollowTheirStations :
    let m := member 3 2
    (deadlineOf [] m).atCycleEnd ∧ (deadlineOf [] m).codec.frameIx = 160 ∧
      admitted m.station.creds (deadlineOf [] m).countedPeers 1 = [5, 7] ∧
      recordIs .hushed (some 5) 0 255 (wearerAfter 1 (deadlineOf [rxOf 5 false .hush, rxOf 7 false (.frame (level 9) 9)] m)) ∧
      recordIs .hushed (some 7) 0 255 (wearerAfter 1 (deadlineOf [rxOf 5 false (.frame (level 9) 9), rxOf 7 false .hush] m)) ∧
      recordIs .ramp (some 5) 3 0 (wearerAfter 1 (deadlineOf [rxOf 5 false (.frame (level 9) 300), rxOf 7 false (.frame (level 9) 9)] m)) ∧
      recordIs .ramp (some 7) 0 0 (wearerAfter 1 (deadlineOf [rxOf 7 false (.frame (level 9) 299)] m)) ∧
      recordIs .absent none 0 255 (wearerAfter 1 (deadlineOf [] m)) ∧
      recordIs .absent none 0 255 (wearerAfter 0 (deadlineOf [] m)) ∧
      recordIs .ramp (some 3) 3 0 (wearerAfter 2 (voiced (.frame (encodeFrame (level 900))))) ∧
      recordIs .hushed (some 3) 0 255 (wearerAfter 2 (voiced .hush)) ∧ recordIs .absent none 0 255 (wearerAfter 2 (voiced .none)) :=
  by decide +kernel

/-- For FarEndRecordFollowsItsSource as well. -/
theorem test_meets_WearerRecordsFollowTheirStations_silent :
    let taken : StreamRec := StreamRec.reset.withFrame (level 9) true 7 false
    let at' := fun (st : StationState) (ends : Nat) =>
      let s := deadlineOf [rxOf 5 false .hush] (member 3 2)
      ({ s with
          station := { s.station with state := st, leavingEnds := ends }
          streams := { s.streams with wearers := List.replicate 8 taken, farEnd := taken } } : State)
    let silent := fun (order : DeadlineOrder) (s : State) =>
      let t := after (.cycleEnd order) s
      t.streams.wearers.all (fun r => decide (r = taken.withoutSource)) && decide (t.streams.farEnd = taken.withoutSource) &&
        t.flagSet .farendDown && t.streams.list.isEmpty
    (at' .idle 0).atCycleEnd ∧ (at' .idle 0).codec.frameIx = 160 ∧ (at' .idle 0).chan.late = [] ∧
      silent .stateFirst (at' .idle 0) ∧ silent .deadlineFirst (at' .seeking 0) ∧ silent .stateFirst (at' .joining 0) ∧
      silent .stateFirst (at' .leaving 1) ∧ (at' .leaving 1).station.state = .leaving ∧
      silent .deadlineFirst (at' .leaving 1) = false ∧
      (after (.cycleEnd .deadlineFirst) (at' .leaving 1)).station.state = .idle ∧
      recordIs .hushed (some 5) 2 1 ((after (.cycleEnd .deadlineFirst) (at' .leaving 1)).streams.wearers.getD 1 taken) := by
  decide +kernel

theorem test_concealment_of_table_7_4 :
    let conceal := fun (st : StreamState) (m : Nat) =>
      ({ StreamRec.reset with state := st, missing := m, lastGood := level 9 } : StreamRec).nothing
    ([(.fresh, 0), (.repeat1, 1), (.repeat2, 2), (.muted, 255), (.hushed, 4), (.absent, 255)].map
      fun x : StreamState × Nat => ((conceal x.1 x.2).state, (conceal x.1 x.2).missing, (conceal x.1 x.2).current.getD 0 0)) =
      [(.repeat1, 1, 9#16), (.repeat2, 2, 4#16), (.muted, 3, 0#16), (.muted, 255, 0#16), (.hushed, 5, 0#16),
        (.absent, 255, 0#16)] := by decide +kernel

/-- A bearer in BEARING at a cycle end whose last take had an outcome. -/
def bearingAt (o : TakeOutcome) (p : Option Payload) : State :=
  let s := deadlineOf [] (inRole .bearing (claimOf .confirmed (some 5)) (member 3 2))
  { s with bearer := { s.bearer with lastTake := o }, chan := { s.chan with farPayload := p } }

theorem test_meets_FarEndRecordFollowsItsSource :
    let m := member 3 2
    let s := deadlineOf [rxOf 7 true (.frame (level 9) 300)] m
    (s.atCycleEnd ∧ s.early.jump = none ∧ s.jumpDue free = false ∧ s.chan.late = [] ∧ s.claimsOk ∧
      (bearingAt .frame none).claimsOk) ∧
    recordIs .ramp (some 7) 3 0 (farAfter s) ∧ (after (.cycleEnd .stateFirst) s).flagSet .farendUp ∧
    recordIs .hushed (some 7) 0 255 (farAfter (deadlineOf [rxOf 7 true .hush] m)) ∧
    recordIs .absent none 0 255 (farAfter (deadlineOf [] m)) ∧ recordIs .repeat1 (some 7) 2 1 (farAfter (atEnd following)) ∧
    recordIs .absent none 2 255 (farAfter (atEnd (withPeers [] following))) ∧
    (after (.cycleEnd .stateFirst) (atEnd (withPeers [] following))).flagSet .farendDown ∧
    recordIs .ramp (some 3) 3 0 (farAfter (bearingAt .frame (some (encodeFrame (level 900))))) ∧
    recordIs .hushed (some 3) 0 255 (farAfter (bearingAt .hush none)) ∧
    recordIs .absent none 0 255 (farAfter (bearingAt .none none)) := by decide +kernel

/-- A bearer whose far-end record follows itself, at a cycle end that makes a step jump; peer 7 bears as well. -/
def jumpsBearing (b : BearerState) (cl : Claim) : State :=
  let s := deadlineOf [rxOf 7 true (.frame (level 9) 300)] (inRole b cl station6)
  { s with streams := { s.streams with farEnd := StreamRec.reset.withFrame (level 9) true 6 false } }

theorem test_meets_FarEndRecordFollowsItsSource_jump :
    let s := jumpsBearing .bearing (claimOf .confirmed (some 5))
    let e := jumpsBearing .ending (claimOf .releasing (some 5))
    let made : State := { bearingAt .hush none with early := { Early.clear with jump := some 16410, viewsSet := true } }
    let a := after (.cycleEnd .stateFirst) e
    let d := after (.cycleEnd .deadlineFirst) e
    (s.timer.cycle = some free ∧ s.atCycleEnd ∧ s.jumpDue free = true ∧ s.claimsOk ∧ s.chan.late = []) ∧
    (e.jumpDue free = true ∧ e.claimsOk ∧ made.atCycleEnd ∧ made.claimsOk) ∧
    (recordIs .repeat1 (some 6) 2 1 (farAfter s) ∧ (after (.cycleEnd .stateFirst) s).flagSet .farendDown = false) ∧
    (recordIs .ramp (some 7) 3 0 a.streams.farEnd ∧ a.flagSet .farendDown ∧ a.flagSet .farendUp) ∧
    (recordIs .absent none 2 255 d.streams.farEnd ∧ d.flagSet .farendDown ∧ d.flagSet .farendUp = false) ∧
    recordIs .hushed (some 3) 0 255 (farAfter made) := by decide +kernel

/-- A station whose far-end record still names its own number, without the role, loses that source (R126). -/
theorem test_own_number_is_no_source_without_the_role :
    let s := deadlineOf [rxOf 7 true (.frame (level 9) 300)] (member 3 2)
    let t : State := { s with streams := { s.streams with farEnd := StreamRec.reset.withFrame (level 9) true 3 false } }
    recordIs .ramp (some 7) 3 0 (farAfter t) ∧ (after (.cycleEnd .stateFirst) t).flagSet .farendDown ∧
      (after (.cycleEnd .stateFirst) t).flagSet .farendUp := by decide +kernel

theorem test_meets_SpeakerFrameIsMixed :
    let s := deadlineOf [rxOf 5 false (.frame (level 16000) 16000), rxOf 7 true (.frame (level 8000) 8000)] (member 3 2)
    let t := after (.cycleEnd .deadlineFirst) s
    s.sizesOk ∧ s.bearer.state ≠ .ending ∧ s.chan.late = [] ∧ t.codec.playout.length = 160 ∧
      (t.codec.playout.getD 159 0#16).toInt = 18000 ∧
      (inRole .ending (claimOf .releasing (some 5)) s).bearer.state = .ending := by decide +kernel

/-- A bearer at a cycle end with this many uplink samples and a voice in wearer 1. -/
def uplinkAt (fill : Nat) : State :=
  let s := deadlineOf [rxOf 5 false (.frame (level 1600) 1600)] (inRole .bearing (claimOf .confirmed (some 5)) (member 3 2))
  { s with bearer := { s.bearer with uplink := List.replicate fill 5#16 } }

theorem test_meets_UplinkFrameJoinsTheQueue :
    let after' := fun fill => after (.cycleEnd .stateFirst) (uplinkAt fill)
    (uplinkAt 640).sizesOk ∧ (uplinkAt 640).chan.late = [] ∧ (after' 239).bearer.uplink.length = 400 ∧
      (after' 240).bearer.uplink.length = 400 ∧ (after' 400).bearer.uplink.length = 560 ∧
      (after' 401).bearer.uplink.length = 560 ∧ (after' 640).bearer.uplink.length = 640 ∧
      (after' 640).flagSet .uplinkOverrun ∧ (after' 480).flagSet .uplinkOverrun = false ∧
      (after' 239).bearer.uplink.getD 239 0 = 10#16 := by decide +kernel

theorem test_meets_UplinkFrameJoinsTheQueue_ending :
    let s : State := { uplinkAt 600 with
      bearer := { (uplinkAt 600).bearer with state := .ending }, farEnd := claimOf .releasing (some 5) }
    s.bearer.state = .ending ∧ s.claimsOk ∧ s.jumpDue free = false ∧ s.chan.late = [] ∧ s.sizesOk ∧
      (after (.cycleEnd .stateFirst) s).bearer.uplink.length = 600 ∧
      (after (.cycleEnd .deadlineFirst) s).flagSet .uplinkOverrun = false := by decide +kernel

/-! ### What every step keeps: sound states that step -/

/-- A sound member in a call, with a full table, an open window and a bond in flight. -/
def sound (c : Instr) : State :=
  { inSlot 15 (withPeers ((List.range 15).map fun i => peer (Fin.ofNat 32 (i + 4)) 0) (withWindow 3000
      (inRole .bearing (claimOf .confirmed (some 5)) (flying .lock 0
        (withPlaces (places [placeOf .valid 1]) { member 3 2 with voice := claimOf .confirmed (some 4) }))))) with
      pending := [c] }

/-- For EveryStepKeepsTheSizes, EveryStepKeepsThePeerTable, EveryStepKeepsClaimsAndRole, EveryStepKeepsTheWindow and
EveryStepKeepsTheBondStore. -/
theorem test_meets_EveryStepKeepsTheRecords :
    let s := sound (.slotEnd .receptionFirst [airAt 9375 { voiceFrom 4 0 15 with kind := .offer, body := .offer 5#48 8 1 }])
    s.sizesOk ∧ s.peersOk ∧ s.claimsOk ∧ s.windowOk ∧ s.bondsOk ∧ steps s = true ∧ steps (sound .lockDone) = true := by
  decide +kernel

/-! ### Voice frames -/

theorem test_gains_round :
    effectiveGain 16384#15 3 = 10240 ∧ volumeSample 16384#15 0x8000#16 = 0x8000#16 ∧
      volumeSample 0#15 0x7FFF#16 = 0#16 ∧ volumeSample 32767#15 0x7FFF#16 = 0x7FFF#16 := by decide +kernel

theorem test_meets_ExponentIsTheSmallestThatFits :
    (List.replicate 31 0#16 ++ [128#16]).length = 32 ∧
      (encodeBlock (List.replicate 31 0#16 ++ [128#16])).exponent = 1 ∧
      (encodeBlock (List.replicate 31 0#16 ++ [BitVec.ofInt 16 (-128)])).exponent = 0 ∧
      (encodeBlock (List.replicate 32 0x7FFF#16)).exponent = 8 := by decide +kernel

theorem test_meets_CompandingErrorIsBounded :
    let xs := List.replicate 31 3#16 ++ [1020#16]
    xs.length = 32 ∧ ((decodeBlock (encodeBlock xs)).getD 31 0).toInt = 1016 ∧
      ((decodeBlock (encodeBlock xs)).getD 0 0).toInt = 0 := by decide +kernel

end Sys2Proof.Tests
end

