-- ==== Sys2Proof/Proofs/VoiceFrames.lean ====
section
/-! PROOFS. Voice frames: the peak magnitude of a sub-block and the exponent chosen from it (R101). -/

namespace Sys2Proof.Proofs.VoiceFrames

open Sys2Proof Sys2Proof.Machine

/-! ### The peak magnitude (R101) -/

theorem peakOf_of_nonneg {x : Sample} (hx : 0 ≤ x.toInt) : (peakOf x : Int) = x.toInt := by
  rw [peakOf, if_pos hx, Int.toNat_of_nonneg hx]

theorem peakOf_of_neg {x : Sample} (hx : x.toInt < 0) : (peakOf x : Int) = -x.toInt - 1 := by
  rw [peakOf, if_neg (by omega), Int.toNat_of_nonneg (by omega)]

theorem peakOf_le (x : Sample) : peakOf x ≤ 32767 := by
  have hlow : -32768 ≤ x.toInt := BitVec.le_toInt x
  have hhigh : x.toInt < 32768 := BitVec.toInt_lt
  rcases Int.lt_or_le x.toInt 0 with hneg | hnonneg
  · have := peakOf_of_neg hneg
    omega
  · have := peakOf_of_nonneg hnonneg
    omega

/-- The fold that starts at 0 is the library's maximum: no magnitude is below 0. -/
theorem max?_map_peakOf {xs : List Sample} (hne : xs ≠ []) :
    (xs.map peakOf).max? = some (peakMagnitude xs) := by
  cases xs with
  | nil => contradiction
  | cons x xs => rw [List.map_cons, List.max?_cons', peakMagnitude, List.foldl_cons, Nat.zero_max, List.foldl_map]

theorem peakOf_le_peakMagnitude {xs : List Sample} {x : Sample} (hx : x ∈ xs) : peakOf x ≤ peakMagnitude xs :=
  (List.max?_eq_some_iff.mp (max?_map_peakOf (List.ne_nil_of_mem hx))).2 _ (List.mem_map_of_mem hx)

theorem exists_peakOf_eq_peakMagnitude {xs : List Sample} (hne : xs ≠ []) : ∃ x ∈ xs, peakOf x = peakMagnitude xs :=
  List.mem_map.mp (List.max?_eq_some_iff.mp (max?_map_peakOf hne)).1

/-! ### The exponent (R101) -/

/-- The search finds an exponent because 8 always fits, and it passed over every smaller one. -/
theorem exponentOf_spec {p : Nat} (hp : p ≤ 32767) :
    p / 2 ^ (exponentOf p).val ≤ 127 ∧ ∀ d < (exponentOf p).val, 127 < p / 2 ^ d := by
  have hlist : ([0, 1, 2, 3, 4, 5, 6, 7, 8] : List (Fin 9)) = List.finRange 9 := by decide
  have hfits : p / 2 ^ (8 : Fin 9).val ≤ 127 := by
    change p / 256 ≤ 127
    omega
  have hsome : ((List.finRange 9).find? fun e => decide (p / 2 ^ e.val ≤ 127)).isSome :=
    List.find?_isSome.mpr ⟨8, List.mem_finRange 8, decide_eq_true hfits⟩
  obtain ⟨e, he⟩ := Option.isSome_iff_exists.mp hsome
  have hexp : exponentOf p = e := by rw [exponentOf, hlist, he, Option.getD_some]
  obtain ⟨hle, i, hi, rfl, hsmaller⟩ := List.find?_eq_some_iff_getElem.mp he
  rw [hexp]
  refine ⟨of_decide_eq_true hle, fun d hd => ?_⟩
  have hdi : d < i := by simpa using hd
  simpa using hsmaller d hdi

@[simp] theorem encodeBlock_exponent (xs : List Sample) :
    (encodeBlock xs).exponent = exponentOf (peakMagnitude xs) := rfl

/-- Settles O59: the peak is the magnitude fold, and the exponent the first that fits it. -/
theorem exponentIsTheSmallestThatFits : Obligations.ExponentIsTheSmallestThatFits := by
  intro xs hlen
  have hne : xs ≠ [] := List.ne_nil_of_length_pos (by omega)
  obtain ⟨x, hx, hpeak⟩ := exists_peakOf_eq_peakMagnitude hne
  have hbound : peakMagnitude xs ≤ 32767 := hpeak ▸ peakOf_le x
  obtain ⟨hfits, hleast⟩ := exponentOf_spec hbound
  simp only [encodeBlock_exponent]
  refine ⟨peakMagnitude xs, hbound, fun y hy => ?_, ⟨x, hx, ?_⟩, hfits, hleast⟩
  · have hle := peakOf_le_peakMagnitude hy
    constructor
    · intro hnonneg
      have := peakOf_of_nonneg hnonneg
      omega
    · intro hneg
      have := peakOf_of_neg hneg
      omega
  · rw [← hpeak]
    rcases Int.lt_or_le x.toInt 0 with hneg | hnonneg
    · exact .inr ⟨hneg, (peakOf_of_neg hneg).symm⟩
    · exact .inl ⟨hnonneg, (peakOf_of_nonneg hnonneg).symm⟩

end Sys2Proof.Proofs.VoiceFrames
end

section
/-! PROOFS. The mix: how a level is registered (R129, R173) and what SET_LEVELS does (R130). -/

namespace Sys2Proof.Proofs.Mix

open Sys2Proof Sys2Proof.Machine

/-! ### Registered levels (R130, R173) -/

/-- A value within 0..32767 keeps its low 15 bits, which are all of it. -/
theorem registerLevel_toNat (v : BitVec 16) : (registerLevel v).toNat = min v.toNat 32767 := by
  rcases Nat.lt_or_ge 32767 v.toNat with habove | hwithin
  · rw [registerLevel, if_pos habove, Nat.min_eq_right habove.le]
    rfl
  · rw [registerLevel, if_neg hwithin.not_gt, Nat.min_eq_left hwithin, BitVec.toNat_setWidth]
    exact Nat.mod_eq_of_lt (Nat.lt_succ_of_le hwithin)

/-! ### SET_LEVELS (R130) -/

theorem exec_setLevels (vol gSide : BitVec 16) (s : State) :
    exec (.setLevels vol gSide) s = execSetLevels vol gSide s := rfl

/-- A SET_LEVELS that the port takes: nothing of the station is asked, so there is no other result (R130). -/
theorem execSetLevels_taken {s : State} (hlistens : s.listensToHost) (vol gSide : BitVec 16) :
    execSetLevels vol gSide s = .next
      { s with
          config := { s.config with vol := registerLevel vol, gSide := registerLevel gSide }
          port := s.tookPort [0x00] } := by
  rw [execSetLevels, State.hostCommand_taken hlistens]
  exact congrArg Host.Outcome.next (State.ok_of_port rfl)

/-- Settles O13: the command is taken in any station state, and its two levels are the registered arguments. -/
theorem setLevelsReplacesBothLevels : Obligations.SetLevelsReplacesBothLevels := by
  intro vol gSide s hlistens
  refine ⟨registerLevel vol, registerLevel gSide, registerLevel_toNat vol, registerLevel_toNat gSide, ?_⟩
  rw [exec_setLevels]
  exact execSetLevels_taken hlistens vol gSide

end Sys2Proof.Proofs.Mix
end

section
/-! PROOFS. What a command can do to the state, said once: every invariant of a step is a case analysis over `State.Effect`,
and the meaning of a command is opened in `exec_effect` alone. -/

namespace Sys2Proof.Proofs.Effects

open Sys2Proof Sys2Proof.Machine

/-! ### The effects -/

/-- What one command can make of a state, with the guards of the model under which it does so. A host command acts on
`s.markTaken`; the refusals, the reads and the edges of a transaction are `onlyPort`. -/
inductive Effect (s : State) : State → Prop
  | onlyPort (now : Nat) (p : Port) : Effect s { s with now := now, port := p }
  | eventsRead (p : Port) : Effect s { s with flags := 0#25, port := p }
  | settings (now : Nat) (cfg : ConfigBlock) (m : Mute) (p : Port) :
      Effect s { s with now := now, config := cfg, mute := m, port := p }
  | timerStarted (t : Nat) (a : ConfigArgs) (hst : s.station.state = .unconfigured) :
      Effect s ((((s.markTaken.atInstant t).configure a).startTimer (max s.now t)).enter .idle).ok
  | started (t : Nat) (c : Credentials) (hst : s.station.state = .idle) :
      Effect s ((s.markTaken.atInstant t).enterListen c).ok
  | listenStopped (t : Nat) (hst : s.station.state = .listen) : Effect s ((s.markTaken.atInstant t).enter .idle).ok
  | joiningStopped (t : Nat) (hst : s.station.state = .seeking ∨ s.station.state = .joining) :
      Effect s ((s.markTaken.atInstant t).dropNewcomer.enter .idle).ok
  | memberStopped (t : Nat) (hst : s.station.state = .member) : Effect s (s.markTaken.atInstant t).stopMember.ok
  | founded (t : Nat) (c : Credentials) (hst : s.station.state = .idle) :
      Effect s (((s.markTaken.atInstant t).requestWrite c (max s.now t)).enterListen c).ok
  | sought (t : Nat) (k : JoinKind) (hst : s.station.state = .idle) :
      Effect s ({ s.markTaken.atInstant t with
        peers := []
        station := { s.station with creds := Credentials.zero }
        pairing := { s.pairing with newcomer := some (Newcomer.fresh k) } }.enter .seeking).ok
  | windowOpened (k : JoinKind) (hst : s.station.state = .member) : Effect s (s.markTaken.openWindow k).ok
  | windowClosed : Effect s (s.markTaken.closeWindow .closed).ok
  | callBegun (hb : s.bearer.state = .none) :
      Effect s { s.markTaken with
        bearer := { Bearer.none with state := .claiming }, farEnd := Claim.inState .waiting }.ok
  | callEnded : Effect s s.markTaken.endRole.ok
  | bondRetired (t : Nat) (b : Byte) : Effect s (s.markTaken.storeCommand t b true retireAccepts .retire)
  | bondLocked (t : Nat) (b : Byte) : Effect s (s.markTaken.storeCommand t b false lockAccepts .lock)
  | bondErased (t : Nat) (b : Byte) : Effect s (s.markTaken.storeCommand t b true eraseAccepts .erase)
  | faultCleared : Effect s { s.markTaken with store := { s.store with cause := .none } }.ok
  | sampleWritten (x : Transfer) (v : Sample) : Effect s ((s.beginTransfer x).acceptDownlink v)
  | sampleRead (x : Transfer) : Effect s (s.beginTransfer x).takePosition
  | resetTaken (hold : Option ResetCause) (cut : CutChoice) : Effect s (s.takeReset hold cut)
  | resetEnded (t : Nat) (hh : s.hold ≠ none) : Effect s (s.endReset t)
  | softlyReset (t : Nat) (cut : CutChoice) : Effect s ((s.endTransaction.takeReset none cut).endReset t)
  | slotStarted (c : Cycle) (k : SlotIx) : Effect s (s.startSlot c k)
  | slotEnded (c : Cycle) (k : SlotIx) (order : ReceptionOrder) (air : List AirItem) :
      Effect s (s.endSlot c k order air)
  | cycleEnded (c : Cycle) (order : DeadlineOrder) : Effect s (s.endCycle c order)
  | jumped (t : Nat) (c : Cycle) (hdue : s.jumpDue c = true) : Effect s ((s.atInstant t).stepJump c).settleRole
  | peerAged (t : Nat) (n : StationNo) (hst : s.station.state.listening = true) :
      Effect s ((s.atInstant t).agePeerEarly n)
  | peerLost (t : Nat) (n : StationNo) (hst : s.station.state.listening = true) :
      Effect s (((s.atInstant t).agePeerEarly n).raise .peerLost)
  | listenCounted (t : Nat) (hst : s.station.state = .listen) : Effect s (s.atInstant t).countListen
  | claimDecided (t : Nat) (id : ClaimId) : Effect s ((s.atInstant t).decideEarly id)
  | newcomerDecided (t : Nat) (e : Early) (hst : s.station.state = .joining) :
      Effect s { (s.atInstant t).decideNewcomer with early := e }
  | windowCounted (t : Nat) (e : Early) : Effect s { (s.atInstant t).countWindow with early := e }
  | lapseAged (t : Nat) (e : Early) : Effect s { (s.atInstant t).ageLapse with early := e }
  | seekCounted (t : Nat) (hst : s.station.state = .seeking) : Effect s (s.atInstant t).countSeek
  | writeStarted (c : Credentials) (t : Nat) (hf : s.store.flight = none) : Effect s (s.startWrite c t)
  | programEnded (i b : Nat) (v : BondValue) (held : Option BondValue)
      (hf : s.store.flight = some { op := .program v, place := i, start := b }) :
      Effect s (s.endProgram { op := .program v, place := i, start := b } v held)
  | eraseProgramEnded (i b : Nat) (v : BondValue) (held : Option BondValue)
      (hf : s.store.flight = some { op := .eraseProgram v true, place := i, start := b }) :
      Effect s (s.endProgram { op := .eraseProgram v true, place := i, start := b } v held)
  | erasePartEnded (i b : Nat) (v : BondValue)
      (hf : s.store.flight = some { op := .eraseProgram v false, place := i, start := b }) :
      Effect s { s.atInstant (b + 80000) with
        store := { s.store with
          places := s.store.places.set i Place.blank
          flight := some { op := .eraseProgram v true, place := i, start := b } } }
  | retireEnded (i b : Nat) (hf : s.store.flight = some { op := .retire, place := i, start := b }) :
      Effect s
        (((s.atInstant (b + 1000)).setPlace i { placeAt s.store.places i with state := .retired }).storeRelease)
  | lockEnded (i b : Nat) (hf : s.store.flight = some { op := .lock, place := i, start := b }) :
      Effect s (((s.atInstant (b + 1000)).setPlace i { placeAt s.store.places i with locked := true }).storeRelease)
  | eraseEnded (i b : Nat) (hf : s.store.flight = some { op := .erase, place := i, start := b }) :
      Effect s (((s.atInstant (b + 80000)).setPlace i Place.blank).storeRelease)
  | scanRetireEnded (i b : Nat) (hf : s.store.flight = some { op := .scanRetire, place := i, start := b }) :
      Effect s
        (((s.atInstant (b + 1000)).setPlace i { placeAt s.store.places i with state := .retired }).scanNext (b + 1000))
  | sampleMoved (t : Nat) (cdin : CdinLevels) (hk : s.codec.frameIx < 160) :
      Effect s { s.atInstant t with codec := s.codec.frame cdin }

/-! ### From a command to its effect -/

theorem Effect.nothing (s : State) : Effect s s := .onlyPort s.now s.port

theorem Effect.refused (s : State) (r : Result) : Effect s (s.markTaken.refuse r) := .onlyPort s.now _

theorem Effect.answered (s : State) (r : Result) (data : List Byte) : Effect s (s.markTaken.answer r data) :=
  .onlyPort s.now _

theorem Effect.of_hostCommand {s t : State} {body : State → State} (hbody : Effect s (body s.markTaken))
    (h : s.hostCommand body = .next t) : Effect s t := by
  rcases State.hostCommand_next h with rfl | ⟨_, rfl⟩
  · exact .nothing t
  · exact hbody

theorem Effect.of_whenever {s t u : State} {b : Bool} (hu : b = true → Effect s u) (h : s.whenever b u = .next t) :
    Effect s t := by
  cases State.whenever_next h
  split
  · next hb => exact hu hb
  · exact .nothing s

theorem Effect.of_earlyRow {s t : State} {due : State → Cycle → Bool} {f : State → Cycle → State}
    (hf : ∀ c, due s c = true → Effect s (f (s.atInstant c.planned) c)) (h : s.earlyRow due f = .next t) :
    Effect s t := by
  rcases State.earlyRow_next h with rfl | ⟨c, _, _, hdue, rfl⟩
  · exact .nothing t
  · exact hf c hdue

theorem Effect.of_boundaryRow {s t : State} {due : State → Bool} {f : State → State}
    (hf : ∀ n, due s = true → Effect s (f (s.atInstant n))) (h : s.boundaryRow due f = .next t) : Effect s t := by
  rcases State.boundaryRow_next h with rfl | ⟨c, _, hdue, rfl⟩
  · exact .nothing t
  · exact hf c.planned hdue

theorem Effect.of_next {s t : State} (h : (Host.Outcome.next s : Host.Outcome State Fault Refusal) = .next t) :
    Effect s t := by
  cases h
  exact .nothing s

/-! ### The host commands -/

theorem stop_effect {s t : State} {u : Nat} (h : execStop s u = .next t) : Effect s t := by
  refine .of_hostCommand ?_ h
  split
  · exact .refused s _
  · exact .refused s _
  · exact .refused s _
  · next hst => exact .listenStopped u hst
  · next hst => exact .joiningStopped u (.inl hst)
  · next hst => exact .joiningStopped u (.inr hst)
  · next hst => exact .memberStopped u hst

theorem start_effect {s t : State} {b : Byte} {u : Nat} (h : execStart b s u = .next t) : Effect s t := by
  refine .of_hostCommand ?_ h
  split
  · exact .refused s _
  next hst =>
  split
  · exact .refused s _
  split
  · exact .refused s _
  split
  · exact .refused s _
  · next p _ => exact .started u p.creds (not_not.1 hst)

theorem writeConfig_effect {s t : State} {u : Nat} {a : ConfigArgs} (h : execWriteConfig u a s = .next t) :
    Effect s t := by
  refine .of_hostCommand ?_ h
  split
  · next hst => exact .timerStarted u a hst
  · exact .settings _ _ _ _
  all_goals exact .refused s _

theorem foundGroup_effect {s t : State} {u : Nat} (h : execFoundGroup u s = .next t) : Effect s t := by
  refine .of_hostCommand ?_ h
  split
  · exact .refused s _
  next hst =>
  split
  · exact .refused s _
  · exact .founded u _ (not_not.1 hst)

theorem joinGroup_effect {s t : State} {b : Byte} {u : Nat} (h : execJoinGroup b s u = .next t) : Effect s t := by
  refine .of_hostCommand ?_ h
  split
  · exact .refused s _
  next hst =>
  split
  · exact .refused s _
  split
  · exact .refused s _
  · exact .sought u _ (not_not.1 hst)

theorem openPairing_effect {s t : State} {b : Byte} (h : execOpenPairing b s = .next t) : Effect s t := by
  refine .of_hostCommand ?_ h
  split
  · exact .refused s _
  next hst =>
  split
  · exact .refused s _
  split
  · exact .refused s _
  split
  · exact .refused s _
  · exact .windowOpened _ (not_not.1 hst)

theorem closePairing_effect {s t : State} (h : execClosePairing s = .next t) : Effect s t := by
  refine .of_hostCommand ?_ h
  split
  · exact .windowClosed
  · exact .refused s _

theorem bearCall_effect {s t : State} (h : execBearCall s = .next t) : Effect s t := by
  refine .of_hostCommand ?_ h
  split
  · exact .refused s _
  next hfree =>
  split
  · exact .refused s _
  · exact .callBegun (not_not.1 (not_or.1 hfree).2)

theorem endCall_effect {s t : State} (h : execEndCall s = .next t) : Effect s t := by
  refine .of_hostCommand ?_ h
  split
  · exact .callEnded
  · exact .refused s _

theorem clearFault_effect {s t : State} (h : execClearFault s = .next t) : Effect s t := by
  refine .of_hostCommand ?_ h
  split
  · exact .faultCleared
  · exact .refused s _

theorem readBond_effect {s t : State} {b : Byte} (h : execReadBond b s = .next t) : Effect s t := by
  refine .of_hostCommand ?_ h
  split
  · exact .refused s _
  · exact .answered s _ _

theorem writeDownlink_effect {s t : State} {n : BitVec 16} (h : execWriteDownlink n s = .next t) : Effect s t := by
  refine .of_hostCommand ?_ h
  split
  · exact .refused s _
  split
  · exact .refused s _
  · exact .onlyPort s.now _

theorem readUplink_effect {s t : State} {n : BitVec 16} (h : execReadUplink n s = .next t) : Effect s t := by
  refine .of_hostCommand ?_ h
  split
  · exact .refused s _
  · exact .onlyPort s.now _

theorem readId_effect {s t : State} (h : execReadId s = .next t) : Effect s t := by
  refine .of_hostCommand ?_ h
  exact .answered s _ _

theorem readStatus_effect {s t : State} (h : execReadStatus s = .next t) : Effect s t := by
  refine .of_hostCommand ?_ h
  exact .answered s _ _

theorem readEvents_effect {s t : State} (h : execReadEvents s = .next t) : Effect s t := by
  refine .of_hostCommand ?_ h
  exact .eventsRead _

theorem readPeers_effect {s t : State} (h : execReadPeers s = .next t) : Effect s t := by
  refine .of_hostCommand ?_ h
  exact .answered s _ _

theorem setLevels_effect {s t : State} {v g : BitVec 16} (h : execSetLevels v g s = .next t) : Effect s t := by
  refine .of_hostCommand ?_ h
  exact .settings s.now _ s.mute _

theorem retireBond_effect {s t : State} {u : Nat} {b : Byte} (h : execRetireBond u b s = .next t) : Effect s t := by
  refine .of_hostCommand ?_ h
  exact .bondRetired u b

theorem lockBond_effect {s t : State} {u : Nat} {b : Byte} (h : execLockBond u b s = .next t) : Effect s t := by
  refine .of_hostCommand ?_ h
  exact .bondLocked u b

theorem eraseBond_effect {s t : State} {u : Nat} {b : Byte} (h : execEraseBond u b s = .next t) : Effect s t := by
  refine .of_hostCommand ?_ h
  exact .bondErased u b

theorem softReset_effect {s t : State} (h : execSoftReset s = .next t) : Effect s t := by
  refine .of_hostCommand ?_ h
  exact .onlyPort s.now _

theorem unknownCommand_effect {s t : State} {b : Byte} (h : execUnknownCommand b s = .next t) : Effect s t := by
  refine .of_hostCommand ?_ h
  exact .refused s _

/-! ### Samples, resets, the mute input -/

theorem downlinkSample_effect {s t : State} {v : Sample} (h : execDownlinkSample v s = .next t) : Effect s t := by
  unfold execDownlinkSample at h
  split at h
  · exact .of_whenever (fun _ => .sampleWritten _ v) h
  all_goals exact .of_next h

theorem uplinkSamplePosition_effect {s t : State} (h : execUplinkSamplePosition s = .next t) : Effect s t := by
  unfold execUplinkSamplePosition at h
  split at h
  · exact .of_whenever (fun _ => .sampleRead _) h
  · exact .of_whenever (fun _ => .onlyPort s.now _) h
  all_goals exact .of_next h

theorem csnRise_effect {s t : State} {u : Nat} {cut : CutChoice} (h : execCsnRise u cut s = .next t) :
    Effect s t := by
  refine .of_whenever (fun _ => ?_) h
  split
  · exact .softlyReset u cut
  · exact .onlyPort _ _

theorem resetEnd_effect {s t : State} {u : Nat} (h : execResetEnd u s = .next t) : Effect s t := by
  refine .of_whenever (fun hheld => .resetEnded u fun hnone => ?_) h
  simp [State.running, hnone] at hheld

theorem muteLineChange_effect {s t : State} {u : Nat} (h : execMuteLineChange u s = .next t) : Effect s t := by
  unfold execMuteLineChange at h
  split at h
  all_goals
    cases h
    exact .settings _ s.config _ s.port

theorem debounceExpiry_effect {s t : State} (h : execDebounceExpiry s = .next t) : Effect s t := by
  unfold execDebounceExpiry at h
  split at h
  · exact .of_next h
  · exact .of_whenever (fun _ => .settings _ s.config _ s.port) h

/-! ### Slots, cycle ends and their rows -/

theorem slotStart_effect {s t : State} (h : execSlotStart s = .next t) : Effect s t := by
  unfold execSlotStart at h
  split at h
  · exact .of_next h
  · exact .of_whenever (fun _ => .slotStarted _ _) h

theorem slotEnd_effect {s t : State} {order : ReceptionOrder} {air : List AirItem}
    (h : execSlotEnd order air s = .next t) : Effect s t := by
  unfold execSlotEnd at h
  split at h
  · exact .of_next h
  · exact .of_whenever (fun _ => .slotEnded _ _ order air) h

theorem cycleEnd_effect {s t : State} {order : DeadlineOrder} (h : execCycleEnd order s = .next t) : Effect s t := by
  unfold execCycleEnd at h
  split at h
  · exact .of_next h
  · exact .of_whenever (fun _ => .cycleEnded _ order) h

theorem listening_of_peerReaches {s : State} {n : StationNo} {m : Nat} (h : s.peerReaches n m = true) :
    s.station.state.listening = true := by
  simp only [State.peerReaches, Bool.and_eq_true] at h
  exact h.1.1

theorem stepJump_effect {s t : State} (h : execStepJump s = .next t) : Effect s t := by
  refine .of_earlyRow (fun c hdue => ?_) h
  exact .jumped c.planned c hdue

theorem peerSilent_effect {s t : State} {n : StationNo} (h : execPeerSilent n s = .next t) : Effect s t := by
  refine .of_earlyRow (fun c hdue => ?_) h
  exact .peerAged c.planned n (listening_of_peerReaches hdue)

theorem peerLost_effect {s t : State} {n : StationNo} (h : execPeerLost n s = .next t) : Effect s t := by
  refine .of_earlyRow (fun c hdue => ?_) h
  exact .peerLost c.planned n (listening_of_peerReaches hdue)

theorem peerRemoved_effect {s t : State} {n : StationNo} (h : execPeerRemoved n s = .next t) : Effect s t := by
  refine .of_earlyRow (fun c hdue => ?_) h
  exact .peerAged c.planned n (listening_of_peerReaches hdue)

theorem tentativeExpiry_effect {s t : State} {id : ClaimId} (h : execTentativeExpiry id s = .next t) : Effect s t := by
  refine .of_earlyRow (fun c _ => ?_) h
  exact .claimDecided c.planned id

theorem claimLost_effect {s t : State} {id : ClaimId} (h : execClaimLost id s = .next t) : Effect s t := by
  refine .of_earlyRow (fun c _ => ?_) h
  exact .claimDecided c.planned id

theorem holdoffExpiry_effect {s t : State} {id : ClaimId} (h : execHoldoffExpiry id s = .next t) : Effect s t := by
  refine .of_earlyRow (fun c _ => ?_) h
  exact .claimDecided c.planned id

theorem windowTimeout_effect {s t : State} (h : execPairingWindowTimeout s = .next t) : Effect s t := by
  refine .of_boundaryRow (fun n _ => ?_) h
  exact .windowCounted n _

theorem lapseExpiry_effect {s t : State} (h : execLapseMemoryExpiry s = .next t) : Effect s t := by
  refine .of_boundaryRow (fun n _ => ?_) h
  exact .lapseAged n _

theorem joinHoldExpiry_effect {s t : State} (h : execJoinHoldExpiry s = .next t) : Effect s t := by
  refine .of_earlyRow (fun c hdue => .newcomerDecided c.planned _ ?_) h
  simp only [Bool.and_eq_true, beq_iff_eq] at hdue
  exact hdue.1.1

theorem joinAttemptsExhausted_effect {s t : State} (h : execJoinAttemptsExhausted s = .next t) : Effect s t := by
  refine .of_earlyRow (fun c hdue => .newcomerDecided c.planned _ ?_) h
  simp only [Bool.and_eq_true, beq_iff_eq] at hdue
  exact hdue.1.1

theorem listenTimeout_effect {s t : State} (h : execListenTimeout s = .next t) : Effect s t := by
  refine .of_earlyRow (fun c hdue => .listenCounted c.planned ?_) h
  simp only [Bool.and_eq_true, beq_iff_eq] at hdue
  exact hdue.1

theorem seekTimeout_effect {s t : State} (h : execSeekTimeout s = .next t) : Effect s t := by
  refine .of_boundaryRow (fun n hdue => .seekCounted n ?_) h
  simp only [Bool.and_eq_true, beq_iff_eq] at hdue
  exact hdue.1

theorem sampleFrameStart_effect {s t : State} {cdin : CdinLevels} (h : execSampleFrameStart cdin s = .next t) :
    Effect s t := by
  unfold execSampleFrameStart at h
  split at h
  · exact .of_next h
  · refine .of_whenever (fun hdue => .sampleMoved _ cdin ?_) h
    simp only [Bool.and_eq_true, decide_eq_true_eq] at hdue
    exact hdue.2

/-! ### The bond store's own rows -/

theorem pendingWriteStart_effect {s t : State} (h : execPendingWriteStart s = .next t) : Effect s t := by
  unfold execPendingWriteStart at h
  split at h
  · exact .of_next h
  · refine .of_whenever (fun hdue => .writeStarted _ _ ?_) h
    simp only [Bool.and_eq_true, Option.isNone_iff_eq_none] at hdue
    exact hdue.2

theorem programDone_effect {s t : State} {held : Option BondValue} (h : execProgramDone held s = .next t) :
    Effect s t := by
  unfold execProgramDone at h
  split at h
  · next hf => exact .of_whenever (fun _ => .programEnded _ _ _ held hf) h
  · next hf => exact .of_whenever (fun _ => .eraseProgramEnded _ _ _ held hf) h
  · exact .of_next h

theorem erasePartDone_effect {s t : State} (h : execErasePartDone s = .next t) : Effect s t := by
  unfold execErasePartDone at h
  split at h
  · next hf => exact .of_whenever (fun _ => .erasePartEnded _ _ _ hf) h
  · exact .of_next h

theorem retireDone_effect {s t : State} (h : execRetireDone s = .next t) : Effect s t := by
  unfold execRetireDone at h
  split at h
  · next hf => exact .of_whenever (fun _ => .retireEnded _ _ hf) h
  · exact .of_next h

theorem lockDone_effect {s t : State} (h : execLockDone s = .next t) : Effect s t := by
  unfold execLockDone at h
  split at h
  · next hf => exact .of_whenever (fun _ => .lockEnded _ _ hf) h
  · exact .of_next h

theorem eraseDone_effect {s t : State} (h : execEraseDone s = .next t) : Effect s t := by
  unfold execEraseDone at h
  split at h
  · next hf => exact .of_whenever (fun _ => .eraseEnded _ _ hf) h
  · exact .of_next h

theorem scanRetireDone_effect {s t : State} (h : execScanRetireDone s = .next t) : Effect s t := by
  unfold execScanRetireDone at h
  split at h
  · next hf => exact .of_whenever (fun _ => .scanRetireEnded _ _ hf) h
  · exact .of_next h

/-! ### Every command -/

/-- The one place where the meaning of every command is opened. -/
theorem exec_effect {i : Instr} {s t : State} (h : exec i s = .next t) : Effect s t := by
  cases i with
  | readId => exact readId_effect h
  | writeConfig => exact writeConfig_effect h
  | start => exact start_effect h
  | stop => exact stop_effect h
  | foundGroup => exact foundGroup_effect h
  | joinGroup => exact joinGroup_effect h
  | openPairing => exact openPairing_effect h
  | closePairing => exact closePairing_effect h
  | bearCall => exact bearCall_effect h
  | endCall => exact endCall_effect h
  | setLevels => exact setLevels_effect h
  | readStatus => exact readStatus_effect h
  | readEvents => exact readEvents_effect h
  | readPeers => exact readPeers_effect h
  | readBond => exact readBond_effect h
  | retireBond => exact retireBond_effect h
  | lockBond => exact lockBond_effect h
  | eraseBond => exact eraseBond_effect h
  | clearFault => exact clearFault_effect h
  | writeDownlink => exact writeDownlink_effect h
  | readUplink => exact readUplink_effect h
  | softReset => exact softReset_effect h
  | unknownCommand code => exact unknownCommand_effect (b := code) h
  | downlinkSample => exact downlinkSample_effect h
  | uplinkSamplePosition => exact uplinkSamplePosition_effect h
  | csnRise => exact csnRise_effect h
  | powerOnReset cut =>
    cases h
    exact .resetTaken _ cut
  | rstnFall cut =>
    cases h
    exact .resetTaken _ cut
  | resetEnd => exact resetEnd_effect h
  | muteLineChange => exact muteLineChange_effect h
  | debounceExpiry => exact debounceExpiry_effect h
  | slotStart => exact slotStart_effect h
  | slotEnd => exact slotEnd_effect h
  | cycleEnd => exact cycleEnd_effect h
  | stepJump => exact stepJump_effect h
  | peerSilent => exact peerSilent_effect h
  | peerLost => exact peerLost_effect h
  | peerRemoved => exact peerRemoved_effect h
  | listenTimeout => exact listenTimeout_effect h
  | tentativeExpiry => exact tentativeExpiry_effect h
  | claimLost => exact claimLost_effect h
  | holdoffExpiry => exact holdoffExpiry_effect h
  | pairingWindowTimeout => exact windowTimeout_effect h
  | lapseMemoryExpiry => exact lapseExpiry_effect h
  | seekTimeout => exact seekTimeout_effect h
  | joinHoldExpiry => exact joinHoldExpiry_effect h
  | joinAttemptsExhausted => exact joinAttemptsExhausted_effect h
  | pendingWriteStart => exact pendingWriteStart_effect h
  | programDone => exact programDone_effect h
  | erasePartDone => exact erasePartDone_effect h
  | retireDone => exact retireDone_effect h
  | lockDone => exact lockDone_effect h
  | eraseDone => exact eraseDone_effect h
  | scanRetireDone => exact scanRetireDone_effect h
  | sampleFrameStart => exact sampleFrameStart_effect h
  | csnFall => exact .of_whenever (fun _ => .onlyPort s.now _) h

/-! ### A step -/

theorem step_effect {s t : State} (h : step s = .next t) : t = s ∨ ∃ rest, Effect (s.withPending rest) t := by
  unfold step at h
  split at h
  · cases h
    exact .inl rfl
  · exact .inr ⟨_, exec_effect h⟩

/-- The induction step of every invariant: what the queue does not touch and every effect keeps, a step keeps. -/
theorem step_keeps {P : State → Prop} (hqueue : ∀ s rest, P s → P (s.withPending rest))
    (heffect : ∀ s t, P s → Effect s t → P t) {s t : State} (hs : P s) (h : step s = .next t) : P t := by
  rcases step_effect h with rfl | ⟨rest, he⟩
  · exact hs
  · exact heffect _ _ (hqueue s rest hs) he

end Sys2Proof.Proofs.Effects
end

section
/-! PROOFS. What every step keeps: bond store, claims and role, pairing window, peer table. -/

namespace Sys2Proof.Proofs.Invariants

open Sys2Proof Sys2Proof.Machine Sys2Proof.Proofs.Effects

/-! ### The bond store (R157, R158) -/

theorem keeps_of_store_eq {s t : State} (h : s.bondsOk = true) (hst : t.store = s.store) :
    s.store.keeps t.store := by
  rw [hst]
  exact Store.keeps_refl h

theorem bondsOk_of_store_eq {s t : State} (h : s.bondsOk = true) (hst : t.store = s.store) : t.bondsOk = true :=
  State.bondsOk_of_keeps (keeps_of_store_eq h hst)

theorem keeps_trans {a b c : Store} (hab : a.keeps b) (hbc : b.keeps c) : a.keeps c := by
  obtain ⟨-, -, -, -, hlocked⟩ := hab
  obtain ⟨hlen, hall, hcopy, hflight, hlocked'⟩ := hbc
  refine ⟨hlen, hall, hcopy, hflight, fun i hi => ?_⟩
  rw [hlocked' i (by rwa [hlocked i hi]), hlocked i hi]

/-- The target of an operation in flight is one that the operation may act on. -/
theorem mayTarget_of_flight {s : State} (h : s.bondsOk = true) {f : Flight} (hf : s.store.flight = some f) :
    f.op.mayTarget (placeAt s.store.places f.place) = true := by
  obtain ⟨-, -, -, hflight⟩ := s.bondsOk_iff.1 h
  simp only [Store.flightOk, hf, Bool.and_eq_true] at hflight
  exact hflight.2

theorem requestWrite_keeps {s u : State} (h : s.bondsOk = true) (hu : u.store = s.store) (c : Credentials)
    (t : Nat) : s.store.keeps (u.requestWrite c t).store :=
  hu ▸ State.requestWrite_keeps (bondsOk_of_store_eq h hu) c t

theorem joinDone_store_keeps {s u : State} (h : s.bondsOk = true) (hu : u.store = s.store) (a : Accepted) (t : Nat) :
    s.store.keeps (u.joinDone a t).store := by
  have hwrite : (u.joinDone a t).store =
      (State.requestWrite { u with station := { u.station with creds := a.creds } } a.creds t).store := by
    simp [State.joinDone]
  rw [hwrite]
  exact requestWrite_keeps (u := { u with station := { u.station with creds := a.creds } }) h hu _ _

/-- The one end of a slot that reaches the store: a newcomer's entry requests its bond write (R96). -/
theorem ownSlotEnd_store_keeps {s u : State} (h : s.bondsOk = true) (hu : u.store = s.store) (k : SlotIx)
    (tr : Nat) : s.store.keeps (u.ownSlotEnd k tr).store := by
  have hsettled : (State.settleRole { u with voice := u.voice.left k, farEnd := u.farEnd.left k }).store = s.store := by
    simpa using hu
  unfold State.ownSlotEnd
  generalize State.settleRole { u with voice := u.voice.left k, farEnd := u.farEnd.left k } = v at *
  dsimp only
  split
  · exact keeps_of_store_eq h hsettled
  split
  · split
    · exact joinDone_store_keeps h hsettled _ _
    · exact keeps_of_store_eq h hsettled
  all_goals exact keeps_of_store_eq h hsettled

theorem endSlot_store_keeps {s : State} (h : s.bondsOk = true) (c : Cycle) (k : SlotIx) (order : ReceptionOrder)
    (air : List AirItem) : s.store.keeps (s.endSlot c k order air).store := by
  unfold State.endSlot
  split
  · have hclosed := fun tr e later => ownSlotEnd_store_keeps (u := s.closeSlot k tr e later) h (by simp) k tr
    simpa using hclosed _ _ _
  · exact keeps_of_store_eq h (by simp)

theorem startScan_store_keeps {s : State} (hlen : s.store.places.length = 16)
    (hall : s.store.places.all Place.ok = true) (t : Nat) : s.store.keeps (s.startScan t).store :=
  State.scanNext_keeps (s := { s with store := { s.store with copy := s.store.places } }) hlen hall rfl t

theorem endReset_store_keeps {s : State} (h : s.bondsOk = true) (t : Nat) : s.store.keeps (s.endReset t).store := by
  obtain ⟨hlen, hall, -, -⟩ := s.bondsOk_iff.1 h
  unfold State.endReset
  exact startScan_store_keeps (s := { s.atInstant t with hold := none, mute := s.mute.settle s.config.muteLow })
    hlen hall _

theorem takeReset_store_keeps {s : State} (h : s.bondsOk = true) (hold : Option ResetCause) (cut : CutChoice) :
    s.store.keeps (s.takeReset hold cut).store :=
  State.afterReset_keeps h cut

/-- An operation ends: its target takes the value `p`, and the copy, which may be behind on that place alone, follows. -/
theorem release_keeps {s u : State} (h : s.bondsOk = true) (hu : u.store = s.store) {i : Nat} {p : Place}
    (hp : p.ok = true) (hcopy : s.store.copy.set i p = s.store.places.set i p)
    (hfree : (placeAt s.store.places i).locked = false ∨ p = placeAt s.store.places i) :
    s.store.keeps ((u.setPlace i p).storeRelease).store := by
  rw [← hu] at hcopy hfree ⊢
  exact State.setPlace_release_keeps (bondsOk_of_store_eq h hu) hp hcopy (.inr fun j hj => locked_set hfree j hj)

theorem copy_set_of_flight {s : State} (h : s.bondsOk = true) {f : Flight} (hf : s.store.flight = some f) (p : Place) :
    s.store.copy.set f.place p = s.store.places.set f.place p := by
  obtain ⟨-, -, hcopy, -⟩ := s.bondsOk_iff.1 h
  by_cases hpart : ∃ v, f.op = .eraseProgram v true
  · obtain ⟨v, hop⟩ := hpart
    obtain ⟨op, i, b⟩ := f
    obtain rfl : op = .eraseProgram v true := hop
    rw [← Store.copyOk_erased hcopy hf, List.set_set]
  · rw [Store.copyOk_eq hcopy fun v i b hfl => hpart ⟨v, by rw [hfl] at hf; cases hf; rfl⟩]

theorem unlocked_of_flight {s : State} (h : s.bondsOk = true) {f : Flight} (hf : s.store.flight = some f)
    (hop : f.op ≠ .lock) : (placeAt s.store.places f.place).locked = false := by
  have hmay := mayTarget_of_flight h hf
  revert hmay hop
  cases f.op <;> simp [StoreOp.mayTarget]

/-- A program ends, with its place read back as written or not (R159). -/
theorem endProgram_keeps {s : State} (h : s.bondsOk = true) {f : Flight} (hf : s.store.flight = some f)
    (hop : f.op ≠ .lock) (v : BondValue) (held : Option BondValue) :
    s.store.keeps (s.endProgram f v held).store := by
  have hends := fun p (hp : p.ok = true) => release_keeps (u := s.atInstant f.finish) h rfl hp
    (copy_set_of_flight h hf p) (.inl (unlocked_of_flight h hf hop))
  unfold State.endProgram
  dsimp only
  split
  · exact hends _ rfl
  · exact hends { state := .opened, locked := false, value := held.getD v } rfl

/-- Every effect keeps the bond store sound and leaves its locked places alone. -/
theorem effect_store_keeps {s t : State} (h : s.bondsOk = true) (he : Effect s t) : s.store.keeps t.store := by
  cases he with
  | onlyPort | eventsRead | settings | timerStarted | started | listenStopped | joiningStopped | memberStopped
  | sought | windowOpened | windowClosed | callBegun | callEnded | sampleWritten | sampleRead | slotStarted
  | cycleEnded | jumped | peerAged | peerLost | listenCounted | claimDecided | newcomerDecided | windowCounted
  | lapseAged | seekCounted | sampleMoved =>
    exact keeps_of_store_eq h (by simp)
  | founded t c =>
    simpa using requestWrite_keeps (u := s.markTaken.atInstant t) h (by simp) c (max s.now t)
  | bondRetired t b =>
    refine State.storeCommand_keeps (s := s.markTaken) h t b _ _ _ (fun p _ _ hl => ?_) (fun v => by simp)
    simpa [StoreOp.mayTarget] using hl
  | bondLocked t b =>
    refine State.storeCommand_keeps (s := s.markTaken) h t b _ _ _ (fun p _ hacc _ => ?_) (fun v => by simp)
    simp only [lockAccepts, Bool.and_eq_true] at hacc
    exact hacc.1
  | bondErased t b =>
    refine State.storeCommand_keeps (s := s.markTaken) h t b _ _ _ (fun p _ _ hl => ?_) (fun v => by simp)
    simpa [StoreOp.mayTarget] using hl
  | faultCleared => exact Store.keeps_refl h
  | resetTaken hold cut => exact State.afterReset_keeps h cut
  | resetEnded t => exact endReset_store_keeps h t
  | softlyReset t cut =>
    have hreset : s.store.keeps (s.endTransaction.takeReset none cut).store := State.afterReset_keeps h cut
    exact keeps_trans hreset (endReset_store_keeps (State.bondsOk_of_keeps hreset) t)
  | slotEnded c k order air => exact endSlot_store_keeps h c k order air
  | writeStarted c t hf => exact State.startWrite_keeps h hf c t
  | programEnded i b v held hf => exact endProgram_keeps h hf (by simp) v held
  | eraseProgramEnded i b v held hf => exact endProgram_keeps h hf (by simp) v held
  | erasePartEnded i b v hf =>
    have hfree := unlocked_of_flight h hf (by simp)
    obtain ⟨hlen, hall, hcopy, hflight⟩ := s.bondsOk_iff.1 h
    have heq : s.store.copy = s.store.places := Store.copyOk_eq hcopy fun v i b hfl => by rw [hf] at hfl; cases hfl
    refine ⟨by simpa using hlen, placesOk_set hall rfl i, ?_, ?_, fun j hj => locked_set (.inl hfree) j hj⟩
    · simp [Store.copyOk, heq]
    · simp only [Store.flightOk, hf, Bool.and_eq_true] at hflight ⊢
      refine ⟨hflight.1, ?_⟩
      simp only [StoreOp.mayTarget, placeAt_set_eq]
      split <;> rfl
  | retireEnded i b hf =>
    have hfree := unlocked_of_flight h hf (by simp)
    exact release_keeps (u := s.atInstant (b + 1000)) h rfl (Place.retire_ok hfree)
      (copy_set_of_flight h hf _) (.inl hfree)
  | lockEnded i b hf =>
    have hvalid : (placeAt s.store.places i).state = .valid := by
      simpa [StoreOp.mayTarget] using mayTarget_of_flight h hf
    by_cases hl : (placeAt s.store.places i).locked = true
    · exact release_keeps (u := s.atInstant (b + 1000)) h rfl (Place.lock_ok hvalid)
        (copy_set_of_flight h hf _) (.inr (by rw [← hl]))
    · exact release_keeps (u := s.atInstant (b + 1000)) h rfl (Place.lock_ok hvalid)
        (copy_set_of_flight h hf _) (.inl (by simpa using hl))
  | eraseEnded i b hf =>
    exact release_keeps (u := s.atInstant (b + 80000)) h rfl rfl (copy_set_of_flight h hf _)
      (.inl (unlocked_of_flight h hf (by simp)))
  | scanRetireEnded i b hf =>
    have hfree := unlocked_of_flight h hf (by simp)
    obtain ⟨hlen, hall, -, -⟩ := s.bondsOk_iff.1 h
    obtain ⟨hlen', hall', hcopy', hflight', hlocked'⟩ :=
      State.scanNext_keeps (s := (s.atInstant (b + 1000)).setPlace i { placeAt s.store.places i with state := .retired })
        (by simpa using hlen) (placesOk_set hall (Place.retire_ok hfree) i) (copy_set_of_flight h hf _) (b + 1000)
    refine ⟨hlen', hall', hcopy', hflight', fun j hj => ?_⟩
    have hset := locked_set (p := { placeAt s.store.places i with state := .retired }) (.inl hfree) j hj
    exact (hlocked' j ((congrArg Place.locked hset).trans hj)).trans hset

theorem step_store_keeps {s t : State} (h : s.bondsOk = true) (hstep : step s = .next t) : s.store.keeps t.store :=
  step_keeps (P := fun u => s.store.keeps u.store) (fun _ _ hu => hu)
    (fun _ _ hu he => keeps_trans hu (effect_store_keeps (State.bondsOk_of_keeps hu) he)) (Store.keeps_refl h) hstep

/-- Settles O30: a step keeps the store, and keeping it leaves every locked place as it is. -/
theorem lockedBondsStay : Obligations.LockedBondsStay := by
  intro s t i hs hlocked hstep
  obtain ⟨-, -, -, -, hstays⟩ := step_store_keeps hs hstep
  exact hstays i hlocked

/-- Settles O58. -/
theorem everyStepKeepsTheBondStore : Obligations.EveryStepKeepsTheBondStore :=
  fun _ _ hs hstep => State.bondsOk_of_keeps (step_store_keeps hs hstep)

/-! ### The claims and the bearer's role (R62, Table 9-1) -/

theorem takeReset_claimsOk (s : State) (hold : Option ResetCause) (cut : CutChoice) :
    (s.takeReset hold cut).claimsOk = true := rfl

theorem endReset_claimsOk {s : State} (h : s.claimsOk = true) (t : Nat) : (s.endReset t).claimsOk = true :=
  State.claimsOk_of h (by simp [State.endReset]) (by simp [State.endReset]) (by simp [State.endReset])

theorem decideEarly_claimsOk {s : State} (h : s.claimsOk = true)
    (id : ClaimId) : (s.decideEarly id).claimsOk = true := by
  have hhold : ∀ ps, (s.claimFacts ps).hold ≤ 255 := fun _ => (holdLength_le _).trans (by decide)
  cases id with
  | voice => exact State.decideVoice_claimsOk h (hhold _)
  | farEnd => exact State.decideFar_claimsOk h (hhold _)

theorem countListen_claimsOk {s : State} (h : s.claimsOk = true) : s.countListen.claimsOk = true := by
  unfold State.countListen
  dsimp only
  split
  · exact State.enterMember_claimsOk (s := { s with station := _ }) h
  · exact h

theorem acceptDownlink_bearer_state (s : State) (v : Sample) : (s.acceptDownlink v).bearer.state = s.bearer.state := by
  unfold State.acceptDownlink
  split
  · split <;> rfl
  · rfl

theorem takePosition_bearer_state (s : State) : s.takePosition.bearer.state = s.bearer.state := by
  unfold State.takePosition
  split <;> rfl

theorem callBegun_claimsOk {s : State} (h : s.claimsOk = true) :
    ({ s with bearer := { Bearer.none with state := .claiming }, farEnd := Claim.inState .waiting } : State).claimsOk =
      true := by
  obtain ⟨hvoice, -, -, -⟩ := s.claimsOk_iff.1 h
  refine (State.claimsOk_iff _).2 ⟨hvoice, rfl, ?_, rfl⟩
  rcases Option.eq_none_or_eq_some s.voice.slot with hnone | ⟨k, hk⟩
  · exact .inl hnone
  · exact .inr (by simp [hk, Claim.inState])

theorem stepJump_settled_claimsOk {s : State} (h : s.claimsOk = true) (c : Cycle) :
    (s.stepJump c).settleRole.claimsOk = true := by
  refine State.jump_settle_claimsOk h ?_ ?_ ?_
  all_goals simp [State.stepJump, State.makeJump, State.jumpClaims]

theorem effect_claimsOk {s t : State} (h : s.claimsOk = true) (he : Effect s t) : t.claimsOk = true := by
  cases he with
  | onlyPort | eventsRead | settings | timerStarted | started | listenStopped | joiningStopped | founded
  | sought | windowOpened | windowClosed | bondRetired | bondLocked | bondErased | faultCleared
  | slotStarted | peerAged | peerLost | newcomerDecided | windowCounted
  | lapseAged | seekCounted | writeStarted | programEnded | eraseProgramEnded | erasePartEnded | retireEnded
  | lockEnded | eraseEnded | scanRetireEnded | sampleMoved =>
    exact State.claimsOk_of h (by simp) (by simp) (by simp)
  | sampleWritten => exact State.claimsOk_of h (by simp) (by simp) (acceptDownlink_bearer_state _ _)
  | sampleRead => exact State.claimsOk_of h (by simp) (by simp) (takePosition_bearer_state _)
  | memberStopped t => exact State.stopMember_claimsOk (s := s.markTaken.atInstant t) h
  | callBegun => exact callBegun_claimsOk (s := s.markTaken) h
  | callEnded => exact State.endRole_claimsOk (s := s.markTaken) h
  | resetTaken hold cut => exact takeReset_claimsOk s hold cut
  | resetEnded t => exact endReset_claimsOk h t
  | softlyReset t cut => exact endReset_claimsOk (takeReset_claimsOk _ _ cut) t
  | slotEnded c k order air => exact State.endSlot_claimsOk h c k order air
  | cycleEnded c order => exact State.endCycle_claimsOk h c order
  | jumped t c => exact stepJump_settled_claimsOk (s := s.atInstant t) h c
  | listenCounted t => exact countListen_claimsOk (s := s.atInstant t) h
  | claimDecided t id => exact decideEarly_claimsOk (s := s.atInstant t) h id

/-- Settles O56. -/
theorem everyStepKeepsClaimsAndRole : Obligations.EveryStepKeepsClaimsAndRole :=
  fun _ _ => step_keeps (fun _ _ h => h) fun _ _ => effect_claimsOk

/-! ### The pairing window (R79) -/

theorem countListen_windowOk {s : State} (h : s.windowOk = true) : s.countListen.windowOk = true := by
  unfold State.countListen
  dsimp only
  split
  · exact State.enterMember_windowOk (s := { s with station := _ }) h
  · exact h

theorem leavesClosed_windowOk {s u : State} (h : s.windowOk = true) (hst : s.station.state ≠ .member)
    (hw : u.pairing.window = s.pairing.window) (ho : u.pairing.offer = s.pairing.offer)
    (hl : u.pairing.lapse = s.pairing.lapse) : u.windowOk = true :=
  State.windowOk_of_closed h (State.windowOk_closed h hst) hw ho hl

theorem afterSending_windowOk {s t : State} (h : s.windowOk = true) (k : BurstKind)
    (hp : t.pairing = s.pairing.afterSending k) (hs : t.station.state = s.station.state) : t.windowOk = true := by
  revert h
  cases k <;> simp [State.windowOk, State.windowOpen, hp, hs, Pairing.afterSending]

theorem startSlot_windowOk {s : State} (h : s.windowOk = true) (c : Cycle) (k : SlotIx) :
    (s.startSlot c k).windowOk = true := by
  unfold State.startSlot
  dsimp only
  split
  · exact h
  · next b _ => exact afterSending_windowOk h b.kind rfl rfl

theorem effect_windowOk {s t : State} (h : s.windowOk = true) (he : Effect s t) : t.windowOk = true := by
  cases he with
  | onlyPort | eventsRead | settings | callBegun | callEnded | bondRetired | bondLocked | bondErased | faultCleared
  | sampleWritten | sampleRead | peerAged | peerLost | claimDecided | writeStarted | programEnded
  | eraseProgramEnded | erasePartEnded | retireEnded | lockEnded | eraseEnded | scanRetireEnded | sampleMoved =>
    exact State.windowOk_of h (by simp) (by simp)
  | timerStarted _ _ hst | started _ _ hst | listenStopped _ hst | founded _ _ hst | sought _ _ hst =>
    exact leavesClosed_windowOk h (by simp [hst]) (by simp) (by simp) (by simp)
  | joiningStopped _ hst =>
    exact leavesClosed_windowOk h (by rcases hst with hst | hst <;> simp [hst]) (by simp) (by simp) (by simp)
  | memberStopped t => exact State.stopMember_windowOk (s := s.markTaken.atInstant t) h
  | windowOpened k hst => exact State.openWindow_windowOk (s := s.markTaken) hst k
  | windowClosed => exact State.closeWindow_windowOk (s := s.markTaken) h .closed
  | resetTaken hold cut => rfl
  | resetEnded t => exact State.windowOk_of h (by simp [State.endReset]) (by simp [State.endReset])
  | softlyReset t cut =>
    exact State.windowOk_of (s := s.takeReset none cut) rfl (by simp [State.endReset]; rfl)
      (by simp [State.endReset]; rfl)
  | slotStarted c k => exact startSlot_windowOk h c k
  | slotEnded c k order air => exact State.endSlot_windowOk h c k order air
  | cycleEnded c order => exact State.endCycle_windowOk h c order
  | jumped t c =>
    exact State.windowOk_of (State.stepJump_windowOk (s := s.atInstant t) h c) (by simp) (by simp)
  | listenCounted t => exact countListen_windowOk (s := s.atInstant t) h
  | newcomerDecided t e hst =>
    exact State.decideNewcomer_windowOk (s := s.atInstant t) h (by simp [hst])
  | windowCounted t e => exact State.countWindow_windowOk (s := s.atInstant t) h
  | lapseAged t e => exact State.ageLapse_windowOk (s := s.atInstant t) h
  | seekCounted t hst => exact State.countSeek_windowOk (s := s.atInstant t) h (by simp [hst])

/-- Settles O57. -/
theorem everyStepKeepsTheWindow : Obligations.EveryStepKeepsTheWindow :=
  fun _ _ => step_keeps (fun _ _ h => h) fun _ _ => effect_windowOk

/-! ### The peer table (R44) -/

/-- A table that has not changed is sound in every station state that may have peers. -/
theorem peersOk_of_table {s t : State} (h : s.peersOk = true) (hp : t.peers = s.peers)
    (hc : t.station.creds = s.station.creds) (hst : t.station.state.noPeers = false) : t.peersOk = true := by
  refine State.peersOk_held ?_ hst
  rw [hp, hc]
  exact (s.peersOk_iff.1 h).1

theorem peersOk_of_noPeers {s t : State} (h : s.peersOk = true) (hst : s.station.state.noPeers = true)
    (hp : t.peers = s.peers) : t.peersOk = true :=
  State.peersOk_nil (hp.trans ((s.peersOk_iff.1 h).2 hst))

theorem agePeer_number {skip : List StationNo} {p q : Peer} (h : agePeer skip p = some q) : q.number = p.number := by
  unfold agePeer at h
  split at h
  · cases h
    rfl
  split at h
  · cases h
  · cases h
    rfl

theorem stopMember_creds (s : State) : s.stopMember.station.creds = s.station.creds := by
  simp [State.stopMember]

theorem agePeerEarly_peersOk {s : State} (h : s.peersOk = true)
    (n : StationNo) : (s.agePeerEarly n).peersOk = true := by
  obtain ⟨htable, hnone⟩ := s.peersOk_iff.1 h
  refine (State.peersOk_iff _).2 ⟨tableOk_filterMap (fun p q hq => ?_) htable, fun hst => ?_⟩
  · split at hq
    · exact agePeer_number hq
    · cases hq
      rfl
  · simp [State.agePeerEarly, hnone hst]

theorem effect_peersOk {s t : State} (h : s.peersOk = true) (he : Effect s t) : t.peersOk = true := by
  cases he with
  | onlyPort | eventsRead | settings | windowOpened | windowClosed | callBegun | callEnded | bondRetired | bondLocked
  | bondErased | faultCleared | sampleWritten | sampleRead | slotStarted | jumped | claimDecided
  | windowCounted | lapseAged
  | writeStarted | programEnded | eraseProgramEnded | erasePartEnded | retireEnded | lockEnded | eraseEnded
  | scanRetireEnded | sampleMoved =>
    exact State.peersOk_of h (by simp) (by simp)
  | timerStarted | listenStopped | joiningStopped => exact peersOk_of_table h (by simp) (by simp) rfl
  | memberStopped => exact peersOk_of_table h (by simp) (stopMember_creds _) rfl
  | started => exact State.peersOk_nil rfl
  | founded => exact State.peersOk_nil rfl
  | sought => exact State.peersOk_nil rfl
  | resetTaken hold cut => rfl
  | resetEnded t => exact State.peersOk_of h (by simp [State.endReset]) (by simp [State.endReset])
  | softlyReset t cut => exact State.peersOk_nil (by simp [State.endReset]; rfl)
  | slotEnded c k order air => exact State.endSlot_peersOk h c k order air
  | cycleEnded c order => exact State.endCycle_peersOk h c order
  | peerAged t n => exact agePeerEarly_peersOk (s := s.atInstant t) h n
  | peerLost t n => exact agePeerEarly_peersOk (s := s.atInstant t) h n
  | listenCounted t hst | newcomerDecided t e hst | seekCounted t hst =>
    exact peersOk_of_noPeers h (by simp [hst, StationState.noPeers]) (by simp)

/-- Settles O55. -/
theorem everyStepKeepsThePeerTable : Obligations.EveryStepKeepsThePeerTable :=
  fun _ _ => step_keeps (fun _ _ h => h) fun _ _ => effect_peersOk

end Sys2Proof.Proofs.Invariants
end

section
/-! PROOFS. What every step keeps: the sizes of views, frames, payloads and phone queues (R7, R34, R59, R113, R140). -/

namespace Sys2Proof.Proofs.SizesKept

open Sys2Proof Sys2Proof.Machine Sys2Proof.Proofs.Effects

/-! ### The sized parts of the state -/

def ViewsSized (v : Views) : Prop := v.filling.length = 16 ∧ v.v1.length = 16 ∧ v.v2.length = 16

def CodecSized (c : Codec) : Prop := c.capture.length = 160 ∧ c.playout.length = 160 ∧ c.frameIx ≤ 160

def StreamsSized (x : Streams) : Prop :=
  x.wearers.length = 8 ∧ (∀ r ∈ x.wearers, r.framesOk = true) ∧ x.farEnd.framesOk = true ∧
    ∀ e ∈ x.list, e.outcome.frameOk = true

def QueuesSized (b : Bearer) : Prop := b.downlink.length ≤ 640 ∧ b.uplink.length ≤ 640

theorem sizesOk_iff (s : State) :
    s.sizesOk = true ↔
      ViewsSized s.views ∧ CodecSized s.codec ∧ StreamsSized s.streams ∧ s.chan.payloadsOk = true ∧
        QueuesSized s.bearer := by
  simp only [State.sizesOk, ViewsSized, CodecSized, StreamsSized, QueuesSized, frameOk, Bool.and_eq_true,
    decide_eq_true_eq, List.all_eq_true, and_assoc]

/-- The same contents where sizes are fixed. -/
structure SameContents (s t : State) : Prop where
  views : t.views = s.views
  codec : t.codec = s.codec
  streams : t.streams = s.streams
  voicePayload : t.chan.voicePayload = s.chan.voicePayload
  farPayload : t.chan.farPayload = s.chan.farPayload
  downlink : t.bearer.downlink = s.bearer.downlink
  uplink : t.bearer.uplink = s.bearer.uplink

theorem payloadsOk_congr {c d : Channel} (hv : d.voicePayload = c.voicePayload) (hf : d.farPayload = c.farPayload) :
    d.payloadsOk = c.payloadsOk := by
  simp only [Channel.payloadsOk, hv, hf]

theorem queuesSized_congr {b d : Bearer} (hd : d.downlink = b.downlink) (hu : d.uplink = b.uplink) (h : QueuesSized b) :
    QueuesSized d := by
  simpa only [QueuesSized, hd, hu] using h

theorem sizesOk_of_same {s t : State} (h : s.sizesOk = true) (hsame : SameContents s t) : t.sizesOk = true := by
  obtain ⟨hviews, hcodec, hstreams, hpay, hqueues⟩ := (sizesOk_iff s).1 h
  obtain ⟨ev, ec, es, evp, efp, ed, eu⟩ := hsame
  exact (sizesOk_iff t).2
    ⟨ev ▸ hviews, ec ▸ hcodec, es ▸ hstreams, (payloadsOk_congr evp efp).trans hpay, queuesSized_congr ed eu hqueues⟩

theorem sizesOk_of_views {s t : State} (h : s.sizesOk = true) (hviews : ViewsSized t.views)
    (hsame : SameContents s { t with views := s.views }) : t.sizesOk = true := by
  obtain ⟨-, hcodec, hstreams, hpay, hqueues⟩ := (sizesOk_iff _).1 (sizesOk_of_same h hsame)
  exact (sizesOk_iff t).2 ⟨hviews, hcodec, hstreams, hpay, hqueues⟩

theorem sizesOk_of_streams {s t : State} (h : s.sizesOk = true) (hstreams : StreamsSized t.streams)
    (hsame : SameContents s { t with streams := s.streams }) : t.sizesOk = true := by
  obtain ⟨hviews, hcodec, -, hpay, hqueues⟩ := (sizesOk_iff _).1 (sizesOk_of_same h hsame)
  exact (sizesOk_iff t).2 ⟨hviews, hcodec, hstreams, hpay, hqueues⟩

theorem viewsSized_unknown : ViewsSized Views.unknown := ⟨rfl, rfl, rfl⟩

/-! ### Views and transitions -/

theorem forgetViews_sizesOk {s : State} (h : s.sizesOk = true) : s.forgetViews.sizesOk = true :=
  sizesOk_of_views h viewsSized_unknown ⟨rfl, rfl, rfl, rfl, rfl, rfl, rfl⟩

theorem turn_payloads (ch : Channel) (was now : Bool) (t : Nat) :
    (ch.turn was now t).voicePayload = ch.voicePayload ∧ (ch.turn was now t).farPayload = ch.farPayload := by
  cases was <;> cases now <;> exact ⟨rfl, rfl⟩

theorem enter_sizesOk {s : State} (h : s.sizesOk = true) (st : StationState) : (s.enter st).sizesOk = true :=
  sizesOk_of_same h ⟨rfl, rfl, rfl, (turn_payloads _ _ _ _).1, (turn_payloads _ _ _ _).2, rfl, rfl⟩

theorem enterMember_sizesOk {s : State} (h : s.sizesOk = true) : s.enterMember.sizesOk = true :=
  sizesOk_of_same (forgetViews_sizesOk (enter_sizesOk h .member)) ⟨rfl, rfl, rfl, rfl, rfl, rfl, rfl⟩

theorem enterListen_sizesOk {s : State} (h : s.sizesOk = true) (c : Credentials) : (s.enterListen c).sizesOk = true :=
  forgetViews_sizesOk (enter_sizesOk (s := { s with peers := [], station := _ }) h .listen)

theorem align_sizesOk {s : State} (h : s.sizesOk = true) (c : Cycle) (p : Int) (tr : Nat) :
    (s.align c p tr).sizesOk = true :=
  sizesOk_of_views h viewsSized_unknown ⟨rfl, rfl, rfl, rfl, rfl, rfl, rfl⟩

theorem closeWindow_sizesOk {s : State} (h : s.sizesOk = true) (c : CloseCause) : (s.closeWindow c).sizesOk = true :=
  sizesOk_of_same h (by constructor <;> simp)

theorem pairTimeout_sizesOk {s : State} (h : s.sizesOk = true) : s.pairTimeout.sizesOk = true :=
  enter_sizesOk (s := s.dropNewcomer) h .idle

/-! ### Stream records -/

theorem length_silence : silence.length = 160 := List.length_replicate

theorem framesOk_iff (r : StreamRec) :
    r.framesOk = true ↔ r.current.length = 160 ∧ r.lastGood.length = 160 := by
  simp [StreamRec.framesOk, frameOk]

theorem toAbsent_framesOk {r : StreamRec} (h : r.framesOk = true) : r.toAbsent.framesOk = true :=
  (framesOk_iff _).2 ⟨length_silence, ((framesOk_iff r).1 h).2⟩

theorem silenced_framesOk {r : StreamRec} (h : r.framesOk = true) : r.silenced.framesOk = true :=
  toAbsent_framesOk (r := r) h

theorem hushed_framesOk {r : StreamRec} (h : r.framesOk = true) (n : StationNo) : (r.hushed n).framesOk = true :=
  (framesOk_iff _).2 ⟨length_silence, ((framesOk_iff r).1 h).2⟩

theorem take_framesOk {f : Frame} (hf : f.length = 160) (r : StreamRec) (n : StationNo) (b : Bool) :
    (r.take f n b).framesOk = true := by
  unfold StreamRec.take
  split
  · exact (framesOk_iff _).2 ⟨by simpa [rampFrame] using hf, hf⟩
  · exact (framesOk_iff _).2 ⟨hf, hf⟩

theorem nothing_framesOk {r : StreamRec} (h : r.framesOk = true) : r.nothing.framesOk = true := by
  obtain ⟨-, hgood⟩ := (framesOk_iff r).1 h
  unfold StreamRec.nothing
  dsimp only
  split
  · exact toAbsent_framesOk h
  · exact (framesOk_iff _).2 ⟨length_silence, hgood⟩
  all_goals
    split
    · exact (framesOk_iff _).2 ⟨hgood, hgood⟩
    split
    · exact (framesOk_iff _).2 ⟨by simpa [halfFrame] using hgood, hgood⟩
    · exact (framesOk_iff _).2 ⟨length_silence, hgood⟩

theorem outcome_framesOk {r : StreamRec} (h : r.framesOk = true) {o : RxOutcome} (ho : o.frameOk = true)
    (n : StationNo) (b : Bool) : (r.outcome o n b).framesOk = true := by
  cases o with
  | hush => exact hushed_framesOk h n
  | frame f e => exact take_framesOk (of_decide_eq_true ho) r n b

theorem decodedOutcome_frameOk {p : Payload} (h : payloadOk p = true) : (decodedOutcome p).frameOk = true :=
  decodePayload_ok h

theorem rxLookup_frameOk {l : List RxEntry} (hl : ∀ e ∈ l, e.outcome.frameOk = true) {n : StationNo} {far : Bool}
    {o : RxOutcome} (h : rxLookup n far l = some o) : o.frameOk = true := by
  obtain ⟨e, he, rfl⟩ := Option.map_eq_some_iff.1 h
  exact hl e (List.mem_of_find?_eq_some he)

theorem wearerChoice_frameOk {l : List RxEntry} (hl : ∀ e ∈ l, e.outcome.frameOk = true) {pref : StationNo}
    {partner : Option StationNo} {n : StationNo} {o : RxOutcome} {b : Bool}
    (h : wearerChoice l pref partner = some (n, o, b)) : o.frameOk = true := by
  have hpartner : ∀ {m p c}, (partner.bind fun k => (rxLookup k false l).map fun o => (k, o, true)) = some (m, p, c) →
      p.frameOk = true := by
    intro m p c hp
    obtain ⟨k, -, hk⟩ := Option.bind_eq_some_iff.1 hp
    obtain ⟨q, hq, heq⟩ := Option.map_eq_some_iff.1 hk
    cases heq
    exact rxLookup_frameOk hl hq
  unfold wearerChoice at h
  dsimp only at h
  split at h
  · cases h
    rfl
  · cases h
    rfl
  · next hpref _ =>
    cases h
    exact rxLookup_frameOk hl hpref
  · exact hpartner h

theorem updateWearer_framesOk {l : List RxEntry} (hl : ∀ e ∈ l, e.outcome.frameOk = true) (who : List StationNo)
    {r : StreamRec} (h : r.framesOk = true) : (updateWearer l who r).1.framesOk = true := by
  unfold updateWearer
  split
  · exact toAbsent_framesOk h
  split
  · next hc => exact outcome_framesOk h (wearerChoice_frameOk hl hc) _ _
  · exact nothing_framesOk h

theorem payloadOk_of_voice {ch : Channel} (h : ch.payloadsOk = true) {p : Payload} (hp : ch.voicePayload = .frame p) :
    payloadOk p = true := by
  simp only [Channel.payloadsOk, hp, Bool.and_eq_true] at h
  exact h.1

theorem payloadOk_of_far {ch : Channel} (h : ch.payloadsOk = true) {p : Payload} (hp : ch.farPayload = some p) :
    payloadOk p = true := by
  simp only [Channel.payloadsOk, hp, Bool.and_eq_true] at h
  exact h.2

theorem payloadsOk_of {ch : Channel} (hv : ∀ p, ch.voicePayload = .frame p → payloadOk p = true)
    (hf : ∀ p, ch.farPayload = some p → payloadOk p = true) : ch.payloadsOk = true := by
  unfold Channel.payloadsOk
  rw [Bool.and_eq_true]
  constructor
  · split
    · next hp => exact hv _ hp
    · rfl
    · rfl
  · split
    · next hp => exact hf _ hp
    · rfl

theorem updateOwnWearer_framesOk {p : VoicePayload} (hp : ∀ q, p = .frame q → payloadOk q = true) (n : StationNo)
    {r : StreamRec} (h : r.framesOk = true) : (updateOwnWearer p n r).1.framesOk = true := by
  cases p with
  | frame q => exact outcome_framesOk h (decodedOutcome_frameOk (hp q rfl)) _ _
  | hush => exact hushed_framesOk h n
  | none => exact toAbsent_framesOk h

theorem wearerAtDeadline_framesOk {s : State} (h : s.sizesOk = true) (ps : List Peer) (w : Nat) {r : StreamRec}
    (hr : r.framesOk = true) : (s.wearerAtDeadline ps w r).framesOk = true := by
  obtain ⟨-, -, ⟨-, -, -, hlist⟩, hpay, -⟩ := (sizesOk_iff s).1 h
  unfold State.wearerAtDeadline
  dsimp only
  split
  · exact updateOwnWearer_framesOk (fun q hq => payloadOk_of_voice hpay hq) _ hr
  · exact updateWearer_framesOk hlist _ hr

theorem farTested_framesOk {s : State} (h : s.sizesOk = true) (ps : List Peer) : (s.farTested ps).framesOk = true := by
  obtain ⟨-, -, ⟨-, -, hfar, -⟩, -, -⟩ := (sizesOk_iff s).1 h
  unfold State.farTested
  split
  · exact toAbsent_framesOk hfar
  · exact hfar

theorem peerFarFeed_framesOk {l : List RxEntry} (hl : ∀ e ∈ l, e.outcome.frameOk = true) (src : Option StationNo)
    {r : StreamRec} (h : r.framesOk = true) : (peerFarFeed l src r).1.framesOk = true := by
  unfold peerFarFeed
  split
  · exact toAbsent_framesOk h
  split
  · next hfound => exact outcome_framesOk h (rxLookup_frameOk hl hfound) _ _
  · exact nothing_framesOk h

theorem ownFarFeed_framesOk {p : Option Payload} (hp : ∀ q, p = some q → payloadOk q = true) (o : TakeOutcome)
    (n : StationNo) {r : StreamRec} (h : r.framesOk = true) : (ownFarFeed o p n r).1.framesOk = true := by
  unfold ownFarFeed
  split
  · exact outcome_framesOk h (decodedOutcome_frameOk (hp _ rfl)) _ _
  · exact nothing_framesOk h
  · exact hushed_framesOk h n
  · exact nothing_framesOk h

theorem farDecided_framesOk {s : State} (h : s.sizesOk = true) (ps : List Peer) :
    (s.farDecided ps).1.framesOk = true := by
  obtain ⟨-, -, ⟨-, -, -, hlist⟩, hpay, -⟩ := (sizesOk_iff s).1 h
  unfold State.farDecided
  split
  · exact peerFarFeed_framesOk hlist _ (farTested_framesOk h ps)
  · exact ownFarFeed_framesOk (fun q hq => payloadOk_of_far hpay hq) _ _ (farTested_framesOk h ps)

theorem updateStreams_streamsSized {s : State} (h : s.sizesOk = true) (ps : List Peer) :
    StreamsSized (s.updateStreams ps).streams := by
  obtain ⟨-, -, ⟨hlen, hwearers, hfar, -⟩, -, -⟩ := (sizesOk_iff s).1 h
  unfold State.updateStreams
  split
  · unfold State.updateFromAir
    rw [State.raiseFarEvents_streams]
    refine ⟨by simpa using hlen, fun r hr => ?_, farDecided_framesOk h ps, by simp⟩
    obtain ⟨w, hw, rfl⟩ := List.mem_mapIdx.1 hr
    exact wearerAtDeadline_framesOk h ps w (hwearers _ (List.getElem_mem hw))
  · have hstreams : s.silenceStreams.streams =
        { wearers := s.streams.wearers.map StreamRec.silenced, farEnd := s.streams.farEnd.silenced, list := [] } := by
      simp [State.silenceStreams]
    rw [hstreams]
    refine ⟨by simpa using hlen, fun r hr => ?_, silenced_framesOk hfar, nofun⟩
    obtain ⟨q, hq, rfl⟩ := List.mem_map.1 hr
    exact silenced_framesOk (hwearers q hq)

theorem updateStreams_sizesOk {s : State} (h : s.sizesOk = true) (ps : List Peer) :
    (s.updateStreams ps).sizesOk = true :=
  sizesOk_of_streams h (updateStreams_streamsSized h ps)
    { views := by simp, codec := by simp, streams := rfl, voicePayload := by simp, farPayload := by simp,
      downlink := by simp, uplink := by simp }

theorem farRecordAbsent_sizesOk {s : State} (h : s.sizesOk = true) : s.farRecordAbsent.sizesOk = true := by
  obtain ⟨-, -, ⟨hlen, hwearers, hfar, hlist⟩, -, -⟩ := (sizesOk_iff s).1 h
  refine sizesOk_of_streams h ?_ (by constructor <;> simp)
  have hstreams : s.farRecordAbsent.streams = { s.streams with farEnd := s.streams.farEnd.toAbsent } := by
    simp [State.farRecordAbsent]
  rw [hstreams]
  exact ⟨hlen, hwearers, toAbsent_framesOk hfar, hlist⟩

theorem farSourceGone_sizesOk {s : State} (h : s.sizesOk = true)
    (n : StationNo) : (s.farSourceGone n).sizesOk = true := by
  unfold State.farSourceGone
  split
  · exact farRecordAbsent_sizesOk h
  · exact h

theorem wearersLose_sizesOk {s : State} (h : s.sizesOk = true) (n : StationNo) : (s.wearersLose n).sizesOk = true := by
  obtain ⟨-, -, ⟨hlen, hwearers, hfar, hlist⟩, -, -⟩ := (sizesOk_iff s).1 h
  refine sizesOk_of_streams h ⟨by simpa [State.wearersLose] using hlen, fun r hr => ?_, hfar, hlist⟩
    (by constructor <;> simp)
  obtain ⟨w, hw, rfl⟩ := List.mem_mapIdx.1 hr
  have hold := hwearers _ (List.getElem_mem hw)
  unfold StreamRec.afterLoss
  split
  · exact toAbsent_framesOk hold
  · exact hold

/-! ### The bearer's role and the yields -/

theorem bearerToNone_sizesOk {s : State} (h : s.sizesOk = true) : s.bearerToNone.sizesOk = true := by
  obtain ⟨hviews, hcodec, hstreams, hpay, -⟩ := (sizesOk_iff s).1 h
  exact farRecordAbsent_sizesOk ((sizesOk_iff _).2 ⟨hviews, hcodec, hstreams, hpay, by simp [QueuesSized, Bearer.none]⟩)

theorem endRole_sizesOk {s : State} (h : s.sizesOk = true) : s.endRole.sizesOk = true := by
  unfold State.endRole
  split
  · split
    · exact sizesOk_of_same h ⟨rfl, rfl, rfl, rfl, rfl, rfl, rfl⟩
    · exact bearerToNone_sizesOk (s := { s with farEnd := _ }) h
  · exact h

theorem settleRole_sizesOk {s : State} (h : s.sizesOk = true) : s.settleRole.sizesOk = true := by
  unfold State.settleRole
  split
  · exact bearerToNone_sizesOk h
  · exact h

theorem electionYield_sizesOk {s : State} (h : s.sizesOk = true) : s.electionYield.sizesOk = true :=
  bearerToNone_sizesOk (s := { s with farEnd := _ }) h

theorem clashYield_sizesOk {s : State} (h : s.sizesOk = true) : s.clashYield.sizesOk = true :=
  enter_sizesOk (closeWindow_sizesOk (bearerToNone_sizesOk
    (s := { s with voice := Claim.inState .none, farEnd := Claim.inState .none }) h) .yielded) .idle

theorem stopMember_sizesOk {s : State} (h : s.sizesOk = true) : s.stopMember.sizesOk = true := by
  have hended := endRole_sizesOk (closeWindow_sizesOk h .closed)
  exact enter_sizesOk (s := { (s.closeWindow .closed).endRole with voice := _ }) hended .leaving

/-! ### Receptions -/

theorem bodyOfBytes_frame_ok {k : BurstKind} {hush : Bool} {bs : List Byte} {p : Payload}
    (h : bodyOfBytes k hush bs = some (.frame p)) (hlen : bs.length = payloadLength k hush) : payloadOk p = true := by
  have hblocks : blocksOfBytes 5 bs = some p → bs.length = 165 → payloadOk p = true := by
    intro hb hl
    obtain ⟨hfive, hall⟩ := blocksOfBytes_ok hb (by rw [hl])
    simpa [payloadOk, hfive] using hall
  cases k with
  | voice | farend =>
    cases hush with
    | true => simp [bodyOfBytes] at h
    | false => exact hblocks (by simpa [bodyOfBytes] using h) (by simpa [payloadLength] using hlen)
  | leave => simp [bodyOfBytes] at h
  | join => simp [bodyOfBytes] at h
  | offer => simp [bodyOfBytes] at h
  | confirm => simp [bodyOfBytes, Option.bind_eq_some_iff] at h

theorem parseBurst_frame_ok {bs : List Byte} {b : Burst} (h : parseBurst bs = some b) {p : Payload}
    (hp : b.body = .frame p) : payloadOk p = true := by
  unfold parseBurst burstOfCovered at h
  dsimp only at h
  split at h
  · cases h
  split at h
  · cases h
  split at h
  · cases h
  split at h
  · cases h
  next hlen =>
  split at h
  · cases h
  next hbody =>
  split at h
  · cases h
    obtain rfl : _ = Body.frame p := hp
    refine bodyOfBytes_frame_ok hbody ?_
    simp only [ne_eq, not_not] at hlen
    rw [List.length_drop, hlen, Nat.add_sub_cancel_left]
  · cases h

theorem outcomeOf_frameOk {b : Burst} (hb : ∀ p, b.body = .frame p → payloadOk p = true) {o : RxOutcome}
    (h : outcomeOf b = some o) : o.frameOk = true := by
  unfold outcomeOf at h
  split at h
  · next p hp =>
    cases h
    exact decodedOutcome_frameOk (hb p hp)
  · cases h
    rfl
  all_goals cases h

theorem rxStore_frameOk {l : List RxEntry} (hl : ∀ e ∈ l, e.outcome.frameOk = true) {o : RxOutcome}
    (ho : o.frameOk = true) (n : StationNo) (far : Bool) : ∀ e ∈ rxStore n far o l, e.outcome.frameOk = true := by
  intro e he
  rcases List.mem_append.1 he with hold | hnew
  · exact hl e (List.mem_filter.1 hold).1
  · obtain rfl := List.mem_singleton.1 hnew
    exact ho

theorem storeReception_sizesOk {s : State} (h : s.sizesOk = true) {b : Burst}
    (hb : ∀ p, b.body = .frame p → payloadOk p = true) : (s.storeReception b).sizesOk = true := by
  obtain ⟨-, -, ⟨hlen, hwearers, hfar, hlist⟩, -, -⟩ := (sizesOk_iff s).1 h
  unfold State.storeReception
  split
  · next ho =>
    exact sizesOk_of_streams h ⟨hlen, hwearers, hfar, rxStore_frameOk hlist (outcomeOf_frameOk hb ho) _ _⟩
      ⟨rfl, rfl, rfl, rfl, rfl, rfl, rfl⟩
  · next ho =>
    exact sizesOk_of_streams h ⟨hlen, hwearers, hfar, rxStore_frameOk hlist (outcomeOf_frameOk hb ho) _ _⟩
      ⟨rfl, rfl, rfl, rfl, rfl, rfl, rfl⟩
  · exact h

theorem peerCreated_sizesOk {s : State} (h : s.sizesOk = true) (n : StationNo) : (s.peerCreated n).sizesOk = true :=
  sizesOk_of_same h (by constructor <;> simp)

theorem peerLeave_sizesOk {s : State} (h : s.sizesOk = true) (p : Peer) (b : Burst) (d : Int) :
    (s.peerLeave p b d).sizesOk = true := by
  have hremoved : (State.raise { s with peers := removePeer b.sender s.peers } .peerLeft).sizesOk = true := h
  have hupdated : ({ s with
    peers := updatePeer b.sender (fun q => q.farLeave b d) s.peers } : State).sizesOk = true := h
  unfold State.peerLeave
  split
  · exact farSourceGone_sizesOk hupdated _
  · exact farSourceGone_sizesOk (wearersLose_sizesOk hremoved _) _

theorem createPeer_sizesOk {s : State} (h : s.sizesOk = true) (b : Burst) (d : Int) :
    (s.createPeer b d).sizesOk = true :=
  sizesOk_of_same h (by constructor <;> simp)

theorem peerView_sizesOk {s : State} (h : s.sizesOk = true) (b : Burst)
    (d : Int) : (s.peerView b d).sizesOk = true := by
  unfold State.peerView
  split
  · split
    · exact createPeer_sizesOk h b d
    · exact createPeer_sizesOk h b d
    all_goals exact h
  split
  · exact peerLeave_sizesOk h _ b d
  · exact h

theorem nowOrLate_sizesOk {s t : State} (hs : s.sizesOk = true) (ht : t.sizesOk = true) (late : Bool) (e : LateEffect) :
    (s.nowOrLate late e t).sizesOk = true := by
  unfold State.nowOrLate
  split
  · exact hs
  · exact ht

theorem election_sizesOk {s : State} (h : s.sizesOk = true) (late : Bool) (b : Burst) :
    (s.election late b).sizesOk = true := by
  unfold State.election
  split
  · exact nowOrLate_sizesOk h (electionYield_sizesOk h) late _
  · exact h

theorem windowYield_sizesOk {s : State} (h : s.sizesOk = true) (late : Bool) (b : Burst) :
    (s.windowYield late b).sizesOk = true := by
  unfold State.windowYield
  split
  · exact nowOrLate_sizesOk h (closeWindow_sizesOk h _) late _
  · exact h

theorem clash_sizesOk {s : State} (h : s.sizesOk = true) (late : Bool) (b : Burst) :
    (s.clash late b).sizesOk = true := by
  unfold State.clash
  split
  · exact nowOrLate_sizesOk h (clashYield_sizesOk h) late _
  · exact h

theorem heardAsMember_sizesOk {s : State} (h : s.sizesOk = true) (late : Bool) {b : Burst} (d : Int)
    (hb : ∀ p, b.body = .frame p → payloadOk p = true) : (s.heardAsMember late b d).sizesOk = true := by
  have hread : (s.readMap b.heardMap).sizesOk = true := h
  unfold State.heardAsMember
  dsimp only
  split
  · exact clash_sizesOk hread late b
  · exact storeReception_sizesOk (windowYield_sizesOk (election_sizesOk (peerView_sizesOk hread b d) late b) late b) hb

theorem heardOwn_sizesOk {s : State} (h : s.sizesOk = true) (c : Cycle) (tr : Nat) (late : Bool) {r : Heard}
    (hb : ∀ p, r.burst.body = .frame p → payloadOk p = true) : (s.heardOwn c tr late r).sizesOk = true := by
  have hheard : (s.markHeard r.burst.sender).sizesOk = true := h
  unfold State.heardOwn
  dsimp only
  split
  · unfold State.heardInListen
    split
    · exact heardAsMember_sizesOk (enterMember_sizesOk (align_sizesOk hheard _ _ _)) late 0 hb
    · exact hheard
  · exact heardAsMember_sizesOk (sizesOk_of_same hheard (by constructor <;> simp)) late _ hb
  · exact heardAsMember_sizesOk hheard late _ hb
  all_goals exact hheard

theorem heardForeign_sizesOk {s : State} (h : s.sizesOk = true) (c : Cycle) (k : SlotIx) (tr : Nat) (r : Heard) :
    (s.heardForeign c k tr r).sizesOk = true := by
  unfold State.heardForeign
  split
  · split
    · exact sizesOk_of_same h (by constructor <;> simp)
    · exact h
  · split
    · exact h
    · exact h
  · split
    · exact enter_sizesOk (s := { s.align c _ tr with pairing := _ }) (align_sizesOk h c _ tr) .joining
    · exact h
  all_goals exact h

theorem handOff_sizesOk {s : State} (h : s.sizesOk = true) (c : Cycle) (k : SlotIx) (tr : Nat) (late : Bool) (e : Entry)
    {held : Held} (hheld : ∀ r, held = .clean r → ∃ bytes, parseBurst bytes = some r.burst) :
    (s.handOff c k tr late e held).sizesOk = true := by
  unfold State.handOff
  split
  · exact h
  · exact h
  · exact h
  next r =>
  split
  · obtain ⟨bytes, hparsed⟩ := hheld r rfl
    exact heardOwn_sizesOk h c tr late fun p hp => parseBurst_frame_ok hparsed hp
  · exact sizesOk_of_same h (by constructor <;> simp)
  · exact heardForeign_sizesOk h c k tr r
  all_goals exact h

/-! ### The end of a slot -/

theorem closeSlot_sizesOk {s : State} (h : s.sizesOk = true) (k : SlotIx) (tr : Nat) (e : Entry)
    (later : List AirItem) :
    (s.closeSlot k tr e later).sizesOk = true := by
  obtain ⟨⟨hfill, hv1, hv2⟩, -⟩ := (sizesOk_iff s).1 h
  refine sizesOk_of_views h ⟨?_, hv1, hv2⟩ ⟨rfl, rfl, rfl, rfl, rfl, rfl, rfl⟩
  simpa [State.closeSlot] using hfill

theorem joinDone_sizesOk {s : State} (h : s.sizesOk = true) (a : Accepted)
    (t : Nat) : (s.joinDone a t).sizesOk = true := by
  have hrequest : (State.requestWrite { s with station :=
    { s.station with creds := a.creds } } a.creds t).sizesOk = true :=
    sizesOk_of_same h (by constructor <;> simp)
  exact enterMember_sizesOk (s := State.raise _ .joined) hrequest

theorem ownSlotEnd_sizesOk {s : State} (h : s.sizesOk = true) (k : SlotIx) (tr : Nat) :
    (s.ownSlotEnd k tr).sizesOk = true := by
  have hsettled := settleRole_sizesOk (s := { s with voice := s.voice.left k, farEnd := s.farEnd.left k }) h
  unfold State.ownSlotEnd
  generalize State.settleRole { s with voice := s.voice.left k, farEnd := s.farEnd.left k } = u at *
  dsimp only
  split
  · exact hsettled
  split
  · split
    · exact joinDone_sizesOk hsettled _ _
    · exact hsettled
  all_goals exact hsettled

theorem settleAt14_sizesOk {s : State} (h : s.sizesOk = true) (k : SlotIx) (q : Offer → Bool) :
    (s.settleAt14 k q).sizesOk = true :=
  sizesOk_of_same h (by constructor <;> simp)

theorem endSlot_sizesOk {s : State} (h : s.sizesOk = true) (c : Cycle) (k : SlotIx) (order : ReceptionOrder)
    (air : List AirItem) : (s.endSlot c k order air).sizesOk = true := by
  unfold State.endSlot
  dsimp only
  have hclosed := fun tr e later => closeSlot_sizesOk h k tr e later
  split
  · exact settleAt14_sizesOk (ownSlotEnd_sizesOk (hclosed _ _ _) k _) k _
  · exact settleAt14_sizesOk (handOff_sizesOk (hclosed _ _ _) c k _ _ _ fun r => State.slotHeld_clean) k _

/-! ### The cycle end -/

theorem stepJump_sizesOk {s : State} (h : s.sizesOk = true) (c : Cycle) : (s.stepJump c).sizesOk = true := by
  have hviews : (s.stepJump c).views = Views.unknown := by
    simp [State.stepJump, State.makeJump]
  refine sizesOk_of_views h (hviews ▸ viewsSized_unknown) ?_
  constructor <;> simp [State.stepJump, State.makeJump, State.jumpClaims]

theorem claimWork_sizesOk {s : State} (h : s.sizesOk = true) : s.claimWork.sizesOk = true := by
  obtain ⟨-, -, hbearer⟩ := State.claimWork_bearer s
  exact sizesOk_of_same h
    { views := by simp, codec := by simp, streams := by simp, voicePayload := by simp, farPayload := by simp,
      downlink := (congrArg Bearer.downlink hbearer :), uplink := (congrArg Bearer.uplink hbearer :) }

theorem ageBearer_sizesOk {s : State} (h : s.sizesOk = true) : s.ageBearer.sizesOk = true := by
  unfold State.ageBearer
  split
  · exact h
  · exact h

theorem cycleWork_sizesOk {s : State} (h : s.sizesOk = true) (c : Cycle) : (s.cycleWork c).sizesOk = true := by
  have hjump : (s.jumpIfDue c).sizesOk = true := by
    unfold State.jumpIfDue
    split
    · exact stepJump_sizesOk h c
    · exact h
  have hclaims : (((s.jumpIfDue c).timerWork c).claimWork.ageBearer).sizesOk = true :=
    ageBearer_sizesOk (claimWork_sizesOk (s := (s.jumpIfDue c).timerWork c) hjump)
  exact sizesOk_of_same hclaims (by constructor <;> simp [State.cycleWork])

theorem countListen_sizesOk {s : State} (h : s.sizesOk = true) : s.countListen.sizesOk = true := by
  unfold State.countListen State.enterAlone
  dsimp only
  split
  · exact enterMember_sizesOk (s := { s with station := _ }) h
  · exact h

theorem countSeek_sizesOk {s : State} (h : s.sizesOk = true) : s.countSeek.sizesOk = true := by
  unfold State.countSeek
  split
  · exact h
  split
  · exact pairTimeout_sizesOk h
  · exact h

theorem decideNewcomer_sizesOk {s : State} (h : s.sizesOk = true) : s.decideNewcomer.sizesOk = true := by
  unfold State.decideNewcomer
  split
  · exact h
  split
  · exact h
  · exact pairTimeout_sizesOk h

theorem transitions_sizesOk {s : State} (h : s.sizesOk = true) : s.transitions.sizesOk = true := by
  unfold State.transitions
  split
  · exact countListen_sizesOk h
  · exact countSeek_sizesOk h
  · split
    · exact h
    · exact decideNewcomer_sizesOk h
  · exact settleRole_sizesOk h
  · unfold State.countLeaving
    split
    · exact enter_sizesOk h .idle
    · exact h
  all_goals exact h

/-! ### The frame deadline -/

theorem prepareVoice_sizesOk {s : State} (h : s.sizesOk = true) : s.prepareVoice.sizesOk = true := by
  obtain ⟨hviews, hcodec, hstreams, hpay, hqueues⟩ := (sizesOk_iff s).1 h
  refine (sizesOk_iff _).2 ⟨hviews, hcodec, hstreams, ?_, hqueues⟩
  have hfar : ∀ p, s.chan.farPayload = some p → payloadOk p = true := fun p hp => payloadOk_of_far hpay hp
  have hvoice : ∀ p, s.voicePayloadNow = .frame p → payloadOk p = true := by
    intro p hp
    unfold State.voicePayloadNow at hp
    split at hp
    · split at hp
      · cases hp
      · cases hp
        exact encodeFrame_ok (decide_eq_true hcodec.1)
    · cases hp
  exact payloadsOk_of hvoice hfar

theorem makeTake_sizesOk {s : State} (h : s.sizesOk = true) : s.makeTake.sizesOk = true := by
  obtain ⟨hviews, hcodec, hstreams, hpay, hdown, hup⟩ := (sizesOk_iff s).1 h
  have hvoice : ∀ p, s.chan.voicePayload = .frame p → payloadOk p = true := fun p hp => payloadOk_of_voice hpay hp
  let f := takeFrame s.bearer.holdSample s.bearer.downlink
  have hframe : ∀ p, some (encodeFrame f) = some p → payloadOk p = true := by
    rintro p ⟨rfl⟩
    exact encodeFrame_ok (decide_eq_true (length_takeFrame _ _))
  have htaken : ({ s with
      bearer := s.bearer.afterFrame f
      chan := { s.chan with farPayload := some (encodeFrame f) } } : State).sizesOk = true :=
    (sizesOk_iff _).2 ⟨hviews, hcodec, hstreams, payloadsOk_of hvoice hframe,
      (List.length_drop ▸ (Nat.sub_le _ _).trans hdown : (s.bearer.downlink.drop _).length ≤ 640), hup⟩
  unfold State.makeTake
  split
  · exact sizesOk_of_same htaken (by constructor <;> simp [f])
  · exact (sizesOk_iff _).2 ⟨hviews, hcodec, hstreams, payloadsOk_of hvoice nofun, hdown, hup⟩

theorem takeDownlink_sizesOk {s : State} (h : s.sizesOk = true) : s.takeDownlink.sizesOk = true := by
  unfold State.takeDownlink
  split
  · exact makeTake_sizesOk h
  · exact h

theorem length_uplinkFrame {s : State} (h : s.sizesOk = true) : s.uplinkFrame.length = 160 := by
  obtain ⟨-, -, ⟨-, hwearers, -, -⟩, -, -⟩ := (sizesOk_iff s).1 h
  simp only [State.uplinkFrame, List.length_map]
  exact length_mixInto _ _ _ List.length_replicate fun r hr => ((framesOk_iff r).1 (hwearers r hr)).1

theorem length_speakerFrame {s : State} (h : s.sizesOk = true) : s.speakerFrame.length = 160 := by
  obtain ⟨-, ⟨hcapture, -, -⟩, ⟨-, hwearers, hfar, -⟩, -, -⟩ := (sizesOk_iff s).1 h
  have hinner : ∀ e, (mixInto e [s.streams.farEnd] emptySum).length = 160 := fun e =>
    length_mixInto _ _ _ List.length_replicate fun r hr => by
      rw [List.mem_singleton.1 hr]
      exact ((framesOk_iff _).1 hfar).1
  have hsum : s.speakerSum.length = 160 :=
    length_mixInto _ _ _ (hinner _) fun r hr => ((framesOk_iff r).1 (hwearers r (List.mem_of_mem_eraseIdx hr))).1
  simp [State.speakerFrame, hsum, hcapture]

theorem joinUplink_sizesOk {s : State} (h : s.sizesOk = true) {u : Frame} (hu : u.length = 160) :
    (s.joinUplink u).sizesOk = true := by
  obtain ⟨hviews, hcodec, hstreams, hpay, hdown, -⟩ := (sizesOk_iff s).1 h
  have hjoin : (joinSamples s.bearer.uplink.length u).length ≤ 640 := by
    have := length_joinSamples s.bearer.uplink.length u
    omega
  have hjoined := length_joinedQueue s.bearer.uplink _ hjoin
  have hfields : (s.joinUplink u).views = s.views ∧ (s.joinUplink u).codec = s.codec ∧
      (s.joinUplink u).streams = s.streams ∧ (s.joinUplink u).chan = s.chan ∧
      (s.joinUplink u).bearer.downlink = s.bearer.downlink ∧
      (s.joinUplink u).bearer.uplink = joinedQueue s.bearer.uplink (joinSamples s.bearer.uplink.length u) := by
    simp [State.joinUplink]
  obtain ⟨ev, ec, es, ech, ed, eu⟩ := hfields
  exact (sizesOk_iff _).2 ⟨ev ▸ hviews, ec ▸ hcodec, es ▸ hstreams, ech ▸ hpay, ed ▸ hdown, eu ▸ hjoined⟩

theorem uplinkWork_sizesOk {s : State} (h : s.sizesOk = true) : s.uplinkWork.sizesOk = true := by
  unfold State.uplinkWork
  split
  · exact joinUplink_sizesOk h (length_uplinkFrame h)
  · exact h

theorem handFrames_sizesOk {s : State} (h : s.sizesOk = true) : s.handFrames.sizesOk = true := by
  obtain ⟨hviews, -, hstreams, hpay, hqueues⟩ := (sizesOk_iff s).1 h
  exact (sizesOk_iff _).2
    ⟨hviews, ⟨length_silence, length_speakerFrame h, Nat.zero_le _⟩, hstreams, hpay, hqueues⟩

theorem deadline_sizesOk {s : State} (h : s.sizesOk = true) : s.deadline.sizesOk = true :=
  handFrames_sizesOk (uplinkWork_sizesOk (takeDownlink_sizesOk (prepareVoice_sizesOk (updateStreams_sizesOk h _))))

/-! ### CYCLE_END -/

theorem rotateViews_sizesOk {s : State} (h : s.sizesOk = true) : s.rotateViews.sizesOk = true := by
  obtain ⟨⟨hfill, hv1, -⟩, -⟩ := (sizesOk_iff s).1 h
  unfold State.rotateViews
  split
  · exact forgetViews_sizesOk h
  · exact sizesOk_of_views h ⟨rfl, hfill, hv1⟩ ⟨rfl, rfl, rfl, rfl, rfl, rfl, rfl⟩

theorem beginCycle_sizesOk {s : State} (h : s.sizesOk = true) (c : Cycle) : (s.beginCycle c).sizesOk = true := h

theorem lateEffect_sizesOk {s : State} (h : s.sizesOk = true) (e : LateEffect) : (s.lateEffect e).sizesOk = true := by
  unfold State.lateEffect
  split
  · split
    · exact clashYield_sizesOk h
    · exact h
  · split
    · exact electionYield_sizesOk h
    · exact h
  · exact closeWindow_sizesOk h _

theorem lateEffects_sizesOk {s : State} (h : s.sizesOk = true) (es : List LateEffect) :
    (s.lateEffects es).sizesOk = true := by
  induction es generalizing s with
  | nil => exact h
  | cons e es ih => exact ih (lateEffect_sizesOk h e)

theorem endCycle_sizesOk {s : State} (h : s.sizesOk = true) (c : Cycle) (order : DeadlineOrder) :
    (s.endCycle c order).sizesOk = true := by
  have hwork : ((s.atInstant c.planned).cycleWork c).sizesOk = true :=
    cycleWork_sizesOk (s := s.atInstant c.planned) h c
  refine lateEffects_sizesOk (beginCycle_sizesOk (rotateViews_sizesOk ?_) c) s.chan.late
  cases order with
  | stateFirst => exact deadline_sizesOk (transitions_sizesOk hwork)
  | deadlineFirst => exact transitions_sizesOk (deadline_sizesOk hwork)

/-! ### Every effect -/

theorem acceptDownlink_sizesOk {s : State} (h : s.sizesOk = true)
    (v : Sample) : (s.acceptDownlink v).sizesOk = true := by
  obtain ⟨hviews, hcodec, hstreams, hpay, -, hup⟩ := (sizesOk_iff s).1 h
  unfold State.acceptDownlink
  split
  · split
    · next hroom =>
      refine (sizesOk_iff _).2 ⟨hviews, hcodec, hstreams, hpay, ?_, hup⟩
      simpa using hroom
    · exact h
  · exact h

theorem takePosition_sizesOk {s : State} (h : s.sizesOk = true) : s.takePosition.sizesOk = true := by
  obtain ⟨hviews, hcodec, hstreams, hpay, hdown, hup⟩ := (sizesOk_iff s).1 h
  unfold State.takePosition
  split
  · next v rest hq =>
    refine (sizesOk_iff _).2 ⟨hviews, hcodec, hstreams, hpay, hdown, ?_⟩
    rw [hq, List.length_cons] at hup
    exact Nat.le_of_succ_le hup
  · exact h

theorem sampleMoved_sizesOk {s : State} (h : s.sizesOk = true) (hk : s.codec.frameIx < 160) (t : Nat)
    (cdin : CdinLevels) : ({ s.atInstant t with codec := s.codec.frame cdin } : State).sizesOk = true := by
  obtain ⟨hviews, ⟨hcapture, hplayout, -⟩, hstreams, hpay, hqueues⟩ := (sizesOk_iff s).1 h
  exact (sizesOk_iff _).2
    ⟨hviews, ⟨by simpa [Codec.frame] using hcapture, hplayout, hk⟩, hstreams, hpay, hqueues⟩

theorem timerStarted_sizesOk {s : State} (h : s.sizesOk = true) (t : Nat) : (s.startTimer t).sizesOk = true := by
  obtain ⟨hviews, ⟨hcapture, hplayout, -⟩, hstreams, hpay, hqueues⟩ := (sizesOk_iff s).1 h
  exact (sizesOk_iff _).2 ⟨hviews, ⟨hcapture, hplayout, Nat.zero_le _⟩, hstreams, hpay, hqueues⟩

theorem startSlot_sizesOk {s : State} (h : s.sizesOk = true) (c : Cycle) (k : SlotIx) :
    (s.startSlot c k).sizesOk = true := by
  unfold State.startSlot
  dsimp only
  split
  · exact h
  · exact h

theorem callBegun_sizesOk {s : State} (h : s.sizesOk = true) (cl : Claim) :
    ({ s with bearer := { Bearer.none with state := .claiming }, farEnd := cl } : State).sizesOk = true := by
  obtain ⟨hviews, hcodec, hstreams, hpay, -⟩ := (sizesOk_iff s).1 h
  exact (sizesOk_iff _).2 ⟨hviews, hcodec, hstreams, hpay, by simp [QueuesSized, Bearer.none]⟩

theorem reset_sizesOk : State.reset.sizesOk = true := by
  have hrecord : StreamRec.reset.framesOk = true := (framesOk_iff _).2 ⟨length_silence, length_silence⟩
  exact (sizesOk_iff _).2 ⟨viewsSized_unknown, ⟨length_silence, length_silence, Nat.zero_le _⟩,
    ⟨List.length_replicate, fun r hr => List.eq_of_mem_replicate hr ▸ hrecord, hrecord, nofun⟩, rfl, Nat.zero_le _,
    Nat.zero_le _⟩

theorem takeReset_sizesOk (s : State) (hold : Option ResetCause) (cut : CutChoice) :
    (s.takeReset hold cut).sizesOk = true := reset_sizesOk

theorem endReset_sizesOk {s : State} (h : s.sizesOk = true) (t : Nat) : (s.endReset t).sizesOk = true :=
  sizesOk_of_same h (by constructor <;> simp [State.endReset])

theorem bearerFollows_sizesOk {s : State} (h : s.sizesOk = true) (old new : ClaimState) :
    (s.bearerFollows old new).sizesOk = true := by
  obtain ⟨-, -, hbearer⟩ := State.bearerFollows_bearer s old new
  exact sizesOk_of_same h
    { views := by simp, codec := by simp, streams := by simp, voicePayload := by simp, farPayload := by simp,
      downlink := (congrArg Bearer.downlink hbearer :), uplink := (congrArg Bearer.uplink hbearer :) }

theorem decideEarly_sizesOk {s : State} (h : s.sizesOk = true) (id : ClaimId) : (s.decideEarly id).sizesOk = true := by
  cases id with
  | voice => exact sizesOk_of_same h (by constructor <;> simp [State.decideEarly])
  | farEnd => exact bearerFollows_sizesOk (sizesOk_of_same h (by constructor <;> simp)) _ _

theorem effect_sizesOk {s t : State} (h : s.sizesOk = true) (he : Effect s t) : t.sizesOk = true := by
  cases he with
  | onlyPort | eventsRead | settings | windowOpened | windowClosed | bondRetired | bondLocked | bondErased
  | faultCleared | peerAged | peerLost | windowCounted | lapseAged
  | writeStarted | programEnded | eraseProgramEnded | erasePartEnded | retireEnded | lockEnded | eraseEnded
  | scanRetireEnded =>
    exact sizesOk_of_same h (by constructor <;> simp)
  | timerStarted t a =>
    exact enter_sizesOk (timerStarted_sizesOk (s := (s.markTaken.atInstant t).configure a) h _) .idle
  | started t c => exact enterListen_sizesOk (s := s.markTaken.atInstant t) h c
  | listenStopped t => exact enter_sizesOk (s := s.markTaken.atInstant t) h .idle
  | joiningStopped t => exact enter_sizesOk (s := (s.markTaken.atInstant t).dropNewcomer) h .idle
  | memberStopped t => exact stopMember_sizesOk (s := s.markTaken.atInstant t) h
  | founded t c =>
    have hrequest : ((s.markTaken.atInstant t).requestWrite c (max s.now t)).sizesOk = true :=
      sizesOk_of_same h (by constructor <;> simp)
    exact enterListen_sizesOk hrequest c
  | sought t k =>
    exact enter_sizesOk (s := { s.markTaken.atInstant t with
      peers := []
      station := { s.station with creds := Credentials.zero }
      pairing := { s.pairing with newcomer := some (Newcomer.fresh k) } }) h .seeking
  | callBegun => exact callBegun_sizesOk (s := s.markTaken) h (Claim.inState .waiting)
  | callEnded => exact endRole_sizesOk (s := s.markTaken) h
  | sampleWritten x v => exact acceptDownlink_sizesOk (s := s.beginTransfer x) h v
  | sampleRead x => exact takePosition_sizesOk (s := s.beginTransfer x) h
  | resetTaken hold cut => exact takeReset_sizesOk s hold cut
  | resetEnded t => exact endReset_sizesOk h t
  | softlyReset t cut => exact endReset_sizesOk (takeReset_sizesOk _ none cut) t
  | slotStarted c k => exact startSlot_sizesOk h c k
  | slotEnded c k order air => exact endSlot_sizesOk h c k order air
  | cycleEnded c order => exact endCycle_sizesOk h c order
  | jumped t c => exact settleRole_sizesOk (stepJump_sizesOk (s := s.atInstant t) h c)
  | listenCounted t => exact countListen_sizesOk (s := s.atInstant t) h
  | claimDecided t id => exact decideEarly_sizesOk (s := s.atInstant t) h id
  | newcomerDecided t e => exact decideNewcomer_sizesOk (s := s.atInstant t) h
  | seekCounted t => exact countSeek_sizesOk (s := s.atInstant t) h
  | sampleMoved t cdin hk => exact sampleMoved_sizesOk h hk t cdin

/-- Settles O54. -/
theorem everyStepKeepsTheSizes : Obligations.EveryStepKeepsTheSizes :=
  fun _ _ => step_keeps (fun _ _ h => h) fun _ _ => effect_sizesOk

end Sys2Proof.Proofs.SizesKept
end

section
/-! PROOFS. The machine and its control port: a step and the queue, reset values, transactions, refusals, events. -/

namespace Sys2Proof.Proofs.Port

open Sys2Proof Sys2Proof.Machine Sys2Proof.Proofs.Effects

/-! ### The machine -/

/-- Settles O1. -/
theorem stepRunsTheFrontCommand : Obligations.StepRunsTheFrontCommand := by
  refine ⟨fun c rest s => rfl, fun s hempty => ?_⟩
  simp [step, hempty]

/-- The outcome is a next state. -/
def Answers (o : Host.Outcome State Fault Refusal) : Prop := ∃ t, o = .next t

theorem answers_earlyRow (s : State) (due : State → Cycle → Bool) (f : State → Cycle → State) :
    Answers (s.earlyRow due f) := by
  unfold State.earlyRow
  split <;> exact ⟨_, rfl⟩

theorem answers_boundaryRow (s : State) (due : State → Bool) (f : State → State) : Answers (s.boundaryRow due f) := by
  unfold State.boundaryRow
  split <;> exact ⟨_, rfl⟩

theorem exec_answers (c : Instr) (s : State) : Answers (exec c s) := by
  cases c with
  | readId | writeConfig | start | stop | foundGroup | joinGroup | openPairing | closePairing | bearCall | endCall
  | setLevels | readStatus | readEvents | readPeers | readBond | retireBond | lockBond | eraseBond | clearFault
  | writeDownlink | readUplink | softReset | unknownCommand | csnRise | resetEnd | csnFall | powerOnReset | rstnFall =>
    exact ⟨_, rfl⟩
  | downlinkSample v =>
    show Answers (execDownlinkSample v s)
    unfold execDownlinkSample
    split <;> exact ⟨_, rfl⟩
  | uplinkSamplePosition =>
    show Answers (execUplinkSamplePosition s)
    unfold execUplinkSamplePosition
    split <;> exact ⟨_, rfl⟩
  | muteLineChange t =>
    show Answers (execMuteLineChange t s)
    unfold execMuteLineChange
    split <;> exact ⟨_, rfl⟩
  | debounceExpiry =>
    show Answers (execDebounceExpiry s)
    unfold execDebounceExpiry
    split <;> exact ⟨_, rfl⟩
  | slotStart =>
    show Answers (execSlotStart s)
    unfold execSlotStart
    split <;> exact ⟨_, rfl⟩
  | slotEnd order air =>
    show Answers (execSlotEnd order air s)
    unfold execSlotEnd
    split <;> exact ⟨_, rfl⟩
  | cycleEnd order =>
    show Answers (execCycleEnd order s)
    unfold execCycleEnd
    split <;> exact ⟨_, rfl⟩
  | sampleFrameStart cdin =>
    show Answers (execSampleFrameStart cdin s)
    unfold execSampleFrameStart
    split <;> exact ⟨_, rfl⟩
  | stepJump => exact (answers_earlyRow s _ _ : Answers (execStepJump s))
  | peerSilent n => exact (answers_earlyRow s _ _ : Answers (execPeerSilent n s))
  | peerLost n => exact (answers_earlyRow s _ _ : Answers (execPeerLost n s))
  | peerRemoved n => exact (answers_earlyRow s _ _ : Answers (execPeerRemoved n s))
  | listenTimeout => exact (answers_earlyRow s _ _ : Answers (execListenTimeout s))
  | tentativeExpiry id => exact (answers_earlyRow s _ _ : Answers (execTentativeExpiry id s))
  | claimLost id => exact (answers_earlyRow s _ _ : Answers (execClaimLost id s))
  | holdoffExpiry id => exact (answers_earlyRow s _ _ : Answers (execHoldoffExpiry id s))
  | joinHoldExpiry => exact (answers_earlyRow s _ _ : Answers (execJoinHoldExpiry s))
  | joinAttemptsExhausted => exact (answers_earlyRow s _ _ : Answers (execJoinAttemptsExhausted s))
  | pairingWindowTimeout => exact (answers_boundaryRow s _ _ : Answers (execPairingWindowTimeout s))
  | lapseMemoryExpiry => exact (answers_boundaryRow s _ _ : Answers (execLapseMemoryExpiry s))
  | seekTimeout => exact (answers_boundaryRow s _ _ : Answers (execSeekTimeout s))
  | pendingWriteStart =>
    show Answers (execPendingWriteStart s)
    unfold execPendingWriteStart
    split <;> exact ⟨_, rfl⟩
  | programDone held =>
    show Answers (execProgramDone held s)
    unfold execProgramDone
    split <;> exact ⟨_, rfl⟩
  | erasePartDone =>
    show Answers (execErasePartDone s)
    unfold execErasePartDone
    split <;> exact ⟨_, rfl⟩
  | retireDone =>
    show Answers (execRetireDone s)
    unfold execRetireDone
    split <;> exact ⟨_, rfl⟩
  | lockDone =>
    show Answers (execLockDone s)
    unfold execLockDone
    split <;> exact ⟨_, rfl⟩
  | eraseDone =>
    show Answers (execEraseDone s)
    unfold execEraseDone
    split <;> exact ⟨_, rfl⟩
  | scanRetireDone =>
    show Answers (execScanRetireDone s)
    unfold execScanRetireDone
    split <;> exact ⟨_, rfl⟩

theorem effect_pending {s t : State} (he : Effect s t) : t.pending = s.pending := by
  cases he with
  | resetTaken => rfl
  | resetEnded | softlyReset => simp [State.endReset, State.takeReset]
  | _ => simp

/-- Settles O2: every arm answers, and no effect reaches the queue. -/
theorem everyCommandAnswersANextState : Obligations.EveryCommandAnswersANextState := by
  intro c s
  obtain ⟨t, ht⟩ := exec_answers c s
  exact ⟨t, ht, effect_pending (exec_effect ht)⟩

/-- Settles O3. -/
theorem resetLeavesEveryBlockAtItsResetValue : Obligations.ResetLeavesEveryBlockAtItsResetValue := by
  refine ⟨⟨rfl, rfl, rfl, rfl⟩, ⟨rfl, rfl, rfl, rfl, rfl⟩, ⟨rfl, rfl, rfl⟩, ⟨rfl, rfl, rfl⟩, ⟨rfl, rfl, rfl, rfl⟩,
    ⟨rfl, rfl⟩, ⟨rfl, rfl, ?_⟩, ⟨rfl, rfl, rfl, rfl, rfl, rfl, rfl, rfl⟩, ⟨rfl, rfl, rfl, rfl, rfl, rfl⟩, rfl, ?_, rfl,
    ?_⟩
  · intro r hr
    rcases List.mem_cons.1 hr with rfl | hr
    · rfl
    · exact List.eq_of_mem_replicate hr
  · intro f
    cases f <;> rfl
  · exact ⟨SizesKept.reset_sizesOk, rfl, rfl, rfl, by decide⟩

/-! ### What a host command answers (R170, R171) -/

/-- What a host command makes of the port: it stays in its transaction, and refuses with nothing else done or answers OK. -/
structure PortAnswer (u v : State) : Prop where
  hold : v.hold = u.hold
  phase : v.port.phase = u.port.phase
  refusedOrOk : (∃ r, v = u.refuse r) ∨ v.port.reply.head? = some 0x00

theorem PortAnswer.refuse (u : State) (r : Result) : PortAnswer u (u.refuse r) := ⟨rfl, rfl, .inl ⟨r, rfl⟩⟩

theorem PortAnswer.answer {u v : State} (hh : v.hold = u.hold) (hp : v.port.phase = u.port.phase) (data : List Byte) :
    PortAnswer u (v.answer .ok data) := ⟨hh, hp, .inr rfl⟩

theorem PortAnswer.ok {u v : State} (hh : v.hold = u.hold) (hp : v.port.phase = u.port.phase) : PortAnswer u v.ok :=
  .answer hh hp []

theorem storeCommand_answer (u : State) (t : Nat) (b : Byte) (locked : Bool) (accepts : Place → Bool) (op : StoreOp) :
    PortAnswer u (u.storeCommand t b locked accepts op) := by
  unfold State.storeCommand
  dsimp only
  split
  · exact .refuse u _
  split
  · exact .refuse u _
  split
  · exact .refuse u _
  split
  · exact .refuse u _
  · exact .ok (by simp) (by simp)

/-- Every host command goes through the port, and its body refuses or answers OK. -/
theorem exec_hostCommand {c : Instr} (h : (bytesOfCommand c).isSome = true) :
    ∃ body, (∀ s, exec c s = s.hostCommand body) ∧ ∀ u, PortAnswer u (body u) := by
  cases c with
  | readId =>
    refine ⟨_, fun s => (rfl : execReadId s = s.hostCommand _), fun u => ?_⟩
    exact .answer rfl rfl _
  | writeConfig t a =>
    refine ⟨_, fun s => (rfl : execWriteConfig t a s = s.hostCommand _), fun u => ?_⟩
    split
    · exact .ok (by simp) (by simp)
    · exact .ok (by simp) (by simp)
    all_goals exact .refuse u _
  | start b t =>
    refine ⟨_, fun s => (rfl : execStart b s t = s.hostCommand _), fun u => ?_⟩
    split
    · exact .refuse u _
    split
    · exact .refuse u _
    split
    · exact .refuse u _
    split
    · exact .refuse u _
    · exact .ok (by simp) (by simp)
  | stop t =>
    refine ⟨_, fun s => (rfl : execStop s t = s.hostCommand _), fun u => ?_⟩
    split
    · exact .refuse u _
    · exact .refuse u _
    · exact .refuse u _
    all_goals exact .ok (by simp) (by simp)
  | foundGroup t =>
    refine ⟨_, fun s => (rfl : execFoundGroup t s = s.hostCommand _), fun u => ?_⟩
    split
    · exact .refuse u _
    split
    · exact .refuse u _
    · exact .ok (by simp) (by simp)
  | joinGroup b t =>
    refine ⟨_, fun s => (rfl : execJoinGroup b s t = s.hostCommand _), fun u => ?_⟩
    split
    · exact .refuse u _
    split
    · exact .refuse u _
    split
    · exact .refuse u _
    · exact .ok (by simp) (by simp)
  | openPairing b =>
    refine ⟨_, fun s => (rfl : execOpenPairing b s = s.hostCommand _), fun u => ?_⟩
    split
    · exact .refuse u _
    split
    · exact .refuse u _
    split
    · exact .refuse u _
    split
    · exact .refuse u _
    · exact .ok (by simp) (by simp)
  | closePairing =>
    refine ⟨_, fun s => (rfl : execClosePairing s = s.hostCommand _), fun u => ?_⟩
    split
    · exact .ok (by simp) (by simp)
    · exact .refuse u _
  | bearCall =>
    refine ⟨_, fun s => (rfl : execBearCall s = s.hostCommand _), fun u => ?_⟩
    split
    · exact .refuse u _
    split
    · exact .refuse u _
    · exact .ok (by simp) (by simp)
  | endCall =>
    refine ⟨_, fun s => (rfl : execEndCall s = s.hostCommand _), fun u => ?_⟩
    split
    · exact .ok (by simp) (by simp)
    · exact .refuse u _
  | setLevels v g =>
    refine ⟨_, fun s => (rfl : execSetLevels v g s = s.hostCommand _), fun u => ?_⟩
    exact .ok (by simp) (by simp)
  | readStatus =>
    refine ⟨_, fun s => (rfl : execReadStatus s = s.hostCommand _), fun u => ?_⟩
    exact .answer rfl rfl _
  | readEvents =>
    refine ⟨_, fun s => (rfl : execReadEvents s = s.hostCommand _), fun u => ?_⟩
    exact ⟨rfl, rfl, .inr rfl⟩
  | readPeers =>
    refine ⟨_, fun s => (rfl : execReadPeers s = s.hostCommand _), fun u => ?_⟩
    exact .answer rfl rfl _
  | readBond b =>
    refine ⟨_, fun s => (rfl : execReadBond b s = s.hostCommand _), fun u => ?_⟩
    split
    · exact .refuse u _
    · exact .answer rfl rfl _
  | retireBond t b =>
    refine ⟨_, fun s => (rfl : execRetireBond t b s = s.hostCommand _), fun u => ?_⟩
    exact storeCommand_answer u _ _ _ _ _
  | lockBond t b =>
    refine ⟨_, fun s => (rfl : execLockBond t b s = s.hostCommand _), fun u => ?_⟩
    exact storeCommand_answer u _ _ _ _ _
  | eraseBond t b =>
    refine ⟨_, fun s => (rfl : execEraseBond t b s = s.hostCommand _), fun u => ?_⟩
    exact storeCommand_answer u _ _ _ _ _
  | clearFault =>
    refine ⟨_, fun s => (rfl : execClearFault s = s.hostCommand _), fun u => ?_⟩
    split
    · exact .ok (by simp) (by simp)
    · exact .refuse u _
  | writeDownlink n =>
    refine ⟨_, fun s => (rfl : execWriteDownlink n s = s.hostCommand _), fun u => ?_⟩
    split
    · exact .refuse u _
    split
    · exact .refuse u _
    · exact .ok (by simp) (by simp)
  | readUplink n =>
    refine ⟨_, fun s => (rfl : execReadUplink n s = s.hostCommand _), fun u => ?_⟩
    split
    · exact .refuse u _
    · exact ⟨rfl, rfl, .inr rfl⟩
  | softReset =>
    refine ⟨_, fun s => (rfl : execSoftReset s = s.hostCommand _), fun u => ?_⟩
    exact .ok (by simp) (by simp)
  | unknownCommand code =>
    refine ⟨_, fun s => (rfl : execUnknownCommand code s = s.hostCommand _), fun u => ?_⟩
    exact .refuse u _
  | _ => simp [bytesOfCommand] at h

/-- Settles O5: a body that does not answer OK refuses. -/
theorem refusedCommandsChangeNothing : Obligations.RefusedCommandsChangeNothing := by
  refine ⟨fun c s t hbytes hlistens hexec hrefused => ?_, fun code s _ hlistens => ?_⟩
  · obtain ⟨body, hbody, hanswer⟩ := exec_hostCommand hbytes
    rw [hbody, State.hostCommand_taken hlistens] at hexec
    cases hexec
    rcases (hanswer s.markTaken).refusedOrOk with ⟨r, hr⟩ | hok
    · exact ⟨r.code, hr.trans (State.refuse_markTaken s r)⟩
    · exact absurd hok hrefused
  · show execUnknownCommand code s = _
    exact State.hostCommand_taken hlistens _

/-! ### Transactions (R170, R172, R182) -/

theorem exec_csnFall {s : State} (hhigh : s.port.phase = .high) :
    exec .csnFall s = .next { s with port := { Port.quiet with phase := if s.running then .waiting else .deaf } } := by
  have hpossible : (s.port.phase == .high) = true := by simp [hhigh]
  show s.whenever _ _ = _
  rw [hpossible, State.whenever_true]

theorem exec_csnRise {s : State} (hlow : s.port.phase ≠ .high) (t : Nat) (cut : CutChoice) :
    exec (.csnRise t cut) s = .next
      (if s.port.softReset then (s.endTransaction.takeReset none cut).endReset t
        else (s.atInstant t).endTransaction) := by
  have hpossible : (s.port.phase != .high) = true := by simp [hlow]
  show s.whenever _ _ = _
  rw [hpossible, State.whenever_true]

theorem running_iff (s : State) : s.running = true ↔ s.hold = none := Option.isNone_iff_eq_none

/-- Settles O4. -/
theorem transactionsFrameHostCommands : Obligations.TransactionsFrameHostCommands := by
  refine ⟨fun s hhigh hfree => ?_, fun s hhigh hheld => ?_, fun t cut s hlow hsoft => ?_, fun c s hbytes hdeaf => ?_⟩
  · rw [exec_csnFall hhigh, if_pos ((running_iff s).2 hfree)]
    rfl
  · rw [exec_csnFall hhigh, if_neg (mt (running_iff s).1 hheld)]
    rfl
  · rw [exec_csnRise hlow, hsoft]
    rfl
  · obtain ⟨body, hbody, -⟩ := exec_hostCommand hbytes
    rw [hbody, State.hostCommand_ignored hdeaf]

/-! ### Events (R176 to R178) -/

theorem eventWord_toNat (s : State) : s.eventWord.toNat = s.flags.toNat := by
  rw [State.eventWord, BitVec.toNat_setWidth]
  exact Nat.mod_eq_of_lt (s.flags.isLt.trans (by decide))

/-- Settles O10. -/
theorem readEventsClearsWhatItReports : Obligations.ReadEventsClearsWhatItReports := by
  refine ⟨fun s hlistens => ⟨_, State.hostCommand_taken hlistens _, ?_, ?_⟩, State.raise_flagSet,
    fun s f hfree hreading hmask => ?_, fun s hfree => ⟨fun hreading => ?_, fun hreading => ?_⟩,
    fun t cut s hfree hlow hsoft => ⟨_, exec_csnRise hlow t cut, ?_, ?_⟩⟩
  · simp only [State.takeEvents, State.answer, eventWord_toNat]
    rfl
  · simp [State.irqAsserted, State.takeEvents, State.answer]
  · exact (State.irqAsserted_iff (s.raise f) hfree hreading).2 ⟨f, State.raise_flagSet_self s f, hmask⟩
  · simp [State.irqAsserted, hreading]
  · exact State.irqAsserted_iff s hfree hreading
  · simp [hsoft]
  · rw [hsoft]
    exact State.irqAsserted_iff (s.atInstant t).endTransaction hfree rfl

end Sys2Proof.Proofs.Port
end

section
/-! PROOFS. The bytes of the control port: commands from their bytes, the reads and the layouts of their records. -/

namespace Sys2Proof.Proofs.Records

open Sys2Proof Sys2Proof.Machine Sys2Proof.Proofs.Port Sys2Proof.Laws

/-! ### Fields and bytes (R184) -/

theorem fieldOfBytes_bytesOfNat {w k : Nat} (hw : 2 ^ w ≤ 256 ^ k) (v : BitVec w) :
    fieldOfBytes w (bytesOfNat k v.toNat) = v := by
  rw [fieldOfBytes, natOfBytes_bytesOfNat k _ (v.isLt.trans_le hw), BitVec.ofNat_toNat, BitVec.setWidth_eq]

theorem fieldOfBytes_byte (b : Byte) : fieldOfBytes 8 [b] = b := by
  simp [fieldOfBytes, natOfBytes, ofDigits]

theorem bytesOfNat_one (n : Nat) : bytesOfNat 1 n = [BitVec.ofNat 8 n] := by
  have hbyte : bytesOfNat 1 n = [BitVec.ofNat 8 (n % 256)] := rfl
  rw [hbyte]
  congr 1
  apply BitVec.eq_of_toNat_eq
  simp

theorem bytesOfNat_two (n : Nat) :
    bytesOfNat 2 n = [BitVec.ofNat 8 (n / 256 % 256), BitVec.ofNat 8 (n % 256)] := rfl

/-! ### Commands from their bytes (Tables 12-4, 12-6) -/

theorem configOfBytes_bytesOfConfig (c : ConfigArgs) : configOfBytes (bytesOfConfig c) = c := by
  have hfields : configOfBytes (bytesOfConfig c) =
      { format := fieldOfBytes 8 (bytesOfNat 1 c.format.toNat)
        tAct := fieldOfBytes 16 (bytesOfNat 2 c.tAct.toNat)
        gFar := fieldOfBytes 16 (bytesOfNat 2 c.gFar.toNat)
        gVoice := fieldOfBytes 16 (bytesOfNat 2 c.gVoice.toNat)
        gUp := fieldOfBytes 16 (bytesOfNat 2 c.gUp.toNat)
        gSide := fieldOfBytes 16 (bytesOfNat 2 c.gSide.toNat)
        vol := fieldOfBytes 16 (bytesOfNat 2 c.vol.toNat)
        mask := fieldOfBytes 32 (bytesOfNat 4 c.mask.toNat) } := rfl
  rw [hfields]
  simp [fieldOfBytes_bytesOfNat]

/-- The bytes of a command are its code and that code's argument bytes. -/
theorem length_arguments {c : Instr} {code : Byte} {args : List Byte} (hwf : c.wf = true)
    (h : bytesOfCommand c = some (code :: args)) : args.length = argumentBytes code.toNat := by
  cases c with
  | readId => exact PortLength.readId _ _ hwf h
  | writeConfig => exact PortLength.writeConfig _ _ _ _ hwf h
  | start => exact PortLength.start _ _ _ _ hwf h
  | stop => exact PortLength.stop _ _ _ hwf h
  | foundGroup => exact PortLength.foundGroup _ _ _ hwf h
  | joinGroup => exact PortLength.joinGroup _ _ _ _ hwf h
  | openPairing => exact PortLength.openPairing _ _ _ hwf h
  | closePairing => exact PortLength.closePairing _ _ hwf h
  | bearCall => exact PortLength.bearCall _ _ hwf h
  | endCall => exact PortLength.endCall _ _ hwf h
  | setLevels => exact PortLength.setLevels _ _ _ _ hwf h
  | readStatus => exact PortLength.readStatus _ _ hwf h
  | readEvents => exact PortLength.readEvents _ _ hwf h
  | readPeers => exact PortLength.readPeers _ _ hwf h
  | readBond => exact PortLength.readBond _ _ _ hwf h
  | retireBond => exact PortLength.retireBond _ _ _ _ hwf h
  | lockBond => exact PortLength.lockBond _ _ _ _ hwf h
  | eraseBond => exact PortLength.eraseBond _ _ _ _ hwf h
  | clearFault => exact PortLength.clearFault _ _ hwf h
  | writeDownlink => exact PortLength.writeDownlink _ _ _ hwf h
  | readUplink => exact PortLength.readUplink _ _ _ hwf h
  | softReset => exact PortLength.softReset _ _ hwf h
  | unknownCommand => exact PortLength.unknownCommand _ _ _ hwf h
  | _ => cases h

theorem commandOf_unknown {code : Byte} (h : (Instr.unknownCommand code).wf = true) (t : Nat) (a : List Byte) :
    commandOf t code a = .unknownCommand code := by
  unfold commandOf
  split
  case h_23 => rfl
  all_goals
    next hcode => simp [Instr.wf, commandCodes, hcode] at h

/-- The code and the arguments of a command name that command. -/
theorem commandOf_bytes {c : Instr} {code : Byte} {args : List Byte} (hwf : c.wf = true)
    (h : bytesOfCommand c = some (code :: args)) : commandOf c.instant code args = c := by
  cases c with
  | readId | stop | foundGroup | closePairing | bearCall | endCall | readStatus | readEvents | readPeers | clearFault
  | softReset =>
    cases h
    rfl
  | start | joinGroup | openPairing | readBond | retireBond | lockBond | eraseBond =>
    cases h
    simp [commandOf, fieldOfBytes_byte, Instr.instant]
  | writeConfig =>
    cases h
    simp [commandOf, configOfBytes_bytesOfConfig, Instr.instant]
  | setLevels | writeDownlink | readUplink =>
    cases h
    simp [commandOf, fieldOfBytes_bytesOfNat]
  | unknownCommand =>
    cases h
    exact commandOf_unknown hwf _ _
  | _ => cases h

theorem commandOfBytes_append {t : Nat} {code : Byte} {args : List Byte}
    (hlen : args.length = argumentBytes code.toNat) (more : List Byte) :
    commandOfBytes t (code :: args ++ more) = some (commandOf t code args) := by
  have hrest : ¬(args ++ more).length < argumentBytes code.toNat := by
    rw [List.length_append]
    omega
  rw [List.cons_append, commandOfBytes, if_neg hrest, ← hlen, List.take_left]

theorem bytesOfCommand_ne_nil (c : Instr) : bytesOfCommand c ≠ some [] := by
  cases c <;> simp [bytesOfCommand]

theorem sampleOfBytes_bytes (v : Sample) :
    sampleOfBytes (BitVec.ofNat 8 (v.toNat / 256 % 256)) (BitVec.ofNat 8 (v.toNat % 256)) = v :=
  fieldOfBytes_bytesOfNat (k := 2) (by decide) v

theorem samplesOfBytes_odd {odd : List Byte} (h : odd.length ≤ 1) : samplesOfBytes odd = [] := by
  cases odd with
  | nil => rfl
  | cons b rest =>
    cases rest with
    | nil => rfl
    | cons => simp at h

theorem samplesOfBytes_flatMap (vs : List Sample) {odd : List Byte} (h : odd.length ≤ 1) :
    samplesOfBytes ((vs.flatMap fun v => bytesOfNat 2 v.toNat) ++ odd) = vs := by
  induction vs with
  | nil => exact samplesOfBytes_odd h
  | cons v vs ih =>
    simp only [List.flatMap_cons, bytesOfNat_two, List.cons_append, List.nil_append, samplesOfBytes,
      sampleOfBytes_bytes]
    exact congrArg (v :: ·) ih

/-- Settles O11. -/
theorem portBytesNameTheirCommand : Obligations.PortBytesNameTheirCommand := by
  refine ⟨fun c bs more hwf hbytes => ?_, fun t n result vs odd hodd => ?_⟩
  · cases bs with
    | nil => exact absurd hbytes (bytesOfCommand_ne_nil c)
    | cons code args => rw [commandOfBytes_append (length_arguments hwf hbytes), commandOf_bytes hwf hbytes]
  · have hbytes : (0x50 :: bytesOfNat 2 n.toNat ++ result :: (vs.flatMap fun v => bytesOfNat 2 v.toNat) ++ odd) =
        (0x50 :: bytesOfNat 2 n.toNat ++ result :: ((vs.flatMap fun v => bytesOfNat 2 v.toNat) ++ odd) : List Byte) := by
      simp
    have hcommand := commandOfBytes_append (t := t) (code := 0x50) (args := bytesOfNat 2 n.toNat) rfl
      (result :: ((vs.flatMap fun v => bytesOfNat 2 v.toNat) ++ odd))
    have hwrite : commandOf t 0x50 (bytesOfNat 2 n.toNat) = .writeDownlink n :=
      congrArg Instr.writeDownlink (fieldOfBytes_bytesOfNat (by decide) n)
    rw [hbytes, commandsOfBytes, hcommand, hwrite]
    exact congrArg (fun xs => Instr.writeDownlink n :: (xs.take n.toNat).map .downlinkSample)
      (samplesOfBytes_flatMap vs hodd)

/-! ### The reads (R163, R175, R179, R180) -/

/-- A host command leaves its transaction open, so SDO shifts the reply out behind the bytes of the command. -/
theorem sdoByte_of_hostCommand {c : Instr} {code : Byte} {args : List Byte} {s t : State} (hwf : c.wf = true)
    (hbytes : bytesOfCommand c = some (code :: args)) (hlistens : s.listensToHost)
    (hexec : exec c s = .next t) (i : Nat) :
    t.sdoByte code i = some (if i ≤ args.length then 0x00 else t.port.reply.getD (i - (args.length + 1)) 0x00) := by
  obtain ⟨body, hbody, hanswer⟩ := exec_hostCommand (c := c) (by simp [hbytes])
  rw [hbody, State.hostCommand_taken hlistens] at hexec
  cases hexec
  obtain ⟨hhold, hphase, -⟩ := hanswer s.markTaken
  have hrunning : (body s.markTaken).hold = none := hhold.trans hlistens.1
  have htaken : (body s.markTaken).port.phase = .taken := hphase
  have hdriven : (body s.markTaken).sdoHighImpedance = false := by
    simp [State.sdoHighImpedance, hrunning, htaken]
  simp [State.sdoByte, hdriven, Machine.Port.byteOut, length_arguments hwf hbytes]

theorem sdoByte_highImpedance {s : State} (h : s.port.phase = .high ∨ s.hold ≠ none) (code : Byte) (i : Nat) :
    s.sdoByte code i = none := by
  have hz : s.sdoHighImpedance = true := by
    simpa [State.sdoHighImpedance, Option.ne_none_iff_isSome, or_comm] using h
  simp [State.sdoByte, hz]

theorem exec_readBond {s : State} (hlistens : s.listensToHost) (b : Byte) :
    exec (.readBond b) s = .next (s.took
      (if b.toNat < 16 then 0x00 :: bondRecord (s.store.target b.toNat)
      (placeAt s.store.copy b.toNat) else [0x08])) := by
  show execReadBond b s = _
  rw [execReadBond, State.hostCommand_taken hlistens]
  by_cases hb : b.toNat < 16
  · rw [if_neg (by omega), if_pos hb]
    rfl
  · rw [if_pos (by omega), if_neg hb]
    rfl

/-! ### The layouts of the records (Tables 12-7 to 12-9) -/

theorem bitOf_flags (d c b a : Bool) :
    let flags := BitVec.ofNat 8 (bitOf d * 8 + bitOf c * 4 + bitOf b * 2 + bitOf a)
    flags.getLsbD 3 = d ∧ flags.getLsbD 2 = c ∧ flags.getLsbD 1 = b ∧ flags.getLsbD 0 = a ∧ flags.toNat < 16 := by
  revert d c b a
  decide

theorem peerRecord_eq (p : Peer) :
    peerRecord p = [BitVec.ofNat 8 p.number.val, BitVec.ofNat 8 p.wearer.val, p.state.code] ++
      (bytesOfNat 2 p.missed ++ ([slotByte p.voiceSlot, slotByte p.farSlot, signedByte p.offset] ++
        [BitVec.ofNat 8 (bitOf p.lineMute * 8 + bitOf p.hush * 4 + bitOf p.pairingOpen * 2 + bitOf p.bearer),
          p.age])) := by
  simp only [peerRecord, bytesOfNat_one]
  rfl

theorem bondRecord_eq (busy : Bool) (p : Place) :
    bondRecord busy p = [if busy then 4#8 else p.state.code, BitVec.ofNat 8 (bitOf p.locked)] ++
      (bytesOfNat 3 p.value.group.toNat ++
        ([BitVec.ofNat 8 p.value.station.val, BitVec.ofNat 8 p.value.wearer.val] ++
          bytesOfNat 2 p.value.seq.toNat)) := by
  simp only [bondRecord, bytesOfNat_one]
  rfl

theorem statusRecord_eq (s : State) :
    statusRecord s =
      [s.station.state.code, BitVec.ofNat 8 s.station.creds.number.val, BitVec.ofNat 8 s.station.creds.wearer.val] ++
      (bytesOfNat 3 s.station.creds.group.toNat ++
        ([s.voice.state.code, slotByte s.voice.slot, s.farEnd.state.code, slotByte s.farEnd.slot,
          BitVec.ofNat 8 s.bearer.state.code, BitVec.ofNat 8 s.bearer.age, s.pairing.window.state.code] ++
        (bytesOfNat 2 s.pairing.window.remaining ++
          ([s.pairing.window.lastCause.code, s.store.state.code, BitVec.ofNat 8 (bitOf s.store.waiting.isSome),
            s.store.cause.code] ++
          ((bytesOfNat 2 s.bearer.downlink.length ++ bytesOfNat 2 s.bearer.uplink.length) ++
            (bytesOfNat 4 s.timer.counter.toNat ++
              [signedByte s.timer.lastCorrection, BitVec.ofNat 8 s.peers.length])))))) := by
  simp only [statusRecord, bytesOfNat_one, List.append_assoc, List.cons_append, List.nil_append]

/-- Settles O9. -/
theorem readsReportTheirRecords : Obligations.ReadsReportTheirRecords := by
  refine ⟨⟨fun s hlistens => ⟨?_, ?_, ?_, exec_readBond hlistens⟩,
      fun c code args s t hwf hbytes hlistens hexec => sdoByte_of_hostCommand hwf hbytes hlistens hexec,
      fun code i s h => sdoByte_highImpedance h code i⟩, fun p => ?_, fun busy p => ?_, fun s => ?_⟩
  · show execReadId s = _
    exact State.hostCommand_taken hlistens _
  · show execReadStatus s = _
    exact State.hostCommand_taken hlistens _
  · show execReadPeers s = _
    exact State.hostCommand_taken hlistens _
  · rw [peerRecord_eq]
    refine ⟨rfl, ?_, rfl, rfl, _, rfl, bitOf_flags _ _ _ _⟩
    cases p.state <;> rfl
  · rw [bondRecord_eq]
    refine ⟨rfl, ?_, fieldOfBytes_bytesOfNat (k := 3) (by decide) _, rfl,
      fieldOfBytes_bytesOfNat (k := 2) (by decide) _⟩
    cases p.state <;> cases p.locked <;> rfl
  · rw [statusRecord_eq]
    refine ⟨by simp, by simp, ?_, ?_, ?_, ?_, ?_, ?_, ?_⟩
    all_goals
      simp [List.drop_append, List.take_append, List.drop_eq_nil_of_le, List.take_of_length_le, bitOf, signedByte,
        fieldOfBytes_bytesOfNat]

end Sys2Proof.Proofs.Records
end

section
/-! PROOFS. The resets: SOFT_RESET, the reset pins, and the end of a reset with the start-up scan. -/

namespace Sys2Proof.Proofs.Resets

open Sys2Proof Sys2Proof.Machine Sys2Proof.Proofs.Port

/-! ### The start-up scan (R169) -/

theorem scanNext_opened {s : State} {i : Nat} (h : firstIn .opened s.store.copy = some i) (t : Nat) :
    s.scanNext t = { s with store := { s.store with
      state := .scanning, flight := some { op := .scanRetire, place := i, start := t } } } := by
  simp [State.scanNext, h]

theorem scanNext_done {s : State} (h : firstIn .opened s.store.copy = none) (t : Nat) :
    s.scanNext t = s.storeRelease := by
  simp [State.scanNext, h]

theorem firstIn_none {st : PlaceState} {ps : List Place} (h : ∀ p ∈ ps, p.state ≠ st) : firstIn st ps = none :=
  List.findIdx?_eq_none_iff.2 fun p hp => by simpa using h p hp

/-- What the end of a reset makes of a state, in the two ways that its scan can go. -/
theorem endReset_store (s : State) (t : Nat) :
    (s.endReset t).store.places = s.store.places ∧ (s.endReset t).store.copy = s.store.places ∧
    (s.endReset t).store.waiting = s.store.waiting ∧ (s.endReset t).store.cause = s.store.cause ∧
    (∀ i, firstIn .opened s.store.places = some i →
      (s.endReset t).store.state = .scanning ∧ (s.endReset t).flags = s.flags ∧
        (s.endReset t).store.flight = some { op := .scanRetire, place := i, start := max s.now t }) ∧
    (firstIn .opened s.store.places = none →
      (s.endReset t).store.flight = none ∧ (s.endReset t).flags = s.flags ||| Flag.storeDone.mark ∧
        (s.endReset t).store.state = if s.store.waiting.isSome then .busy else .idle) := by
  cases hscan : firstIn .opened s.store.places with
  | some i =>
    rw [State.endReset, State.startScan, scanNext_opened (i := i) hscan]
    refine ⟨rfl, rfl, rfl, rfl, fun j hj => ?_, nofun⟩
    cases hj
    exact ⟨rfl, rfl, rfl⟩
  | none =>
    rw [State.endReset, State.startScan, scanNext_done hscan]
    exact ⟨rfl, rfl, rfl, rfl, nofun, fun _ => ⟨rfl, rfl, rfl⟩⟩

/-- What a state whose flags are another's with `f` raised reports. -/
theorem flagSet_of_raised {s u : State} {f : Flag} (h : u.flags = s.flags ||| f.mark) (g : Flag) :
    u.flagSet g = (s.flagSet g || decide (f = g)) := by
  rw [← s.raise_flagSet f g, State.flagSet, h]
  rfl

theorem flagSet_of_zero {s : State} (h : s.flags = 0) (f : Flag) : s.flagSet f = false := by
  simp [State.flagSet, h]

theorem exec_resetEnd {s : State} (hheld : s.hold ≠ none) (t : Nat) : exec (.resetEnd t) s = .next (s.endReset t) := by
  have hstopped : (!s.running) = true := by
    rw [State.running, Option.isNone_eq_false_iff.2 (Option.isSome_iff_ne_none.2 hheld)]
    rfl
  show s.whenever _ _ = _
  rw [hstopped, State.whenever_true]

theorem endReset_mute (s : State) (t : Nat) : (s.endReset t).mute = s.mute.settle s.config.muteLow := by
  simp [State.endReset]

/-- Settles O8. -/
theorem resetEndStartsTheScan : Obligations.ResetEndStartsTheScan := by
  intro t s hheld
  obtain ⟨hplaces, hcopy, hwaiting, hcause, hopened, hdone⟩ := endReset_store s t
  refine ⟨s.endReset t, exec_resetEnd hheld t, by simp [State.endReset], hplaces, hcopy, hwaiting, hcause,
    by simp [State.endReset]; rfl, by simp [State.endReset], by simp [State.endReset], by simp [State.endReset],
    by simp [State.endReset], by simp [State.endReset], hopened, fun hnone => ?_⟩
  obtain ⟨hflight, hflags, hstate⟩ := hdone (firstIn_none hnone)
  exact ⟨hflight, by simp [flagSet_of_raised hflags], fun hfree => by simpa [hfree] using hstate⟩

/-- Settles O6: at the rise of CSN the reset is taken and ends at once, so its store is the cut one, scanned. -/
theorem softResetIsTakenAtTheRiseOfCsn : Obligations.SoftResetIsTakenAtTheRiseOfCsn := by
  refine ⟨fun s hlistens => ?_, fun t cut s hlow hsoft => ?_⟩
  · show execSoftReset s = _
    exact State.hostCommand_taken hlistens _
  · obtain ⟨hplaces, hcopy, hwaiting, hcause, hopened, hdone⟩ := endReset_store (s.endTransaction.takeReset none cut) t
    have hcut : ((s.endTransaction.takeReset none cut).endReset t).store.places = placesAfterCut cut s.store := hplaces
    have hzero : (s.endTransaction.takeReset none cut).flags = 0 := rfl
    have hothers : ∀ f : Flag, f ≠ .storeDone →
        ((s.endTransaction.takeReset none cut).endReset t).flagSet f = false := fun f hf => by
      cases hscan : firstIn .opened (s.endTransaction.takeReset none cut).store.places with
      | some i => exact flagSet_of_zero ((hopened i hscan).2.1.trans hzero) f
      | none =>
        obtain ⟨_, hflags, _⟩ := hdone hscan
        rw [flagSet_of_raised hflags, flagSet_of_zero hzero, decide_eq_false (Ne.symm hf), Bool.or_false]
    refine ⟨(s.endTransaction.takeReset none cut).endReset t, ?_, ?_⟩
    · rw [exec_csnRise hlow, hsoft]
      rfl
    · rw [hcut]
      refine ⟨by simp [State.endReset], by simp [State.endReset, State.takeReset], by simp [State.endReset,
        State.takeReset],
        by simp [State.endReset, State.takeReset], by simp [State.endReset, State.takeReset],
        by simp [State.endReset, State.takeReset], by simp [State.endReset, State.takeReset]; rfl,
        by simp [State.endReset, State.takeReset]; rfl, by simp [State.endReset, State.takeReset],
        by simp [State.endReset, State.takeReset], by simp [State.endReset, State.takeReset],
        by simp [State.endReset, State.takeReset], by simp [State.endReset, State.takeReset],
        by simp [State.endReset, State.takeReset], by simp [State.endReset, State.takeReset], ?_, ?_, hothers,
        placesAfterCut_mayLeave cut s.store, rfl, hcopy, hwaiting, hcause, fun i hi => ?_, fun hnone => ?_,
        by simp [State.endReset, State.takeReset], by simp [State.endReset, State.takeReset],
        by simp [State.endReset, State.takeReset]⟩
      · simp [State.endReset, State.takeReset]; rfl
      · rw [endReset_mute]
        show Mute.settle { lineHigh := s.mute.lineHigh, debounced := false, expiry := none } false = _
        cases s.mute.lineHigh <;> rfl
      · obtain ⟨hstate, hflags, hflight⟩ := hopened i hi
        exact ⟨hstate, hflags.trans hzero, hflight⟩
      · obtain ⟨hflight, hflags, hstate⟩ := hdone (firstIn_none hnone)
        exact ⟨hstate, hflight, by simp [flagSet_of_raised hflags]⟩

/-! ### The reset pins (R181) -/

/-- Both pins take the reset and hold the device in it. -/
theorem exec_resetPin {c : Instr} {cut : CutChoice} (h : c = .powerOnReset cut ∨ c = .rstnFall cut) (s : State) :
    ∃ cause, exec c s = .next (s.takeReset (some cause) cut) := by
  obtain rfl | rfl := h
  · exact ⟨.powerOn, rfl⟩
  · exact ⟨.rstn, rfl⟩

/-- Settles O7. -/
theorem resetPinsStopEveryBlock : Obligations.ResetPinsStopEveryBlock := by
  refine ⟨fun c cut s hpin => ?_, fun s f new hflight _ hleave => ?_⟩
  · obtain ⟨cause, hexec⟩ := exec_resetPin hpin s
    refine ⟨_, hexec, nofun, rfl, rfl, rfl, rfl, rfl, rfl, rfl, rfl, rfl, rfl, rfl, rfl, rfl, rfl, rfl, rfl, rfl,
      placesAfterCut_mayLeave cut s.store, rfl, rfl, rfl, rfl, rfl, rfl, rfl, rfl, rfl, nofun, rfl, rfl⟩
  · obtain ⟨cut, hcut⟩ := cutPlace_reaches hleave
    refine ⟨cut, fun c hpin => ?_⟩
    obtain ⟨cause, hexec⟩ := exec_resetPin hpin s
    refine ⟨_, hexec, ?_⟩
    show placesAfterCut cut s.store = _
    rw [placesAfterCut, hflight, ← hcut]

end Sys2Proof.Proofs.Resets
end

section
/-! PROOFS. The station's own commands: WRITE_CONFIG, START, STOP, FOUND_GROUP and JOIN_GROUP. -/

namespace Sys2Proof.Proofs.Station

open Sys2Proof Sys2Proof.Machine Sys2Proof.Proofs.Port

/-! ### WRITE_CONFIG (R19, R36, R174) -/

theorem registerDebounce_toNat (b : Byte) : (registerDebounce b).toNat = min (b.toNat % 8) 3 := by
  rw [registerDebounce]
  split
  next habove => simp [Nat.min_eq_right (Nat.le_of_lt habove)]
  next hwithin =>
    have hle : b.toNat % 8 ≤ 3 := Nat.le_of_not_lt hwithin
    rw [Nat.min_eq_left hle, BitVec.toNat_ofNat]
    exact Nat.mod_eq_of_lt (by omega)

theorem registerMask_bit (a : ConfigArgs)
    (f : Flag) : (registerConfig a).mask.getLsbD f.bit = a.mask.getLsbD f.bit := by
  show (a.mask.setWidth 25).getLsbD f.bit = _
  rw [BitVec.getLsbD_setWidth, decide_eq_true f.bit_lt, Bool.true_and]

theorem settle_eq (m : Mute) (muteLow : Bool) :
    m.settle muteLow = { lineHigh := m.lineHigh, debounced := m.lineHigh != muteLow, expiry := none } := rfl

/-- A free-running cycle that begins at `t` ends 10,000 ticks later (R1). -/
theorem ordinaryCycle_free (t : Nat) : ordinaryCycle t 0 =
    { start := t, planned := t + 10000, length := 10000, correction := 0, kind := .ordinary, gridInstant := t,
      nextPhase := none, respaced := [] } := by
  have hfinish : ((t : Int) + 10000 + 0).toNat = t + 10000 := by omega
  have hlength : t + 10000 - t = 10000 := by omega
  rw [ordinaryCycle, hfinish, hlength]

/-- Settles O12. -/
theorem writeConfigStartsOrKeepsTheTimer : Obligations.WriteConfigStartsOrKeepsTheTimer := by
  intro t a s hlistens
  have htaken : exec (.writeConfig t a) s = _ := (State.hostCommand_taken hlistens _ : execWriteConfig t a s = _)
  have hmark : s.markTaken.station.state = s.station.state := rfl
  refine ⟨fun hstation => ?_, fun hstation => ?_, fun hstarted hidle => ?_, ?_⟩
  · simp only [hmark, hstation] at htaken
    have hchan : ((((s.markTaken.atInstant t).configure a).startTimer (max s.now t)).enter .idle).chan =
        (((s.markTaken.atInstant t).configure a).startTimer (max s.now t)).chan := by
      show Channel.turn _ s.station.state.receiverOn false _ = _
      rw [hstation]
      rfl
    exact ⟨_, htaken, rfl, rfl, rfl, rfl, rfl, rfl,
      ⟨_, congrArg some (ordinaryCycle_free _), rfl, rfl, rfl, rfl, rfl, rfl, rfl⟩, congrArg Channel.nextSlot hchan,
      congrArg Channel.inSlot hchan, rfl, rfl, rfl, rfl, rfl, rfl, rfl, rfl, rfl, rfl, rfl, rfl, rfl, rfl, rfl, rfl,
      rfl, rfl, rfl⟩
  · simp only [hmark, hstation] at htaken
    exact htaken
  · cases hstate : s.station.state with
    | unconfigured => exact absurd hstate hstarted
    | idle => exact absurd hstate hidle
    | listen | seeking | joining | member | leaving =>
      simp only [hmark, hstate] at htaken
      exact htaken
  · exact ⟨Mix.registerLevel_toNat _, Mix.registerLevel_toNat _, Mix.registerLevel_toNat _, Mix.registerLevel_toNat _,
      Mix.registerLevel_toNat _, Mix.registerLevel_toNat _, registerDebounce_toNat _, rfl, rfl, rfl, registerMask_bit a⟩

/-! ### The place that START chooses (R37, R166) -/

/-- The candidate kept so far stays while no later place is newer. -/
theorem foldl_newerPlace_kept {m : Place} {ps : List Place} (h : ∀ p ∈ ps, p.value.seq.toNat ≤ m.value.seq.toNat) :
    ps.foldl newerPlace m = m := by
  induction ps with
  | nil => rfl
  | cons p ps ih =>
    have hkept : newerPlace m p = m := if_neg (Nat.not_lt.2 (h p List.mem_cons_self))
    rw [List.foldl_cons, hkept]
    exact ih fun q hq => h q (List.mem_cons_of_mem p hq)

/-- A place newer than all before it and than or as new as all after it is the newest. -/
theorem foldl_newerPlace_found {m : Place} {before after : List Place}
    (hbefore : ∀ p ∈ before, p.value.seq.toNat < m.value.seq.toNat)
    (hafter : ∀ p ∈ after, p.value.seq.toNat ≤ m.value.seq.toNat) {p : Place} (hp : p.value.seq.toNat < m.value.seq.toNat) :
    (before ++ m :: after).foldl newerPlace p = m := by
  induction before generalizing p with
  | nil =>
    have htaken : newerPlace p m = m := if_pos hp
    rw [List.nil_append, List.foldl_cons, htaken]
    exact foldl_newerPlace_kept hafter
  | cons q qs ih =>
    rw [List.cons_append, List.foldl_cons]
    refine ih (fun r hr => hbefore r (List.mem_cons_of_mem q hr)) ?_
    rw [newerPlace]
    split
    · exact hbefore q List.mem_cons_self
    · exact hp

/-- Where the place at `j` is VALID and every other VALID place is older, or as old and later, it is the newest. -/
theorem newestPlace_eq {ps : List Place} {j : Nat} (hvalid : (placeAt ps j).state = .valid)
    (hnewest : ∀ k, (placeAt ps k).state = .valid → k ≠ j →
      (placeAt ps k).value.seq.toNat < (placeAt ps j).value.seq.toNat ∨
        ((placeAt ps k).value.seq = (placeAt ps j).value.seq ∧ j < k)) :
    newestPlace ps = some (placeAt ps j) := by
  have hj : j < ps.length := by
    by_contra hout
    rw [placeAt, List.getD_eq_default _ _ (Nat.le_of_not_lt hout)] at hvalid
    exact absurd hvalid (by decide)
  have hat : ∀ k (hk : k < ps.length), placeAt ps k = ps[k] := fun k hk => List.getD_eq_getElem _ _ hk
  have hsplit : ps = ps.take j ++ placeAt ps j :: ps.drop (j + 1) := by
    rw [hat j hj, ← List.drop_eq_getElem_cons hj, List.take_append_drop]
  have hbefore : ∀ p ∈ (ps.take j).filter (fun p => p.state == .valid),
      p.value.seq.toNat < (placeAt ps j).value.seq.toNat := fun p hp => by
    obtain ⟨hmem, hstate⟩ := List.mem_filter.1 hp
    obtain ⟨k, hk, rfl⟩ := List.mem_take_iff_getElem.1 hmem
    have hkj : k < j := (Nat.lt_min.1 hk).1
    have := hnewest k (by rw [hat k (by omega)]; exact eq_of_beq hstate) (by omega)
    rw [hat k (by omega)] at this
    omega
  have hafter : ∀ p ∈ (ps.drop (j + 1)).filter (fun p => p.state == .valid),
      p.value.seq.toNat ≤ (placeAt ps j).value.seq.toNat := fun p hp => by
    obtain ⟨hmem, hstate⟩ := List.mem_filter.1 hp
    obtain ⟨k, hk, rfl⟩ := List.mem_drop_iff_getElem.1 hmem
    have := hnewest (j + 1 + k) (by rw [hat _ (by omega)]; exact eq_of_beq hstate) (by omega)
    rw [hat _ (by omega)] at this
    obtain hlt | ⟨heq, _⟩ := this
    · exact hlt.le
    · rw [heq]
  have hfilter : ps.filter (fun p => p.state == .valid) = (ps.take j).filter (fun p => p.state == .valid) ++
      placeAt ps j :: (ps.drop (j + 1)).filter (fun p => p.state == .valid) := by
    conv_lhs => rw [hsplit]
    rw [List.filter_append, List.filter_cons_of_pos (by rw [hvalid]; rfl)]
  rw [newestPlace, hfilter]
  cases hearlier : (ps.take j).filter (fun p => p.state == .valid) with
  | nil => exact congrArg some (foldl_newerPlace_kept hafter)
  | cons q qs =>
    rw [hearlier] at hbefore
    exact congrArg some (foldl_newerPlace_found (fun r hr => hbefore r (List.mem_cons_of_mem q hr)) hafter
      (hbefore q List.mem_cons_self))

theorem newestPlace_none {ps : List Place} (h : ∀ p ∈ ps, p.state ≠ .valid) : newestPlace ps = none := by
  have hnone : ps.filter (fun p => p.state == .valid) = [] :=
    List.filter_eq_nil_iff.2 fun p hp => by simpa using h p hp
  rw [newestPlace, hnone]

theorem startArgOf_place {b : Byte} (h : b.toNat < 16) : startArgOf b = .place b.toNat := if_pos h

theorem startArgOf_newest : startArgOf 0xFF = .newest := rfl

theorem startArgOf_bad {b : Byte} (hplace : 16 ≤ b.toNat) (hnewest : b ≠ 0xFF) : startArgOf b = .bad :=
  (if_neg (Nat.not_lt.2 hplace)).trans (if_neg hnewest)

theorem startArgOf_ne_bad {b : Byte} (h : b.toNat < 16 ∨ b = 0xFF) : startArgOf b ≠ .bad := by
  obtain hplace | rfl := h
  · rw [startArgOf_place hplace]
    nofun
  · nofun

/-! ### START (R37, R166) -/

/-- What START makes of a state under a bond. -/
theorem startedUnder_enterListen {s : State} (hidle : s.station.state = .idle) (u : Nat) (p : Place) :
    s.startedUnder u p.value ((s.markTaken.atInstant u).enterListen p.creds).ok := by
  have hturn : s.chan.turn s.station.state.receiverOn true (max s.now u) = { s.chan with onSince := max s.now u } := by
    rw [hidle]
    rfl
  exact ⟨rfl, rfl, rfl, rfl, rfl, rfl, rfl, rfl, rfl, rfl, rfl, rfl, rfl, rfl, rfl, rfl, rfl, hturn, rfl, rfl⟩

/-- START in IDLE, taken, with an argument that names a place and the scan over. -/
theorem exec_start_idle {s : State} (hlistens : s.listensToHost) (hidle : s.station.state = .idle) {b : Byte}
    (harg : startArgOf b ≠ .bad) (hscan : s.store.state ≠ .scanning) (u : Nat) :
    exec (.start b u) s = .next (match chosenPlace s.store.copy (startArgOf b) with
      | none => s.took [0x03]
      | some p => ((s.markTaken.atInstant u).enterListen p.creds).ok) :=
  (State.hostCommand_taken hlistens _ : execStart b s u = _).trans
    (congrArg _ ((if_neg (not_not_intro hidle)).trans ((if_neg harg).trans (if_neg hscan))))

/-- Settles O14. -/
theorem startLoadsTheChosenBond : Obligations.StartLoadsTheChosenBond := by
  intro u b s hlistens newest
  have htaken : exec (.start b u) s = _ := (State.hostCommand_taken hlistens _ : execStart b s u = _)
  refine ⟨fun hstation => ?_, fun hidle hplace hnewest => ?_, fun hidle harg hscan => ?_,
    fun hidle hplace hscan hnot => ?_, fun hidle hff hscan hnone => ?_, fun hidle hscan j hj => ?_⟩
  · exact htaken.trans (congrArg _ (if_pos hstation))
  · exact htaken.trans (congrArg _ ((if_neg (not_not_intro hidle)).trans (if_pos (startArgOf_bad hplace hnewest))))
  · exact htaken.trans (congrArg _ ((if_neg (not_not_intro hidle)).trans
      ((if_neg (startArgOf_ne_bad harg)).trans (if_pos hscan))))
  · rw [exec_start_idle hlistens hidle (startArgOf_ne_bad (.inl hplace)) hscan, startArgOf_place hplace, chosenPlace,
      if_neg hnot]
  · rw [exec_start_idle hlistens hidle (startArgOf_ne_bad (.inr hff)) hscan, hff, startArgOf_newest, chosenPlace,
      newestPlace_none hnone]
  · have hchosen : startArgOf b ≠ .bad ∧ chosenPlace s.store.copy (startArgOf b) = some (placeAt s.store.copy j) := by
      obtain ⟨hplace, rfl, hvalid⟩ | ⟨rfl, hvalid, hnewest⟩ := hj
      · refine ⟨startArgOf_ne_bad (.inl hplace), ?_⟩
        rw [startArgOf_place hplace, chosenPlace, if_pos hvalid]
      · refine ⟨startArgOf_ne_bad (.inr rfl), ?_⟩
        rw [startArgOf_newest, chosenPlace, newestPlace_eq hvalid hnewest]
    obtain ⟨harg, hchosen⟩ := hchosen
    refine ⟨_, ?_, startedUnder_enterListen hidle u _⟩
    rw [exec_start_idle hlistens hidle harg hscan, hchosen]

/-! ### STOP (Table 3-3) -/

/-- STOP before MEMBER, whether or not a join context is dropped with it. -/
theorem enter_idle_chan {s : State} (hon : s.station.state.receiverOn = true) :
    (s.enter .idle).chan = { s.chan with cutSpans := s.chan.cutSpans ++ [(s.chan.onSince, s.now)] } := by
  show Channel.turn _ s.station.state.receiverOn false _ = _
  rw [hon]
  rfl

/-- Without a role, or with one that is ending already, there is nothing to end (R145). -/
theorem endRole_of_over {s : State} (h : s.bearer.state = .none ∨ s.bearer.state = .ending) : s.endRole = s := by
  obtain h | h := h <;> rw [State.endRole, h] <;> rfl

/-- A role whose claim holds its slot ends when the slot has been released (R145). -/
theorem endRole_of_held {s : State} (hrole : s.bearer.state.claims = true)
    (hheld : s.farEnd.state = .tentative ∨ s.farEnd.state = .confirmed) :
    s.endRole = { s with
      farEnd := { Claim.gone with state := .releasing, slot := s.farEnd.slot }
      bearer := { s.bearer with state := .ending } } := by
  have hsending : s.farEnd.sending = true := by obtain h | h := hheld <;> rw [Claim.sending, h]
  rw [State.endRole, if_pos hrole, if_pos hsending, Claim.release_held hheld]

/-- A role whose claim holds no slot ends at once (R145). -/
theorem endRole_of_waiting {s : State} (hrole : s.bearer.state.claims = true)
    (hwaits : s.farEnd.state = .waiting ∨ s.farEnd.state = .holdoff) :
    s.endRole = { s with farEnd := Claim.gone }.bearerToNone := by
  have hsending : ¬s.farEnd.sending = true := by obtain h | h := hwaits <;> rw [Claim.sending, h] <;> nofun
  rw [State.endRole, if_pos hrole, if_neg hsending, Claim.release_idle hwaits]

theorem bearerToNone_keeps_flag {s : State} {f : Flag} (h : s.flagSet f = true) : s.bearerToNone.flagSet f = true := by
  rw [State.flagSet, State.bearerToNone_flags]
  split
  · exact h
  · exact State.raise_keeps h .farendDown

theorem endRole_keeps_flag {s : State} {f : Flag} (h : s.flagSet f = true) : s.endRole.flagSet f = true := by
  rw [State.endRole]
  split
  · split
    · exact h
    · exact bearerToNone_keeps_flag h
  · exact h

/-- A far-end claim that is not NONE or RELEASING has a role that claims (Table 9-1). -/
theorem role_claims {s : State} (hclaims : s.claimsOk = true) (hnone : s.farEnd.state ≠ .none)
    (hreleasing : s.farEnd.state ≠ .releasing) : s.bearer.state.claims = true := by
  obtain ⟨_, _, _, hrole⟩ := s.claimsOk_iff.1 hclaims
  revert hrole hnone hreleasing
  cases s.bearer.state <;> cases s.farEnd.state <;> simp [roleMatches, BearerState.claims]

/-- The receiver of a MEMBER that leaves stays on. -/
theorem stopMember_chan {s : State} (hmember : s.station.state = .member) : s.stopMember.chan = s.chan := by
  have hturn : ∀ t : State, t.station.state = .member → t.chan = s.chan → (t.enter .leaving).chan = s.chan :=
    fun t hstate hchan => by
      show Channel.turn _ t.station.state.receiverOn true _ = _
      rw [hstate, hchan]
      rfl
  exact hturn _ (by simp [hmember]) (by simp)

/-- The end of a role by its far-end claim: released, given up, or over before (R145, R147). -/
theorem endRole_rows {s w : State} (hclaims : s.claimsOk = true) (hbearer : w.bearer = s.bearer)
    (hfar : w.farEnd = s.farEnd) (hstreams : w.streams = s.streams) :
    (s.bearer.state = .none ∨ s.bearer.state = .ending →
      w.endRole.bearer = s.bearer ∧ w.endRole.farEnd = s.farEnd ∧ w.endRole.streams = s.streams) ∧
    (s.farEnd.state = .tentative ∨ s.farEnd.state = .confirmed →
      w.endRole.farEnd = { Claim.gone with state := .releasing, slot := s.farEnd.slot } ∧
        w.endRole.bearer = { s.bearer with state := .ending } ∧ w.endRole.streams = s.streams) ∧
    (s.farEnd.state = .waiting ∨ s.farEnd.state = .holdoff →
      w.endRole.farEnd = Claim.gone ∧ w.endRole.bearer = Bearer.gone ∧ w.endRole.streams.farEnd.state = .absent ∧
        (s.streams.farEnd.state ≠ .absent → w.endRole.flagSet .farendDown = true)) := by
  have hclaiming : s.farEnd.state ≠ .none ∧ s.farEnd.state ≠ .releasing → w.bearer.state.claims = true := fun h =>
    hbearer ▸ role_claims hclaims h.1 h.2
  refine ⟨fun h => ?_, fun h => ?_, fun h => ?_⟩
  · rw [endRole_of_over (by rwa [hbearer])]
    exact ⟨hbearer, hfar, hstreams⟩
  · rw [endRole_of_held (hclaiming (by obtain h | h := h <;> simp [h])) (by rwa [hfar]), ← hbearer, ← hfar, ← hstreams]
    exact ⟨rfl, rfl, rfl⟩
  · rw [endRole_of_waiting (hclaiming (by obtain h | h := h <;> simp [h])) (by rwa [hfar]), State.bearerToNone_streams,
      State.bearerToNone_flagSet]
    refine ⟨by simp, by simp, rfl, fun hpresent => ?_⟩
    simp [hstreams, hpresent]

/-- Settles O15. -/
theorem stopLeavesTheGroup : Obligations.StopLeavesTheGroup := by
  intro u s hlistens
  have htaken : exec (.stop u) s = _ := (State.hostCommand_taken hlistens _ : execStop s u = _)
  have hmark : s.markTaken.station.state = s.station.state := rfl
  refine ⟨fun hout => ?_, fun hseeking => ?_, fun hmember hclaims => ?_⟩
  · obtain hstate | hstate | hstate := hout <;>
    · simp only [hmark, hstate] at htaken
      exact htaken
  · obtain hstate | hstate | hstate := hseeking
    · simp only [hmark, hstate] at htaken
      have hon : (s.markTaken.atInstant u).station.state.receiverOn = true := by
        rw [show (s.markTaken.atInstant u).station.state = .listen from hstate]
        rfl
      exact ⟨_, htaken, rfl, rfl, rfl, rfl, enter_idle_chan hon, rfl, rfl, rfl, rfl, rfl, rfl, rfl, rfl, rfl, rfl, rfl,
        fun h => absurd hstate h, rfl, rfl, rfl, rfl, rfl, rfl, rfl⟩
    all_goals
      simp only [hmark, hstate] at htaken
      have hon : (s.markTaken.atInstant u).dropNewcomer.station.state.receiverOn = true := by
        rw [show (s.markTaken.atInstant u).dropNewcomer.station.state = _ from hstate]
        rfl
      exact ⟨_, htaken, rfl, rfl, rfl, rfl, enter_idle_chan hon, rfl, rfl, rfl, rfl, rfl, rfl, rfl, rfl, rfl, rfl, rfl,
        fun _ => rfl, rfl, rfl, rfl, rfl, rfl, rfl, rfl⟩
  · simp only [hmark, hmember] at htaken
    obtain ⟨w, hw⟩ : ∃ w, (s.markTaken.atInstant u).closeWindow .closed = w := ⟨_, rfl⟩
    have hbearer : w.bearer = s.bearer := by simp [← hw, State.markTaken, State.atInstant]
    have hfar : w.farEnd = s.farEnd := by simp [← hw, State.markTaken, State.atInstant]
    have hstreams : w.streams = s.streams := by simp [← hw, State.markTaken, State.atInstant]
    have hchan : (s.markTaken.atInstant u).stopMember.chan = s.chan :=
      stopMember_chan (s := s.markTaken.atInstant u) hmember
    have hrole : (s.markTaken.atInstant u).stopMember.bearer = w.endRole.bearer ∧
        (s.markTaken.atInstant u).stopMember.farEnd = w.endRole.farEnd ∧
        (s.markTaken.atInstant u).stopMember.streams = w.endRole.streams := by simp [State.stopMember, hw]
    obtain ⟨hbearerAfter, hfarAfter, hstreamsAfter⟩ := hrole
    have hpairing : (s.markTaken.atInstant u).stopMember.pairing = w.pairing := by simp [State.stopMember, hw]
    have hvoice : (s.markTaken.atInstant u).stopMember.voice = s.voice.release := by simp [State.stopMember]
    have hkeeps : ∀ f, w.endRole.flagSet f = true → (s.markTaken.atInstant u).stopMember.flagSet f = true :=
      fun f h => by
      rw [State.stopMember, hw]
      exact State.raise_keeps (s := { w.endRole with voice := w.endRole.voice.release }) h .stateChanged
    obtain ⟨hover, hheld, hwaiting⟩ := endRole_rows hclaims hbearer hfar hstreams
    refine ⟨_, htaken, by simp [State.stopMember]; rfl, by simp [State.stopMember], by simp [State.stopMember],
      by simp [State.stopMember], State.raise_flagSet_self _ .stateChanged, fun h => ?_,
      fun h => hvoice.trans (Claim.release_held h), fun h => hvoice.trans (Claim.release_idle h), fun h => ?_,
      fun h => ?_, fun h => ?_, fun h => ?_, fun h => ?_, by simp [State.stopMember], by simp [State.stopMember],
      by simp [State.stopMember], by simp [State.stopMember], hchan, by simp [State.stopMember],
      by simp [State.stopMember, State.sameFrame]⟩
    · refine hvoice.trans ?_
      obtain h | h := h <;> rw [Claim.release, h]
    · obtain ⟨hrecord, hclaim, hsame⟩ := hover h
      exact ⟨hbearerAfter.trans hrecord, hfarAfter.trans hclaim, hstreamsAfter.trans hsame⟩
    · obtain ⟨hclaim, hrecord, hsame⟩ := hheld h
      exact ⟨hfarAfter.trans hclaim, hbearerAfter.trans hrecord, hstreamsAfter.trans hsame⟩
    · obtain ⟨hnofar, hnobearer, habsent, hdown⟩ := hwaiting h
      exact ⟨hfarAfter.trans hnofar, hbearerAfter.trans hnobearer,
        (congrArg (fun r => r.farEnd.state) hstreamsAfter).trans habsent, fun hpresent =>
        hkeeps .farendDown (hdown hpresent)⟩
    · rw [State.closeWindow_closed (s := s.markTaken.atInstant u) h] at hw
      refine hpairing.trans ?_
      rw [← hw]
      rfl
    · rw [State.closeWindow_open (s := s.markTaken.atInstant u) h] at hw
      have hafter := hpairing.trans (congrArg State.pairing hw.symm)
      rw [show (s.markTaken.atInstant u).stopMember.ok.pairing = _ from hafter]
      refine ⟨rfl, rfl, rfl, hkeeps .pairingEnded (endRole_keeps_flag ?_)⟩
      rw [← hw]
      exact State.raise_flagSet_self (s.markTaken.atInstant u) .pairingEnded

/-! ### FOUND_GROUP and JOIN_GROUP (R38, R77, R92) -/

/-- A write request does what the store's state and its places ask (R164). -/
theorem writeRequested_requestWrite (s : State) (c : Credentials) (t : Nat) :
    s.writeRequested c t (s.requestWrite c t) := by
  have hnofault : ∀ op i, ({ s with store := { s.store with waiting := none, state := .idle } }.startOp op i t).flagSet
      .storeFault = s.flagSet .storeFault := fun _ _ => rfl
  by_cases hidle : s.store.state = .idle
  · rw [State.requestWrite, if_pos hidle]
    cases herased : firstIn .erased s.store.copy with
    | some i =>
      rw [State.startWrite_erased herased]
      refine ⟨fun h => absurd hidle h, fun j _ hj => ?_, fun j _ hnone => ?_, fun _ hnone => ?_, ?_⟩
      · cases herased.symm.trans hj
        rfl
      · exact absurd (herased.symm.trans hnone) nofun
      · exact absurd (herased.symm.trans hnone) nofun
      · refine ⟨.inl, fun h => h.resolve_right fun ⟨_, hnone, _⟩ => absurd (herased.symm.trans hnone) nofun⟩
    | none =>
      rw [State.startWrite, herased]
      dsimp only
      cases hretired : firstIn .retired s.store.copy with
      | some i =>
        refine ⟨fun h => absurd hidle h, fun j _ hj => absurd (herased.symm.trans hj) nofun, fun j _ _ hj => ?_,
          fun _ _ hnone => absurd (hretired.symm.trans hnone) nofun,
          .inl, fun h => h.resolve_right fun ⟨_, _, hnone⟩ => absurd (hretired.symm.trans hnone) nofun⟩
        cases hretired.symm.trans hj
        rfl
      | none =>
        refine ⟨fun h => absurd hidle h, fun j _ hj => absurd (herased.symm.trans hj) nofun,
          fun j _ _ hj => absurd (hretired.symm.trans hj) nofun, fun _ _ _ => ?_,
          fun _ => .inr ⟨hidle, herased, hretired⟩, fun _ => State.raise_flagSet_self _ .storeFault⟩
        show ({ s.store with waiting := none, state := .idle, cause := .full } : Store) = _
        rw [← hidle]
  · rw [State.requestWrite, if_neg hidle]
    exact ⟨fun _ => rfl, fun _ h => absurd h hidle, fun _ h => absurd h hidle, fun h => absurd h hidle,
      ⟨.inl, fun h => h.resolve_right fun hfull => hidle hfull.1⟩⟩

/-- The group code of a founded group is the low 24 bits of the device's ID, or 1 where these are 0 (R77). -/
theorem foundedCredentials_group (id : FactoryId) :
    (id.toNat % 2 ^ 24 ≠ 0 → (foundedCredentials id).group.toNat = id.toNat % 2 ^ 24) ∧
      (id.toNat % 2 ^ 24 = 0 → (foundedCredentials id).group = 1) := by
  have hlow : (id.setWidth 24).toNat = id.toNat % 2 ^ 24 := BitVec.toNat_setWidth ..
  have hzero : id.setWidth 24 = 0#24 ↔ id.toNat % 2 ^ 24 = 0 := by
    rw [← hlow]
    exact ⟨fun h => by rw [h]; rfl, fun h => BitVec.eq_of_toNat_eq h⟩
  refine ⟨fun h => ?_, fun h => if_pos (hzero.2 h)⟩
  rw [← hlow]
  exact congrArg BitVec.toNat (if_neg (mt hzero.1 h))

theorem writeRequested_congr {s s' u u' : State} {c : Credentials} {t : Nat} (h : s.writeRequested c t u)
    (hstore : s'.store = s.store) (hfault : s'.flagSet .storeFault = s.flagSet .storeFault)
    (hstoreAfter : u'.store = u.store)
    (hfaultAfter : u'.flagSet .storeFault = u.flagSet .storeFault) : s'.writeRequested c t u' := by
  unfold State.writeRequested at h ⊢
  rwa [hstore, hfault, hstoreAfter, hfaultAfter]

/-- A station that is switched on from IDLE: its receiver is on from the present instant (R9). -/
theorem enter_chan_of_idle {s : State} (hidle : s.station.state = .idle) {st : StationState} (hon : st.receiverOn = true) :
    (s.enter st).chan = { s.chan with onSince := s.now } := by
  show Channel.turn _ s.station.state.receiverOn st.receiverOn _ = _
  rw [hidle, hon]
  rfl

theorem foundGroup_writes (s : State) (t : Nat) (c : Credentials) :
    s.writeRequested c (max s.now t) (((s.markTaken.atInstant t).requestWrite c (max s.now t)).enterListen c).ok := by
  refine writeRequested_congr (writeRequested_requestWrite (s.markTaken.atInstant t) c (max s.now t)) rfl rfl (by simp) ?_
  obtain ⟨w, hw⟩ : ∃ w, (s.markTaken.atInstant t).requestWrite c (max s.now t) = w := ⟨_, rfl⟩
  rw [hw]
  exact (State.raise_flagSet w .stateChanged .storeFault).trans (by simp)

/-- Settles O16. -/
theorem foundGroupAndJoinGroupLeaveIdle : Obligations.FoundGroupAndJoinGroupLeaveIdle := by
  refine ⟨fun t s hlistens => ?_, fun t b s hlistens => ?_⟩
  · have htaken : exec (.foundGroup t) s = _ := (State.hostCommand_taken hlistens _ : execFoundGroup t s = _)
    refine ⟨fun hstation => ?_, fun hidle hwaits => ?_, fun hidle hfree => ?_⟩
    · exact htaken.trans (congrArg _ (if_pos hstation))
    · exact htaken.trans (congrArg _ ((if_neg (not_not_intro hidle)).trans
        (if_pos (Option.isSome_iff_ne_none.2 hwaits))))
    · have hnone : ¬s.store.waiting.isSome = true := by rw [hfree]; nofun
      obtain ⟨hgroup, hone⟩ := foundedCredentials_group s.factoryId
      have hchan : (((s.markTaken.atInstant t).requestWrite (foundedCredentials s.factoryId) (max s.now t)).enterListen
          (foundedCredentials s.factoryId)).chan = { s.chan with onSince := max s.now t } := by
        refine (enter_chan_of_idle (s := { (s.markTaken.atInstant t).requestWrite _ _ with
          peers := [], station := _ }) (?_ : _ = StationState.idle) rfl).trans ?_
        · simpa using hidle
        · simp
      refine ⟨_, _, htaken.trans (congrArg _ ((if_neg (not_not_intro hidle)).trans (if_neg hnone))), hgroup, hone,
        congrArg State.port (State.ok_of_port (s := s) (by simp)), rfl, rfl, rfl, rfl,
        State.raise_flagSet_self _ .stateChanged,
        foundGroup_writes s t (foundedCredentials s.factoryId), hchan, by simp, by simp, rfl, by simp, by simp, by simp,
        by simp, by simp, by simp [State.sameFrame]⟩
  · have htaken : exec (.joinGroup b t) s = _ := (State.hostCommand_taken hlistens _ : execJoinGroup b s t = _)
    have hkind : b = 1 ∨ b = 2 → joinKindOf b = some (if b = 1 then .newWearer else .partner) := by
      rintro (rfl | rfl) <;> rfl
    refine ⟨fun hstation => ?_, fun hidle hone htwo => ?_, fun hidle hb hwaits => ?_, fun hidle hb hfree => ?_⟩
    · exact htaken.trans (congrArg _ (if_pos hstation))
    · have hbad : joinKindOf b = none := by
        rw [joinKindOf]
        split
        next h => exact absurd (BitVec.eq_of_toNat_eq h : b = 1) hone
        next h => exact absurd (BitVec.eq_of_toNat_eq h : b = 2) htwo
        next => rfl
      rw [hbad] at htaken
      exact htaken.trans (congrArg _ (if_neg (not_not_intro hidle)))
    · rw [hkind hb] at htaken
      exact htaken.trans (congrArg _ ((if_neg (not_not_intro hidle)).trans
        (if_pos (Option.isSome_iff_ne_none.2 hwaits))))
    · have hnone : ¬s.store.waiting.isSome = true := by rw [hfree]; nofun
      rw [hkind hb] at htaken
      refine ⟨_, htaken.trans (congrArg _ ((if_neg (not_not_intro hidle)).trans (if_neg hnone))), rfl, rfl,
        rfl, rfl, rfl,
        ⟨_, rfl, rfl, rfl, rfl, rfl, rfl, rfl, rfl⟩, ?_, rfl, rfl, rfl, rfl, rfl, rfl, rfl, rfl, rfl, rfl, rfl,
        rfl, rfl, rfl⟩
      show Channel.turn _ s.station.state.receiverOn true _ = _
      rw [hidle]
      rfl

end Sys2Proof.Proofs.Station
end

section
/-! PROOFS. The member's side of an offer: the numbers it gives, how a JOIN makes it and how slot 14 settles it. -/

namespace Sys2Proof.Proofs.Offers

open Sys2Proof Sys2Proof.Machine

/-! ### The numbers (R85, R86) -/

theorem finRange_find?_eq_some {n : Nat} {p : Fin n → Bool} {k : Fin n} :
    (List.finRange n).find? p = some k ↔ p k = true ∧ ∀ j, j < k → p j = false := by
  rw [← Fin.find?_eq_find?_finRange, Fin.find?_eq_some_iff]

/-- A station number that an offer may give: one of 1..30 that neither the station nor an entry bears. -/
def freeStation (own : StationNo) (ps : List Peer) (n : StationNo) : Bool :=
  n.valid && n != own && ps.all fun p => p.number != n

theorem freeStation_iff {own : StationNo} {ps : List Peer} {n : StationNo} :
    freeStation own ps n = true ↔ 1 ≤ n.val ∧ n.val ≤ 30 ∧ n ≠ own ∧ ∀ p ∈ ps, p.number ≠ n := by
  simp [freeStation, StationNo.valid, and_assoc]

/-- Of the 30 numbers the station and at most 15 entries bear at most 16. -/
theorem exists_freeStation (own : StationNo) {ps : List Peer} (h : ps.length ≤ 15) : ∃ n,
    freeStation own ps n = true := by
  by_contra hnone
  have hborne : (Finset.univ.filter fun n : StationNo => n.valid = true) ⊆ (own :: ps.map Peer.number).toFinset := by
    intro n hn
    have hvalid : 1 ≤ n.val ∧ n.val ≤ 30 := by simpa [StationNo.valid] using hn
    by_contra hfree
    simp only [List.mem_toFinset, List.mem_cons, List.mem_map, not_or, not_exists, not_and] at hfree
    exact hnone ⟨n, freeStation_iff.2 ⟨hvalid.1, hvalid.2, hfree.1, hfree.2⟩⟩
  have hall : (Finset.univ.filter fun n : StationNo => n.valid = true).card = 30 := by decide
  have hfew := (Finset.card_le_card hborne).trans (List.toFinset_card_le _)
  rw [hall, List.length_cons, List.length_map] at hfew
  omega

/-- The lowest free station number is the one assigned. -/
theorem assignStation_spec (own : StationNo) {ps : List Peer} (h : ps.length ≤ 15) :
    ∃ n, assignStation own ps = some n ∧ freeStation own ps n = true ∧ ∀ m, freeStation own ps m = true → n ≤ m := by
  obtain ⟨n, hn⟩ := exists_freeStation own h
  have hsome : (assignStation own ps).isSome = true := List.find?_isSome.2 ⟨n, List.mem_finRange n, hn⟩
  obtain ⟨m, hm⟩ := Option.isSome_iff_exists.1 hsome
  obtain ⟨hfree, hleast⟩ := finRange_find?_eq_some.1 hm
  exact ⟨m, hm, hfree, fun j hj => not_lt.1 fun hlt => absurd (hj.symm.trans (hleast j hlt)) nofun⟩

theorem assignWearer_newWearer {c : Credentials} {ps : List Peer} {w : WearerNo} :
    assignWearer .newWearer c ps = some w ↔
      w ≠ c.wearer ∧ (∀ p ∈ ps, p.wearer ≠ w) ∧ ∀ v, v ≠ c.wearer → (∀ p ∈ ps, p.wearer ≠ v) → w ≤ v := by
  rw [assignWearer, finRange_find?_eq_some]
  constructor
  · rintro ⟨hfree, hleast⟩
    simp only [Bool.and_eq_true, bne_iff_ne, List.all_eq_true] at hfree
    refine ⟨hfree.1, hfree.2, fun v hv hps => not_lt.1 fun hlt => ?_⟩
    have := hleast v hlt
    simp [hv] at this
    obtain ⟨p, hp, hpv⟩ := this
    exact hps p hp hpv
  · rintro ⟨hown, hps, hleast⟩
    refine ⟨by simpa [hown] using hps, fun v hlt => Bool.eq_false_iff.2 fun hv => ?_⟩
    simp only [Bool.and_eq_true, bne_iff_ne, List.all_eq_true] at hv
    exact absurd (hleast v hv.1 hv.2) (not_le.2 hlt)

theorem assignWearer_newWearer_none {c : Credentials} {ps : List Peer} :
    assignWearer .newWearer c ps = none ↔ ∀ w, w = c.wearer ∨ ∃ p ∈ ps, p.wearer = w := by
  rw [assignWearer, List.find?_eq_none]
  refine forall_congr' fun w => ?_
  by_cases hown : w = c.wearer <;> simp [hown]

/-- A number that is put into its place is there once more than before. -/
theorem insertNumber_perm (n : StationNo) (ms : List StationNo) : (insertNumber n ms).Perm (n :: ms) := by
  induction ms with
  | nil => exact List.Perm.refl _
  | cons m ms ih =>
    rw [insertNumber]
    split
    · exact List.Perm.refl _
    · exact (ih.cons m).trans (List.Perm.swap n m ms)

/-- The station is among the admitted of its own wearer at most once, where no entry bears its number. -/
theorem admitted_count_le {c : Credentials} {ps : List Peer} (h : ∀ p ∈ ps, p.number ≠ c.number) :
    (admitted c ps c.wearer).count c.number ≤ 1 := by
  have hcandidates : (candidates c ps c.wearer).count c.number = 1 := by
    rw [candidates, if_pos rfl, (insertNumber_perm _ _).count_eq, List.count_cons_self, List.count_eq_zero_of_not_mem]
    intro hmem
    obtain ⟨p, hp, hnumber⟩ := List.mem_map.1 hmem
    exact h p (List.mem_filter.1 hp).1 hnumber
  exact hcandidates ▸ (List.take_sublist 2 _).count_le c.number

theorem ownPartner_none_iff {c : Credentials} {ps : List Peer} (h : ∀ p ∈ ps, p.number ≠ c.number) :
    (ownAdmitted c ps && (ownPartner c ps).isNone) = true ↔ admitted c ps c.wearer = [c.number] := by
  have hcount := admitted_count_le h
  constructor
  · intro hown
    obtain ⟨hadmitted, halone⟩ := Bool.and_eq_true_iff.1 hown
    rw [ownPartner, if_pos hadmitted, Option.isNone_iff_eq_none, List.find?_eq_none] at halone
    have hall : ∀ n ∈ admitted c ps c.wearer, n = c.number := fun n hn => by simpa using halone n hn
    have hmem : c.number ∈ admitted c ps c.wearer := by simpa [ownAdmitted] using hadmitted
    have hreplicate := List.eq_replicate_of_mem hall
    rw [hreplicate, List.count_replicate_self] at hcount
    have hpos := List.length_pos_of_mem hmem
    rw [hreplicate, show (admitted c ps c.wearer).length = 1 by omega]
    rfl
  · intro hlist
    simp [ownAdmitted, ownPartner, hlist]

/-- Settles O18. -/
theorem offeredNumbersAreTheLowestFree : Obligations.OfferedNumbersAreTheLowestFree := by
  refine ⟨fun own ps hlength => ?_, fun _ _ _ => assignWearer_newWearer, fun _ _ => assignWearer_newWearer_none,
    fun c ps w hnumbers => ?_⟩
  · obtain ⟨n, hassigned, hfree, hleast⟩ := assignStation_spec own hlength
    obtain ⟨hlow, hhigh, hown, hps⟩ := freeStation_iff.1 hfree
    exact ⟨n, hassigned, hlow, hhigh, hown, hps, fun m hm hm' hmown hmps =>
      hleast m (freeStation_iff.2 ⟨hm, hm', hmown, hmps⟩)⟩
  · rw [assignWearer]
    by_cases hpartner : (ownAdmitted c ps && (ownPartner c ps).isNone) = true
    · have halone := (ownPartner_none_iff hnumbers).1 hpartner
      rw [if_pos hpartner, Option.some_inj, eq_comm]
      exact ⟨fun hw => ⟨hw, hw ▸ halone⟩, fun hw => hw.1⟩
    · rw [if_neg hpartner]
      exact ⟨nofun, fun ⟨hw, hlist⟩ => absurd ((ownPartner_none_iff hnumbers).2 (hw ▸ hlist)) hpartner⟩

/-! ### The end of a slot in which the station sent nothing -/

/-- What slot `k` held, of the items held over and those that come with its end. -/
def slotHolds (s : State) (c : Cycle) (k : SlotIx) (air : List AirItem) : Held :=
  s.slotHeld c k.val (itemsIn c k.val (s.airItems c air))

theorem exec_slotEnd_heard {s : State} {c : Cycle} {k : SlotIx} (hends : s.endsSlot c k)
    (hsent : s.chan.sentInSlot = false) (order : ReceptionOrder) (air : List AirItem) :
    exec (.slotEnd order air) s = .next
      (((s.slotOver c k (s.entryOf k (slotHolds s c k air)) (s.laterItems c k air)).handOff c k (c.slotEnd k.val).toNat
        (isLate k order) (s.entryOf k (slotHolds s c k air)) (slotHolds s c k air)).settleAt14 k
        (s.confirms k (s.entryOf k (slotHolds s c k air)) (slotHolds s c k air))) := by
  refine (State.endsSlot_exec hends order air).trans ?_
  simp only [State.endSlot, (s.airItems_split c k air).2, hsent, State.closeSlot_eq]
  rfl

/-- A clean reception comes from an item that parses. -/
theorem slotHolds_clean {s : State} {c : Cycle} {k : SlotIx} {air : List AirItem} {r : Heard}
    (h : slotHolds s c k air = .clean r) :
    ∃ a f bytes, AirItem.burst a f bytes ∈ s.chan.held ++ air ∧ parseBurst bytes = some r.burst := by
  have hheld : ∃ xs : List AirItem, (∀ x ∈ xs, x ∈ s.chan.held ++ air) ∧ heldBy c k.val xs = .clean r := by
    rw [slotHolds, State.slotHeld] at h
    split at h
    · cases h
    · refine ⟨_, fun x hx => ?_, h⟩
      exact List.mem_of_mem_filter (List.mem_of_mem_filter (List.mem_of_mem_filter hx))
  obtain ⟨xs, hmem, hclean⟩ := hheld
  match xs, hclean with
  | [], hclean => cases hclean
  | _ :: _ :: _, hclean => cases hclean
  | [.energy _], hclean => cases hclean
  | [.burst a f bytes], hclean =>
    refine ⟨a, f, bytes, hmem _ List.mem_cons_self, ?_⟩
    rw [heldBy, heldOne] at hclean
    split at hclean
    · cases hclean
    next b hb =>
      cases hclean
      exact hb

theorem slotHolds_alone {s : State} {c : Cycle} {k : SlotIx} {air : List AirItem} {a f : Nat} {bytes : List Byte}
    {b : Burst} (h : s.hearsAlone c k air a f bytes b) :
    slotHolds s c k air = .clean { burst := b, arrival := a, offset := (a : Int) - c.slotStart k.val } := by
  obtain ⟨_, _, hitems, hreceives, hparse⟩ := h
  have hheld := (State.receivesIn_items (s := s) (c := c) (k := k) (air := air)
    (by rw [hitems]; simpa using hreceives)).2
  rw [slotHolds, hheld, hitems]
  simp [heldBy, heldOne, hparse]

/-! ### Slot 14 at a member (R84, R88, R89) -/

/-- The receptions of slot 14 are no other station's: what it holds is FOREIGN, or STRAY under another slot's name. -/
theorem entryOf_slot14 {s : State} (hmember : s.station.state = .member) (hsent : s.chan.sentInSlot = false) {r : Heard}
    {bytes : List Byte} (hparse : parseBurst bytes = some r.burst) :
    s.entryOf 14 (.clean r) = .foreign ∨ s.entryOf 14 (.clean r) = .stray := by
  have hon : ¬(!s.station.state.receiverOn) = true := by rw [hmember]; nofun
  rw [State.entryOf, if_neg hon, if_neg (by rw [hsent]; nofun), State.classify]
  split
  · exact .inl rfl
  next hown =>
    have hsender : r.burst.sender ≠ 0 := fun h => hown (.inr h)
    have hout : s.inStep r 14 = false := by
      have hslot : ¬r.burst.slot = 14 := fun h => parseBurst_not14 hparse h hsender rfl
      simp [State.inStep, hmember, StationState.wide, Heard.inWindow, hslot]
    rw [if_neg (by rw [hout]; nofun)]
    exact .inr rfl

/-- An offer outstanding keeps the controller from a second one (R84). -/
theorem joinHeard_of_offer {s : State} {o : Offer} (h : s.pairing.offer = some o) (id : FactoryId) (kind : JoinKind) :
    s.joinHeard id kind = s := by
  simp [State.joinHeard, h]

/-- The state with these as the receptions that the timer keeps. -/
def withLog (s : State) (log : List TimerRx) : State := { s with timer := { s.timer with log := log } }

/-- With an offer outstanding, a FOREIGN reception changes nothing at a member (R84). -/
theorem handOff_foreign {t : State} (hmember : t.station.state = .member) {o : Offer} (hoffer : t.pairing.offer = some o)
    (c : Cycle) (k : SlotIx) (tr : Nat) (late : Bool) (r : Heard) : t.handOff c k tr late .foreign (.clean r) = t := by
  show t.heardForeign c k tr r = t
  simp only [State.heardForeign, hmember]
  split
  · rw [State.foreignAtMember]
    split
    · exact joinHeard_of_offer hoffer _ _
    all_goals rfl
  · rfl

/-- With an offer outstanding, what slot 14 hands on at a member changes at most the receptions that the timer keeps. -/
theorem handOff_slot14 {t : State} (hmember : t.station.state = .member) {o : Offer} (hoffer : t.pairing.offer = some o)
    {e : Entry} {held : Held} (he : ∀ r, held = .clean r → e = .foreign ∨ e = .stray) (c : Cycle) (tr : Nat)
    (late : Bool) :
    ∃ log, t.handOff c 14 tr late e held = withLog t log := by
  cases held with
  | quiet | lost | broken => exact ⟨t.timer.log, rfl⟩
  | clean r =>
    obtain rfl | rfl := he r rfl
    · exact ⟨t.timer.log, handOff_foreign hmember hoffer c 14 tr late r⟩
    · exact ⟨_, if_pos hmember⟩

/-- In the cycle after its own the offer completes when it is confirmed and lapses otherwise (R89). -/
theorem settleAt14_due {s : State} {o : Offer} (hoffer : s.pairing.offer = some o)
    (hcycle : s.timer.counter = o.cycleSent + 1) (confirmed : Offer → Bool) :
    s.settleAt14 14 confirmed = if confirmed o then s.closeWindow .done else s.lapseOffer o := by
  rw [State.settleAt14, if_pos rfl, State.settleOffer, hoffer]
  exact if_pos hcycle

/-- Slot 14 of the cycle after an offer's, at a member: the offer completes or lapses, and nothing else changes but the
receptions that the timer keeps. -/
theorem exec_slot14_due {c : Cycle} {order : ReceptionOrder} {s : State} (hends : s.endsSlot c 14)
    (hmember : s.station.state = .member)
    (hsent : s.chan.sentInSlot = false) {o : Offer} (hoffer : s.pairing.offer = some o)
    (hcycle : s.timer.counter = o.cycleSent + 1) (air : List AirItem) :
    ∃ log, exec (.slotEnd order air) s = .next
      (let t := s.slotOver c 14 (s.entryOf 14 (slotHolds s c 14 air)) (s.laterItems c 14 air)
       if s.confirms 14 (s.entryOf 14 (slotHolds s c 14 air)) (slotHolds s c 14 air) o then
         (withLog t log).closeWindow .done
       else (withLog t log).lapseOffer o) := by
  have he : ∀ r, slotHolds s c 14 air = .clean r →
      s.entryOf 14 (slotHolds s c 14 air) = .foreign ∨ s.entryOf 14 (slotHolds s c 14 air) = .stray := fun r hr => by
    obtain ⟨_, _, _, _, hparse⟩ := slotHolds_clean hr
    rw [hr]
    exact entryOf_slot14 hmember hsent hparse
  obtain ⟨log, hlog⟩ := handOff_slot14 (t := s.slotOver c 14 (s.entryOf 14 (slotHolds s c 14 air))
    (s.laterItems c 14 air))
    hmember hoffer he c (c.slotEnd (14 : SlotIx).val).toNat (isLate 14 order)
  refine ⟨log, (exec_slotEnd_heard hends hsent order air).trans (congrArg _ ?_)⟩
  rw [hlog]
  exact settleAt14_due (s := withLog (s.slotOver c 14 _ (s.laterItems c 14 air)) log) hoffer hcycle _

/-- The same where the slot held nothing that the timer keeps. -/
theorem exec_slot14_unheard {c : Cycle} {order : ReceptionOrder} {s : State} (hends : s.endsSlot c 14)
    (hsent : s.chan.sentInSlot = false) {o : Offer} (hoffer : s.pairing.offer = some o)
    (hcycle : s.timer.counter = o.cycleSent + 1) {air : List AirItem} {held : Held} (hheld : slotHolds s c 14 air = held)
    (hnot : held = .quiet ∨ held = .broken) :
    exec (.slotEnd order air) s = .next
      { s.slotOver c 14 (s.entryOf 14 held) (s.laterItems c 14 air) with
          pairing := { s.pairing with offer := none, lapse := some { number := o.station, age := 0 } } } := by
  refine (exec_slotEnd_heard hends hsent order air).trans (congrArg _ ?_)
  rw [hheld]
  obtain rfl | rfl := hnot <;>
    exact (settleAt14_due (s := s.slotOver c 14 _ (s.laterItems c 14 air)) hoffer hcycle _).trans
      (if_neg Bool.false_ne_true)

/-- A JOIN is FOREIGN: it names no sender. -/
theorem entryOf_nameless {s : State} (hmember : s.station.state = .member)
    (hsent : s.chan.sentInSlot = false) {r : Heard}
    (hsender : r.burst.sender = 0) (k : SlotIx) : s.entryOf k (.clean r) = .foreign := by
  have hon : ¬(!s.station.state.receiverOn) = true := by rw [hmember]; nofun
  rw [State.entryOf, if_neg hon, if_neg (by rw [hsent]; nofun), State.classify, if_pos (.inr hsender)]

/-- A JOIN in step at a member goes to the pairing controller, and slot 14 then settles what it has made (R84). -/
theorem exec_slot14_join {c : Cycle} {order : ReceptionOrder} {s : State} (hmember : s.station.state = .member)
    {air : List AirItem} {a f : Nat} {bytes : List Byte} {b : Burst} (halone : s.hearsAlone c 14 air a f bytes b)
    (hstep : b.inStepAt c 14 a) {id : FactoryId} {kind : JoinKind} (hjoin : b.body = .join id kind) :
    ∃ g, exec (.slotEnd order air) s = .next
      (((s.slotOver c 14 .foreign (s.laterItems c 14 air)).joinHeard id kind).settleAt14 14 g) := by
  have hkind : b.kind = .join := by have := parseBurst_kind halone.2.2.2.2; rwa [hjoin] at this
  have hsender : b.sender = 0 := by have := parseBurst_header halone.2.2.2.2; rw [hkind] at this; exact this.2.1
  have hforeign := entryOf_nameless (s := s) (r := ⟨b, a, (a : Int) - c.slotStart (14 : SlotIx).val⟩) hmember halone.2.1
    hsender 14
  have hexec := exec_slotEnd_heard halone.1 halone.2.1 order air
  rw [slotHolds_alone halone, hforeign] at hexec
  refine ⟨_, hexec.trans (congrArg _ (congrArg (fun t : State => t.settleAt14 14 _) ?_))⟩
  show State.heardForeign _ c 14 _ _ = _
  have hin := (b.inStepAt_iff c 14 a).1 hstep
  have hmember' : (s.slotOver c 14 .foreign (s.laterItems c 14 air)).station.state = .member := hmember
  simp only [State.heardForeign, hmember', hin, if_true, State.foreignAtMember, hjoin]

/-- An offer does not fall due in the cycle of its making. -/
theorem settleAt14_fresh {s : State} {o : Offer} (hoffer : s.pairing.offer = some o)
    (hcycle : o.cycleSent = s.timer.counter)
    (g : Offer → Bool) : s.settleAt14 14 g = s := by
  have hnext : ¬s.timer.counter = o.cycleSent + 1 := by
    rw [hcycle]
    exact fun h => absurd (left_eq_add.1 h) (by decide)
  rw [State.settleAt14, if_pos rfl, State.settleOffer, hoffer]
  exact if_neg hnext

/-- A JOIN of the window's kind that finds both numbers is answered with an offer (R84). -/
theorem joinHeard_offers {s : State} {kind : JoinKind} {id : FactoryId} (hopen : s.pairing.window.state = .opened)
    (hkind : s.pairing.window.kind = some kind) (hnone : s.pairing.offer = none) {n : StationNo} {w : WearerNo}
    (hstation : assignStation s.station.creds.number s.peers = some n)
    (hwearer : assignWearer kind s.station.creds s.peers = some w) :
    s.joinHeard id kind = { s with pairing := { s.pairing with
      offer := some { target := id, station := n, wearer := w, cycleSent := s.timer.counter, sent := false } } } := by
  simp [State.joinHeard, State.windowOpen, hopen, hkind, hnone, State.offerFor, hstation, hwearer]

/-- Without a wearer number to give, the JOIN raises PAIRING_FULL (R86). -/
theorem joinHeard_full {s : State} {kind : JoinKind} {id : FactoryId} (hopen : s.pairing.window.state = .opened)
    (hkind : s.pairing.window.kind = some kind) (hnone : s.pairing.offer = none)
    (hwearer : assignWearer kind s.station.creds s.peers = none) : s.joinHeard id kind = s.raise .pairingFull := by
  simp [State.joinHeard, State.windowOpen, hopen, hkind, hnone, State.offerFor, hwearer]

/-- A JOIN of another kind than the window's is ignored (R84). -/
theorem joinHeard_other {s : State} {kind : JoinKind} {id : FactoryId}
    (h : ¬(s.pairing.window.state = .opened ∧ s.pairing.window.kind = some kind)) : s.joinHeard id kind = s := by
  rw [State.joinHeard, if_neg]
  intro hall
  simp only [State.windowOpen, Bool.and_eq_true, beq_iff_eq, decide_eq_true_eq] at hall
  exact h hall.1

/-- The CONFIRM that completes an offer names its target, the station and the number offered, under its group (R88). -/
theorem confirms_iff {s : State} {k : SlotIx} {e : Entry} {r : Heard} {o : Offer} :
    s.confirms k e (.clean r) o = true ↔ e = .foreign ∧ s.station.state = .member ∧ r.inWindow k = true ∧
      r.burst.group = s.station.creds.group ∧ r.burst.body = .confirm o.target s.station.creds.number o.station := by
  cases e with
  | foreign =>
    rw [State.confirms]
    cases hbody : r.burst.body with
    | confirm id offerer station =>
      simp only [confirmMatches, Bool.and_eq_true, beq_iff_eq, decide_eq_true_eq, Body.confirm.injEq, true_and]
      tauto
    | _ => simp
  | _ => simp [State.confirms]

/-- A CONFIRM with an offer outstanding is FOREIGN: it names no sender. -/
theorem confirm_foreign {s : State} (hmember : s.station.state = .member)
    (hsent : s.chan.sentInSlot = false) {r : Heard}
    {bytes : List Byte} (hparse : parseBurst bytes = some r.burst) {id : FactoryId} {n m : StationNo}
    (hbody : r.burst.body = .confirm id n m) (k : SlotIx) : s.entryOf k (.clean r) = .foreign := by
  have hkind : r.burst.kind = .confirm := by have := parseBurst_kind hparse; rwa [hbody] at this
  refine entryOf_nameless hmember hsent ?_ k
  have := parseBurst_header hparse
  rw [hkind] at this
  exact this.2.1

/-- Settles O19. -/
theorem offersAreMadeAndSettled : Obligations.OffersAreMadeAndSettled := by
  intro c order s hends hmember hsent
  refine ⟨fun air a f bytes b id kind halone hstep hjoin hnone => ?_, fun o hoffer hcycle => ?_⟩
  · intro matching
    obtain ⟨g, hexec⟩ := exec_slot14_join (order := order) hmember halone hstep hjoin
    refine ⟨fun n w hmatch hstation hwearer => ?_, fun hmatch hwearer => ?_, fun hmatch => ?_⟩
    · rw [joinHeard_offers (s := s.slotOver c 14 .foreign (s.laterItems c 14 air)) hmatch.1 hmatch.2 hnone hstation hwearer]
        at hexec
      exact hexec.trans (congrArg _ (settleAt14_fresh rfl rfl g))
    · rw [joinHeard_full (s := s.slotOver c 14 .foreign (s.laterItems c 14 air)) hmatch.1 hmatch.2 hnone hwearer] at hexec
      exact hexec.trans (congrArg _ 
        (State.settleAt14_none (s := (s.slotOver c 14 .foreign (s.laterItems c 14 air)).raise .pairingFull) hnone 14 g))
    · rw [joinHeard_other (s := s.slotOver c 14 .foreign (s.laterItems c 14 air)) hmatch] at hexec
      exact hexec.trans (congrArg _
        (State.settleAt14_none (s := s.slotOver c 14 .foreign (s.laterItems c 14 air)) hnone 14 g))
  · intro lapsed
    have hon : s.station.state.receiverOn = true := by rw [hmember]; rfl
    refine ⟨fun air hitems => ?_, fun air x xs hitems hreceives hbroken => ?_, fun air hunconfirmed => ?_,
      fun air a f bytes b halone => ⟨fun hanswered hopen => ?_, fun hunanswered => ?_⟩⟩
    · have hheld : slotHolds s c 14 air = .quiet := by
        rw [slotHolds, (State.receivesIn_items (by rw [hitems]; nofun)).2, hitems]
        rfl
      have hempty : s.entryOf 14 .quiet = .empty := by simp [State.entryOf, hon, hsent, State.classify]
      rw [exec_slot14_unheard hends hsent hoffer hcycle hheld (.inl rfl), hempty]
    · have hheld : slotHolds s c 14 air = .broken := by
        rw [slotHolds, (State.receivesIn_items (by rw [hitems]; exact hreceives)).2, hitems]
        obtain hmore | ⟨i, rfl⟩ | ⟨a, f, bytes, rfl, hbad⟩ := hbroken
        · cases xs with
          | nil => exact absurd rfl hmore
          | cons y ys => rfl
        · cases xs <;> rfl
        · cases xs with
          | nil => simp [heldBy, heldOne, hbad]
          | cons y ys => rfl
      have hcorrupt : s.entryOf 14 .broken = .corrupt := by simp [State.entryOf, hon, hsent, State.classify]
      rw [exec_slot14_unheard hends hsent hoffer hcycle hheld (.inr rfl), hcorrupt]
    · obtain ⟨log, hexec⟩ := exec_slot14_due (order := order) hends hmember hsent hoffer hcycle air
      have hnot : ¬s.confirms 14 (s.entryOf 14 (slotHolds s c 14 air)) (slotHolds s c 14 air) o = true := by
        intro hconfirms
        cases hheld : slotHolds s c 14 air with
        | clean r =>
          rw [hheld] at hconfirms
          obtain ⟨a, f, bytes, hmem, hparse⟩ := slotHolds_clean hheld
          obtain ⟨_, _, _, _, hbody⟩ := confirms_iff.1 hconfirms
          exact hunconfirmed a f bytes r.burst hmem hparse hbody
        | _ =>
          rw [hheld] at hconfirms
          exact absurd hconfirms (by simp [State.confirms])
      simp only [if_neg hnot] at hexec
      exact ⟨_, hexec, rfl⟩
    · obtain ⟨hstep, hgroup, hbody⟩ := hanswered
      have hexec := exec_slotEnd_heard halone.1 hsent order air
      have hforeign := confirm_foreign (r := ⟨b, a, (a : Int) - c.slotStart (14 : SlotIx).val⟩) hmember hsent
        halone.2.2.2.2 hbody 14
      rw [slotHolds_alone halone, hforeign] at hexec
      have hyes := (confirms_iff (s := s) (k := 14) (r := ⟨b, a, (a : Int) - c.slotStart (14 : SlotIx).val⟩)).2
        ⟨rfl, hmember, (b.inStepAt_iff c 14 a).1 hstep, hgroup, hbody⟩
      rw [handOff_foreign (t := s.slotOver c 14 .foreign (s.laterItems c 14 air)) hmember hoffer,
        settleAt14_due (s := s.slotOver c 14 .foreign (s.laterItems c 14 air)) hoffer hcycle, if_pos hyes,
        State.closeWindow_open (s := s.slotOver c 14 .foreign (s.laterItems c 14 air)) hopen] at hexec
      exact hexec
    · obtain ⟨log, hexec⟩ := exec_slot14_due (order := order) hends hmember hsent hoffer hcycle air
      have hnot : ¬s.confirms 14 (s.entryOf 14 (slotHolds s c 14 air)) (slotHolds s c 14 air) o = true := by
        rw [slotHolds_alone halone, confirms_iff]
        exact fun ⟨_, _, hstep, hgroup, hbody⟩ => hunanswered ⟨(b.inStepAt_iff c 14 a).2 hstep, hgroup, hbody⟩
      simp only [if_neg hnot] at hexec
      exact ⟨_, hexec, rfl, rfl, rfl, rfl, rfl, rfl, rfl, rfl, rfl, rfl⟩

end Sys2Proof.Proofs.Offers
end

section
/-! PROOFS. The newcomer: the offer it accepts, its entry to the group, and its decisions at a cycle end. -/

namespace Sys2Proof.Proofs.Newcomers

open Sys2Proof Sys2Proof.Machine Sys2Proof.Proofs.Offers

/-! ### The offer in slot 15 (R95) -/

/-- The offer that a newcomer accepts. -/
theorem acceptOffer_eq {id target : FactoryId} {b : Burst} {n : StationNo} {w : WearerNo} (hbody : b.body = .offer id n w)
    (nc : Newcomer) :
    acceptOffer target b nc =
      if id = target ∧ nc.target = some b.group ∧ nc.order = .join ∧ nc.accepted = none then
        { nc with accepted := some { group := b.group, offerer := b.sender, station := n, wearer := w } }
      else nc := by
  simp only [acceptOffer, hbody, Option.isNone_iff_eq_none, eq_comm (a := some b.group)]

/-- Before it has a group a station takes every burst with a group code for FOREIGN (R15). -/
theorem entryOf_joining {s : State} (hjoining : s.station.state = .joining)
    (hsent : s.chan.sentInSlot = false) {r : Heard}
    (hgroup : r.burst.group ≠ 0) (k : SlotIx) : s.entryOf k (.clean r) = .foreign := by
  have hon : ¬(!s.station.state.receiverOn) = true := by rw [hjoining]; nofun
  have hown : s.ownGroup = 0 := by rw [State.ownGroup, hjoining]; rfl
  rw [State.entryOf, if_neg hon, if_neg (by rw [hsent]; nofun), State.classify, hown, if_pos (.inl hgroup)]

theorem exec_slot15_offer {c : Cycle} {air : List AirItem} {a f : Nat} {bytes : List Byte} {b : Burst} {id : FactoryId}
    {n : StationNo} {w : WearerNo} {order : ReceptionOrder} {s : State} (halone : s.hearsAlone c 15 air a f bytes b)
    (hstep : b.inStepAt c 15 a) (hjoining : s.station.state = .joining) (hbody : b.body = .offer id n w) :
    exec (.slotEnd order air) s = .next ((s.slotOver c 15 .foreign (s.laterItems c 15 air)).offerHeard b) := by
  have hkind : b.kind = .offer := by have := parseBurst_kind halone.2.2.2.2; rwa [hbody] at this
  have hgroup : b.group ≠ 0 := by have := parseBurst_header halone.2.2.2.2; rw [hkind] at this; exact this.1
  have hforeign := entryOf_joining (s := s) (r := ⟨b, a, (a : Int) - c.slotStart (15 : SlotIx).val⟩) hjoining halone.2.1
    hgroup 15
  have hexec := exec_slotEnd_heard halone.1 halone.2.1 order air
  rw [slotHolds_alone halone, hforeign, State.settleAt14_other (by decide)] at hexec
  refine hexec.trans (congrArg _ ?_)
  show State.heardForeign _ c 15 _ _ = _
  have hin := (b.inStepAt_iff c 15 a).1 hstep
  have hjoining' : (s.slotOver c 15 .foreign (s.laterItems c 15 air)).station.state = .joining := hjoining
  simp only [State.heardForeign, hjoining', hin, if_true]

/-! ### The entry to the group (R78, R96) -/

/-- A station without a claim in a voice slot named 14 has no LEAVE to end there. -/
theorem claim_left_slot14 {cl : Claim} (h : cl.ok = true) : cl.left 14 = cl := by
  have hslot : ¬cl.leaves 14 = true := by
    intro hleaves
    simp only [Claim.leaves, Bool.and_eq_true, beq_iff_eq] at hleaves
    simp [Claim.ok, hleaves.1.1, hleaves.1.2] at h
  rw [Claim.left, if_neg hslot]

theorem settleRole_of_claimsOk {s : State} (h : s.claimsOk = true) : s.settleRole = s := by
  obtain ⟨_, _, _, hrole⟩ := s.claimsOk_iff.1 h
  rw [State.settleRole, if_neg]
  rintro ⟨hending, hnone⟩
  rw [hending, hnone] at hrole
  cases hrole

/-- Neither a LEAVE nor the end of a role falls into slot 14: what its end makes is the entry to the group. -/
theorem ownSlotEnd_slot14 {t : State} {nc : Newcomer} {acc : Accepted} (hjoining : t.station.state = .joining)
    (hclaims : t.claimsOk = true) (hnewcomer : t.pairing.newcomer = some nc) (horder : nc.order = .confirm)
    (haccepted : nc.accepted = some acc) (tr : Nat) : t.ownSlotEnd 14 tr = t.joinDone acc tr := by
  obtain ⟨hvoice, hfar, _, _⟩ := t.claimsOk_iff.1 hclaims
  have hleft : ({ t with voice := t.voice.left 14, farEnd := t.farEnd.left 14 } : State) = t := by
    rw [claim_left_slot14 hvoice, claim_left_slot14 hfar]
  simp only [State.ownSlotEnd, hleft, settleRole_of_claimsOk hclaims, hnewcomer, horder, haccepted]
  exact if_pos ⟨trivial, hjoining⟩

theorem joinDone_pairing (t : State) (acc : Accepted) (tr : Nat) :
    (t.joinDone acc tr).pairing = { t.pairing with newcomer := none } := by
  simp [State.joinDone, State.dropNewcomer]

/-- The newcomer is a member under the offered credentials, with a claim that waits and views that know nothing (R96). -/
theorem joinDone_enters (t : State) (acc : Accepted) (tr : Nat) :
    (t.joinDone acc tr).station.state = .member ∧ (t.joinDone acc tr).station.creds = acc.creds ∧
      (t.joinDone acc tr).voice = { Claim.gone with state := .waiting } ∧ (t.joinDone acc tr).viewsUnknown ∧
      (t.joinDone acc tr).flagSet .joined = true ∧ (t.joinDone acc tr).flagSet .stateChanged = true ∧
      (t.joinDone acc tr).chan.held = t.chan.held := by
  obtain ⟨w, hw⟩ : ∃ w, ({ t with station :=
    { t.station with creds := acc.creds } } : State).requestWrite acc.creds tr = w :=
    ⟨_, rfl⟩
  have hcreds : w.station.creds = acc.creds := by simp [← hw]
  have hheld : w.chan.held = t.chan.held := by simp [← hw]
  rw [State.joinDone, hw]
  exact ⟨rfl, hcreds, rfl, rfl, State.raise_keeps (State.raise_flagSet_self w .joined) .stateChanged,
    State.raise_flagSet_self _ .stateChanged, (Channel.turn_held w.chan _ _ _).trans hheld⟩

/-- At the end of the slot 14 of its CONFIRM the newcomer enters the group. -/
theorem exec_slot14_confirmed {c : Cycle} {air : List AirItem} {nc : Newcomer} {acc : Accepted} {order : ReceptionOrder}
    {s : State} (hends : s.endsSlot c 14) (hsent : s.chan.sentInSlot = true) (hjoining : s.station.state = .joining)
    (hclaims : s.claimsOk = true) (hoffer : s.pairing.offer = none) (hnewcomer : s.pairing.newcomer = some nc)
    (horder : nc.order = .confirm) (haccepted : nc.accepted = some acc) :
    exec (.slotEnd order air) s = .next
      ((s.slotOver c 14 .mine (s.laterItems c 14 air)).joinDone acc (c.slotEnd 14).toNat) := by
  have hmine : ∀ held, s.entryOf 14 held = .mine := fun held => by
    rw [State.entryOf, if_neg (by rw [hjoining]; nofun), if_pos hsent]
  have hown := ownSlotEnd_slot14 (t := s.slotOver c 14 .mine (s.laterItems c 14 air)) hjoining hclaims hnewcomer horder
    haccepted (c.slotEnd 14).toNat
  have hnone : ((s.slotOver c 14 .mine (s.laterItems c 14 air)).joinDone acc (c.slotEnd 14).toNat).pairing.offer = none := by
    rw [joinDone_pairing]
    exact hoffer
  refine (State.endsSlot_exec hends order air).trans (congrArg _ ?_)
  simp only [State.endSlot, (s.airItems_split c 14 air).2, hsent, State.closeSlot_eq, if_true, hmine]
  exact (congrArg (fun t : State => t.settleAt14 14 fun _ => false) hown).trans (State.settleAt14_none hnone 14 _)

/-- What the entry writes to the bond store (R78). -/
theorem joinDone_writes (t : State) (acc : Accepted) (tr : Nat) :
    t.writeRequested acc.creds tr (t.joinDone acc tr) := by
  have hwrite := Station.writeRequested_requestWrite { t with station :=
    { t.station with creds := acc.creds } } acc.creds tr
  refine Station.writeRequested_congr hwrite rfl rfl (by simp [State.joinDone, State.dropNewcomer]) ?_
  obtain ⟨w, hw⟩ : ∃ w, ({ t with station :=
    { t.station with creds := acc.creds } } : State).requestWrite acc.creds tr = w :=
    ⟨_, rfl⟩
  rw [State.joinDone, hw]
  exact (State.raise_flagSet (w.raise .joined) .stateChanged .storeFault).trans
    ((Bool.or_false _).trans ((State.raise_flagSet w .joined .storeFault).trans (Bool.or_false _)))

/-- Settles O20. -/
theorem newcomerAcceptsAndEnters : Obligations.NewcomerAcceptsAndEnters := by
  refine ⟨fun c air a f bytes b id n w nc order s halone hstep hjoining hbody hnewcomer => ?_,
    fun c air nc acc order s hends hsent hjoining hclaims hoffer hnewcomer horder haccepted => ?_⟩
  · refine (exec_slot15_offer halone hstep hjoining hbody).trans (congrArg _ ?_)
    rw [State.offerHeard]
    show ({ s.slotOver c 15 .foreign (s.laterItems c 15 air) with
      pairing := { s.pairing with newcomer := s.pairing.newcomer.map (acceptOffer s.factoryId b) } } : State) = _
    rw [hnewcomer, Option.map_some, acceptOffer_eq hbody]
  · intro creds
    refine ⟨_, exec_slot14_confirmed hends hsent hjoining hclaims hoffer hnewcomer horder haccepted, ?_⟩
    obtain ⟨hstation, hcreds, hvoice, hviews, hjoined, hchanged, hheld⟩ :=
      joinDone_enters (s.slotOver c 14 .mine (s.laterItems c 14 air)) acc (c.slotEnd 14).toNat
    exact ⟨hstation, hcreds, hvoice, hviews, joinDone_pairing _ _ _, hjoined, hchanged,
      Station.writeRequested_congr (joinDone_writes (s.slotOver c 14 .mine (s.laterItems c 14 air)) acc _) rfl rfl
        rfl rfl, by simp; rfl, by simp; rfl, hheld,
      by simp [State.sameFrame]; exact ⟨rfl, rfl, rfl, rfl, rfl, rfl⟩⟩

/-! ### A cycle end before the entry to a group (R93, R94) -/

/-- In SEEKING and JOINING neither claims nor peers nor a window are at work (Table 3-1). -/
theorem cycleWork_outGroup {s : State} (h : s.station.state = .seeking ∨ s.station.state = .joining) (c : Cycle) :
    s.cycleWork c = (s.timerWork c).ageBearer := by
  have hjump : ¬s.jumpDue c = true := fun hdue => by
    obtain ⟨_, hmember, _⟩ := (s.jumpDue_iff c).1 hdue
    obtain h | h := h <;> rw [h] at hmember <;> cases hmember
  have hgroup : s.station.state.inGroup = false := by obtain h | h := h <;> rw [h] <;> rfl
  have hlistening : s.station.state.listening = false := by obtain h | h := h <;> rw [h] <;> rfl
  have hmember : s.station.state ≠ .member := by obtain h | h := h <;> rw [h] <;> nofun
  rw [State.cycleWork, State.jumpIfDue, if_neg hjump]
  simp [State.claimWork, State.peerWork, State.surplusWork, State.pairingWork, hgroup, hlistening, hmember]

/-- What a cycle end leaves of a newcomer `s` by its decision. -/
def newcomerAfter (s : State) : JoinDecision → State → Prop
  | .goOn nc, u => u.station = s.station ∧ u.pairing.newcomer = some nc
  | .timeout, u => u.pairing.newcomer = none ∧ u.station.state = .idle ∧ u.station.creds = s.station.creds ∧
      u.flagSet .pairTimeout = true ∧ u.flagSet .stateChanged = true

/-- The rest of a cycle end keeps what became of the newcomer. -/
theorem newcomerAfter_congr {s s' t u : State} {d : JoinDecision} (h : newcomerAfter s d t)
    (hbefore : s'.station = s.station)
    (hstation : u.station = t.station) (hnewcomer : u.pairing.newcomer = t.pairing.newcomer)
    (hflags : ∀ f, f = .pairTimeout ∨ f = .stateChanged → u.flagSet f = t.flagSet f) : newcomerAfter s' d u := by
  cases d with
  | goOn nc => exact ⟨hstation.trans (h.1.trans hbefore.symm), hnewcomer.trans h.2⟩
  | timeout =>
    obtain ⟨hnone, hidle, hcreds, htimeout, hchanged⟩ := h
    exact ⟨hnewcomer.trans hnone, by rw [hstation, hidle], by rw [hstation, hcreds, hbefore],
      (hflags _ (.inl rfl)).trans htimeout, (hflags _ (.inr rfl)).trans hchanged⟩

theorem newcomerAfter_pairTimeout (s : State) : newcomerAfter s .timeout s.pairTimeout :=
  ⟨rfl, rfl, rfl, State.raise_flagSet_self _ _,
    State.raise_keeps (State.raise_flagSet_self _ _) _⟩

theorem newcomerAfter_decideNewcomer {s : State} {nc : Newcomer} (h : s.pairing.newcomer = some nc) :
    newcomerAfter s (decideJoin s.factoryId s.jumpNext nc) s.decideNewcomer := by
  rw [State.decideNewcomer, h]
  dsimp only
  cases decideJoin s.factoryId s.jumpNext nc with
  | goOn nc' => exact ⟨rfl, rfl⟩
  | timeout => exact newcomerAfter_pairTimeout s

theorem decideNewcomer_goOn {s : State} {nc nc' : Newcomer} (h : s.pairing.newcomer = some nc)
    (hdecision : decideJoin s.factoryId s.jumpNext nc = .goOn nc') :
    s.decideNewcomer = { s with pairing := { s.pairing with newcomer := some nc' } } := by
  simp only [State.decideNewcomer, h, hdecision]

theorem decideNewcomer_timeout {s : State} {nc : Newcomer} (h : s.pairing.newcomer = some nc)
    (hdecision : decideJoin s.factoryId s.jumpNext nc = .timeout) : s.decideNewcomer = s.pairTimeout := by
  simp only [State.decideNewcomer, h, hdecision]

/-- The decision of SEEKING (R93). -/
def seekDecision (nc : Newcomer) : JoinDecision :=
  if 3000 ≤ nc.seek + 1 then .timeout else .goOn { nc with seek := nc.seek + 1 }

theorem newcomerAfter_countSeek {s : State} {nc : Newcomer} (h : s.pairing.newcomer = some nc) :
    newcomerAfter s (seekDecision nc) s.countSeek := by
  rw [State.countSeek, h, seekDecision]
  dsimp only
  split
  · exact newcomerAfter_pairTimeout s
  · exact ⟨rfl, rfl⟩

/-- The audio work of a cycle end has no part in the newcomer's decision, whichever comes first. -/
theorem newcomerAfter_deadlineWork {s : State} {d : JoinDecision}
    (h : ∀ t : State, t.station = s.station → t.pairing = s.pairing → t.early = s.early → t.timer = s.timer →
      t.factoryId = s.factoryId → newcomerAfter t d t.transitions) (order : DeadlineOrder) :
    newcomerAfter s d (s.deadlineWork order) := by
  cases order with
  | stateFirst =>
    refine newcomerAfter_congr (h s rfl rfl rfl rfl rfl) rfl (by simp [State.deadlineWork])
      (by simp [State.deadlineWork]) ?_
    rintro f (rfl | rfl) <;> exact State.deadline_raises s.transitions _ (by decide)
  | deadlineFirst =>
    exact newcomerAfter_congr (h s.deadline (by simp) (by simp) (by simp) (by simp) (by simp)) (by simp) rfl rfl
      fun _ _ => rfl

theorem lateEffect_outGroup {s : State} (h : s.station.state.inGroup = false) (e : LateEffect) :
    (s.lateEffect e).station = s.station ∧ (s.lateEffect e).pairing.newcomer = s.pairing.newcomer ∧
      ∀ f, f = .pairTimeout ∨ f = .stateChanged → (s.lateEffect e).flagSet f = s.flagSet f := by
  cases e with
  | clashYield =>
    rw [State.lateEffect, h]
    exact ⟨rfl, rfl, fun _ _ => rfl⟩
  | electionYield =>
    rw [State.lateEffect]
    split
    · refine ⟨by simp, by simp, ?_⟩
      rintro f (rfl | rfl) <;> simp [State.electionYield_flagSet]
    · exact ⟨rfl, rfl, fun _ _ => rfl⟩
  | windowYield =>
    rw [State.lateEffect]
    cases hwindow : s.pairing.window.state with
    | closed =>
      rw [State.closeWindow_closed hwindow]
      exact ⟨rfl, rfl, fun _ _ => rfl⟩
    | opened =>
      rw [State.closeWindow_open hwindow]
      refine ⟨rfl, rfl, ?_⟩
      rintro f (rfl | rfl) <;> exact (s.raise_flagSet .pairingEnded _).trans (Bool.or_false _)

/-- What comes after a cycle end out of slot 15 does not touch a station outside the group (R83, R144). -/
theorem lateEffects_outGroup {s : State} (h : s.station.state.inGroup = false) (es : List LateEffect) :
    (s.lateEffects es).station = s.station ∧ (s.lateEffects es).pairing.newcomer = s.pairing.newcomer ∧
      ∀ f, f = .pairTimeout ∨ f = .stateChanged → (s.lateEffects es).flagSet f = s.flagSet f := by
  induction es generalizing s with
  | nil => exact ⟨rfl, rfl, fun _ _ => rfl⟩
  | cons e es ih =>
    obtain ⟨hstation, hnewcomer, hflags⟩ := lateEffect_outGroup h e
    obtain ⟨hstation', hnewcomer', hflags'⟩ := ih (s := s.lateEffect e) (by rwa [hstation])
    exact ⟨hstation'.trans hstation, hnewcomer'.trans hnewcomer, fun f hf => (hflags' f hf).trans (hflags f hf)⟩

/-- A whole cycle end in SEEKING or JOINING, from what its transitions decide. -/
theorem newcomerAfter_endCycle {s : State} {d : JoinDecision} {c : Cycle} {order : DeadlineOrder}
    (hout : s.station.state = .seeking ∨ s.station.state = .joining)
    (h : ∀ t : State, t.station = s.station → t.pairing = s.pairing → t.early = s.early →
    t.timer.cycle = s.timer.cycle →
      t.factoryId = s.factoryId → newcomerAfter t d t.transitions) :
    newcomerAfter s d (s.endCycle c order) := by
  have hwork : s.atDeadline c = ((s.atInstant c.planned).timerWork c).ageBearer :=
    cycleWork_outGroup (s := s.atInstant c.planned) hout c
  obtain ⟨w, hw⟩ : ∃ w, s.atDeadline c = w := ⟨_, rfl⟩
  have hstation : w.station = s.station := by simp [← hw, hwork, State.atInstant]
  have hpairing : w.pairing = s.pairing := by simp [← hw, hwork, State.atInstant]
  have hearly : w.early = s.early := by simp [← hw, hwork, State.atInstant]
  have hid : w.factoryId = s.factoryId := by simp [← hw, hwork, State.atInstant]
  have hcycle : w.timer.cycle = s.timer.cycle := by simp [← hw, hwork, State.atInstant, State.timerWork]
  have hdecided : newcomerAfter w d (w.deadlineWork order) := newcomerAfter_deadlineWork
    (fun t ht hp he hr hf => h t (ht.trans hstation) (hp.trans hpairing) (he.trans hearly)
      ((congrArg Timer.cycle hr).trans hcycle) (hf.trans hid)) order
  have hbegun : newcomerAfter w d ((w.deadlineWork order).rotateViews.beginCycle c) :=
    newcomerAfter_congr hdecided rfl (by simp) (by simp) fun f _ => by simp [State.flagSet]
  have hgroup : ((w.deadlineWork order).rotateViews.beginCycle c).station.state.inGroup = false := by
    cases d with
    | goOn nc =>
      rw [hbegun.1, hstation]
      obtain h | h := hout <;> rw [h] <;> rfl
    | timeout =>
      rw [hbegun.2.1]
      rfl
  obtain ⟨hlate, hlate', hlateFlags⟩ := lateEffects_outGroup hgroup s.chan.late
  rw [State.endCycle_late, hw]
  exact newcomerAfter_congr hbegun hstation.symm hlate hlate' hlateFlags

/-! ### The decision of JOINING (R94) -/

theorem transitions_joining {s : State} (hjoining : s.station.state = .joining) (hopen : s.early.joinDecided = false) :
    s.transitions = s.decideNewcomer := by
  simp only [State.transitions, hjoining, hopen]
  rfl

theorem jumpNext_eq {s : State} {c : Cycle} (hcycle : s.timer.cycle = some c) (hjump : s.early.jump = none) :
    s.jumpNext = c.nextPhase.isSome := by
  simp [State.jumpNext, hcycle, hjump]

theorem decideJoin_accepted {id : FactoryId} {jump : Bool} {nc : Newcomer} (horder : nc.order ≠ .confirm)
    (haccepted : nc.accepted ≠ none) : decideJoin id jump nc = .goOn { nc with order := .confirm } :=
  if_pos ⟨horder, Option.isSome_iff_ne_none.2 haccepted⟩

theorem decideJoin_unanswered {id : FactoryId} {jump : Bool} {nc : Newcomer} (horder : nc.order = .join)
    (haccepted : nc.accepted = none) :
    decideJoin id jump nc = if 64 ≤ nc.attempts then .timeout else .goOn { nc with hold := id.toNat % 8 + 1, order :=
    .none } := by
  simp [decideJoin, horder, haccepted, joinHold]

theorem decideJoin_holds {id : FactoryId} {jump : Bool} {nc : Newcomer} (horder : nc.order = .none)
    (haccepted : nc.accepted = none) :
    decideJoin id jump nc = if 0 < nc.hold ∧ ¬jump = true then
      .goOn { nc with hold := nc.hold - 1, order := if nc.hold = 1 then .join else .none } else .goOn nc := by
  have hnot : ¬(nc.order ≠ .confirm ∧ nc.accepted.isSome = true) := by rw [haccepted]; exact fun h => nomatch h.2
  have hnone : nc.order ≠ .join := by rw [horder]; nofun
  rw [decideJoin, if_neg hnot, if_neg fun h => hnone h.1, if_neg hnone]
  by_cases hcounts : 0 < nc.hold ∧ ¬jump = true
  · have hlast : nc.hold - 1 = 0 ↔ nc.hold = 1 := by omega
    rw [if_pos hcounts, if_pos hcounts]
    simp only [hlast]
  · rw [if_neg hcounts, if_neg hcounts, ← horder]

/-- A cycle end in JOINING that a row has decided ahead of it makes nothing of the newcomer (assumption log 6). -/
theorem endCycle_decided {s : State} (hjoining : s.station.state = .joining)
    (hdecided : s.early.joinDecided = true) (c : Cycle)
    (order : DeadlineOrder) :
    (s.endCycle c order).pairing.newcomer = s.pairing.newcomer ∧ (s.endCycle c order).station = s.station ∧
      (s.endCycle c order).flagSet .pairTimeout = s.flagSet .pairTimeout := by
  have hwork : s.atDeadline c = ((s.atInstant c.planned).timerWork c).ageBearer :=
    cycleWork_outGroup (s := s.atInstant c.planned) (.inr hjoining) c
  obtain ⟨w, hw⟩ : ∃ w, s.atDeadline c = w := ⟨_, rfl⟩
  have hstation : w.station = s.station := by simp [← hw, hwork, State.atInstant]
  have hpairing : w.pairing = s.pairing := by simp [← hw, hwork, State.atInstant]
  have hflags : w.flags = s.flags := by simp [← hw, hwork, State.atInstant]
  have hearly : w.early = s.early := by simp [← hw, hwork, State.atInstant]
  have hstays : ∀ t : State, t.station = s.station → t.early = s.early → t.transitions = t := fun t ht he => by
    rw [State.transitions, ht, hjoining]
    exact if_pos (by rw [he, hdecided])
  have hdeadline : w.deadlineWork order = w.deadline := by
    cases order with
    | stateFirst => exact congrArg State.deadline (hstays w hstation hearly)
    | deadlineFirst => exact hstays w.deadline (by simpa using hstation) (by simpa using hearly)
  have hgroup : (w.deadline.rotateViews.beginCycle c).station.state.inGroup = false := by
    simp [hstation, hjoining, StationState.inGroup]
  obtain ⟨hlate, hlate', hlateFlags⟩ := lateEffects_outGroup hgroup s.chan.late
  rw [State.endCycle_late, hw, hdeadline]
  refine ⟨hlate'.trans (by simp [hpairing]), hlate.trans (by simp [hstation]), (hlateFlags _ (.inl rfl)).trans ?_⟩
  calc (w.deadline.rotateViews.beginCycle c).flagSet .pairTimeout
      = w.deadline.flagSet .pairTimeout := by simp [State.flagSet]
    _ = w.flagSet .pairTimeout := State.deadline_raises w _ (by decide)
    _ = s.flagSet .pairTimeout := by rw [State.flagSet, hflags, ← State.flagSet]

/-- Settles O22. -/
theorem newcomerOrdersAndGivesUp : Obligations.NewcomerOrdersAndGivesUp := by
  refine ⟨fun c nc order s hcycle hend hframe hjoining hopen hjump hnewcomer => ?_,
    fun c order s hends hjoining hdecided => ?_,
    fun c nc s hcycle hend hjoining hopen hnewcomer horder haccepted hhold hphase hjump => ?_,
    fun c nc s hcycle hend hjoining hopen hnewcomer horder haccepted hattempts => ?_⟩
  · have hafter : newcomerAfter s (decideJoin s.factoryId c.nextPhase.isSome nc) (s.endCycle c order) :=
      newcomerAfter_endCycle (.inr hjoining) fun t hstation hpairing hearly hc hid => by
        rw [transitions_joining (by rw [hstation, hjoining]) (by rw [hearly, hopen]), ← hid,
          ← jumpNext_eq (hc.trans hcycle) (by rw [hearly, hjump])]
        exact newcomerAfter_decideNewcomer (by rw [hpairing, hnewcomer])
    refine ⟨_, execCycleEnd_due hcycle hend hframe order, fun haccepted horder => ?_, fun haccepted horder hfew => ?_,
      fun haccepted horder hmany => ?_, fun haccepted horder hphase hhold => ?_, fun haccepted horder hphase => ?_⟩
    · rw [decideJoin_accepted horder haccepted] at hafter
      exact hafter.2
    · rw [decideJoin_unanswered horder haccepted, if_neg (by omega)] at hafter
      exact hafter.2
    · rw [decideJoin_unanswered horder haccepted, if_pos hmany] at hafter
      obtain ⟨hnone, hidle, _, htimeout, hchanged⟩ := hafter
      exact ⟨hnone, hidle, htimeout, hchanged⟩
    · rw [decideJoin_holds horder haccepted, if_pos ⟨hhold, by rw [hphase]; nofun⟩] at hafter
      exact hafter.2
    · rw [decideJoin_holds horder haccepted, if_neg] at hafter
      · exact hafter.2
      · rintro ⟨hpos, hordinary⟩
        obtain hphase | hphase := hphase
        · exact hordinary (Option.isSome_iff_ne_none.2 hphase)
        · omega
  · obtain ⟨hcycle, hend, hframe⟩ := hends
    obtain ⟨hnewcomer, hstation, hflag⟩ := endCycle_decided hjoining hdecided c order
    exact ⟨_, execCycleEnd_due hcycle hend hframe order, hnewcomer, hstation, hflag⟩
  · have hdecision : decideJoin s.factoryId s.jumpNext nc = .goOn { nc with hold := 0, order := .join } := by
      have hnext : ¬s.jumpNext = true := by rw [jumpNext_eq hcycle hjump, hphase]; nofun
      rw [decideJoin_holds horder haccepted, if_pos ⟨by omega, hnext⟩, hhold]
      rfl
    have hrow : execJoinHoldExpiry s = _ := State.earlyRow_due hcycle hend
      (by simp [hjoining, hopen, hnewcomer, hdecision])
    refine ⟨_, hrow, ?_⟩
    rw [decideNewcomer_goOn (s := s.atInstant c.planned) hnewcomer hdecision]
    exact ⟨rfl, rfl, rfl, rfl, rfl, rfl, rfl, rfl, rfl, rfl, rfl, rfl, rfl⟩
  · have hdecision : decideJoin s.factoryId s.jumpNext nc = .timeout := by
      rw [decideJoin_unanswered horder haccepted, if_pos (by omega)]
    have hrow : execJoinAttemptsExhausted s = _ := State.earlyRow_due hcycle hend
      (by simp [hjoining, hopen, hnewcomer, hdecision])
    refine ⟨_, hrow, ?_⟩
    rw [decideNewcomer_timeout (s := s.atInstant c.planned) hnewcomer hdecision]
    exact ⟨rfl, rfl, rfl, rfl, rfl, rfl, rfl, rfl, rfl, rfl, rfl, rfl, rfl, rfl⟩

end Sys2Proof.Proofs.Newcomers
end

section
/-! PROOFS. The peer table at a reception: the entry that a first burst creates, and what later ones make of it. -/

namespace Sys2Proof.Proofs.Table

open Sys2Proof Sys2Proof.Machine

/-! ### Entries by number -/

theorem findPeer_eq_none {n : StationNo} {ps : List Peer} (h : ∀ p ∈ ps, p.number ≠ n) : findPeer n ps = none :=
  List.find?_eq_none.2 fun p hp => by simpa using h p hp

theorem findPeer_cons (n : StationNo) (p : Peer) (ps : List Peer) :
    findPeer n (p :: ps) = if p.number = n then some p else findPeer n ps := by
  rw [findPeer, List.find?_cons]
  by_cases h : p.number = n
  · simp [h]
  · rw [if_neg h, beq_false_of_ne h]
    rfl

theorem findPeer_insert_other {n : StationNo} {p : Peer} (h : n ≠ p.number) (ps : List Peer) :
    findPeer n (insertPeer p ps) = findPeer n ps := by
  induction ps with
  | nil => rw [insertPeer, findPeer_cons, if_neg h.symm]
  | cons q qs ih =>
    rw [insertPeer]
    split
    · rw [findPeer_cons n p, if_neg h.symm]
    · rw [findPeer_cons, findPeer_cons, ih]

theorem findPeer_insert_self {p : Peer} {ps : List Peer} (h : ∀ q ∈ ps, q.number ≠ p.number) :
    findPeer p.number (insertPeer p ps) = some p := by
  induction ps with
  | nil => rw [insertPeer, findPeer_cons, if_pos rfl]
  | cons q qs ih =>
    rw [insertPeer]
    split
    · rw [findPeer_cons, if_pos rfl]
    · rw [findPeer_cons, if_neg (h q List.mem_cons_self)]
      exact ih fun r hr => h r (List.mem_cons_of_mem q hr)

theorem mem_removePeer {n : StationNo} {p : Peer} {ps : List Peer} : p ∈ removePeer n ps ↔ p ∈ ps ∧ p.number ≠ n := by
  simp [removePeer]

theorem findPeer_remove_self (n : StationNo) (ps : List Peer) : findPeer n (removePeer n ps) = none :=
  findPeer_eq_none fun _ hp => (mem_removePeer.1 hp).2

theorem findPeer_remove_other {n m : StationNo} (h : m ≠ n) (ps : List Peer) :
    findPeer m (removePeer n ps) = findPeer m ps := by
  induction ps with
  | nil => rfl
  | cons p ps ih =>
    by_cases hp : p.number = n
    · have hm : ¬p.number = m := by rw [hp]; exact h.symm
      rw [removePeer, List.filter_cons_of_neg (by simpa using hp), findPeer_cons, if_neg hm]
      exact ih
    · rw [removePeer, List.filter_cons_of_pos (by simpa using hp), findPeer_cons, findPeer_cons]
      exact congrArg _ ih

theorem findPeer_update_self {n : StationNo} {p : Peer} {ps : List Peer} (h : findPeer n ps = some p) {f : Peer → Peer}
    (hf : (f p).number = n) : findPeer n (updatePeer n f ps) = some (f p) := by
  induction ps with
  | nil => cases h
  | cons q qs ih =>
    rw [findPeer_cons] at h
    rw [updatePeer, List.map_cons, findPeer_cons]
    by_cases hq : q.number = n
    · rw [if_pos hq] at h
      cases h
      rw [if_pos hq, if_pos hf]
    · rw [if_neg hq] at h
      rw [if_neg hq, if_neg hq]
      exact ih h

theorem findPeer_update_other {n m : StationNo} (h : m ≠ n) {f : Peer → Peer} (hf : ∀ p, (f p).number = p.number)
    (ps : List Peer) : findPeer m (updatePeer n f ps) = findPeer m ps := by
  induction ps with
  | nil => rfl
  | cons p ps ih =>
    rw [updatePeer, List.map_cons, findPeer_cons, findPeer_cons]
    by_cases hp : p.number = n
    · have hm : ¬p.number = m := by rw [hp]; exact h.symm
      rw [if_pos hp, hf, if_neg hm, if_neg hm]
      exact ih
    · rw [if_neg hp]
      exact congrArg _ ih

/-! ### The entry that makes room (R46) -/

/-- `v` goes before `q`: the greater missed count, then the lower number. -/
def evictedBefore (v q : Peer) : Prop := q.missed < v.missed ∨ (q.missed = v.missed ∧ v.number ≤ q.number)

theorem evictedBefore_trans {a b c : Peer} (h : evictedBefore a b) (k : evictedBefore b c) : evictedBefore a c := by
  unfold evictedBefore at *
  rw [Fin.le_def] at *
  omega

/-- The better of a candidate and another entry, as the search for the evictee takes it. -/
def laterEvictee (best : Option Peer) (p : Peer) : Option Peer :=
  match best with
  | none => some p
  | some q => if q.missed < p.missed ∨ (q.missed = p.missed ∧ p.number < q.number) then some p else some q

theorem foldl_laterEvictee (ps : List Peer) (q : Peer) :
    ∃ v, ps.foldl laterEvictee (some q) = some v ∧ (v = q ∨ v ∈ ps) ∧ evictedBefore v q ∧ ∀ p ∈ ps,
    evictedBefore v p := by
  induction ps generalizing q with
  | nil => exact ⟨q, rfl, .inl rfl, .inr ⟨rfl, le_refl _⟩, nofun⟩
  | cons p ps ih =>
    rw [List.foldl_cons, laterEvictee]
    by_cases hbetter : q.missed < p.missed ∨ (q.missed = p.missed ∧ p.number < q.number)
    · rw [if_pos hbetter]
      obtain ⟨v, hv, hmem, hp, hps⟩ := ih p
      have hpq : evictedBefore p q := hbetter.imp id fun h => ⟨h.1, h.2.le⟩
      refine ⟨v, hv, .inr ?_, evictedBefore_trans hp hpq, List.forall_mem_cons.2 ⟨hp, hps⟩⟩
      obtain rfl | hmem := hmem
      · exact List.mem_cons_self
      · exact List.mem_cons_of_mem p hmem
    · rw [if_neg hbetter]
      obtain ⟨v, hv, hmem, hq, hps⟩ := ih q
      have hqp : evictedBefore q p := by
        unfold evictedBefore
        rw [Fin.le_def]
        rw [Fin.lt_def] at hbetter
        omega
      exact ⟨v, hv, hmem.imp id (List.mem_cons_of_mem p), hq, List.forall_mem_cons.2 ⟨evictedBefore_trans hq hqp, hps⟩⟩

theorem evictee_none {ps : List Peer} (h : ∀ p ∈ ps, p.state ≠ .lost) : evictee ps = none := by
  have hnone : ps.filter (fun p => p.state == .lost) = [] := List.filter_eq_nil_iff.2 fun p hp => by simpa using h p hp
  rw [evictee, hnone]
  rfl

/-- A LOST entry that goes before every other LOST one has the number of the entry that is evicted. -/
theorem evictee_eq {ps : List Peer} {v : Peer} (hv : v ∈ ps) (hlost : v.state = .lost)
    (hbest : ∀ q ∈ ps, q.state = .lost → evictedBefore v q) : ∃ u, evictee ps = some u ∧ u.number = v.number := by
  have hmem : v ∈ ps.filter fun p => p.state == .lost := List.mem_filter.2 ⟨hv, by simpa using hlost⟩
  obtain ⟨q, qs, hfilter⟩ := List.exists_cons_of_ne_nil (List.ne_nil_of_mem hmem)
  obtain ⟨u, hu, hfrom, hq, hqs⟩ := foldl_laterEvictee qs q
  have hunfold : evictee ps = some u := by
    rw [← hu, evictee, hfilter]
    rfl
  have hlast : u ∈ ps.filter fun p => p.state == .lost := by
    rw [hfilter]
    exact hfrom.elim (fun h => h ▸ List.mem_cons_self) (List.mem_cons_of_mem q)
  obtain ⟨humem, hulost⟩ := List.mem_filter.1 hlast
  have huv : evictedBefore u v := by
    rw [hfilter] at hmem
    exact (List.forall_mem_cons.2 ⟨hq, hqs⟩ : ∀ p ∈ q :: qs, evictedBefore u p) v hmem
  have hvu := hbest u humem (eq_of_beq hulost)
  refine ⟨u, hunfold, ?_⟩
  unfold evictedBefore at huv hvu
  rw [Fin.le_def] at huv hvu
  exact Fin.ext (by omega)

/-! ### Creation (R45, R46, R90) -/

theorem peerCreated_flags (s : State) (n : StationNo) (g : Flag) (hg : g ≠ .paired) :
    (s.peerCreated n).flagSet g = (s.flagSet g || decide (Flag.peerNew = g)) := by
  have hclose : ∀ t : State, (t.closeWindow .done).flagSet g = t.flagSet g := fun t => by
    rw [State.closeWindow]
    split
    · exact (State.raise_flagSet _ .paired g).trans (by rw [decide_eq_false hg.symm, Bool.or_false]; rfl)
    · rfl
  rw [State.peerCreated]
  split
  · exact s.raise_flagSet .peerNew g
  · split
    · exact (hclose _).trans (s.raise_flagSet .peerNew g)
    · exact s.raise_flagSet .peerNew g

theorem createPeer_room {s : State} (h : s.peers.length < 15) (b : Burst) (d : Int) :
    s.createPeer b d = { s with peers := insertPeer (peerOfBurst b d) s.peers }.peerCreated b.sender := if_pos h

theorem createPeer_full {s : State} (h : 15 ≤ s.peers.length) (hnone : evictee s.peers = none) (b : Burst) (d : Int) :
    s.createPeer b d = s.raise .peerTableFull := by
  rw [State.createPeer, if_neg (Nat.not_lt.2 h), hnone]

theorem createPeer_evicts {s : State} (h : 15 ≤ s.peers.length) {v : Peer} (hv : evictee s.peers = some v) (b : Burst)
    (d : Int) :
    s.createPeer b d =
      { s with peers := insertPeer (peerOfBurst b d) (removePeer v.number s.peers) }.peerCreated b.sender := by
  rw [State.createPeer, if_neg (Nat.not_lt.2 h), hv]

theorem peerView_creates {s : State} {b : Burst} (hkind : b.kind = .voice ∨ b.kind = .farend)
    (hnew : findPeer b.sender s.peers = none) (d : Int) : s.peerView b d = s.createPeer b d := by
  rw [State.peerView, hnew]
  obtain h | h := hkind <;> simp only [h]

theorem peerView_ignores {s : State} {b : Burst} (hkind : ¬(b.kind = .voice ∨ b.kind = .farend))
    (hnew : findPeer b.sender s.peers = none) (d : Int) : s.peerView b d = s := by
  rw [State.peerView, hnew]
  cases h : b.kind with
  | voice => exact absurd (.inl h) hkind
  | farend => exact absurd (.inr h) hkind
  | _ => rfl

/-- Without an entry to take away, the peer view touches neither the stream records nor the events of other blocks. -/
theorem peerView_new_streams {s : State} {b : Burst} (hnew : findPeer b.sender s.peers = none) (d : Int) :
    (s.peerView b d).streams = s.streams ∧
      ∀ g, g ≠ .peerNew → g ≠ .paired → g ≠ .peerTableFull → (s.peerView b d).flagSet g = s.flagSet g := by
  by_cases hkind : b.kind = .voice ∨ b.kind = .farend
  · rw [peerView_creates hkind hnew]
    refine ⟨by simp, fun g hcreated hpaired hfull => ?_⟩
    rw [State.createPeer]
    split
    · exact (peerCreated_flags _ _ _ hpaired).trans (by simp [State.flagSet, hcreated.symm])
    · split
      · exact (s.raise_flagSet _ _).trans (by simp [hfull.symm])
      · exact (peerCreated_flags _ _ _ hpaired).trans (by simp [State.flagSet, hcreated.symm])
  · rw [peerView_ignores hkind hnew]
    exact ⟨rfl, fun _ _ _ _ => rfl⟩

/-- Settles O36. -/
theorem firstBurstCreatesAPeer : Obligations.FirstBurstCreatesAPeer := by
  intro c k air a f bytes b order s halone hstep hstation hgroup hsender hnamed hnew creates created
  obtain ⟨v, t, hexec, hvstation, hvflags, hvstreams, hvpeers, _, hviews, htstation, hstore, hframe, hcounts,
    hheld, hpeers,
    hwearers, houtcome, hreadsVoice, hflags, _, hrole, _⟩ :=
    State.hearsPeer_facts halone order hstep hstation hgroup hsender
      hnamed
  have hvnew : findPeer b.sender v.peers = none := findPeer_eq_none (by rw [hvpeers]; exact hnew)
  obtain ⟨hstreams, hothers⟩ := peerView_new_streams hvnew ((a : Int) - c.slotStart k.val)
  have hdown := hothers .farendDown (by decide) (by decide) (by decide)
  have hcreated : peerOfBurst b ((a : Int) - c.slotStart k.val) = created := by
    rw [peerOfBurst, hstep.1]
  have hflagSet : ∀ g, v.flagSet g = s.flagSet g := fun g => by rw [State.flagSet, hvflags, ← State.flagSet]
  rw [hstreams] at hwearers hrole
  rw [hvstreams] at hwearers hrole
  rw [hdown, hflagSet] at hrole
  refine ⟨t, hexec, hviews, htstation, hstore, hframe, hcounts, hheld, fun hcreates hroom => ?_,
    fun hcreates hfull hnone => ?_,
    fun hcreates u hu hfull hlost hbest => ?_, fun hother => ?_, houtcome, hwearers, fun h => (hrole h).2, hreadsVoice,
    fun h => (hrole h).1⟩
  · have hview : t.peers = insertPeer created s.peers := by
      rw [hpeers, peerView_creates hcreates hvnew, createPeer_room (by rwa [hvpeers]), hcreated, hvpeers]
      simp
    refine ⟨?_, ?_, fun n hn => ?_⟩
    · rw [hflags _ rfl, peerView_creates hcreates hvnew, createPeer_room (by rwa [hvpeers]),
        peerCreated_flags _ _ _ (by decide)]
      simp
    · rw [hview]
      exact findPeer_insert_self (p := created) hnew
    · rw [hview]
      exact findPeer_insert_other (p := created) hn s.peers
  · have hview : v.peerView b ((a : Int) - c.slotStart k.val) = v.raise .peerTableFull := by
      rw [peerView_creates hcreates hvnew, createPeer_full (by rwa [hvpeers])
        (by rw [hvpeers]; exact evictee_none hnone)]
    refine ⟨?_, ?_⟩
    · rw [hflags _ rfl, hview, State.raise_flagSet_self]
    · rw [hpeers, hview]
      exact hvpeers
  · obtain ⟨w, hw, hnumber⟩ := evictee_eq hu hlost hbest
    have hview : t.peers = insertPeer created (removePeer u.number s.peers) := by
      rw [hpeers, peerView_creates hcreates hvnew, createPeer_evicts (by rwa [hvpeers])
        (by rw [hvpeers]; exact hw), hcreated,
        hvpeers, hnumber]
      simp
    have hleft : ∀ q ∈ removePeer u.number s.peers, q.number ≠ created.number := fun q hq =>
      hnew q (mem_removePeer.1 hq).1
    refine ⟨?_, ?_, ?_, fun n hn hnu => ?_⟩
    · rw [hflags _ rfl, peerView_creates hcreates hvnew, createPeer_evicts (by rwa [hvpeers])
        (by rw [hvpeers]; exact hw),
        peerCreated_flags _ _ _ (by decide)]
      simp
    · rw [hview]
      exact findPeer_insert_self hleft
    · rw [hview, findPeer_insert_other (p := created) (hnew u hu), findPeer_remove_self]
    · rw [hview, findPeer_insert_other (p := created) hn, findPeer_remove_other hnu]
  · have hview := peerView_ignores hother hvnew ((a : Int) - c.slotStart k.val)
    rw [hview] at hpeers hflags
    exact ⟨hpeers.trans hvpeers, (hflags _ rfl).trans (hflagSet _), (hflags _ rfl).trans (hflagSet _),
      (hflags _ rfl).trans (hflagSet _)⟩

/-! ### A burst from a station with an entry (R47, R48) -/

theorem refresh_number (p : Peer) (b : Burst) (d : Int) : (p.refresh b d).number = p.number := by
  have htake : ((p.heardAgain b d).takeSlots b.kind b.slot).number = p.number := by cases b.kind <;> rfl
  show (if b.bearer = true then (p.heardAgain b d).takeSlots b.kind b.slot
    else { (p.heardAgain b d).takeSlots b.kind b.slot with farSlot := none } : Peer).number = _
  split <;> exact htake

theorem refresh_voice {p : Peer} {b : Burst} (h : b.kind = .voice) (d : Int) : p.refresh b d =
    { p.heardAgain b d with
        voiceSlot := some b.slot, farSlot := if b.bearer then clearSlot p.farSlot b.slot else none } := by
  rw [Peer.refresh, h]
  cases b.bearer <;> rfl

theorem refresh_farend {p : Peer} {b : Burst} (h : b.kind = .farend) (d : Int) : p.refresh b d =
    { p.heardAgain b d with
        voiceSlot := clearSlot p.voiceSlot b.slot, farSlot := if b.bearer then some b.slot else none } := by
  rw [Peer.refresh, h]
  cases b.bearer <;> rfl

theorem refresh_offer {p : Peer} {b : Burst} (h : b.kind = .offer) (d : Int) : p.refresh b d =
    { p.heardAgain b d with farSlot := if b.bearer then p.farSlot else none } := by
  rw [Peer.refresh, h]
  cases b.bearer <;> rfl

theorem peerView_refresh {s : State} {b : Burst} {p : Peer} (hp : findPeer b.sender s.peers = some p)
    (hkind : b.kind ≠ .leave)
    (d : Int) : s.peerView b d = { s with peers := updatePeer b.sender (fun q => q.refresh b d) s.peers } := by
  simp only [State.peerView, hp]
  exact if_neg hkind

theorem peerView_farLeave {s : State} {b : Burst} {p : Peer} (hp : findPeer b.sender s.peers = some p)
    (hkind : b.kind = .leave) (hfar : p.farSlot = some b.slot) (d : Int) : s.peerView b d =
      { s with peers := updatePeer b.sender (fun q => q.farLeave b d) s.peers }.farSourceGone b.sender := by
  simp only [State.peerView, hp]
  rw [if_pos hkind, State.peerLeave, if_pos hfar]

theorem peerView_voiceLeave {s : State} {b : Burst} {p : Peer} (hp : findPeer b.sender s.peers = some p)
    (hkind : b.kind = .leave) (hfar : p.farSlot ≠ some b.slot) (d : Int) : s.peerView b d =
      ((({ s with peers := removePeer b.sender s.peers }.raise .peerLeft).wearersLose b.sender).farSourceGone b.sender) := by
  simp only [State.peerView, hp]
  rw [if_pos hkind, State.peerLeave, if_neg hfar]

/-- The far-end record at a loss of station `n`: ABSENT with FAREND_DOWN where it followed `n`, else left alone (R125). -/
theorem farSourceGone_record (s : State) (n : StationNo) :
    (s.streams.farEnd.source = some n →
      (s.farSourceGone n).streams.farEnd = { s.streams.farEnd.withoutSource with hang := s.streams.farEnd.hang } ∧
        ((s.farSourceGone n).flagSet .farendDown = true ↔
        s.flagSet .farendDown = true ∨ s.streams.farEnd.state ≠ .absent)) ∧
      (s.streams.farEnd.source ≠ some n →
        (s.farSourceGone n).streams.farEnd = s.streams.farEnd ∧
          (s.farSourceGone n).flagSet .farendDown = s.flagSet .farendDown) ∧
      (s.farSourceGone n).streams.wearers = s.streams.wearers ∧
      ∀ g, g ≠ .farendDown → (s.farSourceGone n).flagSet g = s.flagSet g := by
  rw [State.farSourceGone]
  by_cases h : s.streams.farEnd.source = some n
  · rw [if_pos h, State.farRecordAbsent]
    refine ⟨fun _ => ⟨by simp; rfl, ?_⟩, fun hnot => absurd h hnot, by simp, fun g hg => ?_⟩
    · rw [State.raiseIf_flagSet]
      simp [State.flagSet]
    · rw [State.raiseIf_flagSet, decide_eq_false hg.symm, Bool.and_false, Bool.or_false]
      rfl
  · rw [if_neg h]
    exact ⟨fun hyes => absurd hyes h, fun _ => ⟨rfl, rfl⟩, rfl, fun _ _ => rfl⟩

/-- The far-end record after the LEAVE of station `n`, of which the peer view makes `x.farSourceGone n`; `ends` says that the
burst ends the bearer's role here and now, and with it the record. -/
theorem farRecord_at_leave {s x t : State} {n : StationNo} {ends : Prop} (hstreams : x.streams.farEnd = s.streams.farEnd)
    (hflag : x.flagSet .farendDown = s.flagSet .farendDown)
    (habsent : (x.farSourceGone n).streams.farEnd.state = .absent →
      t.flagSet .farendDown = (x.farSourceGone n).flagSet .farendDown)
    (hstays : ¬ends → t.streams.farEnd = (x.farSourceGone n).streams.farEnd ∧
      t.flagSet .farendDown = (x.farSourceGone n).flagSet .farendDown)
    (hends : ends → t.streams.farEnd = (x.farSourceGone n).streams.farEnd.toAbsent) :
    (s.streams.farEnd.source = some n →
      t.streams.farEnd = { s.streams.farEnd.withoutSource with hang := s.streams.farEnd.hang } ∧
        (t.flagSet .farendDown = true ↔ s.flagSet .farendDown = true ∨ s.streams.farEnd.state ≠ .absent)) ∧
      (s.streams.farEnd.source ≠ some n → ¬ends →
        t.streams.farEnd = s.streams.farEnd ∧ t.flagSet .farendDown = s.flagSet .farendDown) := by
  obtain ⟨hfollows, hother, _, _⟩ := farSourceGone_record x n
  rw [hstreams, hflag] at hfollows hother
  refine ⟨fun hsource => ?_, fun hsource hnot => ?_⟩
  · obtain ⟨hrecord, hdown⟩ := hfollows hsource
    refine ⟨?_, (habsent (by rw [hrecord]; rfl)) ▸ hdown⟩
    by_cases h : ends
    · rw [hends h, hrecord]
      rfl
    · rw [(hstays h).1, hrecord]
  · obtain ⟨hrecord, hdown⟩ := hother hsource
    obtain ⟨hrecord', hdown'⟩ := hstays hnot
    exact ⟨hrecord'.trans hrecord, hdown'.trans hdown⟩

/-- Settles O37. -/
theorem laterBurstsRefreshOrRemoveTheEntry : Obligations.LaterBurstsRefreshOrRemoveTheEntry := by
  intro c k air a f bytes b p order s halone hstep hstation hgroup hsender hnamed hp copied cleared follows
  obtain ⟨v, t, hexec, hvstation, hvflags, hvstreams, hvpeers, _, hviews, htstation, hstore, hframe, hcounts,
    hheld, hpeers,
    hwearers, houtcome, hreadsVoice, hflags, habsent, hrole, hends⟩ := State.hearsPeer_facts halone order hstep hstation
      hgroup hsender hnamed
  have hvp : findPeer b.sender v.peers = some p := by rw [hvpeers]; exact hp
  have hnumber : p.number = b.sender := by simpa using List.find?_some hp
  have hflagSet : ∀ g, v.flagSet g = s.flagSet g := fun g => by rw [State.flagSet, hvflags, ← State.flagSet]
  by_cases hleave : b.kind = .leave
  · by_cases hfar : p.farSlot = some k
    · have hview := peerView_farLeave hvp hleave (by rw [hstep.1]; exact hfar) ((a : Int) - c.slotStart k.val)
      obtain ⟨x, hx⟩ : ∃ x : State,
        { v with peers := updatePeer b.sender (fun q =>
        q.farLeave b ((a : Int) - c.slotStart k.val)) v.peers } = x := ⟨_, rfl⟩
      have hxpeers : x.peers = updatePeer b.sender (fun q => q.farLeave b ((a : Int) - c.slotStart k.val)) s.peers := by
        rw [← hx, ← hvpeers]
      have hxstreams : x.streams = s.streams := by rw [← hx, ← hvstreams]
      have hxflags : ∀ g, x.flagSet g = s.flagSet g := fun g => by rw [← hflagSet g, ← hx]; rfl
      rw [hx] at hview
      rw [hview] at hpeers hwearers hflags habsent hrole hends
      obtain ⟨_, _, hwearersStay, hothers⟩ := farSourceGone_record x b.sender
      have htable : t.peers = updatePeer b.sender (fun q => q.farLeave b ((a : Int) - c.slotStart k.val)) s.peers :=
        hpeers.trans (by simpa using hxpeers)
      have hentry : findPeer b.sender t.peers = some (p.farLeave b ((a : Int) - c.slotStart k.val)) := by
        rw [htable]
        exact findPeer_update_self hp hnumber
      obtain ⟨hfollows, hother⟩ := farRecord_at_leave (congrArg _ hxstreams)
        (hxflags _) habsent (fun h => (hrole h).2) hends
      refine ⟨t, hexec, hviews, htstation, hstore, hframe, hcounts, hheld, fun n hn => ?_, fun hkind => ?_,
        fun hkind => ?_,
        fun hkind => ?_, fun _ _ => hentry, fun _ hnot => absurd hfar hnot, fun _ => ?_, fun _ => hfollows, fun h => ?_,
        houtcome, hreadsVoice, fun h => (hrole h).1⟩
      · rw [htable]
        exact findPeer_update_other hn (f := fun q => q.farLeave b _) (fun _ => rfl) s.peers
      · exact absurd (hleave.symm.trans hkind) nofun
      · exact absurd (hleave.symm.trans hkind) nofun
      · exact absurd (hleave.symm.trans hkind) nofun
      · exact ⟨hwearers.trans (hwearersStay.trans (congrArg _ hxstreams)),
          (hflags _ rfl).trans ((hothers .peerLeft nofun).trans ((hxflags _).trans rfl))⟩
      · exact hother (h.resolve_left (not_not_intro hleave))
    · have hview := peerView_voiceLeave hvp hleave (by rw [hstep.1]; exact hfar) ((a : Int) - c.slotStart k.val)
      obtain ⟨x, hx⟩ : ∃ x : State,
        ({ v with peers := removePeer b.sender v.peers }.raise .peerLeft).wearersLose b.sender = x := ⟨_, rfl⟩
      have hxpeers : x.peers = removePeer b.sender s.peers := by rw [← hx, ← hvpeers]; rfl
      have hxfar : x.streams.farEnd = s.streams.farEnd := by rw [← hx, ← hvstreams]; rfl
      have hxwearers : x.streams.wearers =
          s.streams.wearers.mapIdx fun w r => r.afterLoss b.sender s.station.creds.wearer w := by
        rw [← hx, ← hvstreams, ← hvstation]
        rfl
      have hxflags : ∀ g, x.flagSet g = (s.flagSet g || decide (Flag.peerLeft = g)) := fun g => by
        rw [← hflagSet g, ← hx]
        exact State.raise_flagSet v .peerLeft g
      rw [hx] at hview
      rw [hview] at hpeers hwearers hflags habsent hrole hends
      obtain ⟨_, _, hwearersStay, hothers⟩ := farSourceGone_record x b.sender
      have htable : t.peers = removePeer b.sender s.peers := hpeers.trans (by simpa using hxpeers)
      obtain ⟨hfollows, hother⟩ := farRecord_at_leave hxfar ((hxflags _).trans (Bool.or_false _)) habsent
        (fun h => (hrole h).2) hends
      refine ⟨t, hexec, hviews, htstation, hstore, hframe, hcounts, hheld, fun n hn => ?_, fun hkind => ?_,
        fun hkind => ?_,
        fun hkind => ?_, fun _ hyes => absurd hyes hfar, fun _ _ => ⟨?_, ?_, fun i r hr => ?_⟩, fun h => ?_,
        fun _ => hfollows, fun h => ?_, houtcome, hreadsVoice, fun h => (hrole h).1⟩
      · rw [htable]
        exact findPeer_remove_other hn s.peers
      · exact absurd (hleave.symm.trans hkind) nofun
      · exact absurd (hleave.symm.trans hkind) nofun
      · exact absurd (hleave.symm.trans hkind) nofun
      · rw [htable]
        exact findPeer_remove_self b.sender s.peers
      · rw [hflags _ rfl, hothers .peerLeft nofun, hxflags]
        simp
      · rw [hwearers, hwearersStay, hxwearers, List.getElem?_mapIdx, hr]
        rfl
      · exact absurd h (by rintro (h | h) <;> contradiction)
      · exact hother (h.resolve_left (not_not_intro hleave))
  · have hview := peerView_refresh hvp hleave ((a : Int) - c.slotStart k.val)
    rw [hview] at hpeers hwearers hflags hrole
    have htable : t.peers = updatePeer b.sender (fun q => q.refresh b ((a : Int) - c.slotStart k.val)) s.peers := by
      rw [hpeers, ← hvpeers]
    have hentry : findPeer b.sender t.peers = some (p.refresh b ((a : Int) - c.slotStart k.val)) := by
      rw [htable]
      exact findPeer_update_self hp ((refresh_number p b _).trans hnumber)
    refine ⟨t, hexec, hviews, htstation, hstore, hframe, hcounts, hheld, fun n hn => ?_, fun hkind => ?_,
      fun hkind => ?_,
      fun hkind => ?_, fun hkind => absurd hkind hleave, fun hkind => absurd hkind hleave, fun _ => ?_,
      fun hkind => absurd hkind hleave, fun _ hrole' => ?_, houtcome, hreadsVoice, fun h => (hrole h).1⟩
    · rw [htable]
      exact findPeer_update_other hn (fun q => refresh_number q b _) s.peers
    · rw [hentry, refresh_voice hkind, hstep.1]
      rfl
    · rw [hentry, refresh_farend hkind, hstep.1]
      rfl
    · rw [hentry, refresh_offer hkind]
      rfl
    · exact ⟨hwearers.trans (congrArg _ hvstreams), (hflags _ rfl).trans (hflagSet _)⟩
    · obtain ⟨_, hrecord, hdown⟩ := hrole hrole'
      exact ⟨hrecord.trans (congrArg _ hvstreams), hdown.trans (hflagSet _)⟩

end Sys2Proof.Proofs.Table
end

section
/-! PROOFS. The pairing window: its commands, its yield at a reception and after a cycle end, and the countdowns. -/

namespace Sys2Proof.Proofs.Window

open Sys2Proof Sys2Proof.Machine Sys2Proof.Proofs.Newcomers Sys2Proof.Proofs.Table

/-! ### OPEN_PAIRING and CLOSE_PAIRING (R80, R81) -/

theorem joinKindOf_named {b : Byte} (h : b = 1 ∨ b = 2) : joinKindOf b = some (if b = 1 then .newWearer else .partner) := by
  obtain rfl | rfl := h <;> rfl

theorem joinKindOf_other {b : Byte} (hone : b ≠ 1) (htwo : b ≠ 2) : joinKindOf b = none := by
  rw [joinKindOf]
  split
  next h => exact absurd (BitVec.eq_of_toNat_eq h : b = 1) hone
  next h => exact absurd (BitVec.eq_of_toNat_eq h : b = 2) htwo
  next => rfl

theorem windowOpen_iff (s : State) : s.windowOpen = true ↔ s.pairing.window.state = .opened := beq_iff_eq

theorem windowOpen_closed {s : State} (h : s.pairing.window.state = .closed) : ¬s.windowOpen = true := by
  rw [windowOpen_iff, h]
  nofun

/-- OPEN_PAIRING in MEMBER, taken, of a kind that there is. -/
theorem exec_openPairing_member {s : State} (hlistens : s.listensToHost)
    (hmember : s.station.state = .member) {b : Byte}
    (hkind : b = 1 ∨ b = 2) : exec (.openPairing b) s = .next
      (if s.windowOpen then s.took [0x01] else if pairingHeard s.peers then s.took [0x07]
        else (s.markTaken.openWindow (if b = 1 then .newWearer else .partner)).ok) := by
  have htaken : exec (.openPairing b) s = _ := (State.hostCommand_taken hlistens _ : execOpenPairing b s = _)
  rw [joinKindOf_named hkind] at htaken
  exact htaken.trans (congrArg _ (if_neg (not_not_intro hmember)))

/-- The commands of the window. -/
theorem openPairing_cases {b : Byte} {s : State} (hlistens : s.listensToHost) :
    (s.station.state ≠ .member → exec (.openPairing b) s = .next (s.took [0x01])) ∧
    (s.station.state = .member → b ≠ 1 → b ≠ 2 → exec (.openPairing b) s = .next (s.took [0x08])) := by
  have htaken : exec (.openPairing b) s = _ := (State.hostCommand_taken hlistens _ : execOpenPairing b s = _)
  refine ⟨fun hstation => htaken.trans (congrArg _ (if_pos hstation)), fun hmember hone htwo => ?_⟩
  rw [joinKindOf_other hone htwo] at htaken
  exact htaken.trans (congrArg _ (if_neg (not_not_intro hmember)))

theorem closePairing_cases {s : State} (hlistens : s.listensToHost) :
    (s.pairing.window.state = .closed → exec .closePairing s = .next (s.took [0x01])) ∧
    (s.pairing.window.state = .opened → exec .closePairing s = .next
      { s.took [0x00] with
          pairing := s.pairing.closedBy .closed
          flags := s.flags ||| Flag.pairingEnded.mark }) := by
  have htaken : exec .closePairing s = _ := (State.hostCommand_taken hlistens _ : execClosePairing s = _)
  refine ⟨fun hclosed => htaken.trans (congrArg _ (if_neg (windowOpen_closed (s := s.markTaken) hclosed))),
    fun hopen => htaken.trans (congrArg _ ((if_pos ((windowOpen_iff s.markTaken).2 hopen)).trans ?_))⟩
  rw [State.closeWindow_open (s := s.markTaken) hopen]
  rfl

/-! ### A reception with the window open (R83, R90) -/

/-- An entry that completes the lapsed offer by inference (R90): it is created, under the number of the lapse memory. -/
def infersOffer (v : State) (b : Burst) : Prop :=
  ((b.kind = .voice ∨ b.kind = .farend) ∧ (∀ p ∈ v.peers, p.number ≠ b.sender) ∧
    (v.peers.length < 15 ∨ ∃ p ∈ v.peers, p.state = .lost)) ∧ ∃ l, v.pairing.lapse = some l ∧ l.number = b.sender

theorem exists_evictee {ps : List Peer} (h : ∃ p ∈ ps, p.state = .lost) : ∃ v, evictee ps = some v := by
  obtain ⟨p, hp, hlost⟩ := h
  have hmem : p ∈ ps.filter fun p => p.state == .lost := List.mem_filter.2 ⟨hp, by simpa using hlost⟩
  obtain ⟨q, qs, hfilter⟩ := List.exists_cons_of_ne_nil (List.ne_nil_of_mem hmem)
  obtain ⟨v, hv, _⟩ := foldl_laterEvictee qs q
  refine ⟨v, ?_⟩
  rw [← hv, evictee, hfilter]
  rfl

/-- The creation of an entry completes the lapsed offer of its number and no other. -/
theorem peerCreated_pairing {s : State} (hopen : s.pairing.window.state = .opened) (n : StationNo) :
    ((∃ l, s.pairing.lapse = some l ∧ l.number = n) →
      (s.peerCreated n).pairing = s.pairing.closedBy .done ∧ (s.peerCreated n).flagSet .paired = true) ∧
    (¬(∃ l, s.pairing.lapse = some l ∧ l.number = n) → (s.peerCreated n).pairing = s.pairing) := by
  rw [State.peerCreated]
  cases hlapse : s.pairing.lapse with
  | none => exact ⟨fun ⟨_, hl, _⟩ => absurd hl nofun, fun _ => rfl⟩
  | some l =>
    by_cases hn : l.number = n
    · refine ⟨fun _ => ?_, fun hnot => absurd ⟨l, rfl, hn⟩ hnot⟩
      simp only [if_pos hn]
      rw [State.closeWindow_open (s := s.raise .peerNew) hopen]
      exact ⟨rfl, State.raise_flagSet_self (s.raise .peerNew) .paired⟩
    · refine ⟨fun ⟨m, hm, hmn⟩ => ?_, fun _ => ?_⟩
      · cases hm
        exact absurd hmn hn
      · simp only [if_neg hn]
        rfl

/-- What the peer view makes of the pairing records. -/
theorem peerView_pairing {v : State} {b : Burst} (hopen : v.pairing.window.state = .opened) (d : Int) :
    (infersOffer v b → (v.peerView b d).pairing = v.pairing.closedBy .done ∧ (v.peerView b d).flagSet .paired = true) ∧
      (¬infersOffer v b → (v.peerView b d).pairing = v.pairing) := by
  by_cases hnew : ∀ p ∈ v.peers, p.number ≠ b.sender
  · have hnone := findPeer_eq_none hnew
    by_cases hkind : b.kind = .voice ∨ b.kind = .farend
    · rw [peerView_creates hkind hnone]
      rcases Nat.lt_or_ge v.peers.length 15 with hroom | hfull
      · rw [createPeer_room hroom]
        obtain ⟨hinfers, hnot⟩ := peerCreated_pairing
          (s := { v with peers := insertPeer (peerOfBurst b d) v.peers }) hopen b.sender
        exact ⟨fun h => hinfers h.2, fun h => hnot fun hl => h ⟨⟨hkind, hnew, .inl hroom⟩, hl⟩⟩
      · by_cases hlost : ∃ p ∈ v.peers, p.state = .lost
        · obtain ⟨u, hu⟩ := exists_evictee hlost
          rw [createPeer_evicts hfull hu]
          obtain ⟨hinfers, hnot⟩ := peerCreated_pairing
            (s := { v with peers := insertPeer (peerOfBurst b d) (removePeer u.number v.peers) }) hopen b.sender
          exact ⟨fun h => hinfers h.2, fun h => hnot fun hl => h ⟨⟨hkind, hnew, .inr hlost⟩, hl⟩⟩
        · have hheld : ∀ p ∈ v.peers, p.state ≠ .lost := fun p hp h => hlost ⟨p, hp, h⟩
          rw [createPeer_full hfull (evictee_none hheld)]
          exact ⟨fun h => absurd (h.1.2.2.resolve_left (Nat.not_lt.2 hfull)) hlost, fun _ => rfl⟩
    · rw [peerView_ignores hkind hnone]
      exact ⟨fun h => absurd h.1.1 hkind, fun _ => rfl⟩
  · obtain ⟨p, hp⟩ : ∃ p, findPeer b.sender v.peers = some p := by
      cases hfind : findPeer b.sender v.peers with
      | none => exact absurd (findPeer_none hfind) hnew
      | some p => exact ⟨p, rfl⟩
    refine ⟨fun h => absurd h.1.2.1 hnew, fun _ => ?_⟩
    simp only [State.peerView, hp]
    split
    · simp
    · rfl

/-- What a reception in an open window makes of it (R83, R90): completed by inference, yielded to a peer's, or left. -/
theorem heardPeer_pairing {v : State} {b : Burst} (hopen : v.pairing.window.state = .opened) (late : Bool) (d : Int) :
    let t := v.heardPeer late b d
    let yields := ¬infersOffer v b ∧ b.pairingOpen = true ∧ b.sender < v.station.creds.number
    (infersOffer v b → t.pairing = v.pairing.closedBy .done ∧ t.flagSet .paired = true) ∧
      (yields → late = false → t.pairing = v.pairing.closedBy .yielded ∧ t.flagSet .pairingEnded = true) ∧
      (yields → late = true → t.pairing = v.pairing ∧ .windowYield ∈ t.chan.late) ∧
      (¬infersOffer v b → ¬yields → t.pairing = v.pairing) := by
  obtain ⟨hinfers, hnot⟩ := peerView_pairing (b := b) hopen d
  obtain ⟨_, _, _, _, helection, _⟩ := (v.peerView b d).election_parts late b
  obtain ⟨y, hy⟩ : ∃ y, (v.peerView b d).election late b = y := ⟨_, rfl⟩
  have hyPairing : y.pairing = (v.peerView b d).pairing := by simp [← hy]
  have hyStation : y.station = v.station := by simp [← hy]
  rw [hy] at helection
  have hheard : v.heardPeer late b d = (y.windowYield late b).storeReception b := by rw [State.heardPeer, hy]
  have hstored : ∀ x : State, (x.storeReception b).pairing = x.pairing ∧ (x.storeReception b).chan = x.chan ∧
      ∀ g, (x.storeReception b).flagSet g = x.flagSet g := fun x => by simp [State.flagSet]
  obtain ⟨hpairing, hchan, hflags⟩ := hstored (y.windowYield late b)
  intro t yields
  have ht : t = (y.windowYield late b).storeReception b := hheard
  rw [ht, hpairing, hflags, hflags, hchan]
  refine ⟨fun h => ?_, fun hyields hlate => ?_, fun hyields hlate => ?_, fun hstays hkeeps => ?_⟩
  · obtain ⟨hclosed, hpaired⟩ := hinfers h
    have hyClosed : y.pairing = v.pairing.closedBy .done := hyPairing.trans hclosed
    have hkeep : y.windowYield late b = y := by
      have : ¬y.yieldsWindow b = true := by simp [State.yieldsWindow, State.windowOpen, hyClosed, Pairing.closedBy]
      rw [State.windowYield, if_neg this]
    rw [hkeep]
    exact ⟨hyClosed, (helection _ rfl).trans hpaired⟩
  · have hyOpen : y.pairing = v.pairing := hyPairing.trans (hnot hyields.1)
    have hyes : y.yieldsWindow b = true := by
      simp [State.yieldsWindow, State.windowOpen, hyOpen, hopen, hyields.2.1, hyStation, hyields.2.2]
    rw [State.windowYield, if_pos hyes, hlate, State.nowOrLate, if_neg Bool.false_ne_true,
      State.closeWindow_open (by rw [hyOpen]; exact hopen)]
    refine ⟨by rw [hyOpen]; rfl, State.raise_flagSet_self y .pairingEnded⟩
  · have hyOpen : y.pairing = v.pairing := hyPairing.trans (hnot hyields.1)
    have hyes : y.yieldsWindow b = true := by
      simp [State.yieldsWindow, State.windowOpen, hyOpen, hopen, hyields.2.1, hyStation, hyields.2.2]
    rw [State.windowYield, if_pos hyes, hlate, State.nowOrLate, if_pos rfl]
    exact ⟨hyOpen, List.mem_append_right _ (List.mem_singleton.2 rfl)⟩
  · have hyOpen : y.pairing = v.pairing := hyPairing.trans (hnot hstays)
    have hno : ¬y.yieldsWindow b = true := by
      simp only [State.yieldsWindow, Bool.and_eq_true, decide_eq_true_eq, hyStation]
      exact fun h => hkeeps ⟨hstays, h.1.2, h.2⟩
    rw [State.windowYield, if_neg hno]
    exact hyOpen

theorem isLate_eq_false {k : SlotIx} {order : ReceptionOrder} (h : k ≠ 15 ∨ order = .receptionFirst) :
    isLate k order = false := by
  obtain h | rfl := h
  · rw [isLate, beq_false_of_ne h, Bool.false_and]
  · rw [isLate, show (ReceptionOrder.receptionFirst == .cycleEndFirst) = false from rfl, Bool.and_false]

theorem isLate_eq_true {k : SlotIx} {order : ReceptionOrder} (hk : k = 15) (horder : order = .cycleEndFirst) :
    isLate k order = true := by
  rw [hk, horder]
  rfl

/-- A yield of the election that comes first leaves the window as the cycle end has left it (R144). -/
theorem windowCounts_electionYield {s w : State} (h : s.windowCounts w) : s.windowCounts (w.lateEffect .electionYield) := by
  rw [State.lateEffect]
  split
  · have hflag : w.electionYield.flagSet .pairingEnded = w.flagSet .pairingEnded := by simp [State.electionYield_flagSet]
    have hpairing : w.electionYield.pairing = w.pairing := by simp
    unfold State.windowCounts at *
    rw [hflag, hpairing]
    exact h
  · exact h

/-- Settles O17. -/
theorem pairingWindowOpensAndCloses : Obligations.PairingWindowOpensAndCloses := by
  refine ⟨fun b s hlistens => ⟨(openPairing_cases hlistens).1, (openPairing_cases hlistens).2, ?_, ?_, ?_⟩,
    fun s hlistens => closePairing_cases hlistens,
    fun c k air a f bytes b order s halone hstep hmember hgroup hsender hnamed
      hopen => ?_, fun c order s hends hmember hlate => ?_⟩
  · intro hmember hkind hopen
    exact (exec_openPairing_member hlistens hmember hkind).trans (congrArg _ (if_pos ((windowOpen_iff s).2 hopen)))
  · rintro hmember hkind hclosed ⟨p, hp, hactive, hflag⟩
    have hheard : pairingHeard s.peers = true := List.any_eq_true.2 ⟨p, hp, by simp [hactive, hflag]⟩
    exact (exec_openPairing_member hlistens hmember hkind).trans
      (congrArg _ ((if_neg (windowOpen_closed hclosed)).trans (if_pos hheard)))
  · intro hmember hkind hclosed hnone
    have hheard : ¬pairingHeard s.peers = true := by
      intro h
      obtain ⟨p, hp, hpair⟩ := List.any_eq_true.1 h
      simp only [Bool.and_eq_true, beq_iff_eq] at hpair
      rw [hnone p hp hpair.1] at hpair
      cases hpair.2
    exact (exec_openPairing_member hlistens hmember hkind).trans
      (congrArg _ ((if_neg (windowOpen_closed hclosed)).trans (if_neg hheard)))
  · intro creates infers yields closed
    obtain ⟨v, hexec, _, hstation, _, _, hpeers, hpairing, _⟩ :=
      State.hearsPeer_exec halone order hstep (.inl hmember) hgroup hsender hnamed
    have hinfers : infersOffer v b ↔ infers := by rw [infersOffer, hpeers, hpairing]
    obtain ⟨hdone, hyielded, hkept, hstays⟩ := heardPeer_pairing (v := v) (b := b) (by rw [hpairing]; exact hopen)
      (isLate k order) ((a : Int) - c.slotStart k.val)
    rw [hinfers, hpairing] at hdone hyielded hkept hstays
    rw [hstation] at hyielded hkept hstays
    exact ⟨_, hexec, hdone, fun h hnow => hyielded h (isLate_eq_false hnow), fun h hk horder =>
      hkept h (isLate_eq_true hk horder),
      hstays⟩
  · obtain ⟨hcycle, hend, hframe⟩ := hends
    refine ⟨_, execCycleEnd_due hcycle hend hframe order, State.endCycle_noneLate s c order, ?_⟩
    rw [State.endCycle_late]
    have hbegins := (State.endCycle_begins c order (.inl hmember)).window
    generalize ((s.atDeadline c).deadlineWork order).rotateViews.beginCycle c = w at hbegins
    obtain hlate | hlate := hlate
    · rw [hlate]
      exact hbegins.yielded
    · rw [hlate]
      exact (windowCounts_electionYield hbegins).yielded

/-! ### The countdowns (R81, R82, R90, R91, R93) -/

theorem countWindow_last {s : State} (hopen : s.pairing.window.state = .opened) (h : s.pairing.window.remaining ≤ 1) :
    s.countWindow = { s with
      pairing := s.pairing.closedBy .timeout, flags := s.flags ||| Flag.pairingEnded.mark } := by
  have hzero : s.pairing.window.remaining - 1 = 0 := by omega
  rw [State.countWindow, if_pos ((windowOpen_iff s).2 hopen)]
  exact (if_pos hzero).trans (State.closeWindow_open (s := { s with pairing := { s.pairing with window :=
    { s.pairing.window with remaining := s.pairing.window.remaining - 1 } } }) hopen .timeout)

/-- A step jump lapses the outstanding offer and leaves the lapse memory's age to the next cycle end (R91). -/
theorem jumpIfDue_pairing (s : State) (c : Cycle) :
    (∀ o, s.jumpDue c = true → s.pairing.offer = some o →
      (s.jumpIfDue c).pairing = { s.pairing with offer := none, lapse := some { number := o.station, age := 0 } } ∧
        (s.jumpIfDue c).early.lapseAged = true) ∧
    (¬(s.jumpDue c = true ∧ s.pairing.offer ≠ none) →
      (s.jumpIfDue c).pairing = s.pairing ∧ (s.jumpIfDue c).early.lapseAged = s.early.lapseAged) := by
  have hpairing : s.jumpClaims.forgetViews.pairing = s.pairing := by simp
  have hearly : s.jumpClaims.forgetViews.early = s.early := by simp
  have hjump : (s.stepJump c).pairing = s.jumpClaims.forgetViews.jumpLapse.pairing ∧
      (s.stepJump c).early.lapseAged = s.jumpClaims.forgetViews.jumpLapse.early.lapseAged := ⟨rfl, rfl⟩
  refine ⟨fun o hdue ho => ?_, fun hnot => ?_⟩
  · rw [State.jumpIfDue, if_pos hdue, hjump.1, hjump.2]
    simp only [State.jumpLapse, hpairing, ho]
    exact ⟨congrArg (fun p : Pairing =>
      { p with offer := none, lapse := some { number := o.station, age := 0 } }) hpairing,
      trivial⟩
  · rw [State.jumpIfDue]
    split
    next hdue =>
      have hnone : s.pairing.offer = none := by_contra fun h => hnot ⟨hdue, h⟩
      rw [hjump.1, hjump.2]
      simp only [State.jumpLapse, hpairing, hnone]
      exact ⟨trivial, congrArg _ hearly⟩
    next => exact ⟨rfl, rfl⟩

/-- The state in which the pairing controller does its work at a cycle end. -/
def beforePairing (s : State) (c : Cycle) : State :=
  (((((s.atInstant c.planned).jumpIfDue c).timerWork c).claimWork).ageBearer).peerWork.surplusWork

theorem atDeadline_eq (s : State) (c : Cycle) : s.atDeadline c = (beforePairing s c).pairingWork := rfl

theorem beforePairing_frame (s : State) (c : Cycle) :
    (beforePairing s c).station = s.station ∧
      (beforePairing s c).pairing = ((s.atInstant c.planned).jumpIfDue c).pairing ∧
      (beforePairing s c).early.lapseAged = ((s.atInstant c.planned).jumpIfDue c).early.lapseAged ∧
      (beforePairing s c).early.windowCounted = s.early.windowCounted := by
  obtain ⟨_, _, hcounted⟩ := State.jumpIfDue_window (s.atInstant c.planned) c
  obtain ⟨a, b, hearly⟩ := State.claimWork_early (((s.atInstant c.planned).jumpIfDue c).timerWork c)
  refine ⟨by simp [beforePairing], by simp [beforePairing], by simp [beforePairing, hearly], ?_⟩
  exact Eq.trans (by simp [beforePairing, hearly]) hcounted

/-- A cycle end in MEMBER with no late effect leaves the pairing records as the controller's work has left them. -/
theorem endCycle_pairing {s : State} (hlate : s.chan.late = []) (hmember : s.station.state = .member) (c : Cycle)
    (order : DeadlineOrder) :
    (s.endCycle c order).pairing = (beforePairing s c).pairingWork.pairing ∧
      (s.endCycle c order).flagSet .pairingEnded = (beforePairing s c).pairingWork.flagSet .pairingEnded := by
  have hstation : (s.atDeadline c).station.state = .member := by simpa [State.atDeadline] using hmember
  obtain ⟨hpairing, _⟩ := State.deadlineWork_inGroup (v := s.atDeadline c) order (.inl hstation)
  refine ⟨?_, State.endCycle_flag hlate c order (by decide)⟩
  rw [State.endCycle_eq hlate, ← atDeadline_eq, ← hpairing]
  simp

theorem countSeek_window (s : State) : s.countSeek.pairing.window = s.pairing.window := by
  rw [State.countSeek]
  split
  · rfl
  · split <;> rfl

/-- A cycle end in SEEKING leaves the window. -/
theorem endCycle_seeking_window {s : State} (hlate : s.chan.late = [])
    (hseeking : s.station.state = .seeking) (c : Cycle)
    (order : DeadlineOrder) : (s.endCycle c order).pairing.window = s.pairing.window := by
  have hwork : s.atDeadline c = ((s.atInstant c.planned).timerWork c).ageBearer :=
    cycleWork_outGroup (s := s.atInstant c.planned) (.inl hseeking) c
  obtain ⟨w, hw⟩ : ∃ w, s.atDeadline c = w := ⟨_, rfl⟩
  have hstation : w.station = s.station := by simp [← hw, hwork, State.atInstant]
  have hpairing : w.pairing = s.pairing := by simp [← hw, hwork, State.atInstant]
  have hseek : ∀ t : State, t.station = s.station → t.transitions = t.countSeek := fun t ht => by
    rw [State.transitions, ht, hseeking]
  have hdeadline : (w.deadlineWork order).pairing.window = w.pairing.window := by
    cases order with
    | stateFirst =>
      rw [State.deadlineWork, hseek w hstation]
      simpa using countSeek_window w
    | deadlineFirst =>
      rw [State.deadlineWork, hseek w.deadline (by simpa using hstation)]
      simpa using countSeek_window w.deadline
  rw [State.endCycle_eq hlate, hw, ← hpairing, ← hdeadline]
  simp

/-- Settles O21. -/
theorem pairingCountdownsCountAndRunOut : Obligations.PairingCountdownsCountAndRunOut := by
  refine ⟨fun c s hcycle hend hmember hopen hwindow hremaining => ?_,
    fun c l s hcycle hend hmember hopen hlapse hage => ?_,
    fun c nc s hcycle hend hseeking hnewcomer hseek => ?_, fun c order s hends hlate hmember => ?_,
    fun c nc order s hends hlate hseeking hnewcomer => ?_⟩
  · have hrow : execPairingWindowTimeout s = _ := State.boundaryRow_due hcycle hend
      (by simp [hmember, hopen, State.windowOpen, hwindow, hremaining])
    refine ⟨_, hrow, ?_⟩
    rw [countWindow_last (s := s.atInstant c.planned) hwindow hremaining.le]
    exact ⟨rfl, rfl, rfl, rfl, rfl, rfl, rfl, rfl, rfl, rfl, rfl, rfl, rfl, rfl, rfl⟩
  · have hrow : execLapseMemoryExpiry s = _ := State.boundaryRow_due hcycle hend
      (by simp [hmember, hopen, hlapse, hage])
    have hage' : (s.atInstant c.planned).ageLapse = { s.atInstant c.planned with
        pairing := { s.pairing with lapse := none } } := by
      simp only [State.ageLapse, show (s.atInstant c.planned).pairing.lapse = some l from hlapse, hage]
      rfl
    refine ⟨_, hrow, ?_⟩
    rw [hage']
    exact ⟨rfl, rfl, rfl, rfl, rfl, rfl, rfl, rfl, rfl, rfl, rfl, rfl, rfl, rfl, rfl⟩
  · have hrow : execSeekTimeout s = _ := State.boundaryRow_due hcycle hend (by simp [hseeking, hnewcomer, hseek])
    have hcount : (s.atInstant c.planned).countSeek = (s.atInstant c.planned).pairTimeout := by
      simp only [State.countSeek, show (s.atInstant c.planned).pairing.newcomer = some nc from hnewcomer, hseek]
      rfl
    refine ⟨_, hrow, ?_⟩
    rw [hcount]
    exact ⟨rfl, rfl, rfl, rfl, rfl, rfl, rfl, rfl, rfl, rfl, rfl, rfl, rfl, rfl, rfl⟩
  · obtain ⟨hcycle, hend, hframe⟩ := hends
    obtain ⟨hpairing, hflag⟩ := endCycle_pairing hlate hmember c order
    obtain ⟨hstation, hbefore, haged, hcounted⟩ := beforePairing_frame s c
    obtain ⟨hwindow, hnewcomer, _⟩ := State.jumpIfDue_window (s.atInstant c.planned) c
    obtain ⟨hlapses, hholds⟩ := jumpIfDue_pairing (s.atInstant c.planned) c
    generalize (s.atInstant c.planned).jumpIfDue c = j at *
    generalize beforePairing s c = v at *
    obtain ⟨hrNewcomer, hrTimeout, hrCount, hrStays, hrMemory⟩ := State.pairingWork_rows (v := v)
      (by rw [hstation, hmember])
    intro counts lapses
    have hwindow' : v.pairing.window = s.pairing.window := (congrArg Pairing.window hbefore).trans hwindow
    have hnewcomer' : v.pairing.newcomer = s.pairing.newcomer := (congrArg Pairing.newcomer hbefore).trans hnewcomer
    rw [hwindow', hcounted, ← hpairing] at hrTimeout hrCount hrStays hrMemory
    rw [← hpairing, hnewcomer'] at hrNewcomer
    refine ⟨_, execCycleEnd_due hcycle hend hframe order, hrNewcomer, fun h hlast => ?_, hrCount, hrStays, fun h => ?_⟩
    · obtain ⟨hclosed, hended⟩ := hrTimeout h hlast
      exact ⟨hclosed.trans (congrArg (Pairing.mk _ none none) hnewcomer'), hflag.trans hended⟩
    · obtain ⟨hoffer, hlapse⟩ := hrMemory h
      refine ⟨fun o hl ho => ?_, fun hl => ?_⟩
      · obtain ⟨hlapsed, hyoung⟩ := hlapses o hl.1 ho
        rw [hoffer, hlapse, haged, hyoung, if_pos rfl, hbefore, hlapsed]
        exact ⟨rfl, rfl⟩
      · obtain ⟨hstays, hage⟩ := hholds hl
        rw [haged, hage, hbefore, hstays] at hlapse
        refine ⟨hoffer.trans ((congrArg Pairing.offer (hbefore.trans hstays))), fun hmem => ?_, fun l hopen hmem => ?_⟩
        · obtain hmem | hmem := hmem
          · exact hlapse.trans (if_pos hmem)
          · rw [hlapse]
            simp [State.atInstant, hmem]
        · have hrow : (s.endCycle c order).pairing.lapse = if 8 ≤ l.age + 1 then none else some { l with age :=
            l.age + 1 } := by
            rw [hlapse]
            simp [State.atInstant, hmem, hopen]
          exact ⟨fun hyoung => hrow.trans (if_neg (by omega)), fun hold => hrow.trans (if_pos (by omega))⟩
  · obtain ⟨hcycle, hend, hframe⟩ := hends
    have hafter : newcomerAfter s (seekDecision nc) (s.endCycle c order) :=
      newcomerAfter_endCycle (.inl hseeking) fun t hstation hpairing _ _ _ => by
        rw [State.transitions, hstation, hseeking]
        exact newcomerAfter_countSeek (by rw [hpairing, hnewcomer])
    refine ⟨_, execCycleEnd_due hcycle hend hframe order, ?_, endCycle_seeking_window hlate hseeking c order,
      fun hfew => ?_,
      fun hmany => ?_⟩
    · cases hd : seekDecision nc with
      | goOn nc' =>
        rw [hd] at hafter
        rw [hafter.1]
      | timeout =>
        rw [hd] at hafter
        exact hafter.2.2.1
    · rw [seekDecision, if_neg (by omega)] at hafter
      exact hafter
    · rw [seekDecision, if_pos (by omega)] at hafter
      obtain ⟨hnone, hidle, _, htimeout, hchanged⟩ := hafter
      exact ⟨hidle, hnone, htimeout, hchanged⟩

end Sys2Proof.Proofs.Window
end

section
/-! PROOFS. The bond store: the host's commands, the ends of operations, and the placement of a pending write. -/

namespace Sys2Proof.Proofs.StoreOps

open Sys2Proof Sys2Proof.Machine

/-! ### The host's commands (R162, R167, Table 10-4) -/

theorem free_iff (st : Store) : st.free = true ↔ st.state = .idle ∧ st.waiting = none := by
  simp [Store.free]

/-- The checks of a store command in their order. -/
theorem storeCommand_refused {s : State} (t : Nat) (b : Byte) (refuseLocked : Bool) (accepts : Place → Bool)
    (op : StoreOp) :
    (16 ≤ b.toNat → s.markTaken.storeCommand t b refuseLocked accepts op = s.took [0x08]) ∧
    (b.toNat < 16 → ¬s.store.free = true → s.markTaken.storeCommand t b refuseLocked accepts op = s.took [0x02]) ∧
    (b.toNat < 16 → s.store.free = true → refuseLocked = true → (placeAt s.store.copy b.toNat).locked = true →
      s.markTaken.storeCommand t b refuseLocked accepts op = s.took [0x04]) := by
  refine ⟨fun h => if_pos h, fun h hfree => ?_, fun h hfree hrefuse hlocked => ?_⟩
  · have hbusy : (!s.markTaken.store.free) = true := by rw [Bool.not_eq_true', Bool.eq_false_iff]; exact hfree
    exact (if_neg (Nat.not_le.2 h)).trans (if_pos hbusy)
  · have hidle : ¬(!s.markTaken.store.free) = true := by rw [show s.markTaken.store.free = true from hfree]; nofun
    have hyes : (refuseLocked && (placeAt s.markTaken.store.copy b.toNat).locked) = true := by
      rw [hrefuse]
      exact hlocked
    exact (if_neg (Nat.not_le.2 h)).trans ((if_neg hidle).trans (if_pos hyes))

/-- A store command that the lock does not refuse starts its operation where it accepts the place. -/
theorem storeCommand_decides {s : State} (t : Nat) {b : Byte} {refuseLocked : Bool} (accepts : Place → Bool)
    (op : StoreOp)
    (hplace : b.toNat < 16) (hfree : s.store.free = true)
    (hlock : ¬(refuseLocked = true ∧ (placeAt s.store.copy b.toNat).locked = true)) :
    s.markTaken.storeCommand t b refuseLocked accepts op =
      if accepts (placeAt s.store.copy b.toNat) then
        { s.took [0x00] with
            now := max s.now t
            store := { s.store with
              state := .busy, flight := some { op := op, place := b.toNat, start := max s.now t } } }
      else s.took [0x05] := by
  have hidle : ¬(!s.markTaken.store.free) = true := by rw [show s.markTaken.store.free = true from hfree]; nofun
  have hno : ¬(refuseLocked && (placeAt s.markTaken.store.copy b.toNat).locked) = true := by
    rw [Bool.and_eq_true]
    exact hlock
  refine (if_neg (Nat.not_le.2 hplace)).trans ((if_neg hidle).trans ((if_neg hno).trans ?_))
  show (if (!accepts (placeAt s.store.copy b.toNat)) = true then _ else _) = _
  cases accepts (placeAt s.store.copy b.toNat) <;> rfl

theorem retireAccepts_iff (p : Place) : retireAccepts p = true ↔ p.state = .valid ∨ p.state = .opened := by
  simp [retireAccepts]

theorem lockAccepts_iff (p : Place) : lockAccepts p = true ↔ p.state = .valid ∧ p.locked = false := by
  simp [lockAccepts]

theorem eraseAccepts_iff (p : Place) : eraseAccepts p = true ↔ p.state = .retired ∨ p.state = .opened := by
  simp [eraseAccepts]

/-- Settles O27. -/
theorem storeCommandsFollowTheirChecks : Obligations.StoreCommandsFollowTheirChecks := by
  intro t b s hlistens p free started
  have hretire : exec (.retireBond t b) s = .next (s.markTaken.storeCommand t b true retireAccepts .retire) :=
    (State.hostCommand_taken hlistens _ : execRetireBond t b s = _)
  have hlock : exec (.lockBond t b) s = .next (s.markTaken.storeCommand t b false lockAccepts .lock) :=
    (State.hostCommand_taken hlistens _ : execLockBond t b s = _)
  have herase : exec (.eraseBond t b) s = .next (s.markTaken.storeCommand t b true eraseAccepts .erase) :=
    (State.hostCommand_taken hlistens _ : execEraseBond t b s = _)
  have hclear : exec .clearFault s = _ := (State.hostCommand_taken hlistens _ : execClearFault s = _)
  have hrefused := fun r a op => storeCommand_refused (s := s) t b r a op
  rw [hretire, hlock, herase]
  refine ⟨fun hbad => ?_, fun hplace hbusy => ?_, fun hplace hfree hlocked => ?_, fun hplace hfree hlocked => ?_,
    fun hfree => ?_, fun hbusy => ?_⟩
  · rw [(hrefused _ _ _).1 hbad, (hrefused _ _ _).1 hbad, (hrefused _ _ _).1 hbad]
    exact ⟨rfl, rfl, rfl⟩
  · have hbusy : ¬s.store.free = true := mt (free_iff s.store).1 hbusy
    rw [(hrefused _ _ _).2.1 hplace hbusy, (hrefused _ _ _).2.1 hplace hbusy, (hrefused _ _ _).2.1 hplace hbusy]
    exact ⟨rfl, rfl, rfl⟩
  · have hfree : s.store.free = true := (free_iff s.store).2 hfree
    have hnot : ¬lockAccepts (placeAt s.store.copy b.toNat) = true := by
      rw [lockAccepts_iff, show (placeAt s.store.copy b.toNat).locked = true from hlocked]
      exact fun h => absurd h.2 nofun
    rw [(hrefused _ _ _).2.2 hplace hfree rfl hlocked, (hrefused _ _ _).2.2 hplace hfree rfl hlocked,
      storeCommand_decides t lockAccepts .lock hplace hfree (by simp), if_neg hnot]
    exact ⟨rfl, rfl, rfl⟩
  · have hfree : s.store.free = true := (free_iff s.store).2 hfree
    have hopen : ∀ r : Bool, ¬(r = true ∧ (placeAt s.store.copy b.toNat).locked = true) := fun r h => by
      rw [show (placeAt s.store.copy b.toNat).locked = false from hlocked] at h
      exact absurd h.2 nofun
    rw [storeCommand_decides t _ _ hplace hfree (hopen _), storeCommand_decides t _ _ hplace hfree (hopen _),
      storeCommand_decides t _ _ hplace hfree (hopen _)]
    simp only [retireAccepts_iff, lockAccepts_iff, eraseAccepts_iff]
    refine ⟨rfl, ?_, rfl⟩
    have hunlocked : (placeAt s.store.copy b.toNat).locked = false := hlocked
    simp only [hunlocked, and_true]
    rfl
  · exact hclear.trans (congrArg _ (if_pos ((free_iff s.store).2 hfree)))
  · exact hclear.trans (congrArg _ (if_neg (mt (free_iff s.store).1 hbusy)))

/-! ### The ends of operations (R158 to R161, R169) -/

theorem running_of_hold {s : State} (h : s.hold = none) : s.running = true := by rw [State.running, h]; rfl

/-- An operation that ends leaves the store IDLE, or BUSY until the pending write starts (assumption log 17). -/
theorem storeRelease_eq (s : State) : s.storeRelease =
    { s with
        store := { s.store with flight := none, state := if s.store.waiting = none then .idle else .busy }
        flags := s.flags ||| Flag.storeDone.mark } := by
  rw [State.storeRelease]
  cases s.store.waiting <;> rfl

/-- Settles O28. -/
theorem storeOperationsEndAndProgramsReadBack : Obligations.StoreOperationsEndAndProgramsReadBack := by
  refine ⟨fun i b s hhold => ?_, fun i b v s hhold => ?_⟩
  · have hrunning := running_of_hold hhold
    intro p ended
    refine ⟨fun hflight => ?_, fun hflight => ?_, fun hflight => ?_, fun v hflight => ?_, fun hflight hnone => ?_,
      fun j hflight hnext => ?_⟩
    · show execRetireDone s = _
      simp only [execRetireDone, hflight, hrunning, State.whenever_true, storeRelease_eq]
      rfl
    · show execLockDone s = _
      simp only [execLockDone, hflight, hrunning, State.whenever_true, storeRelease_eq]
      rfl
    · show execEraseDone s = _
      simp only [execEraseDone, hflight, hrunning, State.whenever_true, storeRelease_eq]
      rfl
    · show execErasePartDone s = _
      simp only [execErasePartDone, hflight, hrunning, State.whenever_true]
      rfl
    · show execScanRetireDone s = _
      simp only [execScanRetireDone, hflight, hrunning, State.whenever_true]
      rw [Resets.scanNext_done (Resets.firstIn_none hnone), storeRelease_eq]
      rfl
    · show execScanRetireDone s = _
      simp only [execScanRetireDone, hflight, hrunning, State.whenever_true]
      rw [Resets.scanNext_opened (s := (s.atInstant (b + 1000)).setPlace i { p with state := .retired }) hnext]
      rfl
  · have hrunning := running_of_hold hhold
    intro ended op finish hop hflight
    have hexec : ∀ held, exec (.programDone held) s =
        .next (s.endProgram { op := op, place := i, start := b } v held) := fun held => by
      show execProgramDone held s = _
      obtain ⟨rfl, _⟩ | ⟨rfl, _⟩ := hop <;> simp only [execProgramDone, hflight, hrunning, State.whenever_true]
    have hfinish : ({ op := op, place := i, start := b } : Flight).finish = finish := by
      obtain ⟨rfl, rfl⟩ | ⟨rfl, rfl⟩ := hop <;> rfl
    refine ⟨fun held hheld => ?_, fun w hw => ?_⟩
    · have hread : held.getD v = v := by obtain rfl | rfl := hheld <;> rfl
      rw [hexec held, State.endProgram, hread, hfinish]
      dsimp only
      rw [if_pos rfl, storeRelease_eq]
      rfl
    · rw [hexec (some w), State.endProgram, hfinish]
      dsimp only [Option.getD_some]
      rw [if_neg hw, storeRelease_eq]
      rfl

/-! ### The pending write (R164, R165) -/

/-- The highest sequence number bounds every place that is not ERASED, and is one of theirs or the start value. -/
theorem foldl_highest (ps : List Place) (m : Nat) :
    let top := ps.foldl (fun m p => if p.state = .erased then m else max m p.value.seq.toNat) m
    m ≤ top ∧ (∀ p ∈ ps, p.state ≠ .erased → p.value.seq.toNat ≤ top) ∧
      (top = m ∨ ∃ p ∈ ps, p.state ≠ .erased ∧ top = p.value.seq.toNat) := by
  induction ps generalizing m with
  | nil => exact ⟨le_rfl, nofun, .inl rfl⟩
  | cons p ps ih =>
    intro top
    by_cases herased : p.state = .erased
    · have htop : top = ps.foldl _ m := congrArg (ps.foldl _) (if_pos herased)
      obtain ⟨hstart, hbound, hfrom⟩ := ih m
      rw [htop]
      refine ⟨hstart, List.forall_mem_cons.2 ⟨fun h => absurd herased h, hbound⟩, hfrom.imp id ?_⟩
      exact fun ⟨q, hq, hrest⟩ => ⟨q, List.mem_cons_of_mem p hq, hrest⟩
    · have htop : top = ps.foldl _ (max m p.value.seq.toNat) := congrArg (ps.foldl _) (if_neg herased)
      obtain ⟨hstart, hbound, hfrom⟩ := ih (max m p.value.seq.toNat)
      rw [htop]
      refine ⟨(le_max_left _ _).trans hstart,
        List.forall_mem_cons.2 ⟨fun _ => (le_max_right _ _).trans hstart, hbound⟩, ?_⟩
      obtain hmax | ⟨q, hq, hrest⟩ := hfrom
      · rcases max_choice m p.value.seq.toNat with h | h
        · exact .inl (hmax.trans h)
        · exact .inr ⟨p, List.mem_cons_self, herased, hmax.trans h⟩
      · exact .inr ⟨q, List.mem_cons_of_mem p hq, hrest⟩

theorem nextSeq_toNat (ps : List Place) : (nextSeq ps).toNat = min (highestSeq ps + 1) 65535 := by
  rw [nextSeq, BitVec.toNat_ofNat]
  exact Nat.mod_eq_of_lt (by omega)

/-- Settles O29. -/
theorem pendingWriteIsPlaced : Obligations.PendingWriteIsPlaced := by
  refine ⟨fun c s hhold hwaiting hflight => ?_, fun ps => ?_⟩
  · have hexec : exec .pendingWriteStart s = .next (s.startWrite c s.now) := by
      show execPendingWriteStart s = _
      simp [execPendingWriteStart, hwaiting, hflight, running_of_hold hhold]
    intro v erased retired
    rw [hexec]
    refine ⟨fun i hi => ?_, fun i hnone hi => ?_, fun herased hretired => ?_⟩
    · rw [State.startWrite_erased hi]
      rfl
    · have herased : firstIn .erased s.store.copy = none := hnone
      have hretired : firstIn .retired s.store.copy = some i := hi
      simp only [State.startWrite, herased, hretired]
      rfl
    · have herased : firstIn .erased s.store.copy = none := herased
      have hretired : firstIn .retired s.store.copy = none := hretired
      simp only [State.startWrite, herased, hretired]
      rfl
  · obtain ⟨_, hbound, hfrom⟩ := foldl_highest ps 0
    have hbound : ∀ p ∈ ps, p.state ≠ .erased → p.value.seq.toNat ≤ highestSeq ps := hbound
    have hfrom : highestSeq ps = 0 ∨ ∃ p ∈ ps, p.state ≠ .erased ∧ highestSeq ps = p.value.seq.toNat := hfrom
    rw [nextSeq_toNat]
    refine ⟨fun p hp hstate => ?_, hfrom.imp (fun h => by rw [h]; rfl) fun ⟨p, hp, hstate, htop⟩ =>
      ⟨p, hp, hstate, by rw [htop]⟩⟩
    have := hbound p hp hstate
    omega

end Sys2Proof.Proofs.StoreOps
end

section
/-! PROOFS. The call: taking and ending the role, the sample transfers, and the election between two bearers. -/

namespace Sys2Proof.Proofs.Call

open Sys2Proof Sys2Proof.Machine

/-! ### BEAR_CALL and END_CALL (R141, R145) -/

theorem claims_iff (b : BearerState) : b.claims = true ↔ b = .claiming ∨ b = .bearing := by
  cases b <;> simp [BearerState.claims]

theorem not_claims {b : BearerState} (h : b = .none ∨ b = .ending) : b.claims = false := by
  obtain rfl | rfl := h <;> rfl

theorem bearerHeard_iff (ps : List Peer) : bearerHeard ps = true ↔ ∃ p ∈ ps, p.state = .active ∧ p.bearer = true := by
  simp [bearerHeard]

/-- Settles O23. -/
theorem callCommandsTakeAndEndTheRole : Obligations.CallCommandsTakeAndEndTheRole := by
  refine ⟨fun s hlistens => ?_, fun s hlistens => ?_⟩
  · have htaken : exec .bearCall s = _ := (State.hostCommand_taken hlistens _ : execBearCall s = _)
    have hmay : s.station.state = .member → s.bearer.state = .none →
        ¬(s.markTaken.station.state ≠ .member ∨ s.markTaken.bearer.state ≠ .none) := fun hmember hnone h =>
      h.elim (absurd hmember) (absurd hnone)
    refine ⟨fun h => htaken.trans (congrArg _ (if_pos h)), fun hmember hnone hheard => ?_,
      fun hmember hnone hunheard => ?_⟩
    · exact htaken.trans (congrArg _ ((if_neg (hmay hmember hnone)).trans (if_pos ((bearerHeard_iff _).2 hheard))))
    · have hno : ¬bearerHeard s.markTaken.peers = true := by
        rw [bearerHeard_iff]
        rintro ⟨p, hp, hactive, hbearer⟩
        rw [hunheard p hp hactive] at hbearer
        cases hbearer
      exact htaken.trans (congrArg _ ((if_neg (hmay hmember hnone)).trans (if_neg hno)))
  · have htaken : exec .endCall s = _ := (State.hostCommand_taken hlistens _ : execEndCall s = _)
    refine ⟨fun hrole => ?_, fun hrole hheld => ?_, fun hrole hwaits => ?_⟩
    · have hno : ¬s.markTaken.bearer.state.claims = true := by rw [show s.markTaken.bearer.state.claims = false from not_claims hrole]; nofun
      exact htaken.trans (congrArg _ (if_neg hno))
    · have hyes : s.markTaken.bearer.state.claims = true := (claims_iff _).2 hrole
      refine htaken.trans (congrArg _ ((if_pos hyes).trans ?_))
      rw [Station.endRole_of_held (s := s.markTaken) hyes hheld]
      rfl
    · have hyes : s.markTaken.bearer.state.claims = true := (claims_iff _).2 hrole
      have hended := Station.endRole_of_waiting (s := s.markTaken) hyes hwaits
      rw [hended] at htaken
      obtain ⟨u, hu⟩ : ∃ u : State, { s.markTaken with farEnd := Claim.gone } = u := ⟨_, rfl⟩
      rw [hu] at htaken
      have hport : u.bearerToNone.ok.port = s.tookPort [0x00] :=
        congrArg State.port (State.ok_of_port (s := s) (by simp [← hu]))
      have habsent : u.bearerToNone.ok.streams.farEnd.state = .absent := by
        rw [show u.bearerToNone.ok.streams = _ from State.bearerToNone_streams u]
        rfl
      have hflags : u.bearerToNone.ok.flags =
          if s.streams.farEnd.state = .absent then s.flags else s.flags ||| Flag.farendDown.mark := by
        rw [show u.bearerToNone.ok.flags = _ from State.bearerToNone_flags u, ← hu]
        rfl
      refine ⟨_, htaken.trans (congrArg _ (if_pos hyes)), hport, ?_⟩
      exact ⟨by simp, by simp [← hu], habsent, by simp [← hu], fun h => hflags.trans (if_pos h),
        fun h => hflags.trans (if_neg h), by simp [← hu], by simp [← hu], by simp [← hu], by simp [← hu], by simp [← hu],
        by simp [← hu], by simp [← hu], by simp [← hu], by simp [State.sameFrame, ← hu]⟩

/-! ### The sample transfers (R149, R155, R156) -/

/-- Settles O24. -/
theorem audioTransfersMoveSamples : Obligations.AudioTransfersMoveSamples := by
  refine ⟨fun n s hlistens => ?_, fun s hhold => ?_⟩
  · have hwrite : exec (.writeDownlink n) s = _ := (State.hostCommand_taken hlistens _ : execWriteDownlink n s = _)
    have hread : exec (.readUplink n) s = _ := (State.hostCommand_taken hlistens _ : execReadUplink n s = _)
    have hclaims : s.bearer.state = .claiming ∨ s.bearer.state = .bearing →
      ¬(!s.markTaken.bearer.state.claims) = true :=
      fun h => by rw [show s.markTaken.bearer.state.claims = true from (claims_iff _).2 h]; nofun
    refine ⟨fun hrole => ?_, fun hrole hbad => ?_, fun hrole hlow hhigh => ?_, fun hbad => ?_, fun hwithin => ?_⟩
    · have hno : (!s.markTaken.bearer.state.claims) = true := by
        rw [show s.markTaken.bearer.state.claims = false from not_claims hrole]
        rfl
      exact hwrite.trans (congrArg _ (if_pos hno))
    · exact hwrite.trans (congrArg _ ((if_neg (hclaims hrole)).trans (if_pos hbad)))
    · exact hwrite.trans (congrArg _ ((if_neg (hclaims hrole)).trans (if_neg (by omega))))
    · exact hread.trans (congrArg _ (if_pos hbad))
    · have hprimed : bitOf s.bearer.primed * 8192 = if s.bearer.primed then 8192 else 0 := by
        cases s.bearer.primed <;> rfl
      rw [← hprimed]
      exact hread.trans (congrArg _ (if_neg (Nat.not_lt.2 hwithin)))
  · have hrunning := StoreOps.running_of_hold hhold
    have hdown : ∀ v left, s.port.transfer = .downlink (left + 1) →
        exec (.downlinkSample v) s = .next ((s.beginTransfer (.downlink left)).acceptDownlink v) := fun v left h => by
      show execDownlinkSample v s = _
      simp only [execDownlinkSample, h, hrunning, State.whenever_true]
    have hup : ∀ left, s.port.transfer = .uplink (left + 1) →
        exec .uplinkSamplePosition s = .next (s.beginTransfer (.uplink left)).takePosition := fun left h => by
      show execUplinkSamplePosition s = _
      simp only [execUplinkSamplePosition, h, hrunning, State.whenever_true]
    refine ⟨fun left v hleft hrole hroom => ?_, fun left v hleft hrole hfull => ?_, fun left v hleft hrole => ?_,
      fun v hnone => ?_, fun left v rest hleft hqueue => ?_, fun left hleft hempty => ?_, fun hover => ?_⟩
    · rw [hdown v left hleft]
      exact congrArg _ ((if_pos ((claims_iff _).2 hrole)).trans (if_pos hroom))
    · rw [hdown v left hleft]
      exact congrArg _ ((if_pos ((claims_iff _).2 hrole)).trans (if_neg (Nat.not_lt.2 hfull)))
    · rw [hdown v left hleft]
      exact congrArg _ (if_neg (by rw [show (s.beginTransfer (.downlink left)).bearer.state.claims = false from not_claims hrole]; nofun))
    · show execDownlinkSample v s = _
      obtain h | h := hnone <;> simp only [execDownlinkSample, h]
    · rw [hup left hleft, State.takePosition]
      simp only [show (s.beginTransfer (.uplink left)).bearer.uplink = v :: rest from hqueue]
      rfl
    · rw [hup left hleft, State.takePosition]
      simp only [show (s.beginTransfer (.uplink left)).bearer.uplink = [] from hempty]
      rfl
    · have hlast : execUplinkSamplePosition s = .next (s.shiftOut 0#16) := by
        simp only [execUplinkSamplePosition, hover, hrunning, State.whenever_true]
      exact hlast

/-! ### The election (R144) -/

theorem losesElection_iff (s : State) (b : Burst) : s.losesElection b = true ↔
    (s.bearer.state = .claiming ∨ s.bearer.state = .bearing) ∧ b.bearer = true ∧
      (s.bearer.age < b.age.toNat ∨ (b.age.toNat = s.bearer.age ∧ b.sender < s.station.creds.number)) := by
  simp only [State.losesElection, Bool.and_eq_true, Bool.or_eq_true, decide_eq_true_eq, claims_iff, and_assoc]

/-- The younger of two bearers loses, and of two as old the one of the higher number. -/
theorem losesElection_exclusive {s t : State} {b d : Burst} (hs : s.bearer.state = .claiming ∨ s.bearer.state = .bearing)
    (ht : t.bearer.state = .claiming ∨ t.bearer.state = .bearing)
    (hnumbers : s.station.creds.number ≠ t.station.creds.number)
    (hb : b.bearer = true) (hbs : b.sender = s.station.creds.number) (hbage : b.age.toNat = s.bearer.age)
    (hd : d.bearer = true) (hdt : d.sender = t.station.creds.number) (hdage : d.age.toNat = t.bearer.age) :
    t.losesElection b = !s.losesElection d := by
  rw [Bool.eq_iff_iff, Bool.not_eq_true', Bool.eq_false_iff, Ne, losesElection_iff, losesElection_iff, hbs,
    hbage, hdt, hdage]
  have hne : s.station.creds.number.val ≠ t.station.creds.number.val := fun h => hnumbers (Fin.ext h)
  simp only [hs, ht, hb, hd, true_and, Fin.lt_def]
  omega

theorem electionYield_facts (s : State) : s.electionYield.farEnd = Claim.gone ∧ s.electionYield.bearer = Bearer.gone ∧
    s.electionYield.flagSet .bearerConflict = true ∧ s.electionYield.streams.farEnd.state = .absent := by
  refine ⟨by simp [State.electionYield]; rfl, by simp [State.electionYield], by simp [State.electionYield_flagSet], ?_⟩
  rw [State.electionYield, State.raise_streams, State.bearerToNone_streams]
  rfl

/-- The peer view raises neither an election's event nor lets the far-end record go without its own. -/
theorem peerView_far (v : State) (b : Burst) (d : Int) :
    (v.peerView b d).flagSet .bearerConflict = v.flagSet .bearerConflict ∧
      (v.streams.farEnd.state ≠ .absent →
        (v.peerView b d).streams.farEnd.state ≠ .absent ∨ (v.peerView b d).flagSet .farendDown = true) := by
  have hgone : ∀ x : State, x.streams.farEnd = v.streams.farEnd →
    x.flagSet .bearerConflict = v.flagSet .bearerConflict →
      (x.farSourceGone b.sender).flagSet .bearerConflict = v.flagSet .bearerConflict ∧
        (v.streams.farEnd.state ≠ .absent → (x.farSourceGone b.sender).streams.farEnd.state ≠ .absent ∨
          (x.farSourceGone b.sender).flagSet .farendDown = true) := fun x hfar hflag => by
    obtain ⟨hfollows, hstays, _, hothers⟩ := Table.farSourceGone_record x b.sender
    refine ⟨(hothers .bearerConflict (by decide)).trans hflag, fun hpresent => ?_⟩
    rw [← hfar] at hpresent
    by_cases hsource : x.streams.farEnd.source = some b.sender
    · exact .inr ((hfollows hsource).2.2 (.inr hpresent))
    · exact .inl (by rwa [(hstays hsource).1])
  cases hfind : findPeer b.sender v.peers with
  | none =>
    obtain ⟨hstreams, hothers⟩ := Table.peerView_new_streams hfind d
    rw [hstreams]
    exact ⟨hothers .bearerConflict (by decide) (by decide) (by decide), .inl⟩
  | some p =>
    by_cases hleave : b.kind = .leave
    · by_cases hfar : p.farSlot = some b.slot
      · rw [Table.peerView_farLeave hfind hleave hfar]
        exact hgone _ rfl rfl
      · rw [Table.peerView_voiceLeave hfind hleave hfar]
        exact hgone _ rfl ((State.raise_flagSet v .peerLeft _).trans (Bool.or_false _))
    · rw [Table.peerView_refresh hfind hleave]
      exact ⟨rfl, .inl⟩

/-- A window's yield keeps the effects that wait. -/
theorem windowYield_late {s : State} {e : LateEffect} (h : e ∈ s.chan.late) (late : Bool) (b : Burst) :
    e ∈ (s.windowYield late b).chan.late := by
  rw [State.windowYield, State.nowOrLate]
  split
  · split
    · exact List.mem_append_left _ h
    · simpa using h
  · exact h

/-- What the election makes of a reception at a station in the group. -/
theorem heardPeer_election (v : State) (late : Bool) (b : Burst) (d : Int) :
    let t := v.heardPeer late b d
    (v.losesElection b = true → late = false →
      t.farEnd = Claim.gone ∧ t.bearer = Bearer.gone ∧ t.flagSet .bearerConflict = true ∧
        t.streams.farEnd.state = .absent ∧ (v.streams.farEnd.state ≠ .absent → t.flagSet .farendDown = true)) ∧
    (v.losesElection b = true → late = true → t.bearer = v.bearer ∧ .electionYield ∈ t.chan.late) ∧
    (¬v.losesElection b = true → t.bearer = v.bearer ∧ t.farEnd = v.farEnd ∧
      t.flagSet .bearerConflict = v.flagSet .bearerConflict) := by
  obtain ⟨hconflict, hdown⟩ := peerView_far v b d
  have hloses : (v.peerView b d).losesElection b = v.losesElection b := by simp [State.losesElection]
  have hheard : v.heardPeer late b d = (((v.peerView b d).election late b).windowYield late b).storeReception b := rfl
  have hbearer : (v.peerView b d).bearer = v.bearer := by simp
  have hfar : (v.peerView b d).farEnd = v.farEnd := by simp
  obtain ⟨_, _, _, _, _, _, _, _, _, _, _, _, _, _, hrecord⟩ := State.heardPeer_parts v late b d
  intro t
  generalize v.peerView b d = w at *
  obtain ⟨_, _, hflags⟩ := (w.election late b).windowYield_parts late b
  have htflags : ∀ g, g ≠ .pairingEnded → t.flagSet g = (w.election late b).flagSet g := fun g hg =>
    ((by simp [State.flagSet, t, hheard] : t.flagSet g = ((w.election late b).windowYield late b).flagSet g)).trans (hflags g hg)
  have htbearer : t.bearer = (w.election late b).bearer := by simp [t, hheard]
  have htfar : t.farEnd = (w.election late b).farEnd := by simp [t, hheard]
  have htlate : t.chan = ((w.election late b).windowYield late b).chan := by simp [t, hheard]
  refine ⟨fun hyes hnow => ?_, fun hyes hlate => ?_, fun hno => ?_⟩
  · have hy : w.election late b = w.electionYield := by
      rw [State.election, hloses, if_pos hyes, State.nowOrLate, hnow]
      rfl
    obtain ⟨hyFar, hyBearer, hyConflict, _⟩ := electionYield_facts w
    rw [hy] at htflags htbearer htfar
    refine ⟨htfar.trans hyFar, htbearer.trans hyBearer, (htflags _ (by decide)).trans hyConflict, ?_,
      fun hpresent => ?_⟩
    · rw [show t.streams.farEnd = _ from hrecord ⟨hyes, hnow⟩]
      rfl
    · rw [htflags _ (by decide), State.electionYield_flagSet]
      obtain h | h := hdown hpresent
      · simp [h]
      · simp [h]
  · have hy : w.election late b = { w with chan := { w.chan with late := w.chan.late ++ [.electionYield] } } := by
      rw [State.election, hloses, if_pos hyes, State.nowOrLate, if_pos hlate]
    rw [hy] at htbearer htlate
    refine ⟨htbearer.trans hbearer, ?_⟩
    rw [htlate]
    exact windowYield_late (List.mem_append_right _ (List.mem_singleton.2 rfl)) late b
  · have hy : w.election late b = w := by rw [State.election, hloses, if_neg hno]
    rw [hy] at htflags htbearer htfar
    exact ⟨htbearer.trans hbearer, htfar.trans hfar, (htflags _ (by decide)).trans hconflict⟩

/-- A cycle end by itself neither takes nor ends a role that claims or bears. -/
theorem begun_claims {s : State} (hrole : s.bearer.state.claims = true) (c : Cycle) (order : DeadlineOrder) :
    (((s.atDeadline c).deadlineWork order).rotateViews.beginCycle c).bearer.state.claims = true := by
  have hwork : (s.atDeadline c).bearer.state.claims = true :=
    (State.cycleWork_bearer (s.atInstant c.planned) c).2.1.trans hrole
  generalize s.atDeadline c = w at hwork
  have htransitions : ∀ t : State, t.bearer.state.claims = true → t.transitions.bearer.state.claims = true :=
    fun t ht => by
    rw [State.transitions_bearer t fun hending => by rw [hending] at ht; cases ht]
    exact ht
  have hdeadline : (w.deadlineWork order).bearer.state.claims = true := by
    cases order with
    | stateFirst =>
      rw [State.deadlineWork, State.deadline_bearerState]
      exact htransitions w hwork
    | deadlineFirst =>
      refine htransitions w.deadline ?_
      rw [State.deadline_bearerState]
      exact hwork
  simpa using hdeadline

/-- Settles O26. -/
theorem exactlyOneOfTwoBearersYields : Obligations.ExactlyOneOfTwoBearersYields := by
  refine ⟨fun s t b d hs ht hnumbers hb hbs hbage hd hdt hdage =>
      losesElection_exclusive hs ht hnumbers hb hbs hbage hd hdt hdage, fun s => ?_,
    fun c k air a f bytes b order s halone hstep hstation hgroup hsender hnamed => ?_,
    fun c order s hends hlate hrole => ?_⟩
  · obtain ⟨hfar, hbearer, hconflict, habsent⟩ := electionYield_facts s
    exact ⟨hfar, hbearer, hconflict, by simp, by simp, by simp, habsent⟩
  · intro loses
    obtain ⟨v, hexec, hbearer, hvstation, hflags, hstreams, _, _, _, _, hvoice, hfar, _⟩ :=
      State.hearsPeer_exec halone order hstep hstation hgroup hsender hnamed
    have hloses : v.losesElection b = s.losesElection b := by rw [State.losesElection, hbearer, hvstation]; rfl
    have hconflict : v.flagSet .bearerConflict = s.flagSet .bearerConflict := by rw [State.flagSet, hflags]; rfl
    obtain ⟨hyields, hkept, hstays⟩ := heardPeer_election v (isLate k order) b ((a : Int) - c.slotStart k.val)
    obtain ⟨htstation, _, _, _, _, _, _, _, htvoice, _⟩ :=
      State.heardPeer_parts v (isLate k order) b ((a : Int) - c.slotStart k.val)
    obtain ⟨hstate, hslot, _⟩ := s.voice.readMap_keeps s.station.creds.number b.heardMap
    obtain ⟨hfarState, hfarSlot, _⟩ := s.farEnd.readMap_keeps s.station.creds.number b.heardMap
    rw [hloses, hstreams] at hyields
    rw [hloses, hbearer] at hkept hstays
    rw [hfar, hconflict] at hstays
    have hiff := losesElection_iff s b
    refine ⟨_, hexec, htstation.trans hvstation, ?_, ?_, hiff, fun h hnow => hyields (hiff.2 h)
      (Window.isLate_eq_false hnow),
      fun h hk horder => hkept (hiff.2 h) (Window.isLate_eq_true hk horder), fun h => ?_⟩
    · rw [htvoice, hvoice, hstate]
    · rw [htvoice, hvoice, hslot]
    · obtain ⟨hsame, hclaim, hflag⟩ := hstays (mt hiff.1 h)
      exact ⟨hsame, by rw [hclaim, hfarState], by rw [hclaim, hfarSlot], hflag⟩
  · obtain ⟨hcycle, hend, hframe⟩ := hends
    refine ⟨_, execCycleEnd_due hcycle hend hframe order, ?_⟩
    have hclaims := begun_claims ((claims_iff _).2 hrole) c order
    rw [State.endCycle_late]
    generalize ((s.atDeadline c).deadlineWork order).rotateViews.beginCycle c = w at hclaims
    have hyield : w.lateEffect .electionYield = w.electionYield := if_pos hclaims
    obtain ⟨hfar, hbearer, hconflict, habsent⟩ := electionYield_facts w
    obtain hlate | hlate := hlate
    · have hlast : w.lateEffects s.chan.late = w.electionYield := by rw [hlate]; exact hyield
      rw [hlast]
      exact ⟨hfar, hbearer, hconflict, habsent⟩
    · have hlast : w.lateEffects s.chan.late = w.electionYield.closeWindow .yielded := by
        rw [hlate, ← hyield]
        rfl
      rw [hlast]
      have hkept : (w.electionYield.closeWindow .yielded).flagSet .bearerConflict = true := by
        rw [State.closeWindow]
        split
        · exact State.raise_keeps (s := { w.electionYield with pairing := _ }) hconflict .pairingEnded
        · exact hconflict
      exact ⟨by simpa using hfar, by simpa using hbearer, hkept, by simpa using habsent⟩

end Sys2Proof.Proofs.Call
end

section
/-! PROOFS. The mute input's debouncing, and the sample frames of the codec port. -/

namespace Sys2Proof.Proofs.Sampling

open Sys2Proof Sys2Proof.Machine Sys2Proof.Proofs.StoreOps

/-! ### The mute input (R104, R105) -/

theorem debouncePeriod_eq (code : BitVec 2) :
    debouncePeriod code = if code = 0 then 0 else if code = 1 then 4000 else if code = 2 then 16000 else 64000 := by
  revert code
  decide

theorem exec_muteLineChange {s : State} (h : s.hold = none) (t : Nat) :
    exec (.muteLineChange t) s = .next
      { s.atInstant t with
        mute := s.mute.toggle.change s.config.muteLow (debouncePeriod s.config.debounce) (max s.now t) } :=
  if_pos (running_of_hold h)

/-- A change while the timer runs stops it. -/
theorem change_running {m : Mute} {e : Nat} (h : m.expiry = some e) (muteLow : Bool) (period t : Nat) :
    m.change muteLow period t = { m with expiry := none } := by
  simp only [Mute.change, h]

/-- A change while the timer is stopped acts at once under a zero period, and starts the timer under another. -/
theorem change_stopped {m : Mute} (h : m.expiry = none) (muteLow : Bool) (period t : Nat) :
    m.change muteLow period t =
      if period = 0 then { m with debounced := logicalLevel muteLow m.lineHigh }
      else { m with expiry := some (t + period) } := by
  simp only [Mute.change, h]

/-- Settles O31. -/
theorem muteLineIsDebounced : Obligations.MuteLineIsDebounced := by
  intro s hhold
  refine ⟨fun t e hexpiry => ?_, fun t hstopped hzero => ?_, fun t hstopped hperiod => ?_, fun e hexpiry => ?_⟩
  · have hchange : s.mute.toggle.expiry = some e := hexpiry
    rw [exec_muteLineChange hhold, change_running hchange]
    rfl
  · have hchange : s.mute.toggle.expiry = none := hstopped
    rw [exec_muteLineChange hhold, change_stopped hchange, debouncePeriod_eq, if_pos hzero, if_pos rfl]
    simp [Mute.toggle, logicalLevel, State.atInstant, hstopped]
  · have hchange : s.mute.toggle.expiry = none := hstopped
    have hnonzero : (if s.config.debounce = 1 then 4000 else if s.config.debounce = 2 then 16000 else 64000) ≠ 0 := by
      split_ifs <;> decide
    rw [exec_muteLineChange hhold, change_stopped hchange, debouncePeriod_eq, if_neg hperiod, if_neg hnonzero]
    rfl
  · simp only [exec, execDebounceExpiry, hexpiry, running_of_hold hhold, State.whenever_true]
    rfl

/-! ### The lines of the codec port (R33) -/

/-- Bit 15 - i of the microphone sample is the bit that CDIN gives in bit clock i. -/
theorem micSample_bit (cd : Codec) (d : CdinLevels) {i : Nat} (h : i < 16) :
    (cd.micSample d).getLsbD (15 - i) = (cd.cdinBits d).getLsbD (31 - i) := by
  have hindex : 16 + (15 - i) = 31 - i := by omega
  rw [Codec.micSample, BitVec.getLsbD_extractLsb', hindex, decide_eq_true (by omega), Bool.true_and]

theorem shiftingNow_eq_some {s : State} {v : Sample} (hhold : s.hold = none) (hcycle : s.timer.cycle ≠ none)
    (h : s.codec.shifting = some v) : s.shiftingNow = some v := by
  have hruns : s.codecIdle = false := by simp [State.codecIdle, hhold, Option.ne_none_iff_isSome.1 hcycle]
  simp [State.shiftingNow, hruns, h]

theorem shiftingNow_eq_none {s : State} (h : s.hold ≠ none ∨ s.timer.cycle = none ∨ s.codec.shifting = none) :
    s.shiftingNow = none := by
  unfold State.shiftingNow State.codecIdle
  obtain hheld | hstopped | hnothing := h
  · rw [Option.isSome_iff_ne_none.2 hheld]
    rfl
  · simp [hstopped]
  · simp [hnothing]

/-- While a sample is shifted out, CFSY is active in the first bit clock alone. -/
theorem cfsyLevels_getD {s : State} {v : Sample} (h : s.shiftingNow = some v) {i : Nat} (hi : i < 32) :
    s.cfsyLevels.getD i false = (decide (i = 0) != s.codec.syncLow) := by
  simp [State.cfsyLevels, h, Codec.cfsyLevel, List.getD_eq_getElem?_getD, hi]
  rfl

/-- While a sample is shifted out, CDOUT gives its 16 bits and is then low. -/
theorem cdoutBits_getD {s : State} {v : Sample} (h : s.shiftingNow = some v) {i : Nat} (hi : i < 32) :
    s.cdoutBits.getD i false = (decide (i < 16) && v.getLsbD (15 - i)) := by
  simp only [State.cdoutBits, h, List.getD_eq_getElem?_getD]
  by_cases hfirst : i < 16
  · rw [List.getElem?_append_left (by simpa using hfirst)]
    simp [hfirst]
  · rw [List.getElem?_append_right (by simpa using hfirst)]
    have hrest : i - 16 < 16 := by omega
    simp [hfirst, hrest, -List.reduceReplicate]

/-! ### Where the sample frames start (R31, R32) -/

theorem sampleStart_free {c : Cycle} (h : c.respaced = []) (k : Nat) :
    c.sampleStart k = c.start + k * c.length / 160 := by
  rw [Cycle.sampleStart, h]
  rfl

theorem sampleStart_endAt (c : Cycle) (tr e : Nat) (next : Option Int) (k : Nat) :
    (c.endAt tr e next).sampleStart k =
      if c.framesStarted tr ≤ k then tr + (k - c.framesStarted tr) * (e - tr) / (160 - c.framesStarted tr)
      else c.sampleStart k := by
  by_cases hstarted : c.framesStarted tr ≤ k <;>
    simp [Cycle.sampleStart, Cycle.endAt, hstarted, Respacing.frameStart]

/-- Under ascending starts the sample frames started before an instant are an initial segment of the 160. -/
theorem lt_framesStarted_iff {c : Cycle} (hmono : ∀ j k, j ≤ k → c.sampleStart j ≤ c.sampleStart k) (t : Nat) {k : Nat}
    (hk : k < 160) : k < c.framesStarted t ↔ c.sampleStart k < t := by
  have hcount : c.framesStarted t = Nat.count (fun i => c.sampleStart i < t) 160 := by
    rw [Cycle.framesStarted, Nat.count, List.countP_eq_length_filter]
  rw [hcount]
  constructor
  · intro hlt
    by_contra hlater
    have hnone : Nat.count (fun i => c.sampleStart (k + i) < t) (160 - k) = 0 :=
      Nat.count_of_forall_not fun i _ h => hlater (lt_of_le_of_lt (hmono _ _ (Nat.le_add_right k i)) h)
    have hsplit := Nat.count_add (p := fun i => c.sampleStart i < t) k (160 - k)
    rw [Nat.add_sub_cancel' hk.le, hnone] at hsplit
    have hle := Nat.count_le (p := fun i => c.sampleStart i < t) (n := k)
    omega
  · intro hstarted
    calc k < k + 1 := k.lt_succ_self
      _ = Nat.count (fun i => c.sampleStart i < t) (k + 1) := (Nat.count_iff_forall.2 fun i hi =>
          lt_of_le_of_lt (hmono _ _ (by omega)) hstarted).symm
      _ ≤ _ := Nat.count_monotone _ hk

/-- Settles O32. -/
theorem sampleFramesMoveOneSampleEachWay : Obligations.SampleFramesMoveOneSampleEachWay := by
  refine ⟨fun c cdin s hhold hcycle hframe => ?_, fun v s hhold hcycle hshifting => ?_, fun s hidle => ?_,
    fun c k i hspan => ?_, fun c hfree => ?_, fun c tr e next => ?_⟩
  · refine ⟨s.codec.micSample cdin, fun i hi => micSample_bit _ _ hi, ?_⟩
    simp only [exec, execSampleFrameStart, hcycle, running_of_hold hhold, hframe, decide_true, Bool.and_self,
      State.whenever_true]
    rfl
  · have hnow := shiftingNow_eq_some hhold hcycle hshifting
    refine ⟨?_, ?_, ?_, rfl, fun i hi => ⟨cfsyLevels_getD hnow hi, cdoutBits_getD hnow hi⟩⟩
    · simp [State.cbckHeld, hnow]
    · simp [State.cfsyLevels]
    · simp [State.cdoutBits, hnow]
  · have hnow := shiftingNow_eq_none hidle
    refine ⟨?_, ?_, ?_⟩
    · simp [State.cbckHeld, hnow]
    · simp [State.cfsyLevels, hnow, Codec.cfsyLevel]
    · simp [State.cdoutBits, hnow]
  · refine ⟨?_, ?_, ?_⟩ <;> simp only [Cycle.bitClockStart]
    · omega
    · omega
    · rw [Nat.add_mul, Nat.one_mul, Nat.add_assoc]
  · have hmono : ∀ j k, j ≤ k → c.sampleStart j ≤ c.sampleStart k := fun j k hjk => by
      rw [sampleStart_free hfree, sampleStart_free hfree]
      exact Nat.add_le_add_left (Nat.div_le_div_right (Nat.mul_le_mul_right _ hjk)) _
    refine ⟨sampleStart_free hfree, ?_, ?_, hmono, fun tr k hk => lt_framesStarted_iff hmono tr hk⟩
    · simp [sampleStart_free hfree]
    · simp [sampleStart_free hfree]
  · refine ⟨fun k hk => ?_, fun k hk => ?_, rfl, rfl⟩
    · rw [sampleStart_endAt, if_neg (by omega)]
    · rw [sampleStart_endAt, if_pos hk]

end Sys2Proof.Proofs.Sampling
end

section
/-! PROOFS. The end of a slot where nothing is handed on: the entry it writes, and the LEAVE of a claim. -/

namespace Sys2Proof.Proofs.SlotEnd

open Sys2Proof Sys2Proof.Machine Sys2Proof.Proofs.Offers Sys2Proof.Proofs.Newcomers

/-! ### The end of a slot of the station's own -/

theorem receiverOn_iff (st : StationState) : st.receiverOn = true ↔ st ≠ .unconfigured ∧ st ≠ .idle := by
  cases st <;> simp [StationState.receiverOn]

theorem exec_slotEnd_sent {s : State} {c : Cycle} {k : SlotIx} (hends : s.endsSlot c k)
    (hsent : s.chan.sentInSlot = true) (order : ReceptionOrder) (air : List AirItem) :
    exec (.slotEnd order air) s = .next
      (((s.slotOver c k (if s.station.state.receiverOn then .mine else .unknown) (s.laterItems c k air)).ownSlotEnd k
        (c.slotEnd k.val).toNat).settleAt14 k fun _ => false) := by
  refine (State.endsSlot_exec hends order air).trans ?_
  simp only [State.endSlot, (s.airItems_split c k air).2, hsent, State.closeSlot_eq, State.entryOf]
  cases s.station.state.receiverOn <;> rfl

/-- Without a LEAVE and without a CONFIRM the end of a slot of the station's own makes nothing. -/
theorem ownSlotEnd_eq_self {t : State} {k : SlotIx} (hclaims : t.claimsOk = true) (hvoice : t.voice.leaves k = false)
    (hfar : t.farEnd.leaves k = false) (hnewcomer : ∀ nc, t.pairing.newcomer = some nc → nc.order ≠ .confirm)
    (tr : Nat) :
    t.ownSlotEnd k tr = t := by
  have hleft : ({ t with voice := t.voice.left k, farEnd := t.farEnd.left k } : State) = t := by
    simp [Claim.left, hvoice, hfar]
  simp only [State.ownSlotEnd, hleft, settleRole_of_claimsOk hclaims]
  cases hnone : t.pairing.newcomer with
  | none => rfl
  | some nc =>
    cases horder : nc.order with
    | none | join => simp only [horder]
    | confirm => exact absurd horder (hnewcomer nc hnone)

/-! ### What a slot held -/

theorem itemsIn_eq (s : State) (c : Cycle) (k : SlotIx) (air : List AirItem) (x : AirItem) :
    x ∈ itemsIn c k.val (s.airItems c air) ↔
      x ∈ s.itemsOf c k air ∧ overlapsSent s.chan.sent x = false ∧ beforeJump c x = false := by
  rw [(s.airItems_split c k air).1, List.mem_filter]
  simp

/-- A slot of whose items none reaches the receiver held nothing. -/
theorem slotHolds_quiet {s : State} {c : Cycle} {k : SlotIx} {air : List AirItem}
    (h : ∀ x ∈ s.itemsOf c k air, overlapsSent s.chan.sent x = true ∨ beforeJump c x = true) :
    slotHolds s c k air = .quiet := by
  have hnone : itemsIn c k.val (s.airItems c air) = [] := by
    refine List.eq_nil_iff_forall_not_mem.2 fun x hx => ?_
    obtain ⟨hitem, hsent, hjump⟩ := (itemsIn_eq s c k air x).1 hx
    simpa [hsent, hjump] using h x hitem
  rw [slotHolds, hnone]
  rfl

/-- A reception abandoned, and one that arrived in a lead-in, leave the entry UNKNOWN. -/
theorem slotHolds_lost {s : State} {c : Cycle} {k : SlotIx} {air : List AirItem} {x : AirItem}
    (hitem : x ∈ s.itemsOf c k air) (hsent : overlapsSent s.chan.sent x = false) (hjump : beforeJump c x = false)
    (hlost : (∃ p ∈ s.chan.cutSpans, p.1 ≤ x.span.1 ∧ x.span.1 < p.2) ∨
      (s.chan.onSince ≤ x.span.1 ∧ inLeadIn c x = true)) : slotHolds s c k air = .lost := by
  have hmasks : s.chan.masks c x = true := by
    simpa [Channel.masks, Channel.abandons, Channel.hears] using hlost
  rw [slotHolds, State.slotHeld, if_pos]
  exact List.any_eq_true.2 ⟨x, (itemsIn_eq s c k air x).2 ⟨hitem, hsent, hjump⟩, hmasks⟩

/-- Two items or more, energy, and a burst that fails its CRC are corrupt. -/
theorem slotHolds_broken {s : State} {c : Cycle} {k : SlotIx} {air : List AirItem} {x : AirItem} {xs : List AirItem}
    (hitems : s.itemsOf c k air = x :: xs) (hreceives : ∀ y ∈ x :: xs, s.receivesIn c k y)
    (hbroken : xs ≠ [] ∨ (∃ i, x = .energy i) ∨ ∃ a f bytes, x = .burst a f bytes ∧ parseBurst bytes = none) :
    slotHolds s c k air = .broken := by
  rw [slotHolds, (State.receivesIn_items (by rwa [hitems])).2, hitems]
  match xs, hbroken with
  | _ :: _, _ => rfl
  | [], .inl h => exact absurd rfl h
  | [], .inr (.inl ⟨_, hx⟩) => rw [hx]; rfl
  | [], .inr (.inr ⟨_, _, _, hx, hparse⟩) => simp only [hx, heldBy, heldOne, hparse]

/-! ### The entry alone -/

/-- Where neither the hand-off nor the settling of an offer takes anything from the slot, its end writes the entry, and an
offer lapses at slot 14. -/
theorem exec_slotEnd_writes {s : State} {c : Cycle} {k : SlotIx} (hends : s.endsSlot c k)
    (hsent : s.chan.sentInSlot = false) (order : ReceptionOrder) (air : List AirItem) {e : Entry} {t : State}
    (hentry : s.entryOf k (slotHolds s c k air) = e)
    (hhand : (s.slotOver c k e (s.laterItems c k air)).handOff c k (c.slotEnd k.val).toNat (isLate k order) e
      (slotHolds s c k air) = t)
    (hconfirm : ∀ o, k = 14 → t.pairing.offer = some o → t.timer.counter = o.cycleSent + 1 →
      s.confirms k e (slotHolds s c k air) o = false) :
    exec (.slotEnd order air) s = .next { t with pairing := t.pairingAfter k } := by
  rw [exec_slotEnd_heard hends hsent order air, hentry, hhand, State.settleAt14_lapse hconfirm]

/-- The entries of which nothing is handed on (Table 1-9). -/
def Entry.silent : Entry → Bool
  | .empty | .corrupt | .mine | .unknown => true
  | .own _ | .foreign | .stray => false

theorem handOff_silent {e : Entry} (h : Entry.silent e = true) (t : State) (c : Cycle) (k : SlotIx) (tr : Nat)
    (late : Bool)
    (held : Held) : t.handOff c k tr late e held = t := by
  cases held with
  | quiet | lost | broken => rfl
  | clean r =>
    cases e with
    | own | foreign | stray => cases h
    | empty | corrupt | mine | unknown => rfl

theorem confirms_foreign {s : State} {k : SlotIx} {e : Entry} {held : Held} {o : Offer}
    (h : s.confirms k e held o = true) : e = .foreign := by
  cases held with
  | quiet | lost | broken => cases h
  | clean r => exact (confirms_iff.1 h).1

theorem exec_slotEnd_silent {s : State} {c : Cycle} {k : SlotIx} (hends : s.endsSlot c k)
    (hsent : s.chan.sentInSlot = false) (order : ReceptionOrder) (air : List AirItem) {e : Entry}
    (hentry : s.entryOf k (slotHolds s c k air) = e) (hsilent : Entry.silent e = true) :
    exec (.slotEnd order air) s = .next
      { s.slotOver c k e (s.laterItems c k air) with pairing := s.pairingAfter k } :=
  exec_slotEnd_writes hends hsent order air hentry (handOff_silent hsilent _ c k _ _ _) fun o _ _ _ =>
    Bool.eq_false_iff.2 fun h => by
      rw [confirms_foreign h] at hsilent
      cases hsilent

theorem entryOf_on {s : State} (hon : s.station.state.receiverOn = true) (hsent : s.chan.sentInSlot = false)
    (k : SlotIx)
    (held : Held) : s.entryOf k held = s.classify k held := by
  rw [State.entryOf, hon, hsent]
  rfl

theorem entryOf_off {s : State} (hoff : s.station.state.receiverOn = false) (k : SlotIx) (held : Held) :
    s.entryOf k held = .unknown := by
  rw [State.entryOf, hoff]
  rfl

/-! ### A clean burst of which a station takes nothing -/

theorem offerHeard_other {s : State} {b : Burst} (h : ∀ id n w, b.body ≠ .offer id n w) : s.offerHeard b = s := by
  have hsame : acceptOffer s.factoryId b = id := by
    funext nc
    rw [acceptOffer]
    split
    next hbody => exact absurd hbody (h _ _ _)
    all_goals rfl
  rw [State.offerHeard, hsame, Option.map_id_fun, id]

/-- A FOREIGN reception that is no JOIN to answer, no OFFER to a newcomer and no group to find changes nothing. -/
theorem heardForeign_nothing {t : State} {c : Cycle} {k : SlotIx} {r : Heard}
    (hjoin : t.station.state = .member → r.inWindow k = true → ∀ id kind, r.burst.body = .join id kind →
      ∃ o, t.pairing.offer = some o)
    (hoffer : t.station.state = .joining → r.inWindow k = true → ∀ id n w, r.burst.body ≠ .offer id n w)
    (hseek : t.station.state = .seeking → r.burst.pairingOpen = false) (tr : Nat) : t.heardForeign c k tr r = t := by
  rw [State.heardForeign]
  cases hstate : t.station.state with
  | member =>
    by_cases hin : r.inWindow k = true
    · rw [if_pos hin, State.foreignAtMember]
      cases hbody : r.burst.body with
      | join id kind =>
        obtain ⟨o, ho⟩ := hjoin hstate hin id kind hbody
        exact joinHeard_of_offer ho id kind
      | _ => rfl
    · exact if_neg hin
  | joining =>
    by_cases hin : r.inWindow k = true
    · exact (if_pos hin).trans (offerHeard_other (hoffer hstate hin))
    · exact if_neg hin
  | seeking => exact if_neg (by rw [hseek hstate]; nofun)
  | _ => rfl

theorem body_join_kind {bytes : List Byte} {b : Burst} (hparse : parseBurst bytes = some b) {id : FactoryId} {kind : JoinKind}
    (h : b.body = .join id kind) : b.kind = .join := by
  have := parseBurst_kind hparse
  rwa [h] at this

theorem body_offer_kind {bytes : List Byte} {b : Burst} (hparse : parseBurst bytes = some b) {id : FactoryId}
    {n : StationNo} {w : WearerNo} (h : b.body = .offer id n w) : b.kind = .offer := by
  have := parseBurst_kind hparse
  rwa [h] at this

/-- A burst without a group names no sender (R12). -/
theorem group_ne_zero {bytes : List Byte} {b : Burst} (hparse : parseBurst bytes = some b) (h : b.sender ≠ 0) :
    b.group ≠ 0 := by
  have hheader := parseBurst_header hparse
  cases hkind : b.kind <;> simp only [hkind] at hheader
  case join => exact absurd hheader.2.1 h
  all_goals exact hheader.1

/-- The burst of another group, one without a sender, and any at a newcomer are FOREIGN (R15). -/
theorem classify_foreign {s : State} {bytes : List Byte} {r : Heard} (hparse : parseBurst bytes = some r.burst)
    (h : r.burst.group ≠ s.station.creds.group ∨ r.burst.sender = 0 ∨ s.station.state = .seeking ∨
      s.station.state = .joining) (k : SlotIx) : s.classify k (.clean r) = .foreign := by
  rw [State.classify, if_pos]
  by_cases hsender : r.burst.sender = 0
  · exact .inr hsender
  · refine .inl ?_
    rw [State.ownGroup]
    have hgroup := group_ne_zero hparse hsender
    cases hstate : s.station.state <;> simp only [hstate, hsender, false_or, or_false, reduceCtorEq] at h
    case seeking | joining => exact hgroup
    all_goals exact h

/-- The burst of the own group that is out of step is STRAY (R15). -/
theorem classify_stray {s : State} {k : SlotIx} {r : Heard} (hgroup : r.burst.group = s.station.creds.group)
    (hsender : r.burst.sender ≠ 0) (hout : ¬r.inWindow k = true)
    (hstate : s.station.state = .member ∨ s.station.state = .leaving) : s.classify k (.clean r) = .stray := by
  have hown : s.ownGroup = s.station.creds.group := by
    obtain h | h := hstate <;> rw [State.ownGroup, h]
  have hwide : s.station.state.wide = false := by
    obtain h | h := hstate <;> rw [h] <;> rfl
  rw [State.classify, if_neg (by simp [hown, hgroup, hsender]), if_neg (by simpa [State.inStep, hwide] using hout)]

/-- Settles O35. -/
theorem slotEndWritesTheEntry : Obligations.SlotEndWritesTheEntry := by
  intro c k order s hends on hearing nothingEnds closed writes
  have hon_iff : s.station.state.receiverOn = true ↔ on := receiverOn_iff _
  have hsilent : ∀ (air : List AirItem) (e : Entry), hearing → s.classify k (slotHolds s c k air) = e →
      Entry.silent e = true → writes air e := fun air e hhears he =>
    exec_slotEnd_silent hends hhears.2 order air ((entryOf_on (hon_iff.2 hhears.1) hhears.2 k _).trans he)
  have hsentEnd : ∀ air, s.chan.sentInSlot = true → nothingEnds →
      writes air (if s.station.state.receiverOn then .mine else .unknown) := by
    rintro air hsent ⟨hclaims, hvoice, hfar, hnewcomer⟩
    refine (exec_slotEnd_sent hends hsent order air).trans (congrArg _ ?_)
    rw [ownSlotEnd_eq_self (t := s.slotOver c k _ (s.laterItems c k air)) hclaims hvoice hfar hnewcomer]
    exact State.settleAt14_lapse fun _ _ _ _ => rfl
  refine ⟨fun air hoff h => ?_, fun air hon hsent hnothing => ?_, fun air hhears hquiet => ?_,
    fun air x hhears hitem hsent hjump hlost => ?_, fun air x xs hhears hitems hreceives hbroken => ?_,
    fun air a f bytes b hon halone => ⟨fun hforeign hjoin hconfirm hoffer hseek => ?_,
      fun hgroup hsender hout => ⟨fun hleaving => ?_, fun hmember => ?_⟩⟩⟩
  · have hoff' : s.station.state.receiverOn = false := Bool.eq_false_iff.2 fun h => hoff (hon_iff.1 h)
    cases hsent : s.chan.sentInSlot with
    | false => exact exec_slotEnd_silent hends hsent order air (entryOf_off hoff' k _) rfl
    | true =>
      have := hsentEnd air hsent (h.resolve_left (by rw [hsent]; nofun))
      rwa [hoff'] at this
  · have := hsentEnd air hsent hnothing
    rwa [hon_iff.2 hon] at this
  · exact hsilent air .empty hhears (by rw [slotHolds_quiet hquiet]; rfl) rfl
  · exact hsilent air .unknown hhears (by rw [slotHolds_lost hitem hsent hjump hlost]; rfl) rfl
  · exact hsilent air .corrupt hhears (by rw [slotHolds_broken hitems hreceives hbroken]; rfl) rfl
  · have ⟨_, hsent, _, _, hparse⟩ := halone
    have hstep := b.inStepAt_iff c k a
    have hentry := (entryOf_on (hon_iff.2 hon) hsent k (slotHolds s c k air)).trans
      (slotHolds_alone halone ▸ classify_foreign (s := s) hparse hforeign k)
    refine exec_slotEnd_writes hends hsent order air hentry ?_ fun o _ ho hdue => Bool.eq_false_iff.2 fun h => ?_
    · rw [slotHolds_alone halone]
      refine heardForeign_nothing (t := s.slotOver c k .foreign (s.laterItems c k air))
        (fun hmember hin id kind hbody => ?_)
        (fun hjoining hin id n w hbody => hoffer hjoining (hstep.2 hin) (body_offer_kind hparse hbody)) hseek _
      exact Option.ne_none_iff_exists'.1 (hjoin hmember (hstep.2 hin) (body_join_kind hparse hbody))
    · rw [slotHolds_alone halone] at h
      obtain ⟨_, hmember, hin, hgroup, hbody⟩ := confirms_iff.1 h
      exact hconfirm hmember (hstep.2 hin) hgroup o ho hdue hbody
  · have ⟨_, hsent, _⟩ := halone
    have hentry := (entryOf_on (hon_iff.2 hon) hsent k (slotHolds s c k air)).trans
      (slotHolds_alone halone ▸ classify_stray (s := s) hgroup hsender (mt (b.inStepAt_iff c k a).2 hout)
      (.inr hleaving))
    refine exec_slotEnd_writes hends hsent order air hentry ?_ fun o _ _ _ => Bool.eq_false_iff.2 fun h => ?_
    · rw [slotHolds_alone halone]
      exact if_neg (by show ¬s.station.state = .member; rw [hleaving]; nofun)
    · cases confirms_foreign h
  · have ⟨_, hsent, _⟩ := halone
    have hentry := (entryOf_on (hon_iff.2 hon) hsent k (slotHolds s c k air)).trans
      (slotHolds_alone halone ▸ classify_stray (s := s) hgroup hsender (mt (b.inStepAt_iff c k a).2 hout)
      (.inl hmember))
    refine exec_slotEnd_writes (t := withLog (s.slotOver c k .stray (s.laterItems c k air)) _) hends hsent order air hentry ?_ fun o _ _ _ => Bool.eq_false_iff.2 fun h => ?_
    · rw [slotHolds_alone halone]
      exact if_pos hmember
    · cases confirms_foreign h

/-! ### The LEAVE of a claim (R73, R146, R147) -/

theorem leaves_iff (cl : Claim) (k : SlotIx) :
    cl.leaves k = true ↔ cl.state = .releasing ∧ cl.slot = some k ∧ 1 ≤ cl.cycles := by
  simp [Claim.leaves, and_assoc]

/-- A claim holds its slot among the first fourteen. -/
theorem slot_ne_14 {cl : Claim} {k : SlotIx} (hok : cl.ok = true) (hslot : cl.slot = some k) : k ≠ 14 := by
  rintro rfl
  unfold Claim.ok at hok
  rw [hslot] at hok
  cases hstate : cl.state <;> simp [hstate] at hok

/-- In the group the end of a slot of the station's own makes of a claim's LEAVE alone. -/
theorem ownSlotEnd_inGroup {t : State} (h : t.station.state = .member ∨ t.station.state = .leaving) (k : SlotIx)
    (tr : Nat) :
    t.ownSlotEnd k tr = ({ t with voice := t.voice.left k, farEnd := t.farEnd.left k } : State).settleRole := by
  have hstays : ¬(k = 14 ∧ t.station.state = .joining) := by
    rintro ⟨_, hjoining⟩
    simp [hjoining] at h
  rw [State.ownSlotEnd]
  simp only [State.settleRole_frame]
  cases t.pairing.newcomer with
  | none => rfl
  | some nc =>
    simp only
    split
    · exact if_neg hstays
    all_goals rfl

theorem settleRole_ending {s : State} (hrole : s.bearer.state = .ending) (hfar : s.farEnd.state = .none) :
    s.settleRole = s.bearerToNone :=
  if_pos ⟨hrole, hfar⟩

/-- The end of a slot of the station's own in the group, by what its claims become. -/
theorem exec_slotEnd_leaves {s : State} {c : Cycle} {k : SlotIx} (hends : s.endsSlot c k)
    (hsent : s.chan.sentInSlot = true) (hstate : s.station.state = .member ∨ s.station.state = .leaving) (hk : k ≠ 14)
    {v f : Claim} (hvoice : s.voice.left k = v) (hfar : s.farEnd.left k = f) (order : ReceptionOrder)
    (air : List AirItem) :
    exec (.slotEnd order air) s = .next
      ({ s.slotOver c k .mine (s.laterItems c k air) with voice := v, farEnd := f } : State).settleRole := by
  have hon : s.station.state.receiverOn = true := by
    obtain h | h := hstate <;> rw [h] <;> rfl
  rw [exec_slotEnd_sent hends hsent order air, hon, if_pos rfl,
    ownSlotEnd_inGroup (t := s.slotOver c k .mine (s.laterItems c k air)) hstate, State.settleAt14_other hk, ← hvoice,
    ← hfar]
  rfl

theorem bearer_of_releasing {b : BearerState} (h : roleMatches b .releasing = true) : b = .ending := by
  cases b with
  | ending => rfl
  | none | claiming | bearing => cases h

/-- Settles O38. -/
theorem leaveSlotEndsTheClaim : Obligations.LeaveSlotEndsTheClaim := by
  intro c k order air s hends hsent hstate hclaims
  obtain ⟨hvoiceOk, hfarOk, hapart, hrole⟩ := s.claimsOk_iff.1 hclaims
  refine ⟨fun ⟨hreleasing, hslot, hcycles⟩ => ?_, fun ⟨hreleasing, hslot, hcycles⟩ => ?_⟩
  · have hvoice : s.voice.left k = Claim.gone := if_pos ((leaves_iff _ _).2 ⟨hreleasing, hslot, hcycles⟩)
    have hfar : s.farEnd.left k = s.farEnd := if_neg fun hleaves =>
      absurd (hslot.trans ((leaves_iff _ _).1 hleaves).2.1.symm) (hapart.resolve_left (by rw [hslot]; nofun))
    have hsettled := settleRole_of_claimsOk
      (s := { s.slotOver c k .mine (s.laterItems c k air) with voice := Claim.gone })
      ((State.claimsOk_iff _).2 ⟨rfl, hfarOk, .inl rfl, hrole⟩)
    exact (exec_slotEnd_leaves hends hsent hstate (slot_ne_14 hvoiceOk hslot) hvoice hfar order air).trans
      (congrArg _ hsettled)
  · have hvoice : s.voice.left k = s.voice := if_neg fun hleaves => by
      obtain ⟨_, hsame, _⟩ := (leaves_iff _ _).1 hleaves
      exact absurd (hsame.trans hslot.symm) (hapart.resolve_left (by rw [hsame]; nofun))
    have hfar : s.farEnd.left k = Claim.gone := if_pos ((leaves_iff _ _).2 ⟨hreleasing, hslot, hcycles⟩)
    have hending : s.bearer.state = .ending := bearer_of_releasing (hreleasing ▸ hrole)
    have hsettled := settleRole_ending
      (s := { s.slotOver c k .mine (s.laterItems c k air) with farEnd := Claim.gone }) hending rfl
    refine ⟨_, (exec_slotEnd_leaves hends hsent hstate (slot_ne_14 hfarOk hslot) hvoice hfar order air).trans
      (congrArg _ hsettled), ?_⟩
    refine ⟨?_, ?_, ?_, ?_, fun habsent => ?_, fun hpresent => ?_, ?_⟩
    · simp
    · simp
    · simp [StreamRec.toAbsent]
    · simp [State.slotOver]
    · simp [State.slotOver, habsent]
    · simp [State.slotOver, hpresent]
    · simp [State.sameFrame, State.slotOver]

end Sys2Proof.Proofs.SlotEnd
end

section
/-! PROOFS. What a slot's start sends. -/

namespace Sys2Proof.Proofs.SlotStart

open Sys2Proof Sys2Proof.Machine Sys2Proof.Proofs.SlotEnd

/-! ### The headers (R5, R6) -/

/-- The bearer flag and age of a header (R5). -/
theorem memberBurst_eq (s : State) (kind : BurstKind) (k : SlotIx) (body : Body) (hush : Bool) :
    s.memberBurst kind k body hush =
      { group := s.station.creds.group, kind := kind, sender := s.station.creds.number
        wearer := s.station.creds.wearer, slot := k, lineMute := s.mute.debounced, hush := hush
        pairingOpen := decide (s.pairing.window.state = .opened), bearer := decide (s.bearer.state ≠ .none)
        age := if s.bearer.state = .none then 0 else BitVec.ofNat 8 s.bearer.age
        heardMap := s.heardMap, body := body } := by
  have hwindow : s.windowOpen = decide (s.pairing.window.state = .opened) := by
    rw [State.windowOpen]
    cases s.pairing.window.state <;> rfl
  have hbearer : (s.bearer.state != .none) = decide (s.bearer.state ≠ .none) := by
    cases s.bearer.state <;> rfl
  rw [State.memberBurst, hwindow, hbearer]
  rfl

/-! ### The voice slots (R10, R73) -/

theorem sendsIn_iff (cl : Claim) (k : SlotIx) :
    cl.sendsIn k = true ↔ cl.slot = some k ∧ (cl.state = .tentative ∨ cl.state = .confirmed) := by
  cases hstate : cl.state <;> simp [Claim.sendsIn, Claim.sending, hstate]

theorem transmitOrder_voiceSlot {k : SlotIx} (hk : k.val ≤ 13) (s : State) : s.transmitOrder k = s.voiceSlotOrder k :=
  if_pos hk

theorem transmitOrder_voice {s : State} {k : SlotIx} (hk : k.val ≤ 13) (h : s.voice.sendsIn k = true) :
    s.transmitOrder k = some (s.voiceBurst k) :=
  (transmitOrder_voiceSlot hk s).trans (if_pos h)

theorem transmitOrder_farEnd {s : State} {k : SlotIx} (hk : k.val ≤ 13) (hvoice : s.voice.slot ≠ some k)
    (h : s.farEnd.sendsIn k = true) : s.transmitOrder k = some (s.farBurst k) := by
  have hno : ¬s.voice.sendsIn k = true := fun hsends => hvoice ((sendsIn_iff _ _).1 hsends).1
  exact (transmitOrder_voiceSlot hk s).trans ((if_neg hno).trans (if_pos h))

/-- Where no claim sends in the slot, a LEAVE that is due goes out, and nothing else. -/
theorem transmitOrder_leave {s : State} {k : SlotIx} (hk : k.val ≤ 13) (hvoice : ¬s.voice.sendsIn k = true)
    (hfar : ¬s.farEnd.sendsIn k = true) :
    s.transmitOrder k = if s.voice.leaves k || s.farEnd.leaves k then some (s.memberBurst .leave k .absent false) else none :=
  (transmitOrder_voiceSlot hk s).trans ((if_neg hvoice).trans (if_neg hfar))

/-- A claim in RELEASING does not send in its slot, and neither does the other one. -/
theorem leave_alone {x y : Claim} {k : SlotIx} (hapart : x.slot = none ∨ x.slot ≠ y.slot) (hslot : x.slot = some k)
    (hreleasing : x.state = .releasing) :
    ¬x.sendsIn k = true ∧ ¬y.sendsIn k = true ∧ y.leaves k = false ∧ x.leaves k = decide (1 ≤ x.cycles) := by
  have hother : y.slot ≠ some k := fun h =>
    hapart.elim (by rw [hslot]; nofun) fun hne => hne (hslot.trans h.symm)
  refine ⟨fun h => ?_, fun h => hother ((sendsIn_iff _ _).1 h).1,
    Bool.eq_false_iff.2 fun h => hother ((leaves_iff _ _).1 h).2.1, ?_⟩
  · have := ((sendsIn_iff _ _).1 h).2
    simp [hreleasing] at this
  · simp [Claim.leaves, hslot, hreleasing]

/-! ### Slots 14 and 15 (R87, R94, R96) -/

theorem transmitOrder_joinSlot (s : State) : s.transmitOrder 14 = s.joinSlotOrder := rfl

theorem transmitOrder_offerSlot (s : State) : s.transmitOrder 15 = s.offerSlotOrder := rfl

/-- An offer stands in an open window (R79). -/
theorem windowOpen_of_offer {s : State} (h : s.windowOk = true) {o : Offer} (hoffer : s.pairing.offer = some o) :
    s.pairing.window.state = .opened := by
  rw [State.windowOk] at h
  split at h
  next hopen => exact beq_iff_eq.1 hopen
  next => simp [hoffer] at h

/-! ### SLOT_START -/

theorem exec_slotStart {c : Cycle} {k : SlotIx} {s : State} (hhold : s.hold = none) (hcycle : s.timer.cycle = some c)
    (hin : s.chan.inSlot = false) (hnext : s.chan.nextSlot = k.val) :
    exec .slotStart s = .next (s.startSlot c k) := by
  have hdue : s.slotStartDue = true := by
    simp [State.slotStartDue, StoreOps.running_of_hold hhold, hin, hnext]
  have hk : Fin.ofNat 16 s.chan.nextSlot = k := by
    rw [hnext]
    exact Fin.ofNat_val_eq_self k
  simp only [exec, execSlotStart, hcycle, hdue, State.whenever_true, hk]

/-- Settles O33. -/
theorem slotStartSendsWhatTheRecordsOrder : Obligations.SlotStartSendsWhatTheRecordsOrder := by
  refine ⟨fun k s hclaims hwindow => ?_, fun c k s hhold hcycle hin hnext => ⟨fun hnothing => ?_, fun b hb => ?_⟩⟩
  · obtain ⟨_, _, hapart, _⟩ := s.claimsOk_iff.1 hclaims
    have hapart' : s.farEnd.slot = none ∨ s.farEnd.slot ≠ s.voice.slot := by
      by_cases hnone : s.farEnd.slot = none
      · exact .inl hnone
      · exact .inr fun heq => hapart.elim (fun h => hnone (heq.trans h)) fun h => h heq.symm
    intro report sends newcomerSends holds leaves
    have hreport : s.views.v1.map report = s.heardMap :=
      List.map_congr_left fun e _ => by cases e <;> rfl
    have hmember : ∀ {kind hush body}, s.transmitOrder k = some (s.memberBurst kind k body hush) →
      sends kind hush body :=
      fun h => by
        rw [memberBurst_eq, ← hreport] at h
        exact h
    refine ⟨fun hk => ⟨fun hvoice => ?_, fun hfar => ?_, fun hleaves => ?_, fun hearly => ?_, fun hvoice hfar => ?_⟩,
      fun hk => ?_, fun hk => ?_⟩
    · have horder := transmitOrder_voice hk ((sendsIn_iff _ _).2 hvoice)
      rw [State.voiceBurst] at horder
      refine ⟨fun p hp => hmember (by rw [hp] at horder; exact horder), fun hnone => hmember ?_⟩
      cases hpayload : s.chan.voicePayload with
      | frame p => exact absurd hpayload (hnone p)
      | hush | none => rw [hpayload] at horder; exact horder
    · have horder := transmitOrder_farEnd hk
        (fun h => hapart.elim (by rw [h]; nofun) fun hne => hne (h.trans hfar.1.symm)) ((sendsIn_iff _ _).2 hfar)
      rw [State.farBurst] at horder
      refine ⟨fun p hp => hmember (by rw [hp] at horder; exact horder), fun hnone => hmember ?_⟩
      rw [hnone] at horder
      exact horder
    · obtain ⟨⟨hslot, hreleasing⟩, hcycles⟩ | ⟨⟨hslot, hreleasing⟩, hcycles⟩ := hleaves
      · obtain ⟨hvoice, hfar, _, hdue⟩ := leave_alone hapart hslot hreleasing
        refine hmember ((transmitOrder_leave hk hvoice hfar).trans (if_pos ?_))
        rw [hdue, decide_eq_true hcycles, Bool.true_or]
      · obtain ⟨hfar, hvoice, _, hdue⟩ := leave_alone hapart' hslot hreleasing
        refine hmember ((transmitOrder_leave hk hvoice hfar).trans (if_pos ?_))
        rw [hdue, decide_eq_true hcycles, Bool.or_true]
    · obtain ⟨⟨hslot, hreleasing⟩, hcycles⟩ | ⟨⟨hslot, hreleasing⟩, hcycles⟩ := hearly
      · obtain ⟨hvoice, hfar, hother, hdue⟩ := leave_alone hapart hslot hreleasing
        rw [transmitOrder_leave hk hvoice hfar, hother, hdue, hcycles]
        rfl
      · obtain ⟨hfar, hvoice, hother, hdue⟩ := leave_alone hapart' hslot hreleasing
        rw [transmitOrder_leave hk hvoice hfar, hother, hdue, hcycles]
        rfl
    · rw [transmitOrder_leave hk (fun h => hvoice ((sendsIn_iff _ _).1 h).1) (fun h => hfar ((sendsIn_iff _ _).1 h).1),
        if_neg]
      intro hleaves
      obtain h | h := Bool.or_eq_true_iff.1 hleaves
      · exact hvoice ((leaves_iff _ _).1 h).2.1
      · exact hfar ((leaves_iff _ _).1 h).2.1
    · subst hk
      refine ⟨fun hnone => ?_, fun nc hnc => ⟨fun horder => ?_, fun horder => ?_, fun a horder haccepted => ?_⟩⟩
      · simp only [transmitOrder_joinSlot, State.joinSlotOrder, hnone]
      · simp only [transmitOrder_joinSlot, State.joinSlotOrder, hnc, horder]
      · simp only [newcomerSends, transmitOrder_joinSlot, State.joinSlotOrder, hnc, horder]
        rfl
      · simp only [newcomerSends, transmitOrder_joinSlot, State.joinSlotOrder, hnc, horder, haccepted]
        rfl
    · subst hk
      refine ⟨fun hnone => ?_, fun o ho =>
        ⟨fun hnot => ?_, fun hunsent hnow => ⟨hmember ?_, windowOpen_of_offer hwindow ho⟩⟩⟩
      · simp only [transmitOrder_offerSlot, State.offerSlotOrder, hnone]
      · simp only [transmitOrder_offerSlot, State.offerSlotOrder, ho]
        refine if_neg fun h => ?_
        simp only [Bool.and_eq_true, Bool.not_eq_true', decide_eq_true_eq] at h
        obtain hsent | hother := hnot
        · simp [hsent] at h
        · exact hother h.2
      · simp only [transmitOrder_offerSlot, State.offerSlotOrder, ho]
        exact if_pos (by simp [hunsent, hnow])
  · rw [exec_slotStart hhold hcycle hin hnext, State.startSlot, hnothing]
    rfl
  · rw [exec_slotStart hhold hcycle hin hnext, State.startSlot, hb]
    refine congrArg _ ?_
    cases hkind : b.kind <;> simp only [State.sendBurst, State.openSlot, State.atInstant, Pairing.afterSending,
    hkind] <;> rfl

end Sys2Proof.Proofs.SlotStart
end

section
/-! PROOFS. The slot grid, and the slot that an item of the air falls in. -/

namespace Sys2Proof.Proofs.SlotGrid

open Sys2Proof Sys2Proof.Machine

/-! ### The grid (R1, R3) -/

/-- Slot starts lie 625 ticks apart. -/
theorem slotStart_apart (c : Cycle) (j k : Nat) : c.slotStart k = c.slotStart j + 625 * ((k : Int) - j) := by
  by_cases hkind : c.kind = .ordinary
  · rw [c.slotStart_ordinary hkind, c.slotStart_ordinary hkind]
    omega
  · rw [c.slotStart_jump hkind, c.slotStart_jump hkind]
    omega

theorem slotEnd_before15 (c : Cycle) {k : Nat} (hk : k < 15) : c.slotEnd k = c.slotStart k + 625 := by
  rw [Cycle.slotEnd, if_neg (by omega), slotStart_apart c k (k + 1)]
  push_cast
  omega

theorem slotEnd_15 (c : Cycle) : c.slotEnd 15 = c.planned := if_pos (le_refl 15)

theorem slotEnd_jump {c : Cycle} (hkind : c.kind ≠ .ordinary)
    (k : SlotIx) : c.slotEnd k.val = c.slotStart k.val + 625 := by
  by_cases hk : k.val < 15
  · exact slotEnd_before15 c hk
  · have hlast : k.val = 15 := by omega
    rw [hlast, slotEnd_15, c.slotStart_jump hkind]
    push_cast
    omega

theorem firstSlot_cases (c : Cycle) : c.firstSlot = 16 ∨ ∃ k : SlotIx, c.firstSlot = k.val := by
  rw [Cycle.firstSlot]
  cases hfound : (List.range 16).find? c.occurs with
  | none => exact .inl rfl
  | some k => exact .inr ⟨⟨k, by simpa using List.mem_of_find?_eq_some hfound⟩, rfl⟩

theorem inLeadIn_iff (c : Cycle) (x : AirItem) :
    inLeadIn c x = true ↔ c.kind ≠ .ordinary ∧ c.gridInstant ≤ x.span.1 ∧
    (x.span.1 : Int) < c.slotStart c.firstSlot := by
  simp [inLeadIn, and_assoc]

/-- Before the first slot that occurs is before the cycle's end and before every slot that occurs. -/
theorem before_firstSlot {c : Cycle} (hkind : c.kind ≠ .ordinary) (a : Nat) :
    (a : Int) < c.slotStart c.firstSlot ↔
      a < c.planned ∧ ∀ k : SlotIx, c.occurs k.val = true → (a : Int) < c.slotStart k.val := by
  have hplanned := c.slotStart_jump hkind 16
  obtain hnone | ⟨k, hfirst⟩ := firstSlot_cases c
  · rw [hnone]
    have habsent := c.firstSlot_none.1 hnone
    refine ⟨fun h => ⟨by omega, fun j hj => by rw [habsent j] at hj; cases hj⟩, fun ⟨h, _⟩ => by omega⟩
  · rw [hfirst]
    obtain ⟨hoccurs, hleast⟩ := (c.firstSlot_iff k).1 hfirst
    have hk := k.isLt
    have hend := slotStart_apart c k.val 16
    refine ⟨fun h => ⟨by omega, fun j hj => ?_⟩, fun ⟨_, h⟩ => h k hoccurs⟩
    have hle : k.val ≤ j.val := Nat.not_lt.1 fun hlt => by rw [hleast j hlt] at hj; cases hj
    have hlater := slotStart_apart c k.val j.val
    omega

/-! ### The slot of a burst (R13) -/

theorem nearSlot_of_near {c : Cycle} {a : Nat} {k : SlotIx} (hoccurs : c.occurs k.val = true)
    (hnear : near a (c.slotStart k.val) = true) : nearSlot c a = some k.val := by
  have hfound : (List.range 16).find? (fun j => c.occurs j && near a (c.slotStart j)) = some k.val := by
    refine (find_range16 _ _ k.isLt).2 ⟨by rw [hoccurs, hnear]; rfl, fun j hj => Bool.eq_false_iff.2 fun h => ?_⟩
    have hj' := (near_iff _ _).1 (Bool.and_eq_true_iff.1 h).2
    have hk' := (near_iff _ _).1 hnear
    have hapart := slotStart_apart c j k.val
    omega
  rw [nearSlot, hfound]

theorem nearSlot_of_none {c : Cycle} {a : Nat}
    (h : ∀ k : SlotIx, c.occurs k.val = true → near a (c.slotStart k.val) = false) :
    nearSlot c a = if near a c.nextStart then some 16 else none := by
  have hnone : (List.range 16).find? (fun j => c.occurs j && near a (c.slotStart j)) = none := by
    refine (find_range16_none _).2 fun j hj => Bool.eq_false_iff.2 fun hnear => ?_
    obtain ⟨hoccurs, hnear⟩ := Bool.and_eq_true_iff.1 hnear
    exact absurd (hnear.symm.trans (h ⟨j, hj⟩ hoccurs)) nofun
  rw [nearSlot, hnone]

theorem slotDuring_of_inside {c : Cycle} {f : Nat} {k : SlotIx} (hoccurs : c.occurs k.val = true)
    (hstart : c.slotStart k.val < f) (hend : (f : Int) ≤ c.slotEnd k.val) : slotDuring c f = some k.val := by
  refine (find_range16 _ _ k.isLt).2 ⟨by simp [hoccurs, hstart, hend], fun j hj => Bool.eq_false_iff.2 fun h => ?_⟩
  simp only [Bool.and_eq_true, decide_eq_true_eq] at h
  have hapart := slotStart_apart c j k.val
  have hbefore := slotEnd_before15 c (k := j) (by have := k.isLt; omega)
  omega

theorem slotDuring_of_outside {c : Cycle} {f : Nat}
    (h : ∀ k : SlotIx, c.occurs k.val = true → (f : Int) ≤ c.slotStart k.val ∨ c.slotEnd k.val < f) :
    slotDuring c f = none := by
  refine (find_range16_none _).2 fun j hj => Bool.eq_false_iff.2 fun hin => ?_
  simp only [Bool.and_eq_true, decide_eq_true_eq] at hin
  obtain hearly | hlate := h ⟨j, hj⟩ hin.1.1
  · exact absurd hin.1.2 (not_lt.2 hearly)
  · exact absurd hin.2 (not_le.2 hlate)

/-- The first slot of the next cycle starts at the end of this one or later. -/
theorem planned_le_nextStart (c : Cycle) : (c.planned : Int) ≤ c.nextStart := by
  cases hphase : c.nextPhase with
  | none => exact (c.nextStart_eq _ (fun _ => rfl) fun p hp => by rw [hphase] at hp; cases hp).ge
  | some p =>
    rw [c.nextStart_eq (c.planned + (if 10000 ≤ placeEnd p c.planned - c.planned
      then placeEnd p c.planned - c.planned - 10000 else (placeEnd p c.planned - c.planned) % 625))
      (fun hnone => by rw [hphase] at hnone; cases hnone) fun q hq => by
        rw [hphase, Option.some_inj] at hq
        rw [← hq]]
    split <;> omega

/-- No slot start lies near the next cycle's first. -/
theorem slots_not_near {c : Cycle} {a : Nat} (hend : c.kind = .ordinary → c.start + 9994 ≤ c.planned)
    (hnext : near a c.nextStart = true) (k : SlotIx) : near a (c.slotStart k.val) = false := by
  have hlater := planned_le_nextStart c
  have hnext' := (near_iff _ _).1 hnext
  have hk := k.isLt
  refine Bool.eq_false_iff.2 fun h => ?_
  have hnear := (near_iff _ _).1 h
  by_cases hkind : c.kind = .ordinary
  · rw [c.slotStart_ordinary hkind] at hnear
    have := hend hkind
    omega
  · rw [c.slotStart_jump hkind] at hnear
    omega

theorem fallsIn_near {c : Cycle} {a f k : Nat} {bytes : List Byte} (h : nearSlot c a = some k) :
    fallsIn c (.burst a f bytes) = some k := by
  rw [fallsIn, h]

theorem fallsIn_far {c : Cycle} {a f : Nat} {bytes : List Byte} (h : nearSlot c a = none) :
    fallsIn c (.burst a f bytes) = slotDuring c f := by
  rw [fallsIn, h]

/-- Settles O34. -/
theorem slotsLieOnTheGridAndBurstsFallInThem : Obligations.SlotsLieOnTheGridAndBurstsFallInThem := by
  refine ⟨fun c k => ⟨fun hkind => ?_, fun hkind => ?_, slotEnd_15 c, c.firstSlot_iff k, c.firstSlot_none⟩,
    fun c x => ?_, fun c a f bytes next hend hplanned hphase => ?_⟩
  · exact ⟨c.slotStart_ordinary hkind _, slotEnd_before15 c, (c.occurs_iff k).2 (.inl hkind)⟩
  · have hoccurs : c.occurs k.val = true ↔ (c.gridInstant : Int) ≤ c.slotStart k.val := by
      rw [c.occurs_iff]
      exact or_iff_right hkind
    refine ⟨c.slotStart_jump hkind _, slotEnd_jump hkind k, hoccurs, fun hgrid => ?_⟩
    rw [hoccurs, hgrid, c.slotStart_jump hkind]
    omega
  · rw [inLeadIn_iff]
    refine and_congr_right fun hkind => and_congr_right fun _ => before_firstSlot hkind _
  · have hnext : c.nextStart = next := c.nextStart_eq next hplanned hphase
    intro close nowhere
    have hclose : ∀ start : Int, near a start = true ↔ close start := fun start => near_iff _ _
    have hnear : nowhere → nearSlot c a = none := fun ⟨hslots, hlater⟩ => by
      rw [nearSlot_of_none fun k hk => Bool.eq_false_iff.2 fun h => hslots k hk ((hclose _).1 h), hnext, if_neg]
      exact fun h => hlater ((hclose _).1 h)
    refine ⟨fun k hoccurs hk => fallsIn_near (nearSlot_of_near hoccurs ((hclose _).2 hk)), fun hnow => ?_,
      fun h k hoccurs hstart hfinish => ?_, fun h houtside => ?_⟩
    · have hnow' : near a c.nextStart = true := hnext ▸ (hclose _).2 hnow
      exact fallsIn_near ((nearSlot_of_none fun k _ => slots_not_near hend hnow' k).trans (if_pos hnow'))
    · rw [fallsIn_far (hnear h), slotDuring_of_inside hoccurs hstart hfinish]
    · rw [fallsIn_far (hnear h), slotDuring_of_outside houtside]

end Sys2Proof.Proofs.SlotGrid
end

section
/-! PROOFS. A burst is read back whole from the bytes it is sent as. -/

namespace Sys2Proof.Proofs.Framing

open Sys2Proof Sys2Proof.Machine Sys2Proof.Proofs.Records

/-! ### Digits (R184) -/

theorem ofDigits_concat (base : Nat) (ds : List Nat) (d : Nat) :
    ofDigits base (ds ++ [d]) = ofDigits base ds * base + d := by
  simp [ofDigits]

/-- The digits of the number that digits spell are those digits. -/
theorem toDigits_ofDigits (base : Nat) (ds : List Nat) (h : ∀ d ∈ ds, d < base) :
    toDigits base ds.length (ofDigits base ds) = ds := by
  induction ds using List.reverseRecOn with
  | nil => rfl
  | append_singleton ds d ih =>
    have hd : d < base := h d (by simp)
    have hbase : 0 < base := by omega
    have hquotient : (ofDigits base ds * base + d) / base = ofDigits base ds := by
      rw [Nat.mul_comm, Nat.mul_add_div hbase, Nat.div_eq_of_lt hd, Nat.add_zero]
    have hremainder : (ofDigits base ds * base + d) % base = d := by
      rw [Nat.mul_comm, Nat.mul_add_mod, Nat.mod_eq_of_lt hd]
    rw [ofDigits_concat, List.length_append, List.length_singleton, toDigits, hquotient, hremainder,
      ih fun x hx => h x (by simp [hx])]

theorem ofDigits_lt (base : Nat) (ds : List Nat) (h : ∀ d ∈ ds, d < base) : ofDigits base ds < base ^ ds.length := by
  induction ds using List.reverseRecOn with
  | nil => exact Nat.one_pos
  | append_singleton ds d ih =>
    have hd : d < base := h d (by simp)
    have hds : ofDigits base ds + 1 ≤ base ^ ds.length := ih fun x hx => h x (by simp [hx])
    rw [ofDigits_concat, List.length_append, List.length_singleton, pow_succ]
    calc ofDigits base ds * base + d < (ofDigits base ds + 1) * base := by rw [Nat.add_mul, Nat.one_mul]; omega
      _ ≤ base ^ ds.length * base := Nat.mul_le_mul_right _ hds

theorem heardMap_read {m : List StationNo} (h : m.length = 16) :
    heardMapOfBytes (bytesOfNat 10 (ofDigits 32 (m.map Fin.val))) = m := by
  have hdigits : ∀ d ∈ m.map Fin.val, d < 32 := by
    intro d hd
    obtain ⟨n, _, rfl⟩ := List.mem_map.1 hd
    exact n.isLt
  have hlength : (m.map Fin.val).length = 16 := by rw [List.length_map, h]
  have hlt := ofDigits_lt 32 _ hdigits
  have hback := toDigits_ofDigits 32 _ hdigits
  rw [hlength] at hlt hback
  rw [heardMapOfBytes, natOfBytes_bytesOfNat 10 _ (by omega), hback, List.map_map]
  exact (List.map_congr_left fun n _ => Fin.ofNat_val_eq_self n).trans (List.map_id _)

/-! ### The header (Table 12-1) -/

/-- The flag byte: the kind's code and the four flags. -/
def flagByte (b : Burst) : Nat :=
  b.kind.code * 16 + bitOf b.lineMute * 8 + bitOf b.hush * 4 + bitOf b.pairingOpen * 2 + bitOf b.bearer

theorem bitOf_le (x : Bool) : bitOf x ≤ 1 := by cases x <;> decide

theorem bitOf_beq (x : Bool) : (bitOf x == 1) = x := by cases x <;> rfl

theorem burstKindOf_code (k : BurstKind) : burstKindOf k.code = some k := by cases k <;> rfl

theorem flagByte_fields (b : Burst) :
    flagByte b < 256 ∧ flagByte b / 16 = b.kind.code ∧ (flagByte b / 8 % 2 == 1) = b.lineMute ∧
      (flagByte b / 4 % 2 == 1) = b.hush ∧ (flagByte b / 2 % 2 == 1) = b.pairingOpen ∧
      (flagByte b % 2 == 1) = b.bearer := by
  have hcode : b.kind.code ≤ 6 := by cases b.kind <;> decide
  have hmute := bitOf_le b.lineMute
  have hhush := bitOf_le b.hush
  have hopen := bitOf_le b.pairingOpen
  have hbearer := bitOf_le b.bearer
  have hfields : flagByte b < 256 ∧ flagByte b / 16 = b.kind.code ∧ flagByte b / 8 % 2 = bitOf b.lineMute ∧
      flagByte b / 4 % 2 = bitOf b.hush ∧ flagByte b / 2 % 2 = bitOf b.pairingOpen ∧
      flagByte b % 2 = bitOf b.bearer := by
    unfold flagByte
    omega
  obtain ⟨hlt, hkind, h8, h4, h2, h1⟩ := hfields
  rw [h8, h4, h2, h1]
  exact ⟨hlt, hkind, bitOf_beq _, bitOf_beq _, bitOf_beq _, bitOf_beq _⟩

/-- Where the fields of a burst lie in its bytes. -/
theorem coveredBytes_fields (b : Burst) :
    (coveredBytes b).take 3 = bytesOfNat 3 b.group.toNat ∧
      ((coveredBytes b).drop 3).take 1 = bytesOfNat 1 (flagByte b) ∧
      ((coveredBytes b).drop 4).take 1 = bytesOfNat 1 (b.sender.val * 8 + b.wearer.val) ∧
      ((coveredBytes b).drop 5).take 1 = bytesOfNat 1 (b.slot.val * 16) ∧
      ((coveredBytes b).drop 6).take 1 = [b.age] ∧
      ((coveredBytes b).drop 7).take 10 = bytesOfNat 10 (ofDigits 32 (b.heardMap.map Fin.val)) ∧
      (coveredBytes b).drop 17 = bodyBytes b.body ∧
      (coveredBytes b).length = 17 + (bodyBytes b.body).length :=
  ⟨rfl, rfl, rfl, rfl, rfl, rfl, rfl, by simp [coveredBytes, headerBytes]; omega⟩

/-! ### The payload (Table 12-2) -/

theorem blocksOfBytes_blockBytes {p : Payload} (h : ∀ sb ∈ p, sb.mantissas.length = 32) :
    blocksOfBytes p.length (p.flatMap blockBytes) = some p := by
  induction p with
  | nil => rfl
  | cons sb p ih =>
    have hlength : sb.mantissas.length = 32 := h sb (by simp)
    have hexponent : (BitVec.ofNat 8 sb.exponent.val).toNat = sb.exponent.val :=
      Nat.mod_eq_of_lt (sb.exponent.isLt.trans (by decide))
    have hlt : (BitVec.ofNat 8 sb.exponent.val).toNat < 9 := by rw [hexponent]; exact sb.exponent.isLt
    rw [List.flatMap_cons, blockBytes, List.cons_append, List.length_cons, blocksOfBytes, dif_pos hlt,
      List.drop_left' hlength, List.take_left' hlength, ih fun x hx => h x (by simp [hx])]
    simp only [hexponent, Option.map_some]

theorem payload_read {p : Payload} (h : payloadOk p = true) :
    blocksOfBytes 5 (p.flatMap blockBytes) = some p ∧ (p.flatMap blockBytes).length = 165 := by
  simp only [payloadOk, Bool.and_eq_true, decide_eq_true_eq, List.all_eq_true] at h
  obtain ⟨hblocks, hmantissas⟩ := h
  have hread := blocksOfBytes_blockBytes hmantissas
  rw [hblocks] at hread
  refine ⟨hread, ?_⟩
  have hlength : ∀ sb ∈ p, (blockBytes sb).length = 33 :=
    fun sb hsb => by rw [blockBytes, List.length_cons, hmantissas sb hsb]
  rw [List.length_flatMap, List.map_congr_left hlength, List.map_const', List.sum_replicate, hblocks]
  rfl

theorem stationOfByte_val {n : StationNo} (h : n.valid = true) : stationOfByte n.val = some n := by
  rw [stationOfByte, dif_pos n.isLt, if_pos h]

/-- A number in one byte is read back. -/
theorem natOfBytes_one {n : Nat} (h : n < 256) : natOfBytes (bytesOfNat 1 n) = n := natOfBytes_bytesOfNat 1 n h

theorem joinKindOf_joinKindCode (kind : JoinKind) : joinKindOf (joinKindCode kind) = some kind := by cases kind <;> rfl

/-- A factory identifier before further payload bytes is read back, and so are they. -/
theorem identifier_read (id : FactoryId) (rest : List Byte) :
    fieldOfBytes 48 ((bytesOfNat 6 id.toNat ++ rest).take 6) = id ∧ (bytesOfNat 6 id.toNat ++ rest).drop 6 = rest := by
  rw [List.take_left' (length_bytesOfNat 6 id.toNat), List.drop_left' (length_bytesOfNat 6 id.toNat)]
  exact ⟨fieldOfBytes_bytesOfNat (by decide) id, rfl⟩

theorem bodyFits_frame {k : BurstKind} {hush : Bool} {p : Payload} (h : bodyFits k hush (.frame p) = true) :
    payloadOk p = true ∧ hush = false ∧ (k = .voice ∨ k = .farend) := by
  cases k <;> cases hush
  case voice.false => exact ⟨h, rfl, .inl rfl⟩
  case farend.false => exact ⟨h, rfl, .inr rfl⟩
  all_goals exact absurd h Bool.false_ne_true

theorem bodyFits_absent {k : BurstKind} {hush : Bool} (h : bodyFits k hush .absent = true) :
    (k = .voice ∨ k = .farend) ∧ hush = true ∨ k = .leave := by
  cases k <;> cases hush
  case voice.true => exact .inl ⟨.inl rfl, rfl⟩
  case farend.true => exact .inl ⟨.inr rfl, rfl⟩
  case leave.true | leave.false => exact .inr rfl
  all_goals exact absurd h Bool.false_ne_true

theorem bodyFits_join {k : BurstKind} {hush : Bool} {id : FactoryId} {kind : JoinKind}
    (h : bodyFits k hush (.join id kind) = true) : k = .join := by
  cases k <;> cases hush
  case join.true | join.false => rfl
  all_goals exact absurd h Bool.false_ne_true

theorem bodyFits_offer {k : BurstKind} {hush : Bool} {id : FactoryId} {n : StationNo} {w : WearerNo}
    (h : bodyFits k hush (.offer id n w) = true) : k = .offer ∧ n.valid = true := by
  cases k <;> cases hush
  case offer.true | offer.false => exact ⟨rfl, h⟩
  all_goals exact absurd h Bool.false_ne_true

theorem bodyFits_confirm {k : BurstKind} {hush : Bool} {id : FactoryId} {o n : StationNo}
    (h : bodyFits k hush (.confirm id o n) = true) : k = .confirm ∧ o.valid = true ∧ n.valid = true := by
  cases k <;> cases hush
  case confirm.true | confirm.false => exact ⟨rfl, Bool.and_eq_true_iff.1 h⟩
  all_goals exact absurd h Bool.false_ne_true

/-- A body that fits its kind is read back, and has the length its kind calls for. -/
theorem body_read {k : BurstKind} {hush : Bool} {body : Body} (h : bodyFits k hush body = true) :
    bodyOfBytes k hush (bodyBytes body) = some body ∧ (bodyBytes body).length = payloadLength k hush := by
  cases body with
  | absent => obtain ⟨rfl | rfl, rfl⟩ | rfl := bodyFits_absent h <;> exact ⟨rfl, rfl⟩
  | frame p =>
    obtain ⟨hok, rfl, rfl | rfl⟩ := bodyFits_frame h <;> obtain ⟨hread, hlength⟩ := payload_read hok <;>
      exact ⟨by simp [bodyOfBytes, bodyBytes, hread], by simp [payloadLength, bodyBytes, hlength]⟩
  | join id kind =>
    obtain rfl := bodyFits_join h
    obtain ⟨hid, hrest⟩ := identifier_read id [joinKindCode kind]
    refine ⟨?_, by simp [bodyBytes, payloadLength]⟩
    rw [bodyOfBytes, bodyBytes, hid, hrest, fieldOfBytes_byte, joinKindOf_joinKindCode]
    rfl
  | offer id n w =>
    obtain ⟨rfl, hvalid⟩ := bodyFits_offer h
    obtain ⟨hid, hrest⟩ := identifier_read id (bytesOfNat 1 n.val ++ bytesOfNat 1 w.val)
    have hwearer : (bytesOfNat 6 id.toNat ++ (bytesOfNat 1 n.val ++ bytesOfNat 1 w.val)).drop 7 = bytesOfNat 1 w.val := rfl
    refine ⟨?_, by simp [bodyBytes, payloadLength]⟩
    rw [bodyOfBytes, bodyBytes, List.append_assoc, hid, hrest, hwearer, List.take_left' (length_bytesOfNat 1 n.val),
      natOfBytes_one (n.isLt.trans (by decide)), natOfBytes_one (w.isLt.trans (by decide)), stationOfByte_val hvalid,
      Fin.ofNat_val_eq_self]
    rfl
  | confirm id o n =>
    obtain ⟨rfl, hofferer, hstation⟩ := bodyFits_confirm h
    obtain ⟨hid, hrest⟩ := identifier_read id (bytesOfNat 1 o.val ++ bytesOfNat 1 n.val)
    have hlast : (bytesOfNat 6 id.toNat ++ (bytesOfNat 1 o.val ++ bytesOfNat 1 n.val)).drop 7 = bytesOfNat 1 n.val := rfl
    refine ⟨?_, by simp [bodyBytes, payloadLength]⟩
    rw [bodyOfBytes, bodyBytes, List.append_assoc, hid, hrest, hlast, List.take_left' (length_bytesOfNat 1 o.val),
      natOfBytes_one (o.isLt.trans (by decide)), natOfBytes_one (n.isLt.trans (by decide)), stationOfByte_val hofferer,
      stationOfByte_val hstation]
    rfl

theorem burstOfCovered_coveredBytes {b : Burst} (h : b.ok = true) : burstOfCovered (coveredBytes b) = some b := by
  simp only [Burst.ok, Bool.and_eq_true, decide_eq_true_eq] at h
  obtain ⟨⟨hheader, hmap⟩, hbody⟩ := h
  obtain ⟨hgroup, hflags, hwho, hslot, hage, hheard, hpayload, hlength⟩ := coveredBytes_fields b
  obtain ⟨hlt, hkind, hmute, hhush, hopen, hbearer⟩ := flagByte_fields b
  obtain ⟨hread, hsize⟩ := body_read hbody
  have hsender := b.sender.isLt
  have hwearer := b.wearer.isLt
  have hslotLt := b.slot.isLt
  have hwho' : (b.sender.val * 8 + b.wearer.val) / 8 = b.sender.val := by omega
  have hwearer' : Fin.ofNat 8 (b.sender.val * 8 + b.wearer.val) = b.wearer := Fin.ext (by simp [Fin.ofNat])
  have hslot' : b.slot.val * 16 / 16 = b.slot.val := by omega
  simp only [burstOfCovered, hgroup, hflags, hwho, hslot, hage, hheard, hpayload, hlength, hsize,
    natOfBytes_one hlt, natOfBytes_one (n := b.sender.val * 8 + b.wearer.val) (by omega),
    natOfBytes_one (n := b.slot.val * 16) (by omega), hkind, burstKindOf_code, hmute, hhush, hopen, hbearer, hread,
    hwho', hwearer', hslot', Fin.ofNat_val_eq_self, heardMap_read hmap, fieldOfBytes_byte,
    fieldOfBytes_bytesOfNat (w := 24) (k := 3) (by decide), hheader]
  simp

/-- Settles O41. -/
theorem burstsAreReadBackWhole : Obligations.BurstsAreReadBackWhole := by
  intro b hok
  have hlength : (coveredBytes b).length = 17 + (bodyBytes b.body).length := (coveredBytes_fields b).2.2.2.2.2.2.2
  have hsplit : (burstBytes b).length - 2 = (coveredBytes b).length := by simp [burstBytes]
  have hcrc : natOfBytes (bytesOfNat 2 (crc16 (coveredBytes b)).toNat) = (crc16 (coveredBytes b)).toNat :=
    natOfBytes_bytesOfNat 2 _ (crc16 (coveredBytes b)).isLt
  have hlong : ¬(burstBytes b).length < 19 := by
    rw [burstBytes, List.length_append, length_bytesOfNat, hlength]
    omega
  rw [parseBurst, if_neg hlong, hsplit, burstBytes, List.drop_left, List.take_left, hcrc, if_neg (not_not_intro rfl),
    burstOfCovered_coveredBytes hok]

end Sys2Proof.Proofs.Framing
end

section
/-! PROOFS. The error of block companding (R102, R103). -/

namespace Sys2Proof.Proofs.Companding

open Sys2Proof Sys2Proof.Machine Sys2Proof.Proofs.VoiceFrames

/-- The mantissa of a sample as a number (R102). -/
def mantissaValue (e : Nat) (x : Int) : Int := clampInt (-128) 127 (shr (x + roundingOffset e) e)

/-! ### The mantissa -/

/-- A sample that its exponent fits lies within 128 steps either side of 0 (R101). -/
theorem sample_fits {xs : List Sample} {x : Sample} (hx : x ∈ xs) :
    -(128 * 2 ^ (encodeBlock xs).exponent.val) ≤ x.toInt ∧ x.toInt < 128 * 2 ^ (encodeBlock xs).exponent.val := by
  obtain ⟨y, _, hpeak⟩ := exists_peakOf_eq_peakMagnitude (List.ne_nil_of_mem hx)
  obtain ⟨hfits, _⟩ := exponentOf_spec (hpeak ▸ peakOf_le y : peakMagnitude xs ≤ 32767)
  rw [encodeBlock_exponent]
  generalize (exponentOf (peakMagnitude xs)).val = e at hfits ⊢
  have hpos : 0 < 2 ^ e := Nat.two_pow_pos e
  have hsteps : peakMagnitude xs < 128 * 2 ^ e := (Nat.div_lt_iff_lt_mul hpos).1 (by omega)
  have hmagnitude := peakOf_le_peakMagnitude hx
  have hcast : ((2 ^ e : Nat) : Int) = 2 ^ e := by push_cast; rfl
  rw [← hcast]
  rcases Int.lt_or_le x.toInt 0 with hneg | hnonneg
  · have := peakOf_of_neg hneg
    omega
  · have := peakOf_of_nonneg hnonneg
    omega

/-- The shift rounds down: it leaves less than one step (00_scope.md 4.4). -/
theorem shr_bounds (v : Int) (e : Nat) : shr v e * 2 ^ e ≤ v ∧ v < shr v e * 2 ^ e + 2 ^ e := by
  have hpos : (0 : Int) < 2 ^ e := by positivity
  have hsplit := Int.mul_ediv_add_emod v (2 ^ e)
  have hlow := Int.emod_nonneg v hpos.ne'
  have hhigh := Int.emod_lt_of_pos v hpos
  rw [Int.mul_comm] at hsplit
  rw [shr]
  omega

/-- The offset is half a step where there is a step to halve (R102). -/
theorem roundingOffset_double {e : Nat} (he : 1 ≤ e) : 2 * roundingOffset e = 2 ^ e := by
  obtain ⟨d, rfl⟩ := Nat.exists_eq_add_of_le' he
  rw [roundingOffset, if_neg (by omega), Nat.add_sub_cancel, pow_succ, Int.mul_comm]

/-- With exponent 0 the mantissa is the sample. -/
theorem mantissaValue_zero {x : Int} (hlow : -128 ≤ x) (hhigh : x < 128) : mantissaValue 0 x = x := by
  simp [mantissaValue, roundingOffset, shr, clampInt]
  omega

/-- The rounding of a fitting sample stays above the lower clamp, and passes the upper one by at most one step. -/
theorem rounded_range {e : Nat} {x : Int} (he : 1 ≤ e) (hlow : -(128 * 2 ^ e) ≤ x) (hhigh : x < 128 * 2 ^ e) :
    -128 ≤ shr (x + roundingOffset e) e ∧ shr (x + roundingOffset e) e ≤ 128 := by
  have hpos : (0 : Int) < 2 ^ e := by positivity
  have hhalf := roundingOffset_double he
  refine ⟨(Int.le_ediv_iff_mul_le hpos).2 (by omega), Int.lt_add_one_iff.1 ((Int.ediv_lt_iff_lt_mul hpos).2 (by omega))⟩

/-- The error of a mantissa: half a step, and where the clamp acted less than a step. -/
theorem mantissaValue_error {e : Nat} {x : Int} (he : 1 ≤ e) (hlow : -(128 * 2 ^ e) ≤ x) (hhigh : x < 128 * 2 ^ e) :
    |mantissaValue e x * 2 ^ e - x| ≤ 2 ^ e - 1 ∧
      (x < 128 * 2 ^ e - 2 ^ (e - 1) → |mantissaValue e x * 2 ^ e - x| ≤ 2 ^ (e - 1)) := by
  have hhalf : 2 * (2 : Int) ^ (e - 1) = 2 ^ e := by
    have := roundingOffset_double he
    rwa [roundingOffset, if_neg (by omega)] at this
  have hpos : (0 : Int) < 2 ^ (e - 1) := by positivity
  obtain ⟨hbelow, habove⟩ := shr_bounds (x + roundingOffset e) e
  obtain ⟨hmin, hmax⟩ := rounded_range he hlow hhigh
  rw [roundingOffset, if_neg (by omega)] at hbelow habove hmin hmax
  rw [mantissaValue, roundingOffset, if_neg (by omega)]
  generalize shr (x + 2 ^ (e - 1)) e = q at *
  by_cases hclamp : q = 128
  · subst hclamp
    have hvalue : clampInt (-128) 127 128 = 127 := by decide
    rw [hvalue, abs_le]
    refine ⟨by omega, fun h => by omega⟩
  · have hvalue : clampInt (-128) 127 q = q := by rw [clampInt]; omega
    rw [hvalue, abs_le, abs_le]
    refine ⟨by omega, fun _ => by omega⟩

/-! ### The mantissa in its byte, the decoded sample in its word -/

theorem mantissaValue_range (e : Nat) (x : Int) : -128 ≤ mantissaValue e x ∧ mantissaValue e x ≤ 127 := by
  rw [mantissaValue, clampInt]
  omega

theorem toInt_mantissaOf (e : Nat) (x : Sample) : (mantissaOf e x).toInt = mantissaValue e x.toInt := by
  obtain ⟨hlow, hhigh⟩ := mantissaValue_range e x.toInt
  exact BitVec.toInt_ofInt_eq_self (by decide) (by norm_num; exact hlow)
    (by norm_num; exact Int.lt_of_le_of_lt hhigh (by decide))

theorem toInt_decodeSample {e : Nat} (he : e ≤ 8) (x : Sample) :
    (decodeSample e (mantissaOf e x)).toInt = mantissaValue e x.toInt * 2 ^ e := by
  obtain ⟨hlow, hhigh⟩ := mantissaValue_range e x.toInt
  have hpos : (0 : Int) < 2 ^ e := by positivity
  have hstep : (2 : Int) ^ e ≤ 256 := pow_le_pow_right₀ (by decide) he
  rw [decodeSample, toInt_mantissaOf]
  refine BitVec.toInt_ofInt_eq_self (by decide) ?_ ?_
  · norm_num
    nlinarith
  · norm_num
    nlinarith

theorem decodeBlock_encodeBlock_getD {xs : List Sample} (hlength : xs.length = 32) {i : Nat} (hi : i < 32) :
    ((decodeBlock (encodeBlock xs)).getD i 0).toInt =
      mantissaValue (encodeBlock xs).exponent.val (xs.getD i 0).toInt * 2 ^ (encodeBlock xs).exponent.val := by
  have hlt : i < xs.length := by omega
  rw [← toInt_decodeSample (by omega)]
  simp [decodeBlock, encodeBlock, List.getD_eq_getElem?_getD, List.getElem?_eq_getElem hlt]

/-- Settles O60. -/
theorem compandingErrorIsBounded : Obligations.CompandingErrorIsBounded := by
  intro xs hlength
  refine ⟨by simp [decodeBlock, encodeBlock, hlength], fun i hi => ?_⟩
  have hmem : xs.getD i 0 ∈ xs := by
    rw [List.getD_eq_getElem _ _ (by omega)]
    exact List.getElem_mem _
  obtain ⟨hlow, hhigh⟩ := sample_fits hmem
  rw [decodeBlock_encodeBlock_getD hlength hi]
  generalize (encodeBlock xs).exponent.val = e at *
  obtain rfl | he := Nat.eq_zero_or_pos e
  · rw [mantissaValue_zero (by simpa using hlow) (by simpa using hhigh)]
    simp
  · obtain ⟨herror, hrounded⟩ := mantissaValue_error he hlow hhigh
    exact ⟨herror, fun h => absurd h he.ne', fun _ => hrounded⟩

end Sys2Proof.Proofs.Companding
end

section
/-! PROOFS. A number clash: the station that keeps its number and the one that yields. -/

namespace Sys2Proof.Proofs.Clash

open Sys2Proof Sys2Proof.Machine Sys2Proof.Proofs.Window Sys2Proof.Proofs.Resets

/-! ### The yield (R55 to R58, R75) -/

theorem closeWindow_pairing (s : State) (cause : CloseCause) :
    (s.closeWindow cause).pairing = if s.windowOpen then s.pairing.closedBy cause else s.pairing := by
  rw [State.closeWindow]
  split <;> rfl

/-- The station before it leaves for IDLE: claims, role and window given up. -/
def givenUp (s : State) : State :=
  ({ s with voice := Claim.gone, farEnd := Claim.gone } : State).bearerToNone.closeWindow .yielded

theorem clashYield_eq (s : State) : s.clashYield = ((givenUp s).enter .idle).raise .numberClash := rfl

theorem givenUp_pairing (s : State) : (givenUp s).pairing = (s.closeWindow .yielded).pairing := by
  simp only [givenUp, closeWindow_pairing, State.windowOpen, State.bearerToNone_frame]
  rfl

theorem clashYield_keeps {s : State} {f : Flag} (h : (givenUp s).flagSet f = true) : s.clashYield.flagSet f = true :=
  State.raise_keeps (State.raise_keeps h .stateChanged) .numberClash

theorem closeWindow_keeps {s : State} {f : Flag} (h : s.flagSet f = true) (cause : CloseCause) :
    (s.closeWindow cause).flagSet f = true := by
  rw [State.closeWindow]
  split
  · exact State.raise_keeps (s := { s with pairing := _ }) h cause.flag
  · exact h

theorem closeWindow_raises {s : State} (h : s.pairing.window.state = .opened) (cause : CloseCause) :
    (s.closeWindow cause).flagSet cause.flag = true := by
  rw [State.closeWindow, if_pos ((windowOpen_iff s).2 h)]
  exact State.raise_flagSet_self _ _

/-- What a yield gives up: the claims, the role, the far-end record, the station's place in the group. -/
theorem clashYield_gives_up (s : State) :
    s.clashYield.station.state = .idle ∧ s.clashYield.voice = Claim.gone ∧ s.clashYield.farEnd = Claim.gone ∧
      s.clashYield.bearer = Bearer.gone ∧ s.clashYield.streams.farEnd.state = .absent ∧
      (s.streams.farEnd.state ≠ .absent → s.clashYield.flagSet .farendDown = true) ∧
      s.clashYield.flagSet .numberClash = true ∧ s.clashYield.flagSet .stateChanged = true := by
  refine ⟨?_, ?_, ?_, ?_, ?_, fun hpresent => clashYield_keeps (closeWindow_keeps ?_ _), State.raise_flagSet_self _ _,
    State.raise_keeps (State.raise_flagSet_self _ _) _⟩
  · simp [clashYield_eq, State.enter]
  · simp [clashYield_eq, givenUp, State.enter]
  · simp [clashYield_eq, givenUp, State.enter]
  · simp [clashYield_eq, givenUp, State.enter]
  · simp [clashYield_eq, givenUp, State.enter, StreamRec.toAbsent]
  · rw [State.bearerToNone_flagSet]
    simp [hpresent]

/-- What a yield keeps: the credentials, the table, the views, the timer and the store. -/
theorem clashYield_keeps_rest (s : State) :
    s.clashYield.station.creds = s.station.creds ∧ s.clashYield.peers = s.peers ∧ s.clashYield.views = s.views ∧
      s.clashYield.timer = s.timer ∧ s.clashYield.store = s.store ∧
      s.clashYield.streams.wearers = s.streams.wearers ∧ s.clashYield.streams.list = s.streams.list ∧
      s.clashYield.chan.held = s.chan.held ∧ s.sameFrame s.clashYield := by
  simp [clashYield_eq, givenUp, State.enter, Channel.turn_held, State.sameFrame]

/-- An open window closes with cause YIELDED. -/
theorem clashYield_pairing (s : State) : s.clashYield.pairing = (s.closeWindow .yielded).pairing :=
  (by simp [clashYield_eq, State.enter] : s.clashYield.pairing = (givenUp s).pairing).trans (givenUp_pairing s)

theorem clashYield_pairingEnded {s : State} (h : s.flagSet .pairingEnded = true ∨ s.pairing.window.state = .opened) :
    s.clashYield.flagSet .pairingEnded = true := by
  refine clashYield_keeps ?_
  obtain hset | hopen := h
  · have hset' : ({ s with voice := Claim.gone, farEnd := Claim.gone } : State).flagSet .pairingEnded = true := hset
    exact closeWindow_keeps (Station.bearerToNone_keeps_flag hset') _
  · have hopen' : ({ s with voice := Claim.gone, farEnd :=
      Claim.gone } : State).bearerToNone.pairing.window.state = .opened := by
      simpa using hopen
    have hraised := closeWindow_raises hopen' .yielded
    rw [givenUp]
    exact hraised

/-! ### A clash at its reception -/

/-- Whether the station yields goes by what its voice claim holds (R55). -/
theorem yieldsClash_iff (s : State) (k : SlotIx) :
    (s.voice.state ≠ .confirmed ∨ (∃ own, s.voice.slot = some own ∧ k < own) → s.yieldsClash k = true) ∧
      (s.voice.state = .confirmed → ∀ own, s.voice.slot = some own → own ≤ k → s.yieldsClash k = false) := by
  rw [State.yieldsClash]
  refine ⟨fun h => ?_, fun hconfirmed own hown hle => ?_⟩
  · cases hstate : s.voice.state with
    | confirmed =>
      obtain ⟨own, hown, hlt⟩ := h.resolve_left (not_not_intro hstate)
      simpa [hown] using hlt
    | none | waiting | tentative | holdoff | releasing => rfl
  · simpa [hconfirmed, hown] using hle

/-- A burst of the own number as a station in the group takes it (R16, R54). -/
theorem exec_slotEnd_clash {s : State} {c : Cycle} {k : SlotIx} {air : List AirItem} {a f : Nat} {bytes : List Byte}
    {b : Burst} (halone : s.hearsAlone c k air a f bytes b) (order : ReceptionOrder) (hstep : b.inStepAt c k a)
    (hstate : s.station.state = .member ∨ s.station.state = .leaving) (hgroup : b.group = s.station.creds.group)
    (hnumber : b.sender = s.station.creds.number) (hsender : b.sender ≠ 0) :
    ∃ v : State, exec (.slotEnd order air) s = .next (v.clash (isLate k order) b) ∧
      v.voice = s.voice.readMap s.station.creds.number b.heardMap ∧
      v.farEnd = s.farEnd.readMap s.station.creds.number b.heardMap ∧
      v.views = { s.views with filling := s.views.filling.set k.val (.own b.sender) } ∧ v.station = s.station ∧
      v.flags = s.flags ∧ v.streams = s.streams ∧ v.peers = s.peers ∧ v.pairing = s.pairing ∧ v.bearer = s.bearer ∧
      v.store = s.store ∧ v.chan.late = s.chan.late ∧ v.chan.held = s.laterItems c k air ∧ s.sameFrame v := by
  have hon : s.station.state.receiverOn = true := by obtain h | h := hstate <;> rw [h] <;> rfl
  have hown : b.group = s.ownGroup := by
    rw [hgroup, State.ownGroup]
    obtain h | h := hstate <;> rw [h]
  have hexec : exec (.slotEnd order air) s = _ := State.hearsAlone_own halone order hon hown hsender (.inr hstep)
  rw [State.settleAt14_other (parseBurst_not14 halone.2.2.2.2 hstep.1 hsender), State.heardOwn] at hexec
  obtain ⟨t, ht⟩ : ∃ t, (s.slotOver c k (.own b.sender) (s.laterItems c k air)).markHeard b.sender = t := ⟨_, rfl⟩
  have hover : (s.slotOver c k (.own b.sender) (s.laterItems c k air)).station.state = s.station.state := rfl
  simp only [ht, hover] at hexec
  have hclash : ∀ u : State, u.station = s.station →
      ∀ d, u.heardAsMember (isLate k order) b d = (u.readMap b.heardMap).clash (isLate k order) b := fun u hu d =>
    if_pos (by rw [hu]; exact hnumber)
  obtain hmember | hleaving := hstate
  · have hlog : ∀ r, t.logRx true r = Offers.withLog t _ := fun r =>
      if_pos (by rw [← ht]; exact hmember : t.station.state = .member)
    simp only [hmember, hlog] at hexec
    rw [hclash (Offers.withLog t _) (by rw [← ht]; rfl)] at hexec
    exact ⟨_, hexec, by rw [← ht]; exact ⟨rfl, rfl, rfl, rfl, rfl, rfl, rfl, rfl, rfl, rfl, rfl, rfl, rfl, rfl, rfl,
      rfl, rfl, rfl⟩⟩
  · simp only [hleaving] at hexec
    rw [hclash t (by rw [← ht]; rfl)] at hexec
    exact ⟨_, hexec, by rw [← ht]; exact ⟨rfl, rfl, rfl, rfl, rfl, rfl, rfl, rfl, rfl, rfl, rfl, rfl, rfl, rfl, rfl,
      rfl, rfl, rfl⟩⟩

/-- A clash keeps the number, gives up, or leaves the yield to the cycle end. -/
theorem clash_cases (v : State) (late : Bool) (b : Burst) :
    v.yieldsClash b.slot = false ∧ v.clash late b = v ∨
      v.yieldsClash b.slot = true ∧ late = false ∧ v.clash late b = v.clashYield ∨
      v.yieldsClash b.slot = true ∧ late = true ∧
        v.clash late b = { v with chan := { v.chan with late := v.chan.late ++ [.clashYield] } } := by
  rw [State.clash]
  cases hyields : v.yieldsClash b.slot with
  | false => exact .inl ⟨rfl, rfl⟩
  | true =>
    cases late with
    | false => exact .inr (.inl ⟨rfl, rfl, rfl⟩)
    | true => exact .inr (.inr ⟨rfl, rfl, rfl⟩)

/-- Whatever a clash makes of the station, it keeps these. -/
theorem clash_keeps_rest (v : State) (late : Bool) (b : Burst) :
    (v.clash late b).station.creds = v.station.creds ∧ (v.clash late b).peers = v.peers ∧
      (v.clash late b).views = v.views ∧ (v.clash late b).store = v.store ∧
      (v.clash late b).streams.wearers = v.streams.wearers ∧ (v.clash late b).streams.list = v.streams.list ∧
      (v.clash late b).chan.held = v.chan.held ∧ v.sameFrame (v.clash late b) := by
  obtain ⟨_, h⟩ | ⟨_, _, h⟩ | ⟨_, _, h⟩ := clash_cases v late b <;> rw [h]
  · exact ⟨rfl, rfl, rfl, rfl, rfl, rfl, rfl, rfl, rfl, rfl, rfl, rfl, rfl⟩
  · obtain ⟨hcreds, hpeers, hviews, _, hstore, hwearers, hlist, hheld, hframe⟩ := clashYield_keeps_rest v
    exact ⟨hcreds, hpeers, hviews, hstore, hwearers, hlist, hheld, hframe⟩
  · exact ⟨rfl, rfl, rfl, rfl, rfl, rfl, rfl, rfl, rfl, rfl, rfl, rfl, rfl⟩

theorem clash_of_kept {v : State} {b : Burst} (h : v.yieldsClash b.slot = false) (late : Bool) : v.clash late b = v :=
  if_neg (by rw [h]; nofun)

theorem clash_of_yield {v : State} {b : Burst} (h : v.yieldsClash b.slot = true) : v.clash false b = v.clashYield :=
  if_pos h

theorem clash_of_lateYield {v : State} {b : Burst} (h : v.yieldsClash b.slot = true) :
    v.clash true b = { v with chan := { v.chan with late := v.chan.late ++ [.clashYield] } } := if_pos h

/-! ### The yield after the cycle end (assumption log 7) -/

/-- The second cycle end of LEAVING goes to IDLE, where there is nothing to yield (assumption log 21). -/
theorem lateYield_inGroup {w : State} (h : w.station.state = .member ∨ w.station.state = .leaving) :
    w.lateEffect .clashYield = w.clashYield :=
  if_pos (by obtain h | h := h <;> rw [h] <;> rfl)

theorem lateYield_idle {w : State} (h : w.station.state = .idle) : w.lateEffect .clashYield = w :=
  if_neg (by rw [h]; nofun)

/-- Settles O39. -/
theorem numberClashKeepsOrYields : Obligations.NumberClashKeepsOrYields := by
  refine ⟨fun c k air a f bytes b order s halone hstep hstate hgroup hnumber hsender => ?_,
    fun c order s hends hlate hstate => ?_⟩
  · obtain ⟨v, hexec, hvoice, hfar, hviews, hstation, hflags, hstreams, hpeers, hpairing, hbearer, hstore,
      hvlate, hheld,
      hframe⟩ := exec_slotEnd_clash halone order hstep hstate hgroup hnumber hsender
    obtain ⟨_, hexec', hcounts⟩ := State.hearsAlone_counts halone order hstep hstate hgroup hsender
    obtain rfl := Host.Outcome.next.inj (hexec'.symm.trans hexec)
    obtain ⟨hyields, hkeeps⟩ := yieldsClash_iff v k
    obtain ⟨hclaimState, hclaimSlot, _⟩ := s.voice.readMap_keeps s.station.creds.number b.heardMap
    rw [hvoice, hclaimState, hclaimSlot] at hyields hkeeps
    rw [← hstep.1] at hyields hkeeps
    obtain ⟨htcreds, htpeers, htviews, htstore, htwearers, htlist, htheld, htframe⟩ :=
      clash_keeps_rest v (isLate k order) b
    intro keeps yields
    have hkept : keeps → v.clash (isLate k order) b = v := fun ⟨hconfirmed, own, hown, hle⟩ =>
      clash_of_kept (hkeeps hconfirmed own hown (hstep.1 ▸ hle)) _
    have hgiven : yields → v.yieldsClash b.slot = true := fun h => hyields (hstep.1 ▸ h)
    refine ⟨_, hexec, htviews.trans hviews, htpeers.trans hpeers, htcreds.trans (by rw [hstation]), hcounts,
      htstore.trans hstore, htwearers.trans (by rw [hstreams]), htlist.trans (by rw [hstreams]), hframe.trans htframe,
      htheld.trans hheld, fun h => ?_, fun h => ?_, fun h hnow => ?_, fun h hlast horder => ?_⟩
    · have hclaims : (v.clash (isLate k order) b).voice = v.voice ∧ (v.clash (isLate k order) b).farEnd = v.farEnd := by
        obtain h | ⟨hlast, horder⟩ := h
        · rw [hkept h]
          exact ⟨rfl, rfl⟩
        · obtain ⟨_, h⟩ | ⟨_, hnot, _⟩ | ⟨_, _, h⟩ := clash_cases v (isLate k order) b
          · rw [h]
            exact ⟨rfl, rfl⟩
          · rw [isLate_eq_true hlast horder] at hnot
            cases hnot
          · rw [h]
            exact ⟨rfl, rfl⟩
      exact ⟨State.readsMap_of (hclaims.1.trans hvoice), State.readsMap_of (hclaims.2.trans hfar)⟩
    · rw [hkept h]
      exact ⟨hstation, hflags, hbearer, hstreams, hpairing, hvlate⟩
    · rw [isLate_eq_false hnow, clash_of_yield (hgiven h)]
      obtain ⟨hidle, hnovoice, hnofar, hnobearer, habsent, hdown, hclash, hchanged⟩ := clashYield_gives_up v
      refine ⟨hidle, hnovoice, hnofar, hnobearer, habsent, fun hpresent => hdown (by rwa [hstreams]), hclash, hchanged,
        fun hclosed => ?_, fun hopen => ⟨?_, ?_⟩⟩
      · rw [clashYield_pairing, State.closeWindow_closed (by rwa [hpairing]), hpairing]
      · rw [clashYield_pairing, closeWindow_pairing, if_pos ((windowOpen_iff v).2 (by rwa [hpairing])), hpairing]
        rfl
      · exact clashYield_pairingEnded (.inr (by rwa [hpairing]))
    · rw [isLate_eq_true hlast horder, clash_of_lateYield (hgiven h)]
      exact ⟨hstation, hflags, congrArg (· ++ [LateEffect.clashYield]) hvlate⟩
  · obtain ⟨hcycle, hend, hframe⟩ := hends
    intro again
    refine ⟨_, execCycleEnd_due hcycle hend hframe order, ?_⟩
    have hnone := State.endCycle_noneLate s c order
    have hbegins := State.endCycle_begins c order hstate
    rw [State.endCycle_late, hlate] at hnone ⊢
    generalize ((s.atDeadline c).deadlineWork order).rotateViews.beginCycle c = w at hbegins hnone
    have hone : w.lateEffects [.clashYield] = w.lateEffect .clashYield := rfl
    rw [hone] at hnone ⊢
    obtain ⟨hwindow, hpeers, hcreds, hmember, hleaving, hclash⟩ := hbegins
    by_cases hagain : again
    · obtain ⟨hleave, hends⟩ := hagain
      have hidle := hleaving hleave
      rw [if_pos hends] at hidle
      rw [lateYield_idle hidle.1] at hnone ⊢
      exact ⟨hidle.1, hcreds, hpeers, hidle.2, hnone, fun _ => hclash, fun hnot => absurd ⟨hleave, hends⟩ hnot⟩
    · have hgroup : w.station.state = .member ∨ w.station.state = .leaving := by
        obtain h | h := hstate
        · exact .inl (by rw [hmember h, h])
        · have := hleaving h
          rw [if_neg fun hends => hagain ⟨h, hends⟩] at this
          exact .inr this
      rw [lateYield_inGroup hgroup] at hnone ⊢
      obtain ⟨hidle, hnovoice, hnofar, hnobearer, habsent, _, hnumber, hchanged⟩ := clashYield_gives_up w
      obtain ⟨hykeep, hypeers, _⟩ := clashYield_keeps_rest w
      obtain ⟨hclosed, hopened⟩ := hwindow.yielded
      refine ⟨hidle, hykeep.trans hcreds, hypeers.trans hpeers, hchanged, hnone, fun h => absurd h hagain,
        fun _ => ⟨hnovoice, hnofar, hnobearer, habsent, hnumber, fun h => ?_, fun h => ?_⟩⟩
      · rw [clashYield_pairing]
        exact hclosed h
      · obtain ⟨hpairing, hflag⟩ := hopened h
        refine ⟨(clashYield_pairing w).trans hpairing, clashYield_pairingEnded ?_⟩
        by_cases hopen : w.pairing.window.state = .opened
        · exact .inr hopen
        · rw [State.closeWindow, if_neg (mt (windowOpen_iff w).1 hopen)] at hflag
          exact .inl hflag

end Sys2Proof.Proofs.Clash
end

section
/-! PROOFS. The alignment to a reference, in LISTEN and in SEEKING. -/

namespace Sys2Proof.Proofs.Alignment

open Sys2Proof Sys2Proof.Machine Sys2Proof.Proofs.Window Sys2Proof.Proofs.Table Sys2Proof.Proofs.Clash
  Sys2Proof.Proofs.Offers Sys2Proof.Proofs.SlotEnd

/-! ### The aligned cycle (R27, R32, Table 2-3) -/

/-- A phase moved by whole steps, 5,000 to 14,999 ticks after a base. -/
theorem placeEnd_moved (p base : Int) :
    base + 5000 ≤ placeEnd p base ∧ placeEnd p base ≤ base + 14999 ∧ ∃ n : Int, placeEnd p base = p + 10000 * n := by
  rw [placeEnd]
  exact ⟨by omega, by omega, -((p - base - 5000) / 10000), by omega⟩

theorem align_late {c : Cycle} {tr : Nat} (h : ¬tr < c.planned) (p : Int) :
    c.align p tr = { c with nextPhase := some p } := if_neg h

theorem align_far {c : Cycle} {p : Int} {tr : Nat} (h : tr < c.planned) (he : (tr : Int) + 625 ≤ placeEnd p c.start) :
    c.align p tr = c.endAt tr (placeEnd p c.start).toNat none := (if_pos h).trans (if_pos he)

theorem align_near {c : Cycle} {p : Int} {tr : Nat} (h : tr < c.planned) (he : ¬(tr : Int) + 625 ≤ placeEnd p c.start) :
    c.align p tr = c.endAt tr (tr + 625) (some p) := (if_pos h).trans (if_neg he)

theorem align_alignedTo (c : Cycle) (p : Int) (tr : Nat) : c.alignedTo p tr (c.align p tr) := by
  obtain ⟨hlow, hhigh, hsteps⟩ := placeEnd_moved p c.start
  refine ⟨placeEnd p c.start, hlow, hhigh, hsteps, ?_⟩
  by_cases hearly : tr < c.planned
  · rw [if_pos hearly]
    by_cases hfar : (tr : Int) + 625 ≤ placeEnd p c.start
    · rw [align_far hearly hfar, if_pos hfar]
      exact ⟨rfl, rfl, rfl, rfl, rfl, Int.toNat_of_nonneg (by omega), rfl⟩
    · rw [align_near hearly hfar, if_neg hfar]
      exact ⟨rfl, rfl, rfl, rfl, rfl, rfl, rfl⟩
  · rw [if_neg hearly, align_late hearly]

/-- The aligned cycle ends after the reception exactly where the cycle in progress would have. -/
theorem lt_align_planned (c : Cycle) (p : Int) (tr : Nat) : tr < (c.align p tr).planned ↔ tr < c.planned := by
  by_cases hearly : tr < c.planned
  · by_cases hfar : (tr : Int) + 625 ≤ placeEnd p c.start
    · rw [align_far hearly hfar]
      show tr < (placeEnd p c.start).toNat ↔ _
      omega
    · rw [align_near hearly hfar]
      show tr < tr + 625 ↔ _
      omega
  · rw [align_late hearly]

/-- The slot that comes next after an alignment. -/
theorem align_slotAfterAlign (c : Cycle) (p : Int) (tr : Nat) :
    (c.align p tr).slotAfterAlign tr = if tr < c.planned then (c.align p tr).firstSlot else 16 := by
  simp only [Cycle.slotAfterAlign, lt_align_planned]

/-- What an alignment makes of the state. -/
theorem align_state (s : State) (c : Cycle) (p : Int) (tr : Nat) :
    (s.align c p tr).timer = { s.timer with cycle := some (c.align p tr), stepLoss := 0, log := [] } ∧
      (s.align c p tr).chan = { s.chan with nextSlot := (c.align p tr).slotAfterAlign tr } ∧
      (s.align c p tr).viewsUnknown := ⟨rfl, rfl, rfl⟩

/-! ### What the hand-off leaves alone -/

/-- The slot to come and the absence of an offer stay. -/
def keepsSlot (s t : State) : Prop :=
  t.chan.nextSlot = s.chan.nextSlot ∧ t.chan.inSlot = s.chan.inSlot ∧
    (s.pairing.offer = none → t.pairing.offer = none)

theorem keepsSlot.refl (s : State) : keepsSlot s s := ⟨rfl, rfl, id⟩

theorem keepsSlot.trans {s t u : State} (h : keepsSlot s t) (h' : keepsSlot t u) : keepsSlot s u :=
  ⟨h'.1.trans h.1, h'.2.1.trans h.2.1, h'.2.2 ∘ h.2.2⟩

theorem keepsSlot.of_chan {s t : State} (hchan : t.chan = s.chan) (hpairing : t.pairing.offer = s.pairing.offer) :
    keepsSlot s t := ⟨congrArg _ hchan, congrArg _ hchan, hpairing.trans⟩

theorem keepsSlot_closeWindow (s : State) (cause : CloseCause) : keepsSlot s (s.closeWindow cause) := by
  refine ⟨by simp, by simp, fun h => ?_⟩
  rw [closeWindow_pairing]
  split
  · rfl
  · exact h

theorem keepsSlot_nowOrLate {s t : State} (h : keepsSlot s t) (late : Bool) (e : LateEffect) :
    keepsSlot s (s.nowOrLate late e t) := by
  rw [State.nowOrLate]
  split
  · exact ⟨rfl, rfl, id⟩
  · exact h

/-- The receiver's turn leaves the slots. -/
theorem turn_slots (ch : Channel) (was now : Bool) (t : Nat) :
    (ch.turn was now t).nextSlot = ch.nextSlot ∧ (ch.turn was now t).inSlot = ch.inSlot := by
  cases was <;> cases now <;> exact ⟨rfl, rfl⟩

theorem keepsSlot_clash (s : State) (late : Bool) (b : Burst) : keepsSlot s (s.clash late b) := by
  rw [State.clash]
  split
  · refine keepsSlot_nowOrLate ⟨?_, ?_, fun h => ?_⟩ late .clashYield
    · simp [clashYield_eq, givenUp, State.enter, turn_slots]
    · simp [clashYield_eq, givenUp, State.enter, turn_slots]
    · rw [clashYield_pairing]
      exact (keepsSlot_closeWindow s .yielded).2.2 h
  · exact .refl s

theorem keepsSlot_peerCreated (s : State) (n : StationNo) : keepsSlot s (s.peerCreated n) := by
  rw [State.peerCreated]
  split
  · exact .of_chan rfl rfl
  · split
    · exact keepsSlot.trans (.of_chan rfl rfl) (keepsSlot_closeWindow (s.raise .peerNew) .done)
    · exact .of_chan rfl rfl

theorem keepsSlot_createPeer (s : State) (b : Burst) (d : Int) : keepsSlot s (s.createPeer b d) := by
  rw [State.createPeer]
  split
  · exact keepsSlot_peerCreated { s with peers := _ } _
  · split
    · exact .of_chan rfl rfl
    · exact keepsSlot_peerCreated { s with peers := _ } _

theorem keepsSlot_peerView (s : State) (b : Burst) (d : Int) : keepsSlot s (s.peerView b d) := by
  rw [State.peerView]
  split
  · cases b.kind with
    | voice | farend => exact keepsSlot_createPeer s b d
    | leave | join | offer | confirm => exact .refl s
  · split
    · exact .of_chan (by simp) (by simp)
    · exact .of_chan rfl rfl

theorem keepsSlot_heardPeer (s : State) (late : Bool) (b : Burst) (d : Int) : keepsSlot s (s.heardPeer late b d) := by
  have helection : ∀ t : State, keepsSlot t (t.election late b) := fun t => by
    rw [State.election]
    split
    · refine keepsSlot_nowOrLate (.of_chan ?_ ?_) late .electionYield <;> simp [State.electionYield]
    · exact .refl t
  have hwindow : ∀ t : State, keepsSlot t (t.windowYield late b) := fun t => by
    rw [State.windowYield]
    split
    · exact keepsSlot_nowOrLate (keepsSlot_closeWindow t .yielded) late .windowYield
    · exact .refl t
  rw [State.heardPeer]
  exact (((keepsSlot_peerView s b d).trans (helection _)).trans (hwindow _)).trans (.of_chan (by simp) (by simp))

theorem keepsSlot_heardAsMember (s : State) (late : Bool) (b : Burst) (d : Int) :
    keepsSlot s (s.heardAsMember late b d) := by
  have hread : keepsSlot s (s.readMap b.heardMap) := .refl s
  rw [State.heardAsMember]
  split
  · exact hread.trans (keepsSlot_clash _ late b)
  · exact hread.trans (keepsSlot_heardPeer _ late b d)

/-! ### The reference of a station in LISTEN (R25, R39, R58) -/

/-- The state in which a station in LISTEN takes its reference: a member on the new grid. -/
def atReference (s : State) (c : Cycle) (k : SlotIx) (air : List AirItem) (a : Nat) (b : Burst) : State :=
  (((s.slotOver c k (.own b.sender) (s.laterItems c k air)).markHeard b.sender).align c (phaseOf a b.slot)
    (c.slotEnd k.val).toNat).enterMember

theorem exec_slotEnd_listen {s : State} {c : Cycle} {k : SlotIx} {air : List AirItem} {a f : Nat} {bytes : List Byte}
    {b : Burst} (halone : s.hearsAlone c k air a f bytes b) (order : ReceptionOrder)
    (hlisten : s.station.state = .listen)
    (hnone : s.pairing.offer = none) (hgroup : b.group = s.station.creds.group) (hsender : b.sender ≠ 0) :
    (b.kind = .voice ∨ b.kind = .farend → exec (.slotEnd order air) s = .next
      ((atReference s c k air a b).heardAsMember (isLate k order) b 0)) ∧
    (b.kind = .leave ∨ b.kind = .offer → exec (.slotEnd order air) s = .next
      ((s.slotOver c k (.own b.sender) (s.laterItems c k air)).markHeard b.sender)) := by
  have hown : b.group = s.ownGroup := by rw [hgroup, State.ownGroup, hlisten]
  have hexec : exec (.slotEnd order air) s = _ := State.hearsAlone_own halone order (by rw [hlisten]; rfl) hown hsender
    (.inl (by rw [hlisten]; rfl))
  have hover : (s.slotOver c k (.own b.sender) (s.laterItems c k air)).station.state = .listen := hlisten
  simp only [State.heardOwn, hover, State.heardInListen] at hexec
  refine ⟨fun hkind => ?_, fun hkind => ?_⟩
  · have haligns : b.kind.aligns = true := by obtain h | h := hkind <;> rw [h] <;> rfl
    rw [if_pos haligns] at hexec
    have hnone' := (keepsSlot_heardAsMember (atReference s c k air a b) (isLate k order) b 0).2.2 hnone
    exact hexec.trans (congrArg _ (State.settleAt14_none hnone' k _))
  · have hnot : ¬b.kind.aligns = true := by obtain h | h := hkind <;> rw [h] <;> nofun
    rw [if_neg hnot] at hexec
    exact hexec.trans (congrArg _ (State.settleAt14_none
      (s := (s.slotOver c k (.own b.sender) (s.laterItems c k air)).markHeard b.sender) hnone k _))

/-- What the station is as it takes its reference. -/
theorem atReference_state {s : State} (hlisten : s.station.state = .listen) (c : Cycle) (k : SlotIx)
    (air : List AirItem)
    (a : Nat) (b : Burst) :
    let r := atReference s c k air a b
    r.station = { s.station with state := .member, leavingEnds := 0 } ∧
      r.voice = { Claim.gone with state := .waiting } ∧ r.flags = s.flags ||| Flag.stateChanged.mark ∧
      r.peers = s.peers ∧ r.streams = s.streams ∧ r.pairing = s.pairing ∧ r.store = s.store ∧ s.sameFrame r ∧
      r.viewsUnknown ∧ r.chan.inSlot = false ∧ r.chan.late = s.chan.late ∧
      r.timer = { s.timer with
        cycle := some (c.align (phaseOf a b.slot) (c.slotEnd k.val).toNat), stepLoss := 0, log := [] } ∧
      r.chan.nextSlot = if (c.slotEnd k.val).toNat < c.planned
        then (c.align (phaseOf a b.slot) (c.slotEnd k.val).toNat).firstSlot else 16 := by
  intro r
  have hchan : r.chan.inSlot = false ∧ r.chan.late = s.chan.late ∧
      r.chan.nextSlot = (c.align (phaseOf a b.slot)
      (c.slotEnd k.val).toNat).slotAfterAlign (c.slotEnd k.val).toNat := by
    have hturn : r.chan = Channel.turn _ s.station.state.receiverOn true _ := rfl
    rw [hturn, hlisten]
    exact ⟨rfl, rfl, rfl⟩
  obtain ⟨hin, hlate, hnext⟩ := hchan
  exact ⟨rfl, rfl, rfl, rfl, rfl, rfl, rfl, ⟨rfl, rfl, rfl, rfl, rfl, rfl⟩, rfl, hin, hlate, rfl,
    hnext.trans (align_slotAfterAlign _ _ _)⟩

/-- Without an entry, and with room for one, the first burst creates the only entry (R45). -/
theorem peerView_first {s : State} (hnone : s.peers = []) {b : Burst} (hkind : b.kind = .voice ∨ b.kind = .farend)
    (d : Int) : (s.peerView b d).peers = [peerOfBurst b d] ∧ (s.peerView b d).flagSet .peerNew = true := by
  have hnew : findPeer b.sender s.peers = none := by rw [hnone]; rfl
  rw [peerView_creates hkind hnew, createPeer_room (by rw [hnone]; decide)]
  refine ⟨by simp [hnone, insertPeer], ?_⟩
  rw [peerCreated_flags _ _ _ (by decide), decide_eq_true rfl, Bool.or_true]

theorem storeReception_list_congr {s t : State} (h : t.streams.list = s.streams.list) (b : Burst) :
    (t.storeReception b).streams.list = (s.storeReception b).streams.list := by
  simp only [State.storeReception]
  split <;> simp_all

/-- The reference bears the own number: the station yields, now or after the cycle end (R58, assumption log 7). -/
theorem reference_own {r : State} (hwaiting : r.voice = { Claim.gone with state := .waiting }) {b : Burst}
    (hnumber : b.sender = r.station.creds.number) (late : Bool) (d : Int) :
    let t := r.heardAsMember late b d
    t.station.creds = r.station.creds ∧ t.peers = r.peers ∧ t.streams.list = r.streams.list ∧
      (r.flagSet .stateChanged = true → t.flagSet .stateChanged = true) ∧
      (late = false → t.station.state = .idle ∧ t.voice = Claim.gone ∧ t.farEnd = Claim.gone ∧
        t.flagSet .numberClash = true) ∧
      (late = true → t.station = r.station ∧ t.voice = r.voice ∧ t.chan.late = r.chan.late ++ [.clashYield]) := by
  intro t
  have hclash : t = (r.readMap b.heardMap).clash late b := if_pos hnumber
  have hread : (r.readMap b.heardMap).voice = r.voice := by
    show r.voice.readMap _ _ = _
    rw [hwaiting]
    rfl
  have hyields : (r.readMap b.heardMap).yieldsClash b.slot = true :=
    (yieldsClash_iff (r.readMap b.heardMap) b.slot).1 (.inl (by rw [hread, hwaiting]; nofun))
  obtain ⟨hcreds, hpeers, _, _, _, hlist, _⟩ := clash_keeps_rest (r.readMap b.heardMap) late b
  rw [← hclash] at hcreds hpeers hlist
  refine ⟨hcreds, hpeers, hlist, fun hchanged => ?_, fun hnow => ?_, fun hlater => ?_⟩
  · cases late with
    | false =>
      rw [hclash, clash_of_yield hyields]
      obtain ⟨_, _, _, _, _, _, _, hstate⟩ := clashYield_gives_up (r.readMap b.heardMap)
      exact hstate
    | true =>
      rw [hclash, clash_of_lateYield hyields]
      exact hchanged
  · rw [hclash, hnow, clash_of_yield hyields]
    obtain ⟨hidle, hnovoice, hnofar, _, _, _, hflag, _⟩ := clashYield_gives_up (r.readMap b.heardMap)
    exact ⟨hidle, hnovoice, hnofar, hflag⟩
  · rw [hclash, hlater, clash_of_lateYield hyields]
    exact ⟨rfl, hread, rfl⟩

/-- The reference is another station's: it gets the only entry. -/
theorem reference_other {r : State} (hwaiting : r.voice = { Claim.gone with state := .waiting }) (hempty : r.peers = [])
    {b : Burst} (hnumber : b.sender ≠ r.station.creds.number) (hkind : b.kind = .voice ∨ b.kind = .farend) (late : Bool)
    (d : Int) :
    let t := r.heardAsMember late b d
    t.station = r.station ∧ t.voice = r.voice ∧ t.peers = [peerOfBurst b d] ∧ t.flagSet .peerNew = true ∧
      (r.flagSet .stateChanged = true → t.flagSet .stateChanged = true) ∧
      t.streams.list = (r.storeReception b).streams.list := by
  intro t
  have hpeer : t = (r.readMap b.heardMap).heardPeer late b d := if_neg hnumber
  have hread : (r.readMap b.heardMap).voice = r.voice := by
    show r.voice.readMap _ _ = _
    rw [hwaiting]
    rfl
  have hnew : findPeer b.sender (r.readMap b.heardMap).peers = none := by
    show findPeer b.sender r.peers = none
    rw [hempty]
    rfl
  obtain ⟨hstation, _, _, _, _, _, _, hpeers, hvoice, _, hlist, hflags, _⟩ :=
    State.heardPeer_parts (r.readMap b.heardMap) late b d
  obtain ⟨hentry, hflag⟩ := peerView_first (s := r.readMap b.heardMap) hempty hkind d
  obtain ⟨_, hkept⟩ := peerView_new_streams hnew d
  rw [← hpeer] at hstation hpeers hvoice hlist hflags
  refine ⟨hstation, hvoice.trans hread, hpeers.trans hentry, (hflags .peerNew rfl).trans hflag, fun hchanged => ?_,
    hlist.trans (storeReception_list_congr (s := r) (t := r.readMap b.heardMap) rfl b)⟩
  rw [hflags .stateChanged rfl, hkept .stateChanged (by decide) (by decide) (by decide)]
  exact hchanged

/-! ### The reference of a newcomer in SEEKING (R26, R93) -/

theorem exec_slotEnd_seeking {s : State} {c : Cycle} {k : SlotIx} {air : List AirItem} {a f : Nat} {bytes : List Byte}
    {b : Burst} (halone : s.hearsAlone c k air a f bytes b) (order : ReceptionOrder)
    (hseeking : s.station.state = .seeking)
    (hnone : s.pairing.offer = none) (hopen : b.pairingOpen = true) :
    exec (.slotEnd order air) s = .next
      (((s.slotOver c k .foreign (s.laterItems c k air)).align c (phaseOf a b.slot) (c.slotEnd k.val).toNat).seekFound
        b.group) := by
  have ⟨hends, hsent, _, _, hparse⟩ := halone
  have hon : s.station.state.receiverOn = true := by rw [hseeking]; rfl
  have hheld := slotHolds_alone halone
  have hentry := (entryOf_on hon hsent k (slotHolds s c k air)).trans
    (hheld ▸ classify_foreign (s := s) hparse (.inr (.inr (.inl hseeking))) k)
  rw [exec_slotEnd_heard hends hsent order air, hentry, hheld]
  have hhand : ∀ r : Heard, r.burst = b → r.arrival = a →
      (s.slotOver c k .foreign (s.laterItems c k air)).handOff c k (c.slotEnd k.val).toNat (isLate k order) .foreign
        (.clean r) = ((s.slotOver c k .foreign (s.laterItems c k air)).align c (phaseOf a b.slot)
          (c.slotEnd k.val).toNat).seekFound b.group := by
    rintro r rfl rfl
    have hover : (s.slotOver c k .foreign (s.laterItems c k air)).station.state = .seeking := hseeking
    show State.heardForeign _ c k _ r = _
    simp only [State.heardForeign, hover, hopen, if_true]
  rw [hhand _ rfl rfl]
  exact congrArg _ (State.settleAt14_none (s := (State.align (s.slotOver c k .foreign (s.laterItems c k air)) c
    (phaseOf a b.slot) (c.slotEnd k.val).toNat).seekFound b.group)
    (by simpa [State.seekFound, State.enter, State.slotOver] using hnone) k _)

/-- The receiver of a newcomer stays on. -/
theorem seekFound_chan {s : State} (hseeking : s.station.state = .seeking) (c : Cycle) (k : SlotIx) (air : List AirItem)
    (a : Nat) (b : Burst) :
    let t := (((s.slotOver c k .foreign (s.laterItems c k air)).align c (phaseOf a b.slot)
      (c.slotEnd k.val).toNat).seekFound b.group)
    t.chan.nextSlot = (c.align (phaseOf a b.slot) (c.slotEnd k.val).toNat).slotAfterAlign (c.slotEnd k.val).toNat ∧
      t.chan.heard = s.chan.heard ∧ t.chan.held = s.laterItems c k air := by
  intro t
  have hturn : t.chan = Channel.turn _ s.station.state.receiverOn true _ := rfl
  rw [hturn, hseeking]
  exact ⟨rfl, rfl, rfl⟩

/-- Settles O40. -/
theorem alignmentTakesTheReferencesPhase : Obligations.AlignmentTakesTheReferencesPhase := by
  refine ⟨fun c k air a f bytes b order s halone hlisten hpeers hnone hgroup hsender => ?_,
    fun c k air a f bytes b nc order s halone hseeking hnewcomer hnone hopen => ?_⟩
  · obtain ⟨haligns, hrest⟩ := exec_slotEnd_listen halone order hlisten hnone hgroup hsender
    obtain ⟨_, hexecHeard, hheard⟩ := State.hearsAlone_heard halone order hlisten hgroup hsender
    obtain ⟨_, hexecHeld, hheld⟩ := State.hearsAlone_held halone order
    refine ⟨fun hkind => ?_, fun hkind => ?_⟩
    · have hexec := haligns hkind
      obtain rfl := Host.Outcome.next.inj (hexecHeard.symm.trans hexec)
      obtain rfl := Host.Outcome.next.inj (hexecHeld.symm.trans hexec)
      obtain ⟨hstation, hvoice, hflags, hrpeers, hstreams, hpairing, hstore, hframe, hviews, hin, hlate,
        htimer, hnext⟩ :=
        atReference_state hlisten c k air a b
      generalize atReference s c k air a b = r at *
      obtain ⟨_, hfactory, hhold, httimer, _, htviews, hmute, htstore, hconfig, _, hcodec, hpending⟩ :=
        r.heardAsMember_frame (isLate k order) b 0
      obtain ⟨htnext, htin, _⟩ := keepsSlot_heardAsMember r (isLate k order) b 0
      have htframe : s.sameFrame (r.heardAsMember (isLate k order) b 0) :=
        hframe.trans ⟨hhold, hfactory, hmute, hconfig, hcodec, hpending⟩
      have hchanged : r.flagSet .stateChanged = true := by
        rw [State.flagSet, hflags]
        exact State.raise_flagSet_self s .stateChanged
      have hrnumber : r.station.creds.number = s.station.creds.number := by rw [hstation]
      have hstep : (r.heardAsMember (isLate k order) b 0).timer.stepLoss = 0 ∧
          (r.heardAsMember (isLate k order) b 0).timer.log = [] ∧
          (r.heardAsMember (isLate k order) b 0).timer.counter = s.timer.counter ∧
          (r.heardAsMember (isLate k order) b 0).timer.cycle =
            some (c.align (phaseOf a b.slot) (c.slotEnd k.val).toNat) := by
        rw [httimer, htimer]
        exact ⟨rfl, rfl, rfl, rfl⟩
      obtain ⟨hloss, hlog, hcounter, hcycle⟩ := hstep
      have hviews' : (r.heardAsMember (isLate k order) b 0).viewsUnknown := htviews.trans hviews
      by_cases hnumber : b.sender = s.station.creds.number
      · obtain ⟨htcreds, htpeers, htlist, htchanged, hyield, hwaits⟩ :=
          reference_own hvoice (hnumber.trans hrnumber.symm) (isLate k order) 0
        refine ⟨_, _, hexec, hcycle, align_alignedTo c _ _, hloss, hlog, hcounter, htnext.trans hnext, htin.trans hin,
          hviews', htcreds.trans (by rw [hstation]), htchanged hchanged, htstore.trans hstore, htframe, hheard, hheld,
          fun _ => htlist.trans (by rw [hstreams]), fun h => absurd hnumber h, fun _ hnow => ?_,
          fun _ hlast horder => ?_⟩
        · obtain ⟨hidle, hnovoice, hnofar, hflag⟩ := hyield (isLate_eq_false hnow)
          exact ⟨hidle, hnovoice, hnofar, htpeers.trans (hrpeers.trans hpeers), hflag⟩
        · obtain ⟨htstation, htvoice, htlate⟩ := hwaits (isLate_eq_true hlast horder)
          exact ⟨by rw [htstation, hstation], htvoice.trans hvoice, htpeers.trans (hrpeers.trans hpeers),
            htlate.trans (by rw [hlate])⟩
      · obtain ⟨htstation, htvoice, htpeers, htnew, htchanged, htlist⟩ :=
          reference_other hvoice (hrpeers.trans hpeers) (by rwa [hrnumber]) hkind (isLate k order) 0
        refine ⟨_, _, hexec, hcycle, align_alignedTo c _ _, hloss, hlog, hcounter, htnext.trans hnext, htin.trans hin,
          hviews', by rw [htstation, hstation], htchanged hchanged, htstore.trans hstore, htframe, hheard, hheld,
          fun h => absurd h hnumber, fun _ => ⟨?_, by rw [htstation, hstation], htvoice.trans hvoice, htnew, htpeers⟩,
          fun h => absurd h hnumber, fun h => absurd h hnumber⟩
        exact State.storeReception_stores halone.2.2.2.2 (htlist.trans (storeReception_list_congr (by rw [hstreams]) b))
    · have hexec := hrest hkind
      obtain rfl := Host.Outcome.next.inj (hexecHeard.symm.trans hexec)
      exact ⟨_, hexec, rfl, rfl, hpeers, rfl, rfl, rfl, rfl, rfl, hheard, rfl, rfl, rfl, rfl, rfl, rfl, rfl⟩
  · have hexec := exec_slotEnd_seeking halone order hseeking hnone hopen
    obtain ⟨t, ht⟩ : ∃ t, (((s.slotOver c k .foreign (s.laterItems c k air)).align c (phaseOf a b.slot)
      (c.slotEnd k.val).toNat).seekFound b.group) = t := ⟨_, rfl⟩
    rw [ht] at hexec
    obtain ⟨hnext, hheard, hheld⟩ := seekFound_chan hseeking c k air a b
    rw [ht] at hnext hheard hheld
    have hpairing : t.pairing = { s.pairing with newcomer := some { nc with target := some b.group, hold := 1 } } := by
      rw [← ht]
      show ({ s.pairing with newcomer := s.pairing.newcomer.map (Newcomer.found b.group) } : Pairing) = _
      rw [hnewcomer]
      rfl
    refine ⟨t, _, hexec, by rw [← ht]; rfl,
      align_alignedTo c _ _, by rw [← ht]; rfl, by rw [← ht]; rfl, by rw [← ht]; rfl,
      hnext.trans (align_slotAfterAlign _ _ _), by rw [← ht]; rfl, by rw [← ht]; rfl, by rw [← ht]; rfl, hpairing, ?_⟩
    rw [← ht] at hheard hheld ⊢
    exact ⟨rfl, rfl, rfl, rfl, rfl, rfl, rfl, hheard, hheld, rfl, rfl, rfl, rfl, rfl, rfl⟩

end Sys2Proof.Proofs.Alignment
end

section
/-! PROOFS. The cycle that begins at a cycle end: its grid, its views and the cycle timer's choice. -/

namespace Sys2Proof.Proofs.NextCycle

open Sys2Proof Sys2Proof.Machine Sys2Proof.Proofs.Clash Sys2Proof.Proofs.Alignment

/-! ### The step jump and the cycle timer's own work (R21 to R23) -/

theorem jumpIfDue_due {s : State} {c : Cycle} (h : s.jumpDue c = true) : s.jumpIfDue c = s.stepJump c := if_pos h

theorem jumpIfDue_not {s : State} {c : Cycle} (h : s.jumpDue c = false) : s.jumpIfDue c = s :=
  if_neg (by rw [h]; nofun)

theorem stepJump_timer (s : State) (c : Cycle) :
    (s.stepJump c).timer = { s.timer with stepLoss := 0, lastCorrection := 0 } ∧
      (s.stepJump c).early.jump = some (s.jumpEnd c) ∧ (s.stepJump c).early.viewsSet = true := ⟨rfl, rfl, rfl⟩

theorem jumpIfDue_timer (s : State) (c : Cycle) :
    (s.jumpIfDue c).timer.counter = s.timer.counter ∧ (s.jumpIfDue c).timer.log = s.timer.log ∧
      (s.jumpIfDue c).timer.cycle = s.timer.cycle := by
  rw [State.jumpIfDue]
  split <;> exact ⟨rfl, rfl, rfl⟩

/-- The jump that a cycle end makes or finds made. -/
theorem jumpIfDue_early (s : State) (c : Cycle) :
    ((s.jumpIfDue c).early.jump.isSome = true ↔ s.early.jump ≠ none ∨ s.jumpDue c = true) ∧
      ((s.jumpIfDue c).early.viewsSet = true ↔ s.early.viewsSet = true ∨ s.jumpDue c = true) := by
  cases hdue : s.jumpDue c with
  | true =>
    rw [jumpIfDue_due hdue]
    exact ⟨⟨fun _ => .inr rfl, fun _ => rfl⟩, ⟨fun _ => .inr rfl, fun _ => rfl⟩⟩
  | false =>
    rw [jumpIfDue_not hdue]
    simp [Option.isSome_iff_ne_none]

theorem cycleWork_timer (s : State) (c : Cycle) : (s.cycleWork c).timer = ((s.jumpIfDue c).timerWork c).timer := by
  simp [State.cycleWork]

theorem cycleWork_early (s : State) (c : Cycle) :
    (s.cycleWork c).early.jump = (s.jumpIfDue c).early.jump ∧
      (s.cycleWork c).early.viewsSet = (s.jumpIfDue c).early.viewsSet := by
  obtain ⟨a, b, hclaims⟩ := State.claimWork_early ((s.jumpIfDue c).timerWork c)
  simp [State.cycleWork, hclaims]

/-! ### What the transitions and the audio work leave -/

/-- The entry to MEMBER alone is due (R39). -/
def entersAlone (s : State) : Prop := s.station.state = .listen ∧ 3 ≤ s.station.listenCount

theorem countListen_early (s : State) :
    s.countListen.early.jump = s.early.jump ∧
      (s.countListen.early.viewsSet = true ↔ s.early.viewsSet = true ∨ 3 ≤ s.station.listenCount) := by
  rw [State.countListen]
  by_cases hfour : 4 ≤ s.station.listenCount + 1
  · rw [if_pos hfour]
    exact ⟨rfl, fun _ => .inr (by omega), fun _ => rfl⟩
  · rw [if_neg hfour]
    exact ⟨rfl, .inl, fun h => h.resolve_right (by omega)⟩

theorem transitions_early (s : State) :
    s.transitions.early.jump = s.early.jump ∧
      (s.transitions.early.viewsSet = true ↔ s.early.viewsSet = true ∨ entersAlone s) ∧
      s.transitions.station.creds = s.station.creds := by
  rw [State.transitions, entersAlone]
  cases hstate : s.station.state with
  | listen =>
    obtain ⟨hjump, hviews⟩ := countListen_early s
    refine ⟨hjump, by simpa using hviews, ?_⟩
    simp only [State.countListen]
    split <;> rfl
  | seeking =>
    simp only [State.countSeek, State.pairTimeout]
    repeat' split
    all_goals simp [State.enter, State.dropNewcomer]
  | joining =>
    simp only [State.decideNewcomer, State.pairTimeout]
    repeat' split
    all_goals simp [State.enter, State.dropNewcomer]
  | member => simp
  | leaving =>
    refine ⟨by simp, by simp, ?_⟩
    simp only [State.countLeaving]
    split <;> rfl
  | unconfigured | idle => simp

theorem deadlineWork_early (s : State) (order : DeadlineOrder) :
    (s.deadlineWork order).early.jump = s.early.jump ∧
      ((s.deadlineWork order).early.viewsSet = true ↔ s.early.viewsSet = true ∨ entersAlone s) ∧
      (s.deadlineWork order).station.creds = s.station.creds := by
  cases order with
  | stateFirst =>
    obtain ⟨hjump, hviews, hcreds⟩ := transitions_early s
    exact ⟨by simpa [State.deadlineWork] using hjump, by simpa [State.deadlineWork] using hviews,
      by simpa [State.deadlineWork] using hcreds⟩
  | deadlineFirst =>
    obtain ⟨hjump, hviews, hcreds⟩ := transitions_early s.deadline
    simp only [entersAlone, State.deadline_frame] at hjump hviews hcreds
    exact ⟨hjump, hviews, hcreds⟩

theorem transitions_views {s : State} (h : ¬entersAlone s) : s.transitions.views = s.views := by
  rw [State.transitions]
  cases hstate : s.station.state with
  | listen =>
    have hfew : ¬4 ≤ s.station.listenCount + 1 := fun hfour => h ⟨hstate, by omega⟩
    show s.countListen.views = s.views
    rw [State.countListen, if_neg hfew]
  | seeking =>
    simp only [State.countSeek, State.pairTimeout]
    repeat' split
    all_goals simp [State.dropNewcomer]
  | joining =>
    simp only [State.decideNewcomer, State.pairTimeout]
    repeat' split
    all_goals simp [State.dropNewcomer]
  | member => simp
  | leaving => simp
  | unconfigured | idle => rfl

theorem deadlineWork_views {s : State} (h : ¬entersAlone s) (order : DeadlineOrder) :
    (s.deadlineWork order).views = s.views := by
  cases order with
  | stateFirst => simpa [State.deadlineWork] using transitions_views h
  | deadlineFirst =>
    have hdeadline : ¬entersAlone s.deadline := by simpa [entersAlone] using h
    simpa [State.deadlineWork] using transitions_views hdeadline

theorem updateStreams_list (s : State) (ps : List Peer) : (s.updateStreams ps).streams.list = [] := by
  rw [State.updateStreams]
  split
  · simp [State.updateFromAir]
  · simp [State.silenceStreams]

/-- After the audio work the reception list is empty and a fresh capture begins (R34, R114). -/
theorem deadline_fresh (s : State) :
    s.deadline.streams.list = [] ∧ s.deadline.codec.frameIx = 0 ∧ s.deadline.codec.capture = silence := by
  have hlist := updateStreams_list s s.peers
  refine ⟨?_, rfl, rfl⟩
  simpa [State.deadline, State.prepareVoice] using hlist

theorem deadlineWork_fresh (s : State) (order : DeadlineOrder) :
    (s.deadlineWork order).streams.list = [] ∧ (s.deadlineWork order).codec.frameIx = 0 ∧
      (s.deadlineWork order).codec.capture = silence := by
  cases order with
  | stateFirst => exact deadline_fresh s.transitions
  | deadlineFirst =>
    obtain ⟨hlist, hframe, hcapture⟩ := deadline_fresh s
    exact ⟨(State.transitions_wearers _).2.trans hlist, by simpa [State.deadlineWork] using hframe,
      by simpa [State.deadlineWork] using hcapture⟩

/-! ### What the late effects of slot 15 leave -/

/-- The slots, the senders heard and the credentials stay. -/
def keepsBegun (s t : State) : Prop :=
  t.chan.nextSlot = s.chan.nextSlot ∧ t.chan.inSlot = s.chan.inSlot ∧ t.chan.heard = s.chan.heard ∧
    t.station.creds = s.station.creds

theorem lateEffect_keepsBegun (s : State) (e : LateEffect) : keepsBegun s (s.lateEffect e) := by
  cases e with
  | clashYield =>
    rw [State.lateEffect]
    split
    · exact ⟨by simp [clashYield_eq, givenUp, State.enter, turn_slots], by simp [clashYield_eq, givenUp, State.enter,
        turn_slots],
        s.yields_heard.1, by simp [clashYield_eq, givenUp, State.enter]⟩
    · exact ⟨rfl, rfl, rfl, rfl⟩
  | electionYield =>
    rw [State.lateEffect]
    split
    · simp [keepsBegun, State.electionYield]
    · exact ⟨rfl, rfl, rfl, rfl⟩
  | windowYield => simp [keepsBegun, State.lateEffect]

theorem lateEffects_keepsBegun (s : State) (es : List LateEffect) : keepsBegun s (s.lateEffects es) := by
  induction es generalizing s with
  | nil => exact ⟨rfl, rfl, rfl, rfl⟩
  | cons e es ih =>
    obtain ⟨hnext, hin, hheard, hcreds⟩ := lateEffect_keepsBegun s e
    obtain ⟨hnext', hin', hheard', hcreds'⟩ := ih (s.lateEffect e)
    exact ⟨hnext'.trans hnext, hin'.trans hin, hheard'.trans hheard, hcreds'.trans hcreds⟩

/-! ### The cycle that begins (R20, R23, R27) -/

/-- Whatever kind it is, it starts at the planned end, with its length fixed and nothing to re-space it. -/
theorem nextCycle_begins (s : State) (c : Cycle) :
    (s.nextCycle c).start = c.planned ∧ (s.nextCycle c).length = (s.nextCycle c).planned - (s.nextCycle c).start ∧
      (s.nextCycle c).respaced = [] ∧ (s.nextCycle c).nextPhase = none := by
  rw [State.nextCycle]
  split
  · exact ⟨rfl, rfl, rfl, rfl⟩
  · split <;> exact ⟨rfl, rfl, rfl, rfl⟩

/-- The state that the transitions and the audio work leave at the end of cycle `c`. -/
def decided (s : State) (c : Cycle) (order : DeadlineOrder) : State := (s.atDeadline c).deadlineWork order

theorem decided_timer (s : State) (c : Cycle) (order : DeadlineOrder) :
    (decided s c order).timer = (((s.atInstant c.planned).jumpIfDue c).timerWork c).timer := by
  simp only [decided, State.deadlineWork_frame]
  exact cycleWork_timer _ c

/-- What the cycle end has made of the jump and of the views' mark. -/
theorem decided_early (s : State) (c : Cycle) (order : DeadlineOrder) :
    (decided s c order).early.jump = ((s.atInstant c.planned).jumpIfDue c).early.jump ∧
      ((decided s c order).early.viewsSet = true ↔
        s.early.viewsSet = true ∨ s.jumpDue c = true ∨ entersAlone s) := by
  obtain ⟨hjump, hviews, _⟩ := deadlineWork_early (s.atDeadline c) order
  obtain ⟨hwork, hworkViews⟩ := cycleWork_early (s.atInstant c.planned) c
  have hstation : (s.atDeadline c).station = s.station := by simp [State.atDeadline, State.atInstant]
  refine ⟨hjump.trans hwork, hviews.trans ?_⟩
  have hset : (s.atDeadline c).early.viewsSet = true ↔ s.early.viewsSet = true ∨ s.jumpDue c = true := by
    rw [State.atDeadline, hworkViews]
    exact (jumpIfDue_early (s.atInstant c.planned) c).2
  rw [hset, entersAlone, entersAlone, hstation, or_assoc]

/-- The cycle end as the late effects of the state in which the next cycle begins. -/
theorem endCycle_decided (s : State) (c : Cycle) (order : DeadlineOrder) :
    s.endCycle c order = ((decided s c order).rotateViews.beginCycle c).lateEffects s.chan.late := rfl

theorem begin_timer (d : State) (c : Cycle) :
    (d.rotateViews.beginCycle c).timer = { d.timer with cycle := some (d.nextCycle c), log := [] } := by
  rw [State.beginCycle, State.rotateViews]
  split <;> rfl

/-- What stands in the state in which the next cycle begins. -/
theorem begin_chan (d : State) (c : Cycle) :
    (d.rotateViews.beginCycle c).chan.nextSlot = (d.nextCycle c).firstSlot ∧
      (d.rotateViews.beginCycle c).chan.inSlot = false ∧ (d.rotateViews.beginCycle c).chan.heard = [] ∧
      (d.rotateViews.beginCycle c).early = Early.clear ∧
      (d.rotateViews.beginCycle c).codec = { d.codec with
        syncLow := d.config.syncLow, edgeReversed := d.config.edgeReversed, shifting := none } := by
  rw [State.rotateViews]
  split <;> exact ⟨rfl, rfl, rfl, rfl, rfl⟩

theorem begin_views (d : State) (c : Cycle) : (d.rotateViews.beginCycle c).views =
    if d.early.viewsSet || d.jumpNext then Views.unknown
    else { filling := viewOf .empty, v1 := d.views.filling, v2 := d.views.v1 } := by
  rw [State.rotateViews]
  split <;> rfl

/-- The timer at the end of `c`. -/
theorem endCycle_timer (s : State) (c : Cycle) (order : DeadlineOrder) :
    (s.endCycle c order).timer = { (((s.atInstant c.planned).jumpIfDue c).timerWork c).timer with
      cycle := some ((decided s c order).nextCycle c), log := [] } := by
  rw [endCycle_decided, ← decided_timer s c order, ← begin_timer]
  simp only [State.lateEffects_frame]

/-- Where the views are set by this cycle end, or a placed cycle follows, they become UNKNOWN (R24, R28, R60). -/
theorem forgets_iff {s : State} {c : Cycle} (hcycle : s.timer.cycle = some c) (order : DeadlineOrder) :
    ((decided s c order).early.viewsSet || (decided s c order).jumpNext) = true ↔
      s.early.viewsSet = true ∨ s.early.jump ≠ none ∨ s.jumpDue c = true ∨ c.nextPhase ≠ none ∨ entersAlone s := by
  obtain ⟨hjump, hviews⟩ := decided_early s c order
  have hsame : (decided s c order).timer.cycle = some c := by
    rw [decided_timer]
    exact (jumpIfDue_timer _ c).2.2.trans hcycle
  have hmade : ((s.atInstant c.planned).jumpIfDue c).early.jump.isSome = true ↔
    s.early.jump ≠ none ∨ s.jumpDue c = true :=
    (jumpIfDue_early (s.atInstant c.planned) c).1
  rw [Bool.or_eq_true, hviews, State.jumpNext, Bool.or_eq_true, hjump, hmade, hsame]
  simp only [Option.bind_some, Option.isSome_iff_ne_none]
  tauto

/-- The views that rotate are those of the cycle just ended. -/
theorem decided_views {s : State} {c : Cycle} (hjump : s.jumpDue c = false) (halone : ¬entersAlone s)
    (order : DeadlineOrder) : (decided s c order).views = s.views := by
  have hstation : (s.atDeadline c).station = s.station := by simp [State.atDeadline, State.atInstant]
  have hviews : (s.atDeadline c).views = s.views := by
    have hsame : ((s.atInstant c.planned).jumpIfDue c).views = s.views := by
      rw [jumpIfDue_not (s := s.atInstant c.planned) hjump]
      rfl
    simpa [State.atDeadline, State.cycleWork] using hsame
  exact (deadlineWork_views (by rwa [entersAlone, hstation]) order).trans hviews

/-- Settles O42. -/
theorem cycleEndBeginsTheNextCycle : Obligations.CycleEndBeginsTheNextCycle := by
  intro c order s hcycle hend hframe forgets
  refine ⟨_, (decided s c order).nextCycle c, execCycleEnd_due hcycle hend hframe order, ?_⟩
  have htimer := endCycle_timer s c order
  have hnone := State.endCycle_noneLate s c order
  have hheld := State.endCycle_held s c order
  obtain ⟨hid, hhold, hmute, hstore, hconfig, hport, hpending⟩ := s.endCycle_frame c order
  obtain ⟨hstart, hlength, hrespaced, hphase⟩ := nextCycle_begins (decided s c order) c
  obtain ⟨hnext, hin, hheard, hearly, hcodec⟩ := begin_chan (decided s c order) c
  have hviews := begin_views (decided s c order) c
  have hforgets := forgets_iff hcycle order
  obtain ⟨hlist, hframes, hcapture⟩ : (decided s c order).streams.list = [] ∧ (decided s c order).codec.frameIx = 0 ∧
      (decided s c order).codec.capture = silence := deadlineWork_fresh (s.atDeadline c) order
  have hcreds : (decided s c order).station.creds = (s.atDeadline c).station.creds :=
    (deadlineWork_early (s.atDeadline c) order).2.2
  have hnow : (decided s c order).now = max s.now c.planned := by
    simp [decided, State.atDeadline, State.atInstant]
  have hdconfig : (decided s c order).config = s.config := by
    simp [decided, State.atDeadline, State.atInstant]
  have hstation : (s.atDeadline c).station.creds = s.station.creds := by simp [State.atDeadline, State.atInstant]
  have hcounter := (jumpIfDue_timer (s.atInstant c.planned) c).1
  rw [endCycle_decided] at *
  obtain ⟨hlnext, hlin, hlheard, hlcreds⟩ :=
    lateEffects_keepsBegun ((decided s c order).rotateViews.beginCycle c) s.chan.late
  obtain ⟨_, hllist⟩ := State.lateEffects_wearers s.chan.late ((decided s c order).rotateViews.beginCycle c)
  obtain ⟨hlnow, _, _, _, hlearly, hlviews, _, _, _, _, _, hlcodec, _⟩ :=
    State.lateEffects_frame ((decided s c order).rotateViews.beginCycle c) s.chan.late
  rw [htimer, hlviews, hlcodec, hlnow, hviews, hcodec, hdconfig]
  refine ⟨rfl, hstart, ?_, ?_, rfl, hlheard.trans hheard, hlength, hrespaced, hphase, hheld, hlin.trans hin,
    hlnext.trans hnext, hframes, hcapture, rfl, rfl, rfl, hllist.trans ?_, fun h => ?_, fun h => ?_,
    hlearly.trans hearly,
    hnone, hlcreds.trans ?_, hstore, hconfig, hmute, hport, hhold, hid, hpending⟩
  · simpa using hnow
  · exact congrArg (· + 1) hcounter
  · simpa using hlist
  · show (_ : State).views = _
    rw [hlviews, hviews, if_pos (hforgets.2 h)]
    rfl
  · have hjump : s.jumpDue c = false := Bool.eq_false_iff.2 fun hdue => h (.inr (.inr (.inl hdue)))
    have halone : ¬entersAlone s := fun halone => h (.inr (.inr (.inr (.inr halone))))
    rw [if_neg (mt hforgets.1 h), decided_views hjump halone]
    rfl
  · simpa using hcreds.trans hstation

/-! ### The cycle timer's choice (R21 to R23, R27) -/

theorem nextCycle_jump {s : State} {e : Nat} (h : s.early.jump = some e) (c : Cycle) :
    s.nextCycle c = jumpCycle .stepJump c.planned e := by
  rw [State.nextCycle, h]

theorem nextCycle_placed {s : State} (h : s.early.jump = none) {c : Cycle} {p : Int} (hphase : c.nextPhase = some p) :
    s.nextCycle c = jumpCycle .aligned c.planned (placeEnd p c.planned).toNat := by
  simp only [State.nextCycle, h, hphase]

theorem nextCycle_ordinary {s : State} (h : s.early.jump = none) {c : Cycle} (hphase : c.nextPhase = none) :
    s.nextCycle c = ordinaryCycle c.planned s.timer.lastCorrection := by
  simp only [State.nextCycle, h, hphase]

/-- After a jump, made now or by its own row, nothing is corrected and the counter starts again. -/
theorem timerWork_jumped {s : State} (h : s.early.jump.isSome = true) (c : Cycle) :
    (s.timerWork c).timer.lastCorrection = 0 ∧ (s.timerWork c).timer.stepLoss = 0 := by
  have hcorrection : s.correctionNow c = 0 := if_neg fun ⟨_, hnone, _⟩ => by
    rw [Option.isNone_iff_eq_none] at hnone
    rw [hnone] at h
    cases h
  have hloss : s.stepLossNow c = 0 := if_pos h
  exact ⟨hcorrection, hloss⟩

/-- The correction where no jump is made. -/
theorem correctionNow_eq {s : State} (h : s.early.jump = none) (c : Cycle) :
    s.correctionNow c = if s.station.state = .member ∧ c.nextPhase = none then correctionOf (s.countedRx c) else 0 := by
  simp [State.correctionNow, h]

/-- The quotient of the OWN receptions' offsets, clamped to six ticks either way (R21). -/
theorem correctionOf_counted (s : State) (c : Cycle) :
    correctionOf (s.countedRx c) =
      max (-6) (min 6 (Int.tdiv (s.countedOffsets c).sum ((s.countedOffsets c).length + 1))) := by
  rw [correctionOf, ownRx_counted, clampInt, State.countedOffsets, List.length_map]

theorem stepLossNow_eq {s : State} (h : s.early.jump = none) (c : Cycle) :
    s.stepLossNow c = if s.outnumberedNow c then s.timer.stepLoss + 1 else 0 := by
  simp [State.stepLossNow, h]

/-- The end of an ordinary cycle: at most six ticks from the nominal one. -/
theorem ordinaryCycle_planned {t : Nat} {correction : Int} (h : -6 ≤ correction) :
    ((ordinaryCycle t correction).planned : Int) = t + 10000 + correction :=
  Int.toNat_of_nonneg (by omega)

/-- Settles O43. -/
theorem cycleTimerChoosesTheNextCycle : Obligations.CycleTimerChoosesTheNextCycle := by
  refine ⟨fun c s => s.jumpDue_iff c, ?_, placeEnd_spec⟩
  intro c order s hends ds quotient
  obtain ⟨hcycle, hend, hframe⟩ := hends
  have htimer := endCycle_timer s c order
  have hearly := (decided_early s c order).1
  have hdtimer := decided_timer s c order
  refine ⟨_, (decided s c order).nextCycle c, execCycleEnd_due hcycle hend hframe order, by rw [htimer],
    (nextCycle_begins _ c).1, fun hdue => ?_, fun e hmade => ?_, fun hnone hnot => ?_⟩
  · have hdue' : (s.atInstant c.planned).jumpDue c = true := hdue
    rw [jumpIfDue_due hdue'] at hearly htimer
    obtain ⟨_, _, houtnumbered, _⟩ := (s.jumpDue_iff c).1 hdue
    obtain ⟨r, hr, hreference⟩ := jumpReference_is houtnumbered
    have hplace : (s.atInstant c.planned).jumpEnd c = (placeEnd (phaseOf r.arrival r.slot) c.planned).toNat := by
      have hr' : jumpReference ((s.atInstant c.planned).countedRx c) = some r := hr
      rw [State.jumpEnd, hr']
    obtain ⟨hcorrection, hloss⟩ := timerWork_jumped (s := (s.atInstant c.planned).stepJump c) rfl c
    rw [nextCycle_jump (hearly.trans rfl), htimer]
    refine ⟨hcorrection, hloss, rfl, rfl, r, hreference, ?_⟩
    show ((State.jumpEnd _ c : Nat) : Int) = _
    rw [hplace, placeEnd_toNat]
    rfl
  · have hnot : (s.atInstant c.planned).jumpDue c = false := Bool.eq_false_iff.2 fun hdue => by
      obtain ⟨hnone, _⟩ := ((s.atInstant c.planned).jumpDue_iff c).1 hdue
      exact absurd (hmade.symm.trans hnone) nofun
    rw [jumpIfDue_not hnot] at hearly htimer
    have hjumped : (s.atInstant c.planned).early.jump.isSome = true := by
      show s.early.jump.isSome = true
      rw [hmade]
      rfl
    obtain ⟨hcorrection, hloss⟩ := timerWork_jumped hjumped c
    rw [nextCycle_jump (hearly.trans hmade), htimer]
    exact ⟨hcorrection, hloss, rfl, rfl, rfl⟩
  · have hnot' : (s.atInstant c.planned).jumpDue c = false := hnot
    have hnone' : (s.atInstant c.planned).early.jump = none := hnone
    rw [jumpIfDue_not hnot'] at hearly htimer hdtimer
    have hloss : (s.endCycle c order).timer.stepLoss = if s.outnumberedNow c then s.timer.stepLoss + 1 else 0 := by
      rw [htimer]
      exact stepLossNow_eq hnone' c
    have hcorrection : (decided s c order).timer.lastCorrection =
        if s.station.state = .member ∧ c.nextPhase = none then correctionOf (s.countedRx c) else 0 := by
      rw [hdtimer]
      exact correctionNow_eq hnone' c
    have hlast : (s.endCycle c order).timer.lastCorrection = (decided s c order).timer.lastCorrection := by
      rw [htimer, hdtimer]
    rw [hloss, hlast]
    refine ⟨fun hmember hlost => if_pos ((s.outnumberedNow_iff c).2 ⟨hmember, hlost⟩), fun h => if_neg fun hnow => ?_,
      fun p hphase => ?_, fun hphase => ?_⟩
    · obtain ⟨hmember, hlost⟩ := (s.outnumberedNow_iff c).1 hnow
      exact h.elim (fun h => h hmember) fun h => h hlost
    · rw [nextCycle_placed (hearly.trans hnone) hphase, hcorrection,
        if_neg (by rw [hphase]; exact fun h => nomatch h.2)]
      exact ⟨rfl, rfl, rfl, placeEnd_toNat p c.planned⟩
    · rw [nextCycle_ordinary (hearly.trans hnone) hphase]
      have hbound : -6 ≤ (decided s c order).timer.lastCorrection := by
        rw [hcorrection]
        split
        · rw [correctionOf_counted]
          exact le_max_left _ _
        · decide
      refine ⟨rfl, rfl, ordinaryCycle_planned hbound, fun hother => ?_, fun hmember => ?_⟩
      · exact hcorrection.trans (if_neg fun h => hother h.1)
      · exact (hcorrection.trans (if_pos ⟨hmember, hphase⟩)).trans (correctionOf_counted s c)

end Sys2Proof.Proofs.NextCycle
end

section
/-! PROOFS. The step jump, made by its own row or by the cycle end. -/

namespace Sys2Proof.Proofs.StepJump

open Sys2Proof Sys2Proof.Machine Sys2Proof.Proofs.NextCycle Sys2Proof.Proofs.SlotEnd

/-! ### What a jump makes (R24, R76, R91, R143) -/

/-- A claim that a jump finds held or waiting waits again; one that is given up is gone. -/
theorem claim_jump (cl : Claim) :
    (cl.state = .none ∨ cl.state = .releasing → cl.jump.state = .none) ∧
      (cl.state ≠ .none → cl.state ≠ .releasing → cl.jump = { Claim.gone with state := .waiting }) := by
  rw [Claim.jump]
  cases hstate : cl.state with
  | none => exact ⟨fun _ => hstate, fun h => absurd rfl h⟩
  | releasing => exact ⟨fun _ => rfl, fun _ h => absurd rfl h⟩
  | waiting | holdoff | tentative | confirmed => exact ⟨fun h => by simp at h, fun _ _ => rfl⟩

theorem jumpLapse_pairing (s : State) :
    s.jumpLapse.pairing.window = s.pairing.window ∧ s.jumpLapse.pairing.newcomer = s.pairing.newcomer ∧
      s.jumpLapse.pairing.offer = none ∧ (s.pairing.offer = none → s.jumpLapse.pairing.lapse = s.pairing.lapse) ∧
      ∀ o, s.pairing.offer = some o → s.jumpLapse.pairing.lapse = some { number := o.station, age := 0 } := by
  rw [State.jumpLapse]
  cases hoffer : s.pairing.offer with
  | none => exact ⟨rfl, rfl, hoffer, fun _ => rfl, nofun⟩
  | some o => exact ⟨rfl, rfl, rfl, nofun, fun _ h => by cases h; rfl⟩

/-- What a jump makes of the claims, the role and the pairing records. -/
theorem stepJump_state (s : State) (c : Cycle) :
    (s.stepJump c).voice = s.voice.jump ∧ (s.stepJump c).farEnd = s.farEnd.jump ∧ (s.stepJump c).viewsUnknown ∧
      (s.stepJump c).flags = s.flags ||| Flag.stepJump.mark ∧
      (s.stepJump c).bearer = { s.bearer with
        state := if s.bearer.state = .bearing then .claiming else s.bearer.state } ∧
      (s.stepJump c).pairing = s.jumpLapse.pairing ∧
      (s.stepJump c).early = { s.early with
        jump := some (s.jumpEnd c), viewsSet := true, lapseAged := s.early.lapseAged || s.pairing.offer.isSome } := by
  have hpairing : s.jumpClaims.forgetViews.jumpLapse.pairing = s.jumpLapse.pairing := by
    have hsame : s.jumpClaims.forgetViews.pairing = s.pairing := rfl
    simp only [State.jumpLapse, hsame]
    cases hoffer : s.pairing.offer <;> simp [State.lapseOffer]
  refine ⟨?_, ?_, ?_, ?_, ?_, hpairing, ?_⟩
  · simp [State.stepJump, State.makeJump, State.forgetViews, State.jumpClaims]
  · simp [State.stepJump, State.makeJump, State.forgetViews, State.jumpClaims]
  · simp [State.viewsUnknown, State.stepJump, State.makeJump, State.forgetViews]
    rfl
  · simp [State.stepJump, State.makeJump, State.forgetViews, State.jumpClaims]
  · simp [State.stepJump, State.makeJump, State.forgetViews, State.jumpClaims]
  · simp only [State.stepJump, State.makeJump, State.raise_early, State.jumpLapse_early]
    rfl

/-- The end of the jump cycle is the reference's (R23). -/
theorem jumpEnd_eq {s : State} {c : Cycle} (hdue : s.jumpDue c = true) :
    ∃ r, s.jumpReferenceIs c r ∧ ((s.jumpEnd c : Nat) : Int) = placeEnd ((r.arrival : Int) - 625 * r.slot.val) c.planned := by
  obtain ⟨_, _, houtnumbered, _⟩ := (s.jumpDue_iff c).1 hdue
  obtain ⟨r, hr, hreference⟩ := jumpReference_is houtnumbered
  refine ⟨r, hreference, ?_⟩
  rw [State.jumpEnd, hr]
  exact placeEnd_toNat _ _

/-! ### The role of a bearer (R143, R146, R147) -/

theorem farEnd_jump_ending {s : State} (hclaims : s.claimsOk = true) (h : s.bearer.state = .ending) :
    s.farEnd.jump.state = .none := by
  have hrole := State.roleMatches_of_claimsOk hclaims
  refine (claim_jump s.farEnd).1 ?_
  rw [h] at hrole
  cases hstate : s.farEnd.state <;> rw [hstate] at hrole
  case releasing => exact .inr rfl
  all_goals cases hrole

theorem settleRole_not_ending {s : State} (h : s.bearer.state ≠ .ending) : s.settleRole = s :=
    if_neg fun hboth => h hboth.1

theorem transitions_member {s : State} (h : s.station.state = .member) : s.transitions = s.settleRole := by
  simp only [State.transitions, h]

/-- The audio work makes nothing of a role that is over. -/
theorem deadline_gone {s : State} (hbearer : s.bearer = Bearer.gone) (hfar : s.farEnd.sending = false) :
    s.deadline.bearer = Bearer.gone := by
  have htake : ∀ t : State, t.bearer = s.bearer → t.farEnd = s.farEnd → t.takeDownlink.bearer = Bearer.gone :=
    fun t ht hf => by
      rw [State.takeDownlink, hf, if_neg (by rw [hfar]; nofun), ht, hbearer]
      rfl
  have huplink : ∀ t : State, t.bearer = Bearer.gone → t.uplinkWork = t := fun t ht => if_neg (by rw [ht]; nofun)
  have htaken := htake ((s.updateStreams s.peers).prepareVoice) (by simp [State.prepareVoice])
    (by simp [State.prepareVoice])
  rw [State.deadline, huplink _ htaken]
  simpa using htaken

/-! ### The cycle end that makes the jump -/

theorem cycleWork_jumped {s : State} {c : Cycle} (hdue : s.jumpDue c = true) :
    s.cycleWork c = ((((s.stepJump c).timerWork c).ageBearer.peerWork).surplusWork).pairingWork := by
  have hskips : ((s.stepJump c).timerWork c).claimWork = (s.stepJump c).timerWork c :=
    if_neg (by
      rw [Bool.and_eq_true]
      exact fun h => nomatch h.2)
  rw [State.cycleWork, jumpIfDue_due hdue, hskips]

theorem ageBearer_flags (s : State) : s.ageBearer.flags = s.flags := by
  rw [State.ageBearer]
  split <;> rfl

/-- The events of a cycle end that makes a jump: no decision of a claim is among them. -/
theorem cycleWork_jumped_flag {s : State} {c : Cycle} (hdue : s.jumpDue c = true) {g : Flag}
    (hg : g ∉ [Flag.peerLost, .wearerSurplus, .pairingEnded]) :
    (s.cycleWork c).flagSet g = (s.flagSet g || decide (Flag.stepJump = g)) := by
  simp only [List.mem_cons, List.not_mem_nil, not_or] at hg
  obtain ⟨hlost, hsurplus, hended, _⟩ := hg
  have hjump : ((s.stepJump c).timerWork c).ageBearer.flagSet g = (s.flagSet g || decide (Flag.stepJump = g)) := by
    obtain ⟨_, _, _, hflags, _⟩ := stepJump_state s c
    rw [← State.raise_flagSet, State.flagSet, ageBearer_flags, State.flagSet]
    exact congrArg (fun fl : BitVec 25 => fl.getLsbD g.bit) hflags
  rw [cycleWork_jumped hdue, State.pairingWork_raises _ g (by simp [hended]),
    State.surplusWork_raises _ g (by simp [hsurplus]),
    State.peerWork_raises _ g (by simp [hlost]), hjump]

theorem ageBearer_bearer (s : State) :
    s.ageBearer.bearer.state = s.bearer.state ∧
      (s.bearer.state.claims = true → s.ageBearer.bearer.age = min (s.bearer.age + 1) 255) := by
  rw [State.ageBearer]
  split
  · exact ⟨rfl, fun _ => rfl⟩
  next h => exact ⟨rfl, fun hclaims => absurd hclaims h⟩

/-- What the transitions and the audio work find where a jump is made. -/
theorem atDeadline_jumped {s : State} {c : Cycle} (hdue : s.jumpDue c = true) :
    (s.atDeadline c).voice = s.voice.jump ∧ (s.atDeadline c).farEnd = s.farEnd.jump ∧
      (s.atDeadline c).station = s.station ∧
      (s.atDeadline c).bearer.state = (if s.bearer.state = .bearing then .claiming else s.bearer.state) ∧
      (s.bearer.state = .claiming ∨ s.bearer.state = .bearing →
        (s.atDeadline c).bearer.age = min (s.bearer.age + 1) 255) := by
  obtain ⟨hvoice, hfar, _, _, hbearer, _⟩ := stepJump_state (s.atInstant c.planned) c
  rw [State.atDeadline, cycleWork_jumped (s := s.atInstant c.planned) hdue]
  obtain ⟨hstate, hage⟩ := ageBearer_bearer (((s.atInstant c.planned).stepJump c).timerWork c)
  have hsame : (((s.atInstant c.planned).stepJump c).timerWork c).bearer = ((s.atInstant c.planned).stepJump c).bearer := rfl
  rw [hsame, hbearer] at hstate hage
  refine ⟨by simpa using hvoice, by simpa using hfar, by simp [State.atInstant], Eq.trans (by simp) hstate,
    fun hrole => ?_⟩
  have hclaims : (if s.bearer.state = .bearing then BearerState.claiming else s.bearer.state).claims = true := by
    obtain h | h := hrole <;> rw [h] <;> rfl
  simpa using hage hclaims

/-- What they leave: the claims wait again, a role that ends is over. -/
theorem decided_jumped {s : State} {c : Cycle} (hdue : s.jumpDue c = true) (hclaims : s.claimsOk = true)
    (order : DeadlineOrder) :
    (decided s c order).voice = s.voice.jump ∧ (decided s c order).farEnd = s.farEnd.jump ∧
      (decided s c order).station = s.station ∧
      (s.bearer.state = .ending → (decided s c order).bearer = Bearer.gone) ∧
      (s.bearer.state = .claiming ∨ s.bearer.state = .bearing →
        (decided s c order).bearer.state = .claiming ∧
        (decided s c order).bearer.age = min (s.bearer.age + 1) 255) := by
  obtain ⟨hvoice, hfar, hstation, hbearer, hage⟩ := atDeadline_jumped hdue
  obtain ⟨_, hmember, _⟩ := (s.jumpDue_iff c).1 hdue
  have hgone : s.bearer.state = .ending → (s.atDeadline c).farEnd.state = .none := fun h => by
    rw [hfar]
    exact farEnd_jump_ending hclaims h
  have hkept : s.bearer.state = .claiming ∨ s.bearer.state = .bearing → (s.atDeadline c).bearer.state = .claiming :=
    fun h => by rw [hbearer]; obtain h | h := h <;> rw [h] <;> rfl
  have hends : s.bearer.state = .ending → (s.atDeadline c).bearer.state = .ending := fun h => by
    rw [hbearer, h]
    rfl
  rw [decided]
  generalize s.atDeadline c = v at *
  have hvmember : v.station.state = .member := by rw [hstation, hmember]
  cases order with
  | stateFirst =>
    rw [State.deadlineWork, transitions_member hvmember]
    refine ⟨by simpa using hvoice, by simpa using hfar, by simpa using hstation, fun h => ?_, fun h => ?_⟩
    · rw [settleRole_ending (hends h) (hgone h)]
      exact deadline_gone (by simp) (by simp [Claim.sending, hgone h])
    · rw [settleRole_not_ending (by rw [hkept h]; nofun), State.deadline_bearerState, State.deadline_age]
      exact ⟨hkept h, hage h⟩
  | deadlineFirst =>
    have hdmember : v.deadline.station.state = .member := by simpa using hvmember
    rw [State.deadlineWork, transitions_member hdmember]
    refine ⟨by simpa using hvoice, by simpa using hfar, by simpa using hstation, fun h => ?_, fun h => ?_⟩
    · rw [settleRole_ending (by rw [State.deadline_bearerState]; exact hends h) (by simpa using hgone h)]
      simp
    · rw [settleRole_not_ending (by rw [State.deadline_bearerState, hkept h]; nofun), State.deadline_bearerState,
        State.deadline_age]
      exact ⟨hkept h, hage h⟩

/-- What the row and the cycle end both leave of a jump (R24, R60, R143). -/
def jumped (s t : State) : Prop :=
  (∀ id : ClaimId,
    ((s.claim id).state = .none ∨ (s.claim id).state = .releasing → (t.claim id).state = .none) ∧
    ((s.claim id).state ≠ .none → (s.claim id).state ≠ .releasing →
      t.claim id = { Claim.gone with state := .waiting })) ∧
  t.viewsUnknown ∧ t.timer.stepLoss = 0 ∧ t.timer.lastCorrection = 0 ∧ t.flagSet .stepJump = true ∧
  (s.bearer.state = .ending → t.bearer = Bearer.gone) ∧ t.station = s.station ∧ t.store = s.store

section
variable {c : Cycle} {s : State} (hcycle : s.timer.cycle = some c) (hend : s.atCycleEnd = true)
  (hdue : s.jumpDue c = true) (hclaims : s.claimsOk = true)
include hcycle hend hdue hclaims

/-- STEP_JUMP: the jump, and the end of a role that it finds ENDING (R146). -/
theorem jumped_by_row : ∃ t, exec .stepJump s = .next t ∧ jumped s t ∧ t.peers = s.peers ∧
    t.streams.wearers = s.streams.wearers ∧
    t.pairing.window = s.pairing.window ∧ t.pairing.newcomer = s.pairing.newcomer ∧ t.pairing.offer = none ∧
    (s.pairing.offer = none → t.pairing.lapse = s.pairing.lapse) ∧
    (∀ o, s.pairing.offer = some o → t.pairing.lapse = some { number := o.station, age := 0 }) ∧
    (s.bearer.state = .claiming ∨ s.bearer.state = .bearing → t.bearer = { s.bearer with state := .claiming }) ∧
    (s.bearer.state ≠ .ending →
      t.streams.farEnd = s.streams.farEnd ∧ t.flagSet .farendDown = s.flagSet .farendDown) ∧
    (s.bearer.state = .ending →
      t.streams.farEnd = { s.streams.farEnd.withoutSource with hang := s.streams.farEnd.hang } ∧
        (t.flagSet .farendDown = true ↔ s.flagSet .farendDown = true ∨ s.streams.farEnd.state ≠ .absent)) ∧
    (∃ r e, s.jumpReferenceIs c r ∧
      t.early =
        { s.early with
            jump := some e, viewsSet := true, lapseAged := s.early.lapseAged || s.pairing.offer.isSome } ∧
      ((e : Nat) : Int) = placeEnd ((r.arrival : Int) - 625 * r.slot.val) c.planned) ∧ s.sameFrame t := by
  obtain ⟨hvoice, hfar, hviews, hflags, hbearer, hpairing, hearly⟩ := stepJump_state (s.atInstant c.planned) c
  obtain ⟨hwindow, hnewcomer, hoffer, hkept, hlapse⟩ := jumpLapse_pairing (s.atInstant c.planned)
  obtain ⟨r, hreference, hplace⟩ := jumpEnd_eq hdue
  have hrow : execStepJump s = _ := State.earlyRow_due hcycle hend hdue
  obtain ⟨u, hu⟩ : ∃ u, (s.atInstant c.planned).stepJump c = u := ⟨_, rfl⟩
  have hframe : u.peers = s.peers ∧ u.streams = s.streams ∧ u.station = s.station ∧ u.store = s.store ∧ s.sameFrame u ∧
      u.timer.stepLoss = 0 ∧ u.timer.lastCorrection = 0 := by
    rw [← hu]
    simp [State.atInstant, State.sameFrame, stepJump_timer]
  obtain ⟨hpeers, hstreams, hstation, hstore, hframe, hloss, hcorrection⟩ := hframe
  rw [hu] at hvoice hfar hviews hflags hbearer hpairing hearly hrow
  have hraised : u.flagSet .stepJump = true := by
    rw [State.flagSet, hflags]
    exact State.raise_flagSet_self (s.atInstant c.planned) .stepJump
  have hdown : u.flagSet .farendDown = s.flagSet .farendDown := by
    rw [State.flagSet, hflags]
    exact ((s.atInstant c.planned).raise_flagSet .stepJump .farendDown).trans (Bool.or_false _)
  have hclaim : ∀ id : ClaimId, u.settleRole.claim id = (s.claim id).jump := fun id => by
    cases id with
    | voice => exact (by simp : u.settleRole.voice = u.voice).trans hvoice
    | farEnd => exact (by simp : u.settleRole.farEnd = u.farEnd).trans hfar
  have hends : s.bearer.state = .ending → u.settleRole = u.bearerToNone := fun h =>
    settleRole_ending (by rw [hbearer]; show (if s.bearer.state = _ then _ else s.bearer.state) = _; rw [h]; rfl)
      (by rw [hfar]; exact farEnd_jump_ending hclaims h)
  have hstays : s.bearer.state ≠ .ending → u.settleRole = u := fun h =>
    settleRole_not_ending (by
      rw [hbearer]
      show (if s.bearer.state = _ then _ else s.bearer.state) ≠ _
      split
      · nofun
      · exact h)
  refine ⟨_, hrow, ⟨fun id => ?_, ?_, ?_, ?_, ?_, fun h => ?_, ?_, ?_⟩, ?_, ?_, ?_, ?_, ?_, fun h => ?_, fun o h => ?_,
    fun h => ?_, fun h => ?_, fun h => ?_, ⟨r, _, hreference, ?_, hplace⟩, ?_⟩
  · rw [hclaim id]
    exact claim_jump _
  · simpa [State.viewsUnknown] using hviews
  · simpa using hloss
  · simpa using hcorrection
  · by_cases h : s.bearer.state = .ending
    · rw [hends h]
      exact Station.bearerToNone_keeps_flag hraised
    · rw [hstays h]
      exact hraised
  · rw [hends h]
    simp
  · simpa using hstation
  · simpa using hstore
  · simpa using hpeers
  · rw [u.settleRole_wearers.1, hstreams]
  · simpa [hpairing] using hwindow
  · simpa [hpairing] using hnewcomer
  · simpa [hpairing] using hoffer
  · simpa [hpairing] using hkept h
  · simpa [hpairing] using hlapse o h
  · rw [hstays (by obtain h | h := h <;> rw [h] <;> nofun), hbearer]
    obtain h | h := h <;> simp [State.atInstant, h]
  · rw [hstays h, hstreams]
    exact ⟨rfl, hdown⟩
  · rw [hends h, State.bearerToNone_flagSet, hdown, hstreams]
    refine ⟨by simp [hstreams]; rfl, by simp⟩
  · exact (by simp : u.settleRole.early = u.early).trans hearly
  · simpa [State.sameFrame] using hframe

/-- CYCLE_END where no row has made the jump. -/
theorem jumped_by_cycleEnd (order : DeadlineOrder) (hframe : s.codec.frameIx = 160) (hlate : s.chan.late = []) :
    ∃ t, exec (.cycleEnd order) s = .next t ∧ jumped s t ∧
      (s.bearer.state = .claiming ∨ s.bearer.state = .bearing →
        t.bearer.state = .claiming ∧ t.bearer.age = min (s.bearer.age + 1) 255) ∧
      t.flagSet .groupFull = s.flagSet .groupFull ∧ t.flagSet .claimConfirmed = s.flagSet .claimConfirmed ∧
      t.flagSet .claimLost = s.flagSet .claimLost ∧ t.flagSet .bearerUp = s.flagSet .bearerUp := by
  have hdue' : (s.atInstant c.planned).jumpDue c = true := hdue
  obtain ⟨hdvoice, hdfar, hdstation, hgone, hrole⟩ := decided_jumped hdue hclaims order
  have htimer := endCycle_timer s c order
  rw [jumpIfDue_due hdue'] at htimer
  obtain ⟨hcorrection, hloss⟩ := timerWork_jumped (s := (s.atInstant c.planned).stepJump c) rfl c
  have hunknown := begin_views (decided s c order) c
  rw [if_pos ((forgets_iff hcycle order).2 (.inr (.inr (.inl hdue))))] at hunknown
  have hflag : ∀ g, g ∉ [Flag.stateChanged, .pairTimeout, .farendUp, .farendDown, .downlinkUnderrun, .uplinkOverrun] →
      g ∉ [Flag.peerLost, .wearerSurplus, .pairingEnded] →
      (s.endCycle c order).flagSet g = (s.flagSet g || decide (Flag.stepJump = g)) := fun g hlater hwork =>
    (State.endCycle_flag hlate c order hlater).trans (cycleWork_jumped_flag hdue' hwork)
  have htime : (s.endCycle c order).timer.stepLoss = 0 ∧ (s.endCycle c order).timer.lastCorrection = 0 := by
    rw [htimer]
    exact ⟨hloss, hcorrection⟩
  obtain ⟨hstop, hzero⟩ := htime
  have hraised := hflag .stepJump (by decide) (by decide)
  have hfull := hflag .groupFull (by decide) (by decide)
  have hconfirmed := hflag .claimConfirmed (by decide) (by decide)
  have hlost := hflag .claimLost (by decide) (by decide)
  have hup := hflag .bearerUp (by decide) (by decide)
  have hstore : (s.endCycle c order).store = s.store := by simp
  refine ⟨_, execCycleEnd_due hcycle hend hframe order, ?_⟩
  have hbegun : s.endCycle c order = (decided s c order).rotateViews.beginCycle c := State.endCycle_eq hlate c order
  have hclaim : ∀ id : ClaimId, (s.endCycle c order).claim id = (s.claim id).jump := fun id => by
    rw [hbegun]
    cases id with
    | voice => exact (by simp : ((decided s c order).rotateViews.beginCycle c).voice = _).trans hdvoice
    | farEnd => exact (by simp : ((decided s c order).rotateViews.beginCycle c).farEnd = _).trans hdfar
  refine ⟨⟨fun id => ?_, ?_, hstop, hzero, by simpa using hraised, fun h => ?_, ?_, hstore⟩, fun h => ?_,
    by simpa using hfull, by simpa using hconfirmed, by simpa using hlost, by simpa using hup⟩
  · rw [hclaim id]
    exact claim_jump _
  · rw [State.viewsUnknown, hbegun]
    exact hunknown
  · rw [hbegun]
    simpa using hgone h
  · rw [hbegun]
    simpa using hdstation
  · rw [hbegun]
    simpa using hrole h

end

/-- Settles O44. -/
theorem stepJumpSendsClaimsToWaiting : Obligations.StepJumpSendsClaimsToWaiting :=
  fun _ _ hcycle hend hdue hclaims => ⟨jumped_by_row hcycle hend hdue hclaims,
    fun order hframe hlate => jumped_by_cycleEnd hcycle hend hdue hclaims order hframe hlate⟩

end Sys2Proof.Proofs.StepJump
end

section
/-! PROOFS. The ageing of the peer table at a cycle end, and ahead of it. -/

namespace Sys2Proof.Proofs.Ageing

open Sys2Proof Sys2Proof.Machine Sys2Proof.Proofs.Table Sys2Proof.Proofs.NextCycle Sys2Proof.Proofs.Clash

/-! ### One entry (R49, Table 3-8) -/

theorem agePeer_number {skip : List StationNo} {p q : Peer} (h : agePeer skip p = some q) : q.number = p.number := by
  rw [agePeer] at h
  split at h
  · cases h
    rfl
  · split at h
    · cases h
    · cases h
      rfl

theorem agePeer_skipped {skip : List StationNo} {p : Peer} (h : p.number ∈ skip) : agePeer skip p = some p :=
  if_pos (by simpa using h)

theorem agePeer_unheard {skip : List StationNo} {p : Peer} (h : p.number ∉ skip) :
    agePeer skip p = if 2999 ≤ p.missed then none
      else some { p with
        missed := p.missed + 1
        state := if p.missed = 4 then .silent else if p.missed = 99 then .lost else p.state } := by
  rw [agePeer, if_neg (by simpa using h)]
  by_cases hlast : 2999 ≤ p.missed
  · have holder : p.older.missed = 3000 := Nat.min_eq_right (by omega)
    rw [if_pos holder, if_pos hlast]
  · have holder : min (p.missed + 1) 3000 = p.missed + 1 := Nat.min_eq_left (by omega)
    have hnot : ¬p.older.missed = 3000 := by
      show ¬min (p.missed + 1) 3000 = 3000
      omega
    rw [if_neg hnot, if_neg hlast]
    simp [Peer.older, holder]

/-- An entry looked up in a table that a change of each entry has gone over. -/
theorem findPeer_filterMap {f : Peer → Option Peer} (hf : ∀ p q, f p = some q → q.number = p.number) (n : StationNo)
    {ps : List Peer} (h : ascending ps = true) : findPeer n (ps.filterMap f) = (findPeer n ps).bind f := by
  induction ps with
  | nil => rfl
  | cons p ps ih =>
    obtain ⟨hhead, htail⟩ := ascending_cons.1 h
    rw [List.filterMap_cons, findPeer_cons]
    by_cases hp : p.number = n
    · have hrest : ∀ q ∈ ps.filterMap f, q.number ≠ n := fun q hq => by
        obtain ⟨r, hr, hrq⟩ := List.mem_filterMap.1 hq
        rw [hf r q hrq, ← hp]
        exact (hhead r hr).ne'
      rw [if_pos hp, Option.bind_some]
      cases hfp : f p with
      | none => exact findPeer_eq_none hrest
      | some q => rw [findPeer_cons, if_pos ((hf p q hfp).trans hp)]
    · rw [if_neg hp]
      cases hfp : f p with
      | none => exact ih htail
      | some q => rw [findPeer_cons, if_neg (by rwa [hf p q hfp]), ih htail]

theorem findPeer_number {n : StationNo} {ps : List Peer} {p : Peer} (h : findPeer n ps = some p) : p.number = n := by
  simpa using List.find?_some h

theorem findPeer_mem {n : StationNo} {ps : List Peer} {p : Peer} (h : findPeer n ps = some p) : p ∈ ps :=
  List.mem_of_find?_eq_some h

/-! ### One entry ahead of the others -/

/-- The change that ages one entry. -/
def ageOne (skip : List StationNo) (n : StationNo) (p : Peer) : Option Peer :=
  if p.number = n then agePeer skip p else some p

theorem ageOne_number {skip : List StationNo} {n : StationNo} {p q : Peer} (h : ageOne skip n p = some q) :
    q.number = p.number := by
  rw [ageOne] at h
  split at h
  · exact agePeer_number h
  · cases h
    rfl

theorem agePeerEarly_eq (s : State) (n : StationNo) : s.agePeerEarly n =
    { s with
        peers := s.peers.filterMap (ageOne s.ageSkip n)
        early := { s.early with aged := s.early.aged ++ [n] } } := rfl

theorem ascending_of_peersOk {s : State} (h : s.peersOk = true) : ascending s.peers = true := by
  obtain ⟨htable, _⟩ := s.peersOk_iff.1 h
  simp only [tableOk, Bool.and_eq_true] at htable
  exact htable.1.2

theorem findPeer_ageOne {s : State} (hpeers : s.peersOk = true) {n : StationNo} {p : Peer}
    (hp : findPeer n s.peers = some p) (hheard : n ∉ s.chan.heard) (haged : n ∉ s.early.aged) :
    findPeer n (s.peers.filterMap (ageOne s.ageSkip n)) = (if 2999 ≤ p.missed then none
      else some { p with
        missed := p.missed + 1
        state := if p.missed = 4 then .silent else if p.missed = 99 then .lost else p.state }) ∧
      ∀ m, m ≠ n → findPeer m (s.peers.filterMap (ageOne s.ageSkip n)) = findPeer m s.peers := by
  have hascending := ascending_of_peersOk hpeers
  have hnumber := findPeer_number hp
  have hskip : p.number ∉ s.ageSkip := by
    rw [hnumber, State.ageSkip, List.mem_append, not_or]
    exact ⟨hheard, haged⟩
  refine ⟨?_, fun m hm => ?_⟩
  · rw [findPeer_filterMap (fun _ _ => ageOne_number) n hascending, hp, Option.bind_some, ageOne, if_pos hnumber,
      agePeer_unheard hskip]
  · rw [findPeer_filterMap (fun _ _ => ageOne_number) m hascending]
    cases hfound : findPeer m s.peers with
    | none => rfl
    | some q => exact if_neg (by rw [findPeer_number hfound]; exact hm)

/-- An entry aged ahead of the others is not aged again: the table counts the cycle once (R52). -/
theorem countedPeers_agePeerEarly (s : State) (n : StationNo) :
    (s.agePeerEarly n).countedPeers = s.countedPeers := by
  have hskip : ∀ m, m ∈ (s.agePeerEarly n).ageSkip ↔ m ∈ s.ageSkip ∨ m = n := fun m => by
    rw [agePeerEarly_eq]
    simp [State.ageSkip, or_assoc]
  show List.filterMap _ (s.peers.filterMap (ageOne s.ageSkip n)) = s.peers.filterMap _
  rw [List.filterMap_filterMap]
  refine List.filterMap_congr fun p _ => ?_
  by_cases hp : p.number = n
  · rw [ageOne, if_pos hp]
    cases haged : agePeer s.ageSkip p with
    | none => rfl
    | some q => exact agePeer_skipped ((hskip _).2 (.inr ((agePeer_number haged).trans hp)))
  · rw [ageOne, if_neg hp, Option.bind_some]
    by_cases hin : p.number ∈ s.ageSkip
    · rw [agePeer_skipped hin, agePeer_skipped ((hskip _).2 (.inl hin))]
    · rw [agePeer_unheard hin, agePeer_unheard fun h => ((hskip _).1 h).elim hin hp]

theorem peerReaches_iff {s : State} {n : StationNo} {m : Nat} {p : Peer} (hp : findPeer n s.peers = some p) :
    s.peerReaches n m = true ↔ s.station.state.listening = true ∧ n ∉ s.ageSkip ∧ p.missed + 1 = m := by
  simp [State.peerReaches, hp, and_assoc]

/-- Whichever row ages an entry, the table that counts the cycle stays. -/
theorem countedPeers_row {n : StationNo} {s t : State} (h : exec (.peerSilent n) s = .next t ∨
    exec (.peerLost n) s = .next t ∨ exec (.peerRemoved n) s = .next t) :
    t.countedPeers = s.countedPeers ∧ t.station = s.station := by
  have hkeeps : ∀ (c : Nat) (u : State), u.chan = ((s.atInstant c).agePeerEarly n).chan →
      u.early = ((s.atInstant c).agePeerEarly n).early → u.peers = ((s.atInstant c).agePeerEarly n).peers →
      u.countedPeers = s.countedPeers := fun c u hchan hearly hpeers => by
    have hcounted : ((s.atInstant c).agePeerEarly n).countedPeers = s.countedPeers :=
      countedPeers_agePeerEarly (s.atInstant c) n
    rw [← hcounted, State.countedPeers, State.countedPeers, State.ageSkip, State.ageSkip, hchan, hearly, hpeers]
  obtain h | h | h := h
  · change execPeerSilent n s = .next t at h
    rw [execPeerSilent] at h
    obtain rfl | ⟨c, _, _, _, rfl⟩ := State.earlyRow_next h
    · exact ⟨rfl, rfl⟩
    · exact ⟨hkeeps c.planned _ rfl rfl rfl, rfl⟩
  · change execPeerLost n s = .next t at h
    rw [execPeerLost] at h
    obtain rfl | ⟨c, _, _, _, rfl⟩ := State.earlyRow_next h
    · exact ⟨rfl, rfl⟩
    · exact ⟨hkeeps c.planned _ rfl rfl rfl, rfl⟩
  · change execPeerRemoved n s = .next t at h
    rw [execPeerRemoved] at h
    obtain rfl | ⟨c, _, _, _, rfl⟩ := State.earlyRow_next h
    · exact ⟨rfl, rfl⟩
    · exact ⟨hkeeps c.planned _ rfl rfl rfl, rfl⟩

/-! ### The whole table at a cycle end (R49) -/

theorem peerWork_peers (s : State) :
    s.peerWork.peers = if s.station.state.listening then s.countedPeers else s.peers := by
  rw [State.peerWork]
  split
  · simp [State.agePeers]
  · rfl

theorem endCycle_peers (s : State) (c : Cycle) (order : DeadlineOrder) :
    (s.endCycle c order).peers = if s.station.state.listening then s.countedPeers else s.peers := by
  have hend : (s.endCycle c order).peers = (s.atDeadline c).peers := by
    rw [State.endCycle_late]
    simp
  rw [hend, State.atDeadline]
  by_cases hlistening : s.station.state.listening = true
  · rw [if_pos hlistening]
    exact State.cycleWork_peers (s := s.atInstant c.planned) hlistening c
  · rw [if_neg hlistening, State.cycleWork]
    simp [peerWork_peers, hlistening, State.atInstant]

theorem closeWindow_yielded_raises (s : State) : s.raisesOnly (s.closeWindow .yielded) [.pairingEnded] := by
  rw [State.closeWindow]
  split
  · exact .raise (.of_flags rfl _) (by simp [CloseCause.flag])
  · exact .of_flags rfl _

theorem bearerToNone_raises (s : State) : s.raisesOnly s.bearerToNone [.farendDown] :=
  .raiseIf (.of_flags rfl _) _ (by simp)

/-- The events of the late effects of slot 15. -/
theorem lateEffect_raises (s : State) (e : LateEffect) :
    s.raisesOnly (s.lateEffect e) [.numberClash, .stateChanged, .farendDown, .pairingEnded, .bearerConflict] := by
  cases e with
  | clashYield =>
    have hgone := (State.raisesOnly.of_flags (s := s)
      (t := { s with voice := Claim.gone, farEnd := Claim.gone }) rfl []).trans
      (bearerToNone_raises _)
    have hclosed : s.raisesOnly (givenUp s) _ := hgone.trans (closeWindow_yielded_raises _)
    have hidle : s.raisesOnly ((givenUp s).enter .idle) [.numberClash, .stateChanged, .farendDown, .pairingEnded,
      .bearerConflict] :=
      (hclosed.mono (by simp)).andThen (.raise (.of_flags rfl _) (by simp))
    exact .ite _ (.raise hidle (by simp)) (.of_flags rfl _)
  | electionYield =>
    have hgone := (State.raisesOnly.of_flags (s := s)
      (t := { s with farEnd := Claim.gone }) rfl []).trans (bearerToNone_raises _)
    exact .ite _ (.raise (hgone.mono (by simp)) (by simp)) (.of_flags rfl _)
  | windowYield => exact (closeWindow_yielded_raises s).mono (by simp)

theorem lateEffects_raises (s : State) (es : List LateEffect) :
    s.raisesOnly (s.lateEffects es) [.numberClash, .stateChanged, .farendDown, .pairingEnded, .bearerConflict] := by
  induction es generalizing s with
  | nil => exact .of_flags rfl _
  | cons e es ih => exact (lateEffect_raises s e).andThen (ih _)

theorem peerWork_peerLost (s : State) :
    s.peerWork.flagSet .peerLost =
      (s.flagSet .peerLost || (s.station.state.listening && s.peers.any (losesPeer s.ageSkip))) := by
  rw [State.peerWork]
  split
  next h =>
    rw [h, State.agePeers, State.raiseIf_flagSet]
    simp [State.flagSet]
  next h => simp [h]

/-- PEER_LOST at a cycle end: by the entries that reach their hundredth (R49). -/
theorem endCycle_peerLost (s : State) (c : Cycle) (order : DeadlineOrder) :
    (s.endCycle c order).flagSet .peerLost =
      (s.flagSet .peerLost || (s.station.state.listening && s.peers.any (losesPeer s.ageSkip))) := by
  obtain ⟨v, hv⟩ : ∃ v, ((((s.atInstant c.planned).jumpIfDue c).timerWork c).claimWork).ageBearer = v := ⟨_, rfl⟩
  have hbefore : v.flagSet .peerLost = s.flagSet .peerLost := by
    rw [← hv, State.flagSet, StepJump.ageBearer_flags, ← State.flagSet, State.claimWork_raises _ _ (by decide)]
    exact State.jumpIfDue_raises (s.atInstant c.planned) c _ (by decide)
  obtain ⟨a, b, hclaims⟩ := State.claimWork_early (((s.atInstant c.planned).jumpIfDue c).timerWork c)
  have haged : v.early.aged = s.early.aged := by
    have hjump : ((s.atInstant c.planned).jumpIfDue c).early.aged = s.early.aged := by
      cases hdue : (s.atInstant c.planned).jumpDue c with
      | true =>
        obtain ⟨_, _, _, _, _, _, hearly⟩ := StepJump.stepJump_state (s.atInstant c.planned) c
        rw [jumpIfDue_due hdue, hearly]
        rfl
      | false =>
        rw [jumpIfDue_not hdue]
        rfl
    rw [← hv, ← hjump]
    simp [hclaims]
  have hskip : v.ageSkip = s.ageSkip := by
    simp only [State.ageSkip, haged]
    simp [← hv, State.atInstant]
  have hpeers : v.peers = s.peers := by simp [← hv, State.atInstant]
  have hstation : v.station = s.station := by simp [← hv, State.atInstant]
  calc (s.endCycle c order).flagSet .peerLost
      = (((s.atDeadline c).deadlineWork order).rotateViews.beginCycle c).flagSet .peerLost := by
        rw [State.endCycle_late]
        exact lateEffects_raises _ _ _ (by decide)
    _ = ((s.atDeadline c).deadlineWork order).flagSet .peerLost := by simp [State.flagSet]
    _ = (s.atDeadline c).flagSet .peerLost := State.deadlineWork_raises _ order _ (by decide)
    _ = v.peerWork.flagSet .peerLost := by
        rw [State.atDeadline, State.cycleWork, hv, State.pairingWork_raises _ _ (by decide),
          State.surplusWork_raises _ _ (by decide)]
    _ = _ := by rw [peerWork_peerLost, hbefore, hskip, hpeers, hstation]

/-- The states whose peer table counts (R49). -/
theorem listening_iff (st : StationState) : st.listening = true ↔ st = .listen ∨ st = .member ∨ st = .leaving := by
  cases st <;> simp [StationState.listening]

section
variable {c : Cycle} {n : StationNo} {s : State} (hcycle : s.timer.cycle = some c) (hend : s.atCycleEnd = true)
include hcycle hend

theorem peerSilent_due (h : s.peerReaches n 5 = true) :
    exec (.peerSilent n) s = .next ((s.atInstant c.planned).agePeerEarly n) :=
  State.earlyRow_due (due := fun s _ => s.peerReaches n 5) (f := fun s _ => s.agePeerEarly n) hcycle hend h

theorem peerLost_due (h : s.peerReaches n 100 = true) :
    exec (.peerLost n) s = .next (((s.atInstant c.planned).agePeerEarly n).raise .peerLost) :=
  State.earlyRow_due (due := fun s _ => s.peerReaches n 100) (f := fun s _ => (s.agePeerEarly n).raise .peerLost) hcycle
    hend h

theorem peerRemoved_due (h : s.peerReaches n 3000 = true) :
    exec (.peerRemoved n) s = .next ((s.atInstant c.planned).agePeerEarly n) :=
  State.earlyRow_due (due := fun s _ => s.peerReaches n 3000) (f := fun s _ => s.agePeerEarly n) hcycle hend h

end

/-- The three rows that age an entry ahead of the others. -/
theorem aged_ahead {c : Cycle} {n : StationNo} {p : Peer} {s : State} (hcycle : s.timer.cycle = some c)
    (hend : s.atCycleEnd = true) (hpeers : s.peersOk = true) (hlistening : s.station.state.listening = true)
    (hheard : n ∉ s.chan.heard) (haged : n ∉ s.early.aged) (hp : findPeer n s.peers = some p) :
    let aged := fun (ps : List Peer) (fl : BitVec 25) =>
      ({ s with
          now := max s.now c.planned, peers := ps, flags := fl
          early := { s.early with aged := s.early.aged ++ [n] } } : State)
    (p.missed = 4 → ∃ ps, exec (.peerSilent n) s = .next (aged ps s.flags) ∧
      findPeer n ps = some { p with missed := 5, state := .silent } ∧ ∀ m, m ≠ n → findPeer m ps = findPeer m s.peers) ∧
    (p.missed = 99 → ∃ ps, exec (.peerLost n) s = .next (aged ps (s.flags ||| Flag.peerLost.mark)) ∧
      findPeer n ps = some { p with missed := 100, state := .lost } ∧ ∀ m, m ≠ n → findPeer m ps = findPeer m s.peers) ∧
    (p.missed = 2999 → ∃ ps, exec (.peerRemoved n) s = .next (aged ps s.flags) ∧ findPeer n ps = none ∧
      ∀ m, m ≠ n → findPeer m ps = findPeer m s.peers) := by
  intro aged
  obtain ⟨hone, hothers⟩ := findPeer_ageOne hpeers hp hheard haged
  have hskip : n ∉ s.ageSkip := by
    rw [State.ageSkip, List.mem_append, not_or]
    exact ⟨hheard, haged⟩
  have hreaches : ∀ m, p.missed + 1 = m → s.peerReaches n m = true := fun m hm =>
    (peerReaches_iff hp).2 ⟨hlistening, hskip, hm⟩
  refine ⟨fun hmissed => ⟨_, peerSilent_due hcycle hend (hreaches 5 (by omega)), ?_, hothers⟩,
    fun hmissed => ⟨_, peerLost_due hcycle hend (hreaches 100 (by omega)), ?_, hothers⟩,
    fun hmissed => ⟨_, peerRemoved_due hcycle hend (hreaches 3000 (by omega)), ?_, hothers⟩⟩ <;>
  exact hone.trans (by simp [hmissed])

/-- The whole table. -/
theorem aged_at_the_end {c : Cycle} {s : State} (hends : s.endsCycle c) (hpeers : s.peersOk = true)
    (order : DeadlineOrder) :
    let unheard := fun n : StationNo => n ∉ s.chan.heard ∧ n ∉ s.early.aged
    let ages := s.station.state = .listen ∨ s.station.state = .member ∨ s.station.state = .leaving
    ∃ t, exec (.cycleEnd order) s = .next t ∧ (¬ages → t.peers = s.peers) ∧
      (ages →
        (∀ n, findPeer n s.peers = none → findPeer n t.peers = none) ∧
        (∀ n p, findPeer n s.peers = some p →
          (¬unheard n → findPeer n t.peers = some p) ∧
          (unheard n → p.missed < 2999 →
            findPeer n t.peers = some
              { p with
                  missed := p.missed + 1
                  state := if p.missed = 4 then .silent else if p.missed = 99 then .lost else p.state }) ∧
          (unheard n → 2999 ≤ p.missed → findPeer n t.peers = none)) ∧
        (t.flagSet .peerLost ↔
          s.flagSet .peerLost ∨ ∃ p ∈ s.peers, unheard p.number ∧ p.missed = 99)) := by
  intro unheard ages
  obtain ⟨hcycle, hend, hframe⟩ := hends
  refine ⟨_, execCycleEnd_due hcycle hend hframe order, fun hnot => ?_, fun hages => ?_⟩
  · rw [endCycle_peers, if_neg (mt (listening_iff _).1 hnot)]
  · have hlistening := (listening_iff _).2 hages
    have hunheard : ∀ n, unheard n ↔ n ∉ s.ageSkip := fun n => by simp [unheard, State.ageSkip]
    have hfind : ∀ n, findPeer n (s.endCycle c order).peers = (findPeer n s.peers).bind (agePeer s.ageSkip) := fun n => by
      rw [endCycle_peers, if_pos hlistening]
      exact findPeer_filterMap (fun _ _ => agePeer_number) n (ascending_of_peersOk hpeers)
    refine ⟨fun n hn => by rw [hfind, hn]; rfl, fun n p hp => ?_, ?_⟩
    · have hnumber := findPeer_number hp
      rw [hfind, hp, Option.bind_some, hunheard, ← hnumber]
      refine ⟨fun h => agePeer_skipped (not_not.1 h), fun h hyoung => ?_, fun h hold => ?_⟩
      · rw [agePeer_unheard h, if_neg (by omega)]
      · rw [agePeer_unheard h, if_pos hold]
    · simp only [endCycle_peerLost, hlistening, Bool.true_and, Bool.or_eq_true, List.any_eq_true, losesPeer, hunheard,
        Bool.and_eq_true, Bool.not_eq_true', beq_iff_eq, List.contains_eq_mem, decide_eq_false_iff_not]

/-- Settles O45. -/
theorem ageingChangesTheEntry : Obligations.AgeingChangesTheEntry := by
  refine ⟨fun c n p s hcycle hend hpeers hstate hheard haged hp => ?_, fun c order s hends hpeers => ?_,
    fun n s t h => ?_⟩
  · exact aged_ahead hcycle hend hpeers ((listening_iff _).2 hstate) hheard haged hp
  · exact aged_at_the_end hends hpeers order
  · obtain ⟨hcounted, hstation⟩ := countedPeers_row h
    exact ⟨hcounted, fun w => by rw [hcounted, hstation]⟩

end Sys2Proof.Proofs.Ageing
end

section
/-! PROOFS. Admission and surplus, and the station's own counts, at a cycle end. -/

namespace Sys2Proof.Proofs.Session

open Sys2Proof Sys2Proof.Machine Sys2Proof.Proofs.Offers Sys2Proof.Proofs.NextCycle Sys2Proof.Proofs.Ageing

/-! ### The admitted stations of a wearer (R50) -/

theorem insertNumber_pairwise {n : StationNo} {ms : List StationNo} (hn : n ∉ ms) (h : ms.Pairwise (· < ·)) :
    (insertNumber n ms).Pairwise (· < ·) := by
  induction ms with
  | nil => exact List.pairwise_singleton _ _
  | cons m ms ih =>
    obtain ⟨hhead, htail⟩ := List.pairwise_cons.1 h
    obtain ⟨hne, hrest⟩ := not_or.1 (mt List.mem_cons.2 hn)
    rw [insertNumber]
    split
    next hlt =>
      refine List.pairwise_cons.2 ⟨fun x hx => ?_, h⟩
      obtain rfl | hx := List.mem_cons.1 hx
      · exact hlt
      · exact hlt.trans (hhead x hx)
    next hge =>
      refine List.pairwise_cons.2 ⟨fun x hx => ?_, ih hrest htail⟩
      obtain rfl | hx := List.mem_cons.1 ((insertNumber_perm n ms).mem_iff.1 hx)
      · exact lt_of_le_of_ne (not_lt.1 hge) (Ne.symm hne)
      · exact hhead x hx

theorem pairwise_of_ascending {ps : List Peer} (h : ascending ps = true) : (ps.map (·.number)).Pairwise (· < ·) := by
  induction ps with
  | nil => exact List.Pairwise.nil
  | cons p ps ih =>
    obtain ⟨hhead, htail⟩ := ascending_cons.1 h
    refine List.pairwise_cons.2 ⟨fun n hn => ?_, ih htail⟩
    obtain ⟨q, hq, rfl⟩ := List.mem_map.1 hn
    exact hhead q hq

/-- The heard candidates of a wearer. -/
def heardCandidates (ps : List Peer) (w : WearerNo) : List StationNo :=
  (ps.filter fun p => p.wearer == w && p.state != .lost).map (·.number)

theorem mem_heardCandidates {ps : List Peer} {w : WearerNo} {n : StationNo} :
    n ∈ heardCandidates ps w ↔ ∃ p ∈ ps, p.number = n ∧ p.wearer = w ∧ p.state ≠ .lost := by
  simp [heardCandidates]
  tauto

theorem candidates_eq (c : Credentials) (ps : List Peer) (w : WearerNo) :
    candidates c ps w = if c.wearer = w then insertNumber c.number (heardCandidates ps w) else heardCandidates ps w := rfl

theorem mem_candidates {c : Credentials} {ps : List Peer} {w : WearerNo} {n : StationNo} :
    n ∈ candidates c ps w ↔ (n = c.number ∧ c.wearer = w) ∨ ∃ p ∈ ps, p.number = n ∧ p.wearer = w ∧
    p.state ≠ .lost := by
  rw [candidates_eq, ← mem_heardCandidates]
  by_cases hw : c.wearer = w
  · rw [if_pos hw, (insertNumber_perm _ _).mem_iff, List.mem_cons]
    simp [hw]
  · rw [if_neg hw]
    simp [hw]

theorem candidates_pairwise {c : Credentials} {ps : List Peer} (h : tableOk c.number ps = true) (w : WearerNo) :
    (candidates c ps w).Pairwise (· < ·) := by
  simp only [tableOk, Bool.and_eq_true, List.all_eq_true, bne_iff_ne] at h
  obtain ⟨⟨_, hascending⟩, hnumbers⟩ := h
  have hheard : (heardCandidates ps w).Pairwise (· < ·) :=
    (pairwise_of_ascending hascending).sublist ((List.filter_sublist).map _)
  rw [candidates_eq]
  split
  · refine insertNumber_pairwise (fun hmem => ?_) hheard
    obtain ⟨p, hp, hnumber, _⟩ := mem_heardCandidates.1 hmem
    exact (hnumbers p hp).2 hnumber
  · exact hheard

/-- The first two of an ascending list: any other is above both. -/
theorem take_two_lowest {l : List StationNo} (h : l.Pairwise (· < ·)) {n : StationNo} (hmem : n ∈ l)
    (hout : n ∉ l.take 2) :
    (l.take 2).length = 2 ∧ ∀ m ∈ l.take 2, m < n := by
  have hrest : n ∈ l.drop 2 := by
    rw [← List.take_append_drop 2 l, List.mem_append] at hmem
    exact hmem.resolve_left hout
  have hlength : 0 < (l.drop 2).length := List.length_pos_of_mem hrest
  rw [List.length_drop] at hlength
  rw [← List.take_append_drop 2 l, List.pairwise_append] at h
  obtain ⟨_, _, hacross⟩ := h
  exact ⟨List.length_take_of_le (by omega), fun m hm => hacross m hm n hrest⟩

/-! ### What the order of the transitions and the audio work leaves alone -/

/-- The station's own record, its surplus mark and its voice claim, the span of the receiver, and STATE_CHANGED. -/
def sameSession (s t : State) : Prop :=
  t.station = s.station ∧ t.surplus = s.surplus ∧ t.voice = s.voice ∧ t.chan.cutSpans = s.chan.cutSpans ∧
    t.chan.onSince = s.chan.onSince ∧ t.now = s.now ∧ t.flagSet .stateChanged = s.flagSet .stateChanged

theorem deadline_sameSession (s : State) : sameSession s s.deadline := by
  have hchan : s.deadline.chan.cutSpans = s.chan.cutSpans ∧ s.deadline.chan.onSince = s.chan.onSince := by
    simp only [State.deadline, State.handFrames_frame]
    simp [State.takeDownlink, State.makeTake, State.prepareVoice]
    repeat' split
    all_goals simp
  exact ⟨by simp, by simp, by simp, hchan.1, hchan.2, by simp, State.deadline_raises s _ (by decide)⟩

/-- What a cycle end without a late effect makes of the session, whichever comes first. -/
theorem endCycle_session {s : State} (hlate : s.chan.late = []) (c : Cycle) (order : DeadlineOrder) :
    ∃ w, sameSession (s.atDeadline c) w ∧ sameSession w.transitions (s.endCycle c order) := by
  obtain ⟨hflags, hstation, _, hsurplus, hvoice, _, _, _, _, _, _, hcut, hon, hnow, _⟩ :=
    State.begun_frame (decided s c order) c
  have hbegun : sameSession (decided s c order) (s.endCycle c order) := by
    rw [State.endCycle_eq hlate]
    exact ⟨hstation, hsurplus, hvoice, hcut, hon, hnow, congrArg (fun fl : BitVec 25 => fl.getLsbD _) hflags⟩
  cases order with
  | stateFirst =>
    obtain ⟨h1, h2, h3, h4, h5, h6, h7⟩ := deadline_sameSession (s.atDeadline c).transitions
    obtain ⟨k1, k2, k3, k4, k5, k6, k7⟩ := hbegun
    exact ⟨s.atDeadline c, ⟨rfl, rfl, rfl, rfl, rfl, rfl, rfl⟩,
      k1.trans h1, k2.trans h2, k3.trans h3, k4.trans h4, k5.trans h5, k6.trans h6, k7.trans h7⟩
  | deadlineFirst => exact ⟨(s.atDeadline c).deadline, deadline_sameSession _, hbegun⟩

theorem atDeadline_station (s : State) (c : Cycle) :
    (s.atDeadline c).station = s.station ∧ (s.atDeadline c).chan = s.chan ∧ (s.atDeadline c).now = max s.now c.planned ∧
      (s.atDeadline c).flagSet .stateChanged = s.flagSet .stateChanged :=
  ⟨by simp [State.atDeadline], by simp [State.atDeadline], by simp [State.atDeadline],
    State.cycleWork_raises (s.atInstant c.planned) c _ (by decide)⟩

/-- Outside MEMBER and LEAVING no claim is decided and no jump made (R22, R64). -/
theorem atDeadline_voice_out {s : State} (hout : s.station.state.inGroup = false) (c : Cycle) :
    (s.atDeadline c).voice = s.voice := by
  have hjump : (s.atInstant c.planned).jumpDue c = false := Bool.eq_false_iff.2 fun hdue => by
    obtain ⟨_, hmember, _⟩ := ((s.atInstant c.planned).jumpDue_iff c).1 hdue
    rw [State.atInstant_station] at hmember
    rw [hmember] at hout
    exact nomatch hout
  have hclaims : ((s.atInstant c.planned).timerWork c).claimWork = (s.atInstant c.planned).timerWork c :=
    if_neg (by simp [hout])
  rw [State.atDeadline, State.cycleWork, jumpIfDue_not hjump, hclaims]
  simp

/-! ### The transitions, by the station's state -/

theorem countLeaving_one {s : State} (h : s.station.leavingEnds = 0) :
    s.countLeaving = { s with station := { s.station with leavingEnds := 1 } } := by
  rw [State.countLeaving, h]
  rfl

theorem countLeaving_two {s : State} (h : 1 ≤ s.station.leavingEnds) : s.countLeaving = s.enter .idle :=
  if_pos (by omega)

theorem countListen_below {s : State} (h : s.station.listenCount < 3) :
    s.countListen = { s with station := { s.station with listenCount := s.station.listenCount + 1 } } := by
  have hcount : min (s.station.listenCount + 1) 4 = s.station.listenCount + 1 := Nat.min_eq_left (by omega)
  rw [State.countListen, if_neg (by omega), hcount]

theorem countListen_fourth {s : State} (h : 3 ≤ s.station.listenCount) :
    s.countListen = ({ s with station := { s.station with listenCount := 4 } } : State).enterAlone := by
  have hcount : min (s.station.listenCount + 1) 4 = 4 := Nat.min_eq_right (by omega)
  rw [State.countListen, if_pos (by omega), hcount]

/-- The surplus mark after the transitions: an episode ends with LEAVING (R53). -/
theorem transitions_surplus {s : State} (h : s.station.state = .member ∨ s.station.state = .leaving) :
    (s.transitions.station.state = s.station.state → s.transitions.surplus = s.surplus) ∧
      (s.transitions.station.state ≠ s.station.state → s.transitions.surplus = false) := by
  obtain h | h := h
  · rw [StepJump.transitions_member h]
    simp
  · rw [State.transitions, h]
    by_cases hends : s.station.leavingEnds = 0
    · simp [countLeaving_one hends, h]
    · simp only [countLeaving_two (Nat.pos_of_ne_zero hends)]
      exact ⟨fun heq => (nomatch heq), fun _ => rfl⟩

theorem inGroup_iff (st : StationState) : st.inGroup = true ↔ st = .member ∨ st = .leaving := by
  cases st <;> simp [StationState.inGroup]

/-- The surplus episode is derived from the table with the cycle just ended counted (R52, R53). -/
theorem atDeadline_surplus {s : State} (hgroup : s.station.state.inGroup = true) (c : Cycle) :
    (s.atDeadline c).surplus = !ownAdmitted s.station.creds s.countedPeers ∧
      (s.atDeadline c).flagSet .wearerSurplus =
        (s.flagSet .wearerSurplus || (!ownAdmitted s.station.creds s.countedPeers && !s.surplus)) := by
  have hlistening : s.station.state.listening = true := by
    obtain h | h := (inGroup_iff _).1 hgroup <;> rw [h] <;> rfl
  obtain ⟨v, hv⟩ : ∃ v, (((((s.atInstant c.planned).jumpIfDue c).timerWork c).claimWork).ageBearer).peerWork = v := ⟨_, rfl⟩
  have hwork : s.atDeadline c = v.surplusWork.pairingWork := by rw [← hv]; rfl
  have hpeers : v.peers = s.countedPeers := by
    have hsame : (s.atDeadline c).peers = v.peers := by simp [hwork]
    rw [← hsame]
    exact State.cycleWork_peers (s := s.atInstant c.planned) hlistening c
  have hstation : v.station = s.station := by simp [← hv, State.atInstant]
  have hsurplus : v.surplus = s.surplus := by simp [← hv, State.atInstant]
  have hbefore : v.flagSet .wearerSurplus = s.flagSet .wearerSurplus := by
    rw [← hv, State.peerWork_raises _ _ (by decide), State.flagSet, StepJump.ageBearer_flags, ← State.flagSet,
      State.claimWork_raises _ _ (by decide)]
    exact State.jumpIfDue_raises (s.atInstant c.planned) c _ (by decide)
  have hderived : v.surplusWork = v.deriveSurplus s.countedPeers := by
    rw [State.surplusWork, hstation, if_pos hgroup, hpeers]
  rw [hwork, State.pairingWork_raises _ _ (by decide), hderived, State.deriveSurplus, State.raiseIf_flagSet, hstation]
  refine ⟨by simp, ?_⟩
  rw [hsurplus, ← hbefore]
  simp [State.flagSet]

/-- Settles O46. -/
theorem admissionAndSurplusFollowTheTable : Obligations.AdmissionAndSurplusFollowTheTable := by
  refine ⟨fun s w hpeers => ?_, fun c order s hends hlate hstate => ?_⟩
  · obtain ⟨htable, _⟩ := s.peersOk_iff.1 hpeers
    have hpairwise := candidates_pairwise htable w
    refine ⟨List.length_take_le _ _, fun n hn => mem_candidates.1 (List.mem_of_mem_take hn),
      hpairwise.sublist (List.take_sublist _ _), fun n hcandidate hout => ?_⟩
    exact take_two_lowest hpairwise (mem_candidates.2 hcandidate) hout
  · intro out
    obtain ⟨hcycle, hend, hframe⟩ := hends
    have hout : ownAdmitted s.station.creds s.countedPeers = false ↔ out := by
      simp [out, ownAdmitted]
    obtain ⟨hsurplus, hflag⟩ := atDeadline_surplus ((inGroup_iff _).2 hstate) c
    obtain ⟨hstation, _⟩ := atDeadline_station s c
    obtain ⟨w, ⟨hwstation, hwsurplus, _⟩, hestation, hesurplus, _⟩ := endCycle_session hlate c order
    have hw : w.station = s.station := hwstation.trans hstation
    obtain ⟨hstays, hleaves⟩ := transitions_surplus (s := w) (by rwa [hw])
    refine ⟨_, execCycleEnd_due hcycle hend hframe order, ?_, fun hsame => ?_, fun hchanged => ?_⟩
    · rw [State.endCycle_flag hlate c order (by decide), hflag, ← hout]
      simp
    · rw [hesurplus, hstays (by rw [← hestation, hsame, hw]), hwsurplus, hsurplus, ← hout]
      simp
    · rw [hesurplus]
      exact hleaves (by rw [← hestation, hw]; exact hchanged)

/-! ### LISTEN and LEAVING (R39, R42) -/

theorem listenTimeout_due {c : Cycle} {s : State} (hcycle : s.timer.cycle = some c) (hend : s.atCycleEnd = true)
    (hlisten : s.station.state = .listen) (hcount : 3 ≤ s.station.listenCount) :
    exec .listenTimeout s = .next (s.atInstant c.planned).countListen :=
  State.earlyRow_due (due := fun s _ => s.station.state == .listen && decide (4 ≤ s.station.listenCount + 1))
    (f := fun s _ => s.countListen) hcycle hend (by simpa [hlisten] using hcount)

/-- Settles O47. -/
theorem listenAndLeavingEndAtTheirCounts : Obligations.ListenAndLeavingEndAtTheirCounts := by
  refine ⟨fun c s hcycle hend hlisten hcount => ?_, fun c order s hends hlate hlisten => ?_,
    fun c order s hends hlate hleaving => ?_⟩
  · refine ⟨_, listenTimeout_due hcycle hend hlisten hcount.ge, ?_⟩
    rw [countListen_fourth (s := s.atInstant c.planned) hcount.ge]
    exact ⟨rfl, rfl, rfl, rfl, rfl, rfl, rfl, rfl, rfl, rfl, rfl, rfl, rfl, rfl, rfl, rfl, rfl, rfl, rfl, rfl, rfl, rfl⟩
  · obtain ⟨hcycle, hend, hframe⟩ := hends
    obtain ⟨hstation, _, _, hflag⟩ := atDeadline_station s c
    obtain ⟨w, ⟨hwstation, _, hwvoice, _, _, _, hwflag⟩, hestation, hesurplus, hevoice, _, _, _, heflag⟩ :=
      endCycle_session hlate c order
    have hw : w.station = s.station := hwstation.trans hstation
    have hlistenw : w.transitions = w.countListen := by
      simp only [State.transitions, hw, hlisten]
    have hvoice : w.voice = s.voice := hwvoice.trans (atDeadline_voice_out (by rw [hlisten]; rfl) c)
    rw [hlistenw] at hestation hesurplus hevoice heflag
    refine ⟨_, execCycleEnd_due hcycle hend hframe order, fun hbelow => ?_, fun hfourth => ?_⟩
    · rw [countListen_below (by rwa [hw])] at hestation hevoice heflag
      exact ⟨by rw [hestation, hw], hevoice.trans hvoice, heflag.trans (hwflag.trans hflag)⟩
    · have hviews : (s.endCycle c order).viewsUnknown := by
        rw [State.viewsUnknown, State.endCycle_eq hlate]
        have hforgets := (forgets_iff hcycle order).2 (.inr (.inr (.inr (.inr ⟨hlisten, hfourth⟩))))
        exact (begin_views (decided s c order) c).trans (if_pos hforgets)
      rw [countListen_fourth (by rwa [hw])] at hestation hesurplus hevoice heflag
      exact ⟨by rw [hestation]; rfl, by rw [hestation, ← hw]; rfl, hevoice, hviews,
        heflag.trans (State.raise_flagSet_self _ _), hesurplus⟩
  · obtain ⟨hcycle, hend, hframe⟩ := hends
    obtain ⟨hstation, hchan, hnow, hflag⟩ := atDeadline_station s c
    obtain ⟨w, ⟨hwstation, _, _, hwcut, hwon, hwnow, hwflag⟩, hestation, _, _, hecut, _, _, heflag⟩ :=
      endCycle_session hlate c order
    have hw : w.station = s.station := hwstation.trans hstation
    have hleavingw : w.transitions = w.countLeaving := by
      simp only [State.transitions, hw, hleaving]
    rw [hleavingw] at hestation hecut heflag
    refine ⟨_, execCycleEnd_due hcycle hend hframe order, ?_, fun hfirst => ?_, fun hsecond => ?_⟩
    · rw [endCycle_peers, hleaving]
      rfl
    · rw [countLeaving_one (by rwa [hw])] at hestation hecut heflag
      exact ⟨by rw [hestation, hw], by rw [hecut, hwcut, hchan], heflag.trans (hwflag.trans hflag)⟩
    · rw [countLeaving_two (by rwa [hw])] at hestation hecut heflag
      have hon : w.station.state.receiverOn = true := by rw [hw, hleaving]; rfl
      refine ⟨by rw [hestation, ← hw]; rfl, heflag.trans (State.raise_flagSet_self _ _), ?_⟩
      rw [hecut, Station.enter_idle_chan hon, hwcut, hwon, hwnow, hchan, hnow]

end Sys2Proof.Proofs.Session
end

section
/-! PROOFS. The decisions on the two claims at a cycle end, and ahead of it. -/

namespace Sys2Proof.Proofs.Claims

open Sys2Proof Sys2Proof.Machine Sys2Proof.Proofs.NextCycle

/-! ### One claim (Table 4-4, R65 to R70) -/

theorem exists_claimId {p : ClaimId → Prop} : (∃ id, p id) ↔ p .voice ∨ p .farEnd :=
  ⟨fun ⟨id, h⟩ => by cases id <;> simp [h], fun h => h.elim (⟨_, ·⟩) (⟨_, ·⟩)⟩

section
variable {f : ClaimFacts} {o : Option SlotIx} {free : SlotIx → Prop} {complete alone : Prop} {n : Nat}

/-- The rows of a claim's decision, over what the facts say of the slots, the table and the hold length. -/
theorem decideUnless_reads {cl : Claim} (done : Bool) (hok : cl.ok = true)
    (hfree : ∀ k, free k ↔
      k.val ≤ 13 ∧ f.v1.getD k.val .unknown = .empty ∧ f.v2.getD k.val .unknown = .empty ∧ o ≠ some k)
    (hcomplete : complete ↔ pictureComplete f.v1 f.v2 = true) (halone : alone ↔ f.alone = true)
    (hhold : f.hold = n + 1) :
    let next := (cl.decideUnless done f o).1
    let evs := (cl.decideUnless done f o).2
    let kept := { cl with clean := false, conflict := false }
    let confirms := done = false ∧ cl.state = .tentative ∧ cl.conflict = false ∧ (cl.clean = true ∨ alone)
    let loses := done = false ∧ cl.state = .confirmed ∧ cl.conflict = true ∧ 1 ≤ cl.run
    let fills := done = false ∧ cl.state = .waiting ∧ (∀ k, ¬free k) ∧ complete
    (¬done = false → next = cl) ∧ (done = false →
    (cl.state = .none → next = kept) ∧
    (cl.state = .waiting →
      (∀ k, free k → (∀ j, j < k → ¬free j) → next = { Claim.gone with state := .tentative, slot := some k }) ∧
      (fills → next = { kept with cycles := min (cl.cycles + 1) 255 }) ∧
      ((∀ k, ¬free k) → ¬complete → next = kept)) ∧
    (cl.state = .tentative →
      (confirms → next = { Claim.gone with state := .confirmed, slot := cl.slot }) ∧
      (cl.conflict = true ∨ (¬confirms ∧ 7 ≤ cl.cycles) → next = { Claim.gone with state := .holdoff }) ∧
      (cl.conflict = false → ¬confirms → cl.cycles < 7 → next = { kept with cycles := cl.cycles + 1 })) ∧
    (cl.state = .confirmed →
      (loses → next = { Claim.gone with state := .holdoff }) ∧
      (cl.conflict = true → cl.run = 0 → next = { kept with run := 1 }) ∧
      (cl.conflict = false → next = { kept with run := 0 })) ∧
    (cl.state = .holdoff →
      (n ≤ cl.cycles → next = { Claim.gone with state := .waiting }) ∧
      (cl.cycles < n → next = { kept with cycles := cl.cycles + 1 })) ∧
    (cl.state = .releasing → next = { kept with cycles := 1 })) ∧
    (.groupFull ∈ evs ↔ fills ∧ cl.cycles = 0) ∧ (.claimConfirmed ∈ evs ↔ confirms) ∧ (.claimLost ∈ evs ↔ loses) ∧
    .bearerUp ∉ evs ∧ ((cl.state = .tentative ∧ next.state = .confirmed) ↔ confirms) ∧
    ((cl.state = .confirmed ∧ next.state = .holdoff) ↔ loses) := by
  have hsome : ∀ k, freeSlot f.v1 f.v2 o = some k ↔ free k ∧ ∀ j, j < k → ¬free j := fun k => by
    rw [freeSlot_some, hfree]
    simp only [hfree]
  have hnone : freeSlot f.v1 f.v2 o = none ↔ ∀ k, ¬free k := by
    rw [freeSlot_none]
    simp only [hfree]
  have hrows := cl.decideUnless_rows done f o hok
  simpa only [hsome, hnone, ← hcomplete, ← halone, hhold, Nat.add_le_add_iff_right, Nat.add_lt_add_iff_right, and_imp]
    using hrows

end

/-! ### What the decisions read (R59, R64) -/

/-- The views after the rotation. -/
theorem viewsAfter_empty {s : State} {c : Cycle} (hcycle : s.timer.cycle = some c) (k : SlotIx) :
    (s.viewsAfter.1.getD k.val .unknown = .empty ∧ s.viewsAfter.2.getD k.val .unknown = .empty) ↔
      (s.early.viewsSet = false ∧ c.nextPhase = none) ∧ s.views.filling.getD k.val .unknown = .empty ∧
        s.views.v1.getD k.val .unknown = .empty := by
  have hnot : ∀ j : Nat, (viewOf .unknown).getD j .unknown ≠ .empty := fun j => by
    rw [viewOf, List.getD_eq_getElem?_getD, List.getElem?_replicate]
    split <;> nofun
  rw [State.viewsAfter, hcycle]
  split
  next h =>
    refine ⟨fun hempty => absurd hempty.1 (hnot _), fun ⟨hrotates, _⟩ => ?_⟩
    simp [hrotates] at h
  next h =>
    have hrotates : s.early.viewsSet = false ∧ c.nextPhase = none := by simpa using h
    simp [hrotates]

theorem viewsAfter_known {s : State} {c : Cycle} (hcycle : s.timer.cycle = some c) :
    pictureComplete s.viewsAfter.1 s.viewsAfter.2 = true ↔
      (s.early.viewsSet = false ∧ c.nextPhase = none) ∧
        ∀ k : SlotIx, k.val ≤ 13 → s.views.filling.getD k.val .unknown ≠ .unknown ∧
        s.views.v1.getD k.val .unknown ≠ .unknown := by
  rw [pictureComplete_iff, State.viewsAfter, hcycle]
  split
  next h =>
    refine ⟨fun hknown => absurd rfl (hknown 0 (Nat.zero_le _)).1, fun ⟨hrotates, _⟩ => ?_⟩
    simp [hrotates] at h
  next h =>
    have hrotates : s.early.viewsSet = false ∧ c.nextPhase = none := by simpa using h
    simp [hrotates]

/-! ### The role that follows the far-end claim (R143) -/

theorem role_of_far {b : BearerState} {cl : ClaimState} (h : roleMatches b cl = true) :
    (cl = .tentative → b = .claiming) ∧ (cl = .confirmed → b = .bearing) := by
  constructor <;> (rintro rfl; cases b <;> simp [roleMatches] at h ⊢)

theorem bearerFollows_bearer {s : State} {old : ClaimState} (hrole : roleMatches s.bearer.state old = true)
    (new : ClaimState) :
    (s.bearerFollows old new).bearer = { s.bearer with
      state :=
        if old = .tentative ∧ new = .confirmed then .bearing
        else if old = .confirmed ∧ new = .holdoff then .claiming else s.bearer.state } := by
  rw [State.bearerFollows]
  by_cases hup : old = .tentative ∧ new = .confirmed
  · have hclaiming : s.bearer.state = .claiming := (role_of_far hrole).1 hup.1
    rw [if_pos ⟨hclaiming, hup⟩, if_pos hup]
    rfl
  · rw [if_neg fun h => hup h.2, if_neg hup]
    by_cases hdown : old = .confirmed ∧ new = .holdoff
    · have hbearing : s.bearer.state = .bearing := (role_of_far hrole).2 hdown.1
      rw [if_pos ⟨hbearing, hdown⟩, if_pos hdown]
    · rw [if_neg fun h => hdown h.2, if_neg hdown]

/-! ### The claim work of a cycle end -/

/-- The claim work, as a state of its own. -/
def claimed (s : State) (c : Cycle) : State := ((s.atInstant c.planned).timerWork c).claimWork

/-- The facts that the decisions read. -/
def facts (s : State) : ClaimFacts := s.claimFacts s.countedPeers

/-- The voice claim decided, and then the far-end claim. -/
def decidedVoice (s : State) : Claim × List Flag := s.voice.decideUnless s.early.voiceDecided (facts s) s.farEnd.slot

def decidedFar (s : State) : Claim × List Flag :=
  s.farEnd.decideUnless s.early.farDecided (facts s) (decidedVoice s).1.slot

section
variable {s : State} (hgroup : s.station.state.inGroup = true) (hjump : s.early.jump = none)
  (hrole : roleMatches s.bearer.state s.farEnd.state = true) (c : Cycle)
include hgroup hjump hrole

theorem claimed_eq :
    (claimed s c).voice = (decidedVoice s).1 ∧ (claimed s c).farEnd = (decidedFar s).1 ∧
      (∀ g, g ≠ .bearerUp → (claimed s c).flagSet g =
        (s.flagSet g || decide (g ∈ (decidedVoice s).2) || decide (g ∈ (decidedFar s).2))) ∧
      (claimed s c).bearer = { s.bearer with
        state :=
          if s.farEnd.state = .tentative ∧ (decidedFar s).1.state = .confirmed then .bearing
          else if s.farEnd.state = .confirmed ∧ (decidedFar s).1.state = .holdoff then .claiming else s.bearer.state } ∧
      (claimed s c).flagSet .bearerUp =
        (s.flagSet .bearerUp || decide (.bearerUp ∈ (decidedVoice s).2) || decide (.bearerUp ∈ (decidedFar s).2) ||
          decide (s.farEnd.state = .tentative ∧ (decidedFar s).1.state = .confirmed)) := by
  obtain ⟨hvoice, hfar, hflags, hbearer, hup⟩ :=
    State.claimWork_decides (s := (s.atInstant c.planned).timerWork c) hgroup hjump
  refine ⟨hvoice, hfar, hflags, hbearer.trans (bearerFollows_bearer (s := (s.atInstant c.planned).timerWork c) hrole _), hup.trans ?_⟩
  have hclaiming : (s.bearer.state = .claiming ∧ s.farEnd.state = .tentative ∧ (decidedFar s).1.state = .confirmed) ↔
      s.farEnd.state = .tentative ∧ (decidedFar s).1.state = .confirmed :=
    ⟨And.right, fun h => ⟨(role_of_far hrole).1 h.1, h⟩⟩
  exact congrArg _ (decide_eq_decide.2 hclaiming)

/-- A role claims after the decisions where it did before. -/
theorem claimed_claims : (claimed s c).bearer.state.claims = s.bearer.state.claims := by
  obtain ⟨_, _, _, hbearer, _⟩ := claimed_eq hgroup hjump hrole c
  rw [hbearer]
  show (if _ then BearerState.bearing else if _ then BearerState.claiming else s.bearer.state).claims = _
  split
  next h => rw [(role_of_far hrole).1 h.1]; rfl
  next =>
    split
    next h => rw [(role_of_far hrole).2 h.1]; rfl
    next => rfl

end

theorem claims_flag {s : State} (hlate : s.chan.late = []) {c : Cycle} (hjump : s.jumpDue c = false)
    (order : DeadlineOrder)
    {g : Flag} (hg : g ∈ [Flag.groupFull, .claimConfirmed, .claimLost, .bearerUp]) :
    (s.endCycle c order).flagSet g = (claimed s c).flagSet g := by
  have hother : ∀ f ∈ [Flag.stateChanged, .pairTimeout, .farendUp, .farendDown, .downlinkUnderrun, .uplinkOverrun,
      .peerLost, .wearerSurplus, .pairingEnded], g ≠ f := fun f hf hgf => by
    subst hgf
    revert hg hf
    cases g <;> decide
  have hnot : ∀ fs : List Flag, (∀ f ∈ fs, f ∈ [Flag.stateChanged, .pairTimeout, .farendUp, .farendDown,
      .downlinkUnderrun, .uplinkOverrun, .peerLost, .wearerSurplus, .pairingEnded]) → g ∉ fs :=
    fun fs hfs hmem => hother g (hfs g hmem) rfl
  rw [State.endCycle_flag hlate c order (hnot _ (by decide)), State.atDeadline, State.cycleWork,
    State.pairingWork_raises _ _ (hnot _ (by decide)), State.surplusWork_raises _ _ (hnot _ (by decide)),
    State.peerWork_raises _ _ (hnot _ (by decide)), State.flagSet, StepJump.ageBearer_flags, ← State.flagSet,
    jumpIfDue_not (s := s.atInstant c.planned) hjump]
  rfl

theorem ageBearer_age (s : State) :
    s.ageBearer.bearer.age = if s.bearer.state.claims then min (s.bearer.age + 1) 255 else s.bearer.age := by
  rw [State.ageBearer]
  split <;> rfl

/-- Settles O48. -/
theorem claimsAreDecidedAtTheCycleEnd : Obligations.ClaimsAreDecidedAtTheCycleEnd := by
  intro c order s ⟨hcycle, hend, hframe⟩ hlate hclaims hstate hjumped hjump
  refine ⟨_, execCycleEnd_due hcycle hend hframe order, ?_⟩
  have hgroup := (Session.inGroup_iff _).2 hstate
  obtain ⟨hvoiceOk, hfarOk, _, hrole⟩ := s.claimsOk_iff.1 hclaims
  obtain ⟨htvoice, htfar, htstate, htage⟩ := State.endCycle_claims hlate order hgroup hjump hrole
  obtain ⟨hvoice, hfar, hflags, hbearer, hup⟩ := claimed_eq hgroup hjumped hrole c
  have hnext : (s.endCycle c order).voice = (decidedVoice s).1 := htvoice.trans hvoice
  have hnextFar : (s.endCycle c order).farEnd = (decidedFar s).1 := htfar.trans hfar
  have hclaimVoice : (s.endCycle c order).claim .voice = (decidedVoice s).1 := hnext
  have hclaimFar : (s.endCycle c order).claim .farEnd = (decidedFar s).1 := hnextFar
  intro kept rotates empty complete free fills confirms loses
  have hempty : ∀ (k : SlotIx) (o : Option SlotIx), empty k ∧ o ≠ some k ↔
      k.val ≤ 13 ∧ (facts s).v1.getD k.val .unknown = .empty ∧ (facts s).v2.getD k.val .unknown = .empty ∧ o ≠ some k :=
    fun k o =>
      have hviews := viewsAfter_empty hcycle k
      ⟨fun ⟨⟨hk, hboth⟩, ho⟩ => ⟨hk, (hviews.2 hboth).1, (hviews.2 hboth).2, ho⟩,
        fun ⟨hk, hfirst, hsecond, ho⟩ => ⟨⟨hk, hviews.1 ⟨hfirst, hsecond⟩⟩, ho⟩⟩
  have hcomplete : complete ↔ pictureComplete (facts s).v1 (facts s).v2 = true := (viewsAfter_known hcycle).symm
  have halone : (∀ p ∈ s.countedPeers, p.state = .lost) ↔ (facts s).alone = true := by
    simp [facts, State.claimFacts]
  obtain ⟨vkeeps, vrows, vfull, vconfirmed, vlost, vup, _, _⟩ := decideUnless_reads (cl := s.voice) s.early.voiceDecided
    hvoiceOk (hempty · s.farEnd.slot) hcomplete halone rfl
  have hfreeFar : ∀ k, empty k ∧ (s.endCycle c order).voice.slot ≠ some k ↔ k.val ≤ 13 ∧
      (facts s).v1.getD k.val .unknown = .empty ∧ (facts s).v2.getD k.val .unknown = .empty ∧
        (decidedVoice s).1.slot ≠ some k := fun k => by
    rw [hnext]
    exact hempty k _
  obtain ⟨fkeeps, frows, ffull, fconfirmed, flost, fup, fbears, fends⟩ := decideUnless_reads (cl := s.farEnd)
    s.early.farDecided hfarOk hfreeFar hcomplete halone rfl
  have hflag : ∀ (g : Flag) (p : ClaimId → Prop), g ∈ [Flag.groupFull, .claimConfirmed, .claimLost] →
      (g ∈ (decidedVoice s).2 ↔ p .voice) → (g ∈ (decidedFar s).2 ↔ p .farEnd) →
      ((s.endCycle c order).flagSet g = true ↔ s.flagSet g = true ∨ ∃ id, p id) := fun g p hg hv hf => by
    have hne : g ≠ .bearerUp := by rintro rfl; simp at hg
    have hmem : g ∈ [Flag.groupFull, .claimConfirmed, .claimLost, .bearerUp] :=
      (List.mem_append (t := [Flag.bearerUp])).2 (.inl hg)
    rw [claims_flag hlate hjump order hmem, hflags g hne]
    simp only [Bool.or_eq_true, decide_eq_true_eq, hv, hf, exists_claimId, or_assoc]
  have hbearerState := htstate.trans (congrArg Bearer.state hbearer)
  have hage := htage.trans (ageBearer_age (claimed s c))
  rw [claimed_claims hgroup hjumped hrole, hbearer] at hage
  refine ⟨fun id h => ?_, fun id h => ?_, hflag .groupFull _ (by decide) vfull ffull,
    hflag .claimConfirmed _ (by decide) vconfirmed fconfirmed, hflag .claimLost _ (by decide) vlost flost, ?_,
    fun h => hbearerState.trans (if_pos (fbears.2 h)), fun h => hbearerState.trans ?_, fun hno hnot =>
    hbearerState.trans ?_,
    fun h => hage.trans (if_pos ?_), fun h => hage.trans (if_neg ?_)⟩
  · cases id with
    | voice => exact hnext.trans (vkeeps h)
    | farEnd => exact hnextFar.trans (fkeeps h)
  · cases id with
    | voice =>
      show _ ∧ _
      rw [hclaimVoice]
      exact vrows h
    | farEnd =>
      show _ ∧ _
      rw [hclaimFar]
      exact frows h
  · have hnone : Flag.bearerUp ∉ (decidedVoice s).2 ∧ Flag.bearerUp ∉ (decidedFar s).2 := ⟨vup, fup⟩
    rw [claims_flag hlate hjump order (by decide), hup, decide_eq_false hnone.1, decide_eq_false hnone.2, Bool.or_false,
      Bool.or_false, Bool.or_eq_true, decide_eq_true_eq]
    exact or_congr_right fbears
  · have hlost := fends.2 h
    have hnot : ClaimState.confirmed ≠ .tentative := nofun
    exact (if_neg fun hboth => hnot (hlost.1.symm.trans hboth.1)).trans (if_pos hlost)
  · exact (if_neg (mt fbears.1 hno)).trans (if_neg (mt fends.1 hnot))
  · obtain h | h := h <;> rw [h] <;> rfl
  · obtain h | h := h <;> rw [h] <;> nofun

/-! ### The rows that decide a claim ahead of the cycle end (R68 to R70) -/

theorem decideOn_unconfirmed {cl : Claim} {f : ClaimFacts} (hstate : cl.state = .tentative) (hcycles : cl.cycles = 7)
    (hclean : cl.clean = false) (hconflict : cl.conflict = false) (halone : f.alone = false) (o : Option SlotIx) :
    cl.decideOn f o = (Claim.inState .holdoff, []) := by
  simp [Claim.decideOn, hstate, Claim.decideTentative, hcycles, hclean, hconflict, halone]

theorem decideOn_lost {cl : Claim} (hstate : cl.state = .confirmed) (hrun : cl.run = 1) (hconflict : cl.conflict = true)
    (f : ClaimFacts) (o : Option SlotIx) : cl.decideOn f o = (Claim.inState .holdoff, [.claimLost]) := by
  simp [Claim.decideOn, hstate, Claim.decideConfirmed, hrun, hconflict]

theorem decideOn_held {cl : Claim} {f : ClaimFacts} (hstate : cl.state = .holdoff) (hcycles : f.hold ≤ cl.cycles + 1)
    (o : Option SlotIx) : cl.decideOn f o = (Claim.inState .waiting, []) := by
  simp [Claim.decideOn, hstate, Claim.decideHoldoff, hcycles]

def otherClaim : ClaimId → ClaimId
  | .voice => .farEnd
  | .farEnd => .voice

/-- The claim is marked as decided at this cycle end. -/
def markDecided (e : Early) : ClaimId → Early
  | .voice => { e with voiceDecided := true }
  | .farEnd => { e with farDecided := true }

/-- What the decision of one claim leaves: the new state without a slot or a count, and the mark. -/
def claimSettled (s t : State) (id : ClaimId) (st : ClaimState) : Prop :=
  t.claim id = { Claim.gone with state := st } ∧ t.claim (otherClaim id) = s.claim (otherClaim id) ∧ t.peers = s.peers ∧
    t.station = s.station ∧ t.views = s.views ∧ t.early = markDecided s.early id ∧ s.sameFrame t

section
variable {s : State} {id : ClaimId} {st : ClaimState} {evs : List Flag}
  (h : ∀ o, (s.claim id).decideOn (facts s) o = (Claim.inState st, evs))
include h

theorem decideEarly_settles : claimSettled s (s.decideEarly id) id st := by
  cases id with
  | voice =>
    have hdecide := h s.farEnd.slot
    simp only [State.claim, facts] at hdecide
    simp only [claimSettled, State.decideEarly, State.decideVoice, hdecide]
    refine ⟨by simp [State.claim]; rfl, ?_⟩
    simp [otherClaim, State.claim, markDecided, State.sameFrame]
  | farEnd =>
    have hdecide := h s.voice.slot
    simp only [State.claim, facts] at hdecide
    simp only [claimSettled, State.decideEarly, State.decideFar, hdecide]
    refine ⟨by simp [State.claim]; rfl, ?_⟩
    simp [otherClaim, State.claim, markDecided, State.sameFrame]

theorem decideEarly_flags (hst : st ≠ .confirmed) : (s.decideEarly id).flags = (s.raiseAll evs).flags := by
  have hraise : ∀ (fs : List Flag) (t u : State), t.flags = u.flags →
    (t.raiseAll fs).flags = (u.raiseAll fs).flags := by
    intro fs
    induction fs with
    | nil => exact fun t u htu => htu
    | cons g fs ih => exact fun t u htu => ih _ _ (by rw [State.raise_flags, State.raise_flags, htu])
  cases id with
  | voice =>
    have hdecide := h s.farEnd.slot
    simp only [State.claim, facts] at hdecide
    simp only [State.decideEarly, State.decideVoice, hdecide]
    exact hraise evs _ _ rfl
  | farEnd =>
    have hdecide := h s.voice.slot
    simp only [State.claim, facts] at hdecide
    simp only [State.decideEarly, State.decideFar, hdecide]
    rw [State.bearerFollows, if_neg fun hup => hst hup.2.2]
    split <;> exact hraise evs _ _ rfl

/-- The role follows the far-end claim alone, and goes back to CLAIMING with its loss (R143). -/
theorem decideEarly_bearer (hst : st ≠ .confirmed) : (s.decideEarly id).bearer =
    if id = .farEnd ∧ s.bearer.state = .bearing ∧ (s.claim id).state = .confirmed ∧ st = .holdoff then
      { s.bearer with state := .claiming }
    else s.bearer := by
  cases id with
  | voice =>
    simp [State.decideEarly]
  | farEnd =>
    have hdecide := h s.voice.slot
    simp only [State.claim, facts] at hdecide
    simp only [State.decideEarly, State.decideFar, hdecide, true_and, State.claim]
    rw [State.bearerFollows, if_neg fun hup => hst hup.2.2]
    simp only [State.raiseAll_frame]
    split
    next hboth => exact (if_pos hboth).symm
    next hnot => exact (by simp : _ = s.bearer).trans (if_neg hnot).symm

end

theorem claimGoes_of {c : Cycle} {s : State} {id : ClaimId} (hopen : s.claimOpen c id = true)
    {old st : ClaimState} {evs : List Flag} (h : ∀ o, (s.claim id).decideOn (facts s) o = (Claim.inState st, evs))
    (hold : (s.claim id).state = old) :
    (s.claimOpen c id && s.claimGoes id old st) = true := by
  obtain ⟨hclaim, _⟩ := decideEarly_settles h
  rw [State.claimGoes, hclaim, hold, hopen]
  simp

section
variable {c : Cycle} {s : State} {id : ClaimId} (hcycle : s.timer.cycle = some c) (hend : s.atCycleEnd = true)
  (hopen : s.claimOpen c id = true) {st : ClaimState} {evs : List Flag}
  (h : ∀ o, (s.claim id).decideOn (facts s) o = (Claim.inState st, evs))
include hcycle hend hopen h

theorem tentativeExpiry_due (hold : (s.claim id).state = .tentative) (hst : st = .holdoff)
    (hconflict : (s.claim id).conflict = false) :
    exec (.tentativeExpiry id) s = .next ((s.atInstant c.planned).decideEarly id) := by
  subst hst
  have hgoes := claimGoes_of hopen h hold
  exact State.earlyRow_due (f := fun s _ => s.decideEarly id) hcycle hend
    (due := fun s c => s.claimOpen c id && s.claimGoes id .tentative .holdoff && !(s.claim id).conflict)
    (Bool.and_eq_true_iff.2 ⟨hgoes, by rw [hconflict]; rfl⟩)

theorem claimLost_due (hold : (s.claim id).state = .confirmed) (hst : st = .holdoff) :
    exec (.claimLost id) s = .next ((s.atInstant c.planned).decideEarly id) := by
  subst hst
  exact State.earlyRow_due (f := fun s _ => s.decideEarly id)
    (due := fun s c => s.claimOpen c id && s.claimGoes id .confirmed .holdoff) hcycle hend
    (claimGoes_of hopen h hold)

theorem holdoffExpiry_due (hold : (s.claim id).state = .holdoff) (hst : st = .waiting) :
    exec (.holdoffExpiry id) s = .next ((s.atInstant c.planned).decideEarly id) := by
  subst hst
  exact State.earlyRow_due (f := fun s _ => s.decideEarly id)
    (due := fun s c => s.claimOpen c id && s.claimGoes id .holdoff .waiting) hcycle hend
    (claimGoes_of hopen h hold)

end

/-- What each row leaves, for either claim. -/
theorem rows_of_a_claim {c : Cycle} {s : State} (id : ClaimId) (hcycle : s.timer.cycle = some c)
    (hend : s.atCycleEnd = true)
    (hopen : s.claimOpen c id = true) :
    ((s.claim id).state = .tentative → (s.claim id).cycles = 7 → (s.claim id).clean = false →
      (s.claim id).conflict = false → (∃ p ∈ s.countedPeers, p.state ≠ .lost) →
      ∃ t, exec (.tentativeExpiry id) s = .next t ∧ claimSettled s t id .holdoff ∧ t.flags = s.flags ∧
      t.bearer = s.bearer) ∧
    ((s.claim id).state = .confirmed → (s.claim id).run = 1 → (s.claim id).conflict = true →
      ∃ t, exec (.claimLost id) s = .next t ∧ claimSettled s t id .holdoff ∧
        t.flags = s.flags ||| Flag.claimLost.mark ∧ (id = .voice → t.bearer = s.bearer) ∧
        (id = .farEnd → s.bearer.state = .bearing → t.bearer = { s.bearer with state := .claiming })) ∧
    ((s.claim id).state = .holdoff → (s.claim id).cycles = s.station.creds.number.val % 4 →
      ∃ t, exec (.holdoffExpiry id) s = .next t ∧ claimSettled s t id .waiting ∧ t.flags = s.flags ∧
      t.bearer = s.bearer) := by
  have hsame : (s.atInstant c.planned).claim id = s.claim id := by cases id <;> rfl
  have hsettled : ∀ {t : State} {st : ClaimState}, claimSettled (s.atInstant c.planned) t id st →
    claimSettled s t id st :=
    fun h => by cases id <;> exact h
  have hnot : ClaimState.holdoff ≠ .confirmed := nofun
  have hnotWaiting : ClaimState.waiting ≠ .confirmed := nofun
  refine ⟨fun hstate hcycles hclean hconflict ⟨p, hp, hheard⟩ => ?_, fun hstate hrun hconflict => ?_,
    fun hstate hcycles => ?_⟩
  · have halone : (facts s).alone = false := by
      show (s.countedPeers.all fun p => p.state == .lost) = false
      exact List.all_eq_false.2 ⟨p, hp, by simpa using hheard⟩
    have hdecide := decideOn_unconfirmed hstate hcycles hclean hconflict halone
    refine ⟨_, tentativeExpiry_due hcycle hend hopen hdecide hstate rfl hconflict,
      hsettled (decideEarly_settles (s := s.atInstant c.planned) (id := id) (by rwa [hsame])), ?_, ?_⟩
    · exact decideEarly_flags (s := s.atInstant c.planned) (id := id) (by rwa [hsame]) hnot
    · rw [decideEarly_bearer (s := s.atInstant c.planned) (id := id) (by rwa [hsame]) hnot, hsame, hstate]
      exact if_neg fun hboth => nomatch hboth.2.2.1
  · have hdecide := decideOn_lost hstate hrun hconflict (facts s)
    have hbearer := decideEarly_bearer (s := s.atInstant c.planned) (id := id) (by rwa [hsame]) hnot
    refine ⟨_, claimLost_due hcycle hend hopen hdecide hstate rfl,
      hsettled (decideEarly_settles (s := s.atInstant c.planned) (id := id) (by rwa [hsame])), ?_, fun hid => ?_,
      fun hid hbearing => ?_⟩
    · exact decideEarly_flags (s := s.atInstant c.planned) (id := id) (by rwa [hsame]) hnot
    · rw [hbearer, hid]
      exact if_neg fun hboth => nomatch hboth.1
    · rw [hbearer]
      exact if_pos ⟨hid, hbearing, by rw [hsame, hstate], rfl⟩
  · have hdecide := decideOn_held (f := facts s) hstate (by rw [hcycles]; exact Nat.le_refl _)
    refine ⟨_, holdoffExpiry_due hcycle hend hopen hdecide hstate rfl,
      hsettled (decideEarly_settles (s := s.atInstant c.planned) (id := id) (by rwa [hsame])), ?_, ?_⟩
    · exact decideEarly_flags (s := s.atInstant c.planned) (id := id) (by rwa [hsame]) hnotWaiting
    · rw [decideEarly_bearer (s := s.atInstant c.planned) (id := id) (by rwa [hsame]) hnotWaiting, hsame, hstate]
      exact if_neg fun hboth => nomatch hboth.2.2.1

/-- Settles O49. -/
theorem claimCountsRunOut : Obligations.ClaimCountsRunOut := by
  intro c id s hcycle hend hmember hjumped hjump hundecided
  have hopen : s.claimOpen c id = true := by
    cases id with
    | voice =>
      have hvoice : s.early.voiceDecided = false := hundecided
      simp [State.claimOpen, hjump, hmember, hjumped, hvoice, StationState.inGroup]
    | farEnd =>
      have hfar : s.early.farDecided = false := hundecided
      simp [State.claimOpen, hjump, hmember, hjumped, hfar, StationState.inGroup]
  obtain ⟨hexpires, hloses, hheld⟩ := rows_of_a_claim id hcycle hend hopen
  refine ⟨fun hstate hcycles hclean hconflict hpeer => ?_, fun hstate hrun hconflict => ?_, fun hstate hcycles => ?_⟩
  · obtain ⟨t, ht, ⟨hclaim, hother, hpeers, hstation, hviews, hearly, hsame⟩, hflags, hbearer⟩ :=
      hexpires hstate hcycles hclean hconflict hpeer
    cases id <;> exact ⟨t, ht, hclaim, hother, hflags, hbearer, hpeers, hstation, hviews, hearly, hsame⟩
  · obtain ⟨t, ht, ⟨hclaim, hother, hpeers, hstation, hviews, hearly, hsame⟩, hflags, hvoice, hfar⟩ :=
      hloses hstate hrun hconflict
    cases id <;> exact ⟨t, ht, hclaim, hother, hflags, hvoice, hfar, hpeers, hstation, hviews, hearly, hsame⟩
  · obtain ⟨t, ht, ⟨hclaim, hother, hpeers, hstation, hviews, hearly, hsame⟩, hflags, hbearer⟩ := hheld hstate hcycles
    cases id <;> exact ⟨t, ht, hclaim, hother, hflags, hbearer, hpeers, hstation, hviews, hearly, hsame⟩

end Sys2Proof.Proofs.Claims
end

section
/-! PROOFS. The payloads that a frame deadline prepares, and the take from the downlink queue. -/

namespace Sys2Proof.Proofs.Payloads

open Sys2Proof Sys2Proof.Machine Sys2Proof.Proofs.NextCycle

/-! ### The frame of a take (Table 9-6, R150) -/

theorem getD_append_single {xs : List Sample} {y : Sample} {n i : Nat} (h : xs.length = n) :
    (xs ++ [y]).getD i 0 = if i = n then y else xs.getD i 0 := by
  subst h
  split
  next hi => simp [hi, List.getD_eq_getElem?_getD]
  next hi =>
    rw [List.getD_eq_getElem?_getD, List.getD_eq_getElem?_getD]
    obtain hlt | hgt := Nat.lt_or_gt_of_ne hi
    · rw [List.getElem?_append_left hlt]
    · rw [List.getElem?_eq_none (by simpa using hgt), List.getElem?_eq_none hgt.le]

theorem getD_take {xs : List Sample} {n i : Nat} (h : i < n) : (xs.take n).getD i 0 = xs.getD i 0 := by
  rw [List.getD_eq_getElem?_getD, List.getD_eq_getElem?_getD, List.getElem?_take_of_lt h]

theorem getLastD_eq (hold : Sample) (q : List Sample) :
    q.getLastD hold = if q.length = 0 then hold else q.getD (q.length - 1) 0 := by
  cases q with
  | nil => rfl
  | cons x xs =>
    rw [if_neg (by simp), List.getLastD_eq_getLast?, List.getLast?_eq_getElem?, List.getD_eq_getElem?_getD,
      List.getElem?_eq_getElem (by simp)]
    rfl

theorem getD_takeFrame (hold : Sample) (q : List Sample) {i : Nat} (hi : i < 160) :
    (takeFrame hold q).getD i 0 =
      if 400 < q.length ∧ i = 159 then BitVec.ofInt 16 (((q.getD 159 0).toInt + (q.getD 160 0).toInt) / 2)
      else if 160 ≤ q.length ∧ q.length < 240 ∧ i = 159 then q.getD 158 0
      else if i < q.length then q.getD i 0
      else if q.length = 0 then hold
      else q.getD (q.length - 1) 0 := by
  rw [takeFrame]
  by_cases hlong : 400 < q.length
  · rw [if_pos hlong, getD_append_single (n := 159) (List.length_take_of_le (by omega))]
    by_cases hlast : i = 159
    · rw [if_pos hlast, if_pos ⟨hlong, hlast⟩]
      rfl
    · rw [if_neg hlast, if_neg fun h => hlast h.2, if_neg fun h => hlast h.2.2, if_pos (by omega), getD_take (by omega)]
  · rw [if_neg hlong, if_neg (c := 400 < q.length ∧ i = 159) fun h => hlong h.1]
    by_cases hfull : 240 ≤ q.length
    · rw [if_pos hfull, if_neg (by omega), if_pos (by omega), getD_take hi]
    · rw [if_neg hfull]
      by_cases hshort : 160 ≤ q.length
      · rw [if_pos hshort, getD_append_single (n := 159) (List.length_take_of_le (by omega))]
        by_cases hlast : i = 159
        · rw [if_pos hlast, if_pos ⟨hshort, by omega, hlast⟩]
          rfl
        · rw [if_neg hlast, if_neg fun h => hlast h.2.2, if_pos (by omega), getD_take (by omega)]
      · rw [if_neg hshort, if_neg fun h => hshort h.1, ← getLastD_eq, List.getD_eq_getElem?_getD]
        by_cases hin : i < q.length
        · rw [if_pos hin, List.getElem?_append_left hin, List.getD_eq_getElem?_getD]
        · rw [if_neg hin, List.getElem?_append_right (not_lt.1 hin), List.getElem?_replicate, if_pos (by omega)]
          rfl

theorem takeCount_eq (n : Nat) :
    takeCount n = if 400 < n then 161 else if 240 ≤ n then 160 else if 160 ≤ n then 159 else n := rfl

/-- A take that produces a frame (R150, R151). -/
theorem makeTake_frame {s : State} (h : s.bearer.primed = true ∨ 240 ≤ s.bearer.downlink.length) :
    s.makeTake = ({ s with
      bearer := s.bearer.afterFrame (takeFrame s.bearer.holdSample s.bearer.downlink)
      chan := { s.chan with
        farPayload := some (encodeFrame (takeFrame s.bearer.holdSample s.bearer.downlink)) } }).raiseIf
        (decide (s.bearer.downlink.length < 160) && !s.bearer.underrun) .downlinkUnderrun :=
  if_pos (by simpa using h)

theorem makeTake_hush {s : State} (hprimed : s.bearer.primed = false) (hfew : s.bearer.downlink.length < 240) :
    s.makeTake = { s with bearer := { s.bearer with lastTake := .hush }, chan := { s.chan with farPayload := none } } :=
  if_neg (by simpa [hprimed] using hfew)

/-! ### The take of a deadline (R150) -/

theorem sending_iff (cl : Claim) : cl.sending = true ↔ cl.state = .tentative ∨ cl.state = .confirmed := by
  rw [Claim.sending]
  cases cl.state <;> simp

/-- Where the far-end claim holds its slot, the deadline's take is the one that the bearer record makes. -/
theorem deadline_takes {v s : State} (hsending : v.farEnd.sending = true)
    (hbearer : v.bearer.takeState = s.bearer.takeState)
    (hflag : v.flagSet .downlinkUnderrun = s.flagSet .downlinkUnderrun) :
    v.deadline.bearer.takeState = s.makeTake.bearer.takeState ∧
    v.deadline.bearer.lastTake = s.makeTake.bearer.lastTake ∧
      v.deadline.chan.farPayload = s.makeTake.chan.farPayload ∧
      v.deadline.flagSet .downlinkUnderrun = s.makeTake.flagSet .downlinkUnderrun := by
  obtain ⟨hstate, hlast, hpayload, hunderrun, _⟩ := v.deadline_payloads
  obtain ⟨kstate, klast, kpayload, kunderrun⟩ := State.makeTake_congr hbearer hflag
  rw [if_pos hsending] at hstate hlast hpayload hunderrun
  exact ⟨hstate.trans kstate, hlast.trans klast, hpayload.trans kpayload, hunderrun.trans kunderrun⟩

/-- Elsewhere it makes none. -/
theorem deadline_noTake {v : State} (hnot : ¬v.farEnd.sending = true) :
    v.deadline.bearer.takeState = v.bearer.takeState ∧ v.deadline.bearer.lastTake = .none ∧
      v.deadline.chan.farPayload = v.chan.farPayload ∧
      v.deadline.flagSet .downlinkUnderrun = v.flagSet .downlinkUnderrun := by
  obtain ⟨hstate, hlast, hpayload, hunderrun, _⟩ := v.deadline_payloads
  rw [if_neg hnot] at hstate hlast hpayload hunderrun
  exact ⟨hstate, hlast, hpayload, hunderrun⟩

/-! ### What the transitions leave of the payloads and the bearer record -/

theorem turn_payloads (ch : Channel) (was now : Bool) (t : Nat) :
    (ch.turn was now t).farPayload = ch.farPayload ∧ (ch.turn was now t).voicePayload = ch.voicePayload := by
  cases was <;> cases now <;> exact ⟨rfl, rfl⟩

theorem enter_payloads (s : State) (st : StationState) :
    (s.enter st).chan.farPayload = s.chan.farPayload ∧ (s.enter st).chan.voicePayload = s.chan.voicePayload :=
  turn_payloads _ _ _ _

/-- A newcomer's work at a cycle end is its timeout or a change of the pairing records. -/
theorem countSeek_or (s : State) : s.countSeek = s.pairTimeout ∨ ∃ p, s.countSeek = { s with pairing := p } := by
  rw [State.countSeek]
  split
  · exact .inr ⟨s.pairing, rfl⟩
  · split
    · exact .inl rfl
    · exact .inr ⟨_, rfl⟩

theorem decideNewcomer_or (s : State) :
    s.decideNewcomer = s.pairTimeout ∨ ∃ p, s.decideNewcomer = { s with pairing := p } := by
  rw [State.decideNewcomer]
  split
  · exact .inr ⟨s.pairing, rfl⟩
  · split
    · exact .inr ⟨_, rfl⟩
    · exact .inl rfl

theorem transitions_payloads (s : State) :
    s.transitions.chan.farPayload = s.chan.farPayload ∧ s.transitions.chan.voicePayload = s.chan.voicePayload := by
  have htimeout : s.pairTimeout.chan.farPayload = s.chan.farPayload ∧
    s.pairTimeout.chan.voicePayload = s.chan.voicePayload :=
    enter_payloads s.dropNewcomer .idle
  rw [State.transitions]
  cases s.station.state with
  | listen =>
    simp only [State.countListen]
    split
    · exact turn_payloads _ _ _ _
    · exact ⟨rfl, rfl⟩
  | seeking =>
    obtain h | ⟨p, h⟩ := countSeek_or s
    · exact h ▸ htimeout
    · exact h ▸ ⟨rfl, rfl⟩
  | joining =>
    show (if _ then s else s.decideNewcomer).chan.farPayload = _ ∧
      (if _ then s else s.decideNewcomer).chan.voicePayload = _
    split
    · exact ⟨rfl, rfl⟩
    · obtain h | ⟨p, h⟩ := decideNewcomer_or s
      · exact h ▸ htimeout
      · exact h ▸ ⟨rfl, rfl⟩
  | member => simp
  | leaving =>
    simp only [State.countLeaving]
    split
    · exact enter_payloads s .idle
    · exact ⟨rfl, rfl⟩
  | unconfigured | idle => exact ⟨rfl, rfl⟩

/-- The bearer record stays, but for an ENDING role that is over (R146). -/
theorem transitions_bearer_or (s : State) :
    s.transitions.bearer = s.bearer ∨
      s.bearer.state = .ending ∧ s.farEnd.state = .none ∧ s.transitions.bearer = Bearer.gone := by
  by_cases hover : s.bearer.state = .ending ∧ s.farEnd.state = .none
  · by_cases hmember : s.station.state = .member
    · refine .inr ⟨hover.1, hover.2, ?_⟩
      rw [StepJump.transitions_member hmember, State.settleRole, if_pos hover]
      simp
    · refine .inl ?_
      rw [State.transitions]
      cases hstate : s.station.state with
      | member => exact absurd hstate hmember
      | joining =>
        dsimp only
        split <;> simp
      | listen | seeking | leaving | unconfigured | idle => simp
  · exact .inl (State.transitions_bearer s fun hending hnone => hover ⟨hending, hnone⟩)

/-- MEMBER is entered at a cycle end from LISTEN alone. -/
theorem listening_of_transitions {s : State} (h : s.transitions.station.state = .member) :
    s.station.state.listening = true := by
  rw [State.transitions] at h
  cases hstate : s.station.state <;> rw [hstate] at h
  case seeking =>
    obtain hor | ⟨p, hor⟩ := countSeek_or s
    · exact nomatch (congrArg (·.station.state) hor).symm.trans h
    · exact nomatch hstate.symm.trans ((congrArg (·.station.state) hor).symm.trans h)
  case joining =>
    dsimp only at h
    split at h
    · exact nomatch hstate.symm.trans h
    · obtain hor | ⟨p, hor⟩ := decideNewcomer_or s
      · exact nomatch (congrArg (·.station.state) hor).symm.trans h
      · exact nomatch hstate.symm.trans ((congrArg (·.station.state) hor).symm.trans h)
  case unconfigured | idle => exact nomatch hstate.symm.trans h
  all_goals rfl

/-! ### The cycle end (R98, R107, R150) -/

theorem atDeadline_underrun (s : State) (c : Cycle) :
    (s.atDeadline c).flagSet .downlinkUnderrun = s.flagSet .downlinkUnderrun :=
  State.cycleWork_raises (s.atInstant c.planned) c _ (by decide)

theorem transitions_underrun (s : State) : s.transitions.flagSet .downlinkUnderrun = s.flagSet .downlinkUnderrun :=
  State.transitions_raises s _ (by decide)

theorem decided_far (s : State) (c : Cycle) (order : DeadlineOrder) :
    (decided s c order).farEnd = (s.atDeadline c).farEnd := by
  simp [decided]

/-- The take, whichever of the transitions and the audio work comes first. -/
theorem decided_takes {s : State} {c : Cycle} (hsending : (s.atDeadline c).farEnd.sending = true)
    (order : DeadlineOrder) :
    (decided s c order).bearer.takeState = s.makeTake.bearer.takeState ∧
      (decided s c order).bearer.lastTake = s.makeTake.bearer.lastTake ∧
      (decided s c order).chan.farPayload = s.makeTake.chan.farPayload ∧
      (decided s c order).flagSet .downlinkUnderrun = s.makeTake.flagSet .downlinkUnderrun := by
  have hstays : ∀ u : State, u.farEnd.sending = true → u.transitions.bearer = u.bearer := fun u hu =>
    (transitions_bearer_or u).resolve_right fun ⟨_, hnone, _⟩ => by
      rw [Claim.sending, hnone] at hu
      exact nomatch hu
  have hstate := s.atDeadline_takeState c
  have hflag := atDeadline_underrun s c
  rw [decided]
  generalize s.atDeadline c = u at *
  cases order with
  | stateFirst =>
    exact deadline_takes (v := u.transitions) (by simpa using hsending) (by rw [hstays u hsending, hstate])
      ((transitions_underrun u).trans hflag)
  | deadlineFirst =>
    obtain ⟨htake, hlast, hpayload, hunderrun⟩ := deadline_takes hsending hstate hflag
    have hbearer := hstays u.deadline (by simpa using hsending)
    exact ⟨(congrArg Bearer.takeState hbearer).trans htake, (congrArg Bearer.lastTake hbearer).trans hlast,
      (transitions_payloads _).1.trans hpayload, (transitions_underrun _).trans hunderrun⟩

theorem decided_noTake {s : State} {c : Cycle} (hnot : ¬(s.atDeadline c).farEnd.sending = true)
    (order : DeadlineOrder) :
    (decided s c order).bearer.lastTake = .none ∧ (decided s c order).chan.farPayload = s.chan.farPayload ∧
      (decided s c order).flagSet .downlinkUnderrun = s.flagSet .downlinkUnderrun ∧
      (s.bearer.state ≠ .ending → (decided s c order).bearer.takeState = s.bearer.takeState) := by
  have hstate := s.atDeadline_takeState c
  have hflag := atDeadline_underrun s c
  have hchan : (s.atDeadline c).chan = s.chan := by simp [State.atDeadline]
  have hending : (s.atDeadline c).bearer.state = .ending ↔ s.bearer.state = .ending :=
    (State.cycleWork_bearer (s.atInstant c.planned) c).ending
  rw [decided]
  generalize s.atDeadline c = u at *
  cases order with
  | stateFirst =>
    obtain ⟨htake, hlast, hpayload, hunderrun⟩ := deadline_noTake (v := u.transitions) (by simpa using hnot)
    refine ⟨hlast, hpayload.trans ((transitions_payloads u).1.trans (by rw [hchan])),
      hunderrun.trans ((transitions_underrun u).trans hflag), fun hrole => htake.trans ?_⟩
    obtain hstays | ⟨hover, _⟩ := transitions_bearer_or u
    · rw [hstays, hstate]
    · exact absurd (hending.1 hover) hrole
  | deadlineFirst =>
    obtain ⟨htake, hlast, hpayload, hunderrun⟩ := deadline_noTake hnot
    refine ⟨?_, (transitions_payloads _).1.trans (hpayload.trans (by rw [hchan])),
      (transitions_underrun _).trans (hunderrun.trans hflag), fun hrole => ?_⟩
    · obtain hstays | ⟨_, _, hgone⟩ := transitions_bearer_or u.deadline
      · exact (congrArg Bearer.lastTake hstays).trans hlast
      · exact congrArg Bearer.lastTake hgone
    · obtain hstays | ⟨hover, _⟩ := transitions_bearer_or u.deadline
      · exact (congrArg Bearer.takeState hstays).trans (htake.trans hstate)
      · exact absurd (hending.1 (u.deadline_bearerState ▸ hover)) hrole

theorem tableOk_countedPeers {s : State} (h : s.peersOk = true) : tableOk s.station.creds.number s.countedPeers = true :=
  tableOk_age s.ageSkip (s.peersOk_iff.1 h).1

/-- The voice payload of a state with the table of the cycle just ended (R98, R107). -/
theorem voicePayloadNow_eq {s v : State} (hpeers : s.peersOk = true) (hmute : v.mute = s.mute)
    (hcreds : v.station.creds = s.station.creds) (hcodec : v.codec.capture = s.codec.capture)
    (htable : v.station.state = .member → v.peers = s.countedPeers) :
    let pair := admitted s.station.creds s.countedPeers s.station.creds.wearer
    let muted := s.mute.debounced = true ∨
      (s.station.creds.number ∈ pair ∧ ∃ p ∈ s.countedPeers, p.number ∈ pair ∧ p.lineMute = true)
    (v.station.state ≠ .member → v.voicePayloadNow = .none) ∧
      (v.station.state = .member → muted → v.voicePayloadNow = .hush) ∧
      (v.station.state = .member → ¬muted → v.voicePayloadNow = .frame (encodeFrame s.codec.capture)) := by
  intro pair muted
  have hmuted : v.station.state = .member → (v.effectiveMute v.peers = true ↔ muted) := fun hmember => by
    rw [State.effectiveMute, hmember, hmute, hcreds, htable hmember, Bool.or_eq_true, Bool.and_eq_true,
      partnerMuted_iff _ _ (tableOk_countedPeers hpeers)]
    exact or_congr_right (and_iff_right rfl)
  refine ⟨fun hnot => if_neg hnot, fun hmember hyes => ?_, fun hmember hno => ?_⟩
  · rw [State.voicePayloadNow, if_pos hmember, if_pos ((hmuted hmember).2 hyes)]
  · rw [State.voicePayloadNow, if_pos hmember, if_neg (mt (hmuted hmember).1 hno), hcodec]

/-- The station whose payload the deadline prepares: as the transitions leave it, or as they find it. -/
theorem decided_voicePayload {s : State} (hpeers : s.peersOk = true) (c : Cycle) (order : DeadlineOrder) :
    let pair := admitted s.station.creds s.countedPeers s.station.creds.wearer
    let muted := s.mute.debounced = true ∨
      (s.station.creds.number ∈ pair ∧ ∃ p ∈ s.countedPeers, p.number ∈ pair ∧ p.lineMute = true)
    let station := match order with
      | .stateFirst => (decided s c order).station.state
      | .deadlineFirst => s.station.state
    (station ≠ .member → (decided s c order).chan.voicePayload = .none) ∧
      (station = .member → muted → (decided s c order).chan.voicePayload = .hush) ∧
      (station = .member → ¬muted → (decided s c order).chan.voicePayload = .frame (encodeFrame s.codec.capture)) := by
  intro pair muted
  have hmute : (s.atDeadline c).mute = s.mute := by simp [State.atDeadline]
  have hstation : (s.atDeadline c).station = s.station := by simp [State.atDeadline]
  have hcodec : (s.atDeadline c).codec = s.codec := by simp [State.atDeadline]
  have htable : s.station.state.listening = true → (s.atDeadline c).peers = s.countedPeers := fun h =>
    State.cycleWork_peers (s := s.atInstant c.planned) h c
  cases order with
  | stateFirst =>
    obtain ⟨_, _, _, _, hpayload⟩ := (s.atDeadline c).transitions.deadline_payloads
    have hstate : (decided s c .stateFirst).station.state = (s.atDeadline c).transitions.station.state := by
      simp [decided, State.deadlineWork]
    have hsame : (decided s c .stateFirst).chan.voicePayload = (s.atDeadline c).transitions.voicePayloadNow := hpayload
    simp only [hstate, hsame]
    refine voicePayloadNow_eq hpeers (by simpa using hmute) ?_ (by simp [hcodec]) fun hmember => ?_
    · rw [(transitions_early _).2.2, hstation]
    · have hlistening := listening_of_transitions hmember
      rw [hstation] at hlistening
      simpa using htable hlistening
  | deadlineFirst =>
    obtain ⟨_, _, _, _, hpayload⟩ := (s.atDeadline c).deadline_payloads
    have hsame : (decided s c .deadlineFirst).chan.voicePayload = (s.atDeadline c).voicePayloadNow :=
      (transitions_payloads _).2.trans hpayload
    have hprepared := voicePayloadNow_eq (v := s.atDeadline c) hpeers hmute (by rw [hstation]) (by rw [hcodec])
      fun hmember => htable (by rw [← hstation, hmember]; rfl)
    simp only [hstation] at hprepared
    simpa only [hsame] using hprepared

/-- Settles O25. -/
theorem cycleEndPreparesThePayloads : Obligations.CycleEndPreparesThePayloads := by
  refine ⟨fun hold q => ⟨length_takeFrame hold q, fun i hi => getD_takeFrame hold q hi⟩,
    fun s hprimed hfew => makeTake_hush hprimed hfew, fun s hfull => ?_, fun c order s hends hlate hpeers => ?_⟩
  · intro f F
    rw [makeTake_frame hfull]
    refine ⟨by simp only [State.raiseIf_frame]; rfl, by simp only [State.raiseIf_frame]; rfl, ?_⟩
    by_cases hunderrun : F < 160 ∧ s.bearer.underrun = false
    · rw [if_pos hunderrun, State.raiseIf, if_pos (by simpa [F] using hunderrun)]
      rfl
    · rw [if_neg hunderrun, State.raiseIf, if_neg (by simpa [F] using hunderrun)]
  · intro held pair muted
    obtain ⟨hcycle, hend, hframe⟩ := hends
    refine ⟨_, execCycleEnd_due hcycle hend hframe order, ?_⟩
    obtain ⟨hflags, hstation, _, _, _, hfar, _, _, hbearer, hvoice, hpayload, _⟩ :=
      State.begun_frame (decided s c order) c
    have hflag : (s.endCycle c order).flagSet .downlinkUnderrun = (decided s c order).flagSet .downlinkUnderrun := by
      rw [State.endCycle_eq hlate]
      exact congrArg (fun fl : BitVec 25 => fl.getLsbD _) hflags
    rw [hflag, State.endCycle_eq hlate]
    rw [← decided, hstation, hfar, hbearer, hvoice, hpayload, decided_far, ← sending_iff]
    exact ⟨fun h => decided_takes h order, fun h => decided_noTake h order, decided_voicePayload hpeers c order⟩

end Sys2Proof.Proofs.Payloads
end

section
/-! PROOFS. The stream records after the frame deadline of a cycle end. -/

namespace Sys2Proof.Proofs.WearerRecords

open Sys2Proof Sys2Proof.Machine Sys2Proof.Proofs.NextCycle

/-! ### What a wearer record reads (R116) -/

theorem wearerChoice_prefHush {l : List RxEntry} {pref : StationNo} (h : rxLookup pref false l = some .hush)
    (partner : Option StationNo) : wearerChoice l pref partner = some (pref, .hush, false) := by
  simp [wearerChoice, h]

theorem wearerChoice_partnerHush {l : List RxEntry} {pref n : StationNo} (hpref : rxLookup pref false l ≠ some .hush)
    (h : rxLookup n false l = some .hush) : wearerChoice l pref (some n) = some (n, .hush, true) := by
  cases hp : rxLookup pref false l with
  | none => simp [wearerChoice, hp, h]
  | some o =>
    cases o with
    | hush => exact absurd hp hpref
    | frame f e => simp [wearerChoice, hp, h]

theorem wearerChoice_prefFrame {l : List RxEntry} {pref : StationNo} {f : Frame} {e : Nat}
    (h : rxLookup pref false l = some (.frame f e)) {partner : Option StationNo}
    (hpartner : ∀ n ∈ partner, rxLookup n false l ≠ some .hush) :
    wearerChoice l pref partner = some (pref, .frame f e, false) := by
  cases partner with
  | none => simp [wearerChoice, h]
  | some n =>
    cases hn : rxLookup n false l with
    | none => simp [wearerChoice, h, hn]
    | some o =>
      cases o with
      | hush => exact absurd hn (hpartner n rfl)
      | frame g d => simp [wearerChoice, h, hn]

theorem wearerChoice_partnerFrame {l : List RxEntry} {pref n : StationNo} {f : Frame} {e : Nat}
    (hpref : rxLookup pref false l = none) (h : rxLookup n false l = some (.frame f e)) :
    wearerChoice l pref (some n) = some (n, .frame f e, true) := by
  simp [wearerChoice, hpref, h]

theorem wearerChoice_none {l : List RxEntry} {pref : StationNo} (hpref : rxLookup pref false l = none)
    {partner : Option StationNo} (hpartner : ∀ n ∈ partner, rxLookup n false l = none) :
    wearerChoice l pref partner = none := by
  cases partner with
  | none => simp [wearerChoice, hpref]
  | some n => simp [wearerChoice, hpref, hpartner n rfl]

/-- A wearer record with its hang counter, from what the admitted stations of its wearer sent (R116 to R119). -/
theorem updateWearer_rows (l : List RxEntry) (who : List StationNo) (r : StreamRec) (tAct : Nat) :
    let loud := fun e : Nat => decide (tAct ≤ e)
    let heard := fun n => rxLookup n false l
    let hushed := fun n => heard n = some .hush
    let next := (updateWearer l who r).1.hangUpdate tAct (updateWearer l who r).2
    (who = [] → next = r.withoutSource) ∧
      ∀ pref rest, who = pref :: rest →
        (hushed pref → next = r.withHush pref) ∧
        (∀ n, rest = [n] → ¬hushed pref → hushed n → next = r.withHush n) ∧
        (∀ f e, heard pref = some (.frame f e) → (∀ n ∈ rest, ¬hushed n) → next = r.withFrame f (loud e) pref false) ∧
        (∀ n f e, rest = [n] → heard pref = none → heard n = some (.frame f e) → next = r.withFrame f (loud e) n true) ∧
        (heard pref = none → (∀ n ∈ rest, heard n = none) → next = r.withNothing) := by
  intro loud heard hushed next
  refine ⟨?_, ?_⟩
  · rintro rfl
    exact StreamRec.toAbsent_withoutSource _ _ _
  · rintro pref rest rfl
    have hchosen : ∀ n o b, wearerChoice l pref rest.head? = some (n, o, b) →
        next = (r.outcome o n b).hangUpdate tAct o.energy := fun n o b h => by
      simp only [next, updateWearer, h]
    refine ⟨fun h => ?_, fun n hrest hpref h => ?_, fun f e h hnone => ?_, fun n f e hrest hpref h => ?_,
      fun hpref hnone => ?_⟩
    · rw [hchosen _ _ _ (wearerChoice_prefHush h _)]
      exact StreamRec.hushed_withHush _ _ _ _
    · subst hrest
      rw [hchosen _ _ _ (wearerChoice_partnerHush hpref h)]
      exact StreamRec.hushed_withHush _ _ _ _
    · rw [hchosen _ _ _ (wearerChoice_prefFrame h fun n hn => hnone n (List.mem_of_mem_head? hn))]
      exact StreamRec.take_withFrame _ _ _ _ _ _
    · subst hrest
      rw [hchosen _ _ _ (wearerChoice_partnerFrame hpref h)]
      exact StreamRec.take_withFrame _ _ _ _ _ _
    · have hchoice := wearerChoice_none hpref (partner := rest.head?) fun n hn => hnone n (List.mem_of_mem_head? hn)
      simp only [next, updateWearer, hchoice]
      exact StreamRec.nothing_withNothing _ _ _

/-- The own-wearer record, from the voice payload that served the cycle (R99, R120). -/
theorem updateOwnWearer_rows (v : VoicePayload) (own : StationNo) (r : StreamRec) (tAct : Nat) :
    let next := (updateOwnWearer v own r).1.hangUpdate tAct (updateOwnWearer v own r).2
    (∀ p, v = .frame p →
      next = r.withFrame (decodePayload p) (decide (tAct ≤ energyOf (decodePayload p))) own false) ∧
      (v = .hush → next = r.withHush own) ∧ (v = .none → next = r.withoutSource) := by
  refine ⟨?_, ?_, ?_⟩
  · rintro p rfl
    exact StreamRec.take_withFrame _ _ _ _ _ _
  · rintro rfl
    exact StreamRec.hushed_withHush _ _ _ _
  · rintro rfl
    exact StreamRec.toAbsent_withoutSource _ _ _

/-- Settles O50. -/
theorem wearerRecordsFollowTheirStations : Obligations.WearerRecordsFollowTheirStations := by
  refine ⟨fun c order s hcycle hend hframe hfed => ?_, fun c order s ⟨hcycle, hend, hframe⟩ hsilent => ?_⟩
  · intro own loud energy heard hushed
    obtain ⟨hwearers, hlist⟩ := State.endCycle_wearers (order := order) hfed c
    refine ⟨_, execCycleEnd_due hcycle hend hframe order, hlist, fun w r hr => ?_⟩
    intro becomes who
    have hnext : ∀ {q}, s.wearerAtDeadline s.countedPeers w.val r = q → becomes q := fun {q} hq => by
      show (s.endCycle c order).streams.wearers[w.val]? = some q
      rw [hwearers, List.getElem?_mapIdx, hr, Option.map_some, hq]
    refine ⟨fun hw => ?_, fun hw => ?_⟩
    · have hown : s.wearerAtDeadline s.countedPeers w.val r =
          (updateOwnWearer s.chan.voicePayload own r).1.hangUpdate s.config.tAct.toNat
            (updateOwnWearer s.chan.voicePayload own r).2 := by
        rw [State.wearerAtDeadline, if_pos (congrArg Fin.val hw)]
      obtain ⟨hvoice, hhush, hnone⟩ := updateOwnWearer_rows s.chan.voicePayload own r s.config.tAct.toNat
      exact ⟨fun p hp => hnext (hown.trans (hvoice p hp)), fun h => hnext (hown.trans (hhush h)),
        fun h => hnext (hown.trans (hnone h))⟩
    · have hother : s.wearerAtDeadline s.countedPeers w.val r =
          (updateWearer s.streams.list who r).1.hangUpdate s.config.tAct.toNat (updateWearer s.streams.list who r).2 := by
        rw [State.wearerAtDeadline, if_neg fun h => hw (Fin.ext h), Fin.ofNat_val_eq_self]
      obtain ⟨hempty, hrows⟩ := updateWearer_rows s.streams.list who r s.config.tAct.toNat
      refine ⟨fun h => hnext (hother.trans (hempty h)), fun pref rest hwho => ?_⟩
      obtain ⟨hpref, hpartner, hframe, hborrowed, hnothing⟩ := hrows pref rest hwho
      exact ⟨fun h => hnext (hother.trans (hpref h)), fun n hn hp h => hnext (hother.trans (hpartner n hn hp h)),
        fun f e h hn => hnext (hother.trans (hframe f e h hn)),
        fun n f e hn hp h => hnext (hother.trans (hborrowed n f e hn hp h)),
        fun hp hn => hnext (hother.trans (hnothing hp hn))⟩
  · obtain ⟨⟨hwearers, hlist⟩, _⟩ := State.endCycle_silent (order := order) hsilent c
    exact ⟨_, execCycleEnd_due hcycle hend hframe order, hlist, hwearers⟩

/-! ### The far-end record (R122 to R127) -/

/-- What the deadline makes of a far-end record `r`: `tested` by the LOST test, and then `fed`. -/
def farRows (own : StationNo) (tAct : Nat) (list : List RxEntry) (take : TakeOutcome) (payload : Option Payload)
    (bears : Prop) (ps : List Peer) (r tested fed : StreamRec) : Prop :=
  let loud := fun e : Nat => decide (tAct ≤ e)
  let absent := fun q : StreamRec => { q.withoutSource with hang := q.hang }
  let candidate := fun p : Peer => p ∈ ps ∧ p.state ≠ .lost ∧ p.farSlot ≠ none ∧ p.bearer = true
  (let lost := ∃ n, r.source = some n ∧ (¬bears ∨ n ≠ own) ∧ ∀ p, findPeer n ps = some p → p.state = .lost
   (lost → tested = absent r) ∧ (¬lost → tested = r)) ∧
  (¬bears → (∀ p, ¬candidate p) → fed = tested.withoutSource) ∧
  (¬bears → ∀ p, candidate p →
    (∀ q, candidate q → q.age.toNat < p.age.toNat ∨ (q.age = p.age ∧ p.number ≤ q.number)) →
    let heard := rxLookup p.number true list
    (heard = some .hush → fed = tested.withHush p.number) ∧
    (∀ f e, heard = some (.frame f e) → fed = tested.withFrame f (loud e) p.number false) ∧
    (heard = none → tested.state = .absent → fed = tested.withoutSource) ∧
    (heard = none → tested.state ≠ .absent → fed = { tested.withNothing with source := some p.number })) ∧
  (bears →
    (∀ p, take = .frame → payload = some p →
      fed = tested.withFrame (decodePayload p) (loud (energyOf (decodePayload p))) own false) ∧
    (take = .hush → fed = tested.withHush own) ∧
    (take = .none → fed = tested.withNothing))

/-- The far-end record that the deadline decides on, with its hang counter. -/
def farFed (v : State) (ps : List Peer) : StreamRec :=
  (v.farDecided ps).1.hangUpdate v.config.tAct.toNat (v.farDecided ps).2

theorem farRows_of_state (v : State) (ps : List Peer) {bears : Prop} (hbears : bears ↔ v.bearer.state ≠ .none) :
    farRows v.station.creds.number v.config.tAct.toNat v.streams.list v.bearer.lastTake v.chan.farPayload bears ps
      v.streams.farEnd (v.farTested ps) (farFed v ps) := by
  rw [propext hbears]
  exact v.farDecided_rows ps

/-- After the role's end the record is decided as a station's that bears no call. -/
theorem farRows_bearerToNone (s : State) (ps : List Peer) (take : TakeOutcome) (payload : Option Payload) {bears : Prop}
    (hnot : ¬bears) :
    farRows s.station.creds.number s.config.tAct.toNat s.streams.list take payload bears ps s.streams.farEnd.toAbsent
      (s.bearerToNone.farTested ps) (farFed s.bearerToNone ps) := by
  have hbears : bears ↔ s.bearerToNone.bearer.state ≠ .none := by simp [hnot, Bearer.gone]
  obtain ⟨hlost, hnone, hpeer, _⟩ := farRows_of_state s.bearerToNone ps hbears
  simp only [State.bearerToNone_frame, State.bearerToNone_streams] at hlost hnone hpeer
  exact ⟨hlost, hnone, hpeer, fun h => absurd h hnot⟩

section
variable {before ahead after gone lost present silenced fed : Prop}

/-- FAREND_DOWN by the passages of the record to ABSENT, where its role ends ahead of the deadline's work, after it, or not
at all. -/
theorem farDown_ahead (hahead : ahead) (habsent : ¬present) (hafter : ¬after) :
    ((before ∨ gone) ∨ silenced) ↔ (before ∨ (ahead ∧ gone) ∨ (present ∧ lost) ∨ silenced ∨ (after ∧ fed)) := by
  simp [hahead, habsent, hafter, or_assoc]

theorem farDown_after (hahead : ¬ahead) (hafter : after) :
    ((before ∨ lost ∨ silenced) ∨ fed) ↔ (before ∨ (ahead ∧ gone) ∨ lost ∨ silenced ∨ (after ∧ fed)) := by
  simp [hahead, hafter, or_assoc]

theorem farDown_stays (hahead : ¬ahead) (hafter : ¬after) :
    (before ∨ lost ∨ silenced) ↔ (before ∨ (ahead ∧ gone) ∨ lost ∨ silenced ∨ (after ∧ fed)) := by
  simp [hahead, hafter]

end

/-- Settles O51. -/
theorem farEndRecordFollowsItsSource : Obligations.FarEndRecordFollowsItsSource := by
  refine ⟨fun c order s hcycle hend hframe hlate hclaims hfed => ?_,
    fun c order s ⟨hcycle, hend, hframe⟩ hquiet hsilent => ?_⟩
  · intro own loud energy absent roleEnds endsAhead endsAfter bears candidate
    have hrole := State.roleMatches_of_claimsOk hclaims
    by_cases hends : roleEnds
    · obtain ⟨⟨hfar, hup, hdown⟩, hfar', hup', hdown'⟩ := State.endCycle_farJump c hrole hends.1 hends.2 hlate
      cases order with
      | stateFirst =>
        have hahead : endsAhead := ⟨hends, rfl⟩
        have hnotAfter : ¬endsAfter := fun h => nomatch h.2
        obtain ⟨hlost, hnone, hpeer, hbears⟩ := farRows_bearerToNone s s.countedPeers s.bearer.lastTake
          s.chan.farPayload (bears := bears) fun h => h.2 hahead
        refine ⟨_, s.streams.farEnd.toAbsent, s.bearerToNone.farTested s.countedPeers,
          farFed s.bearerToNone s.countedPeers,
          execCycleEnd_due hcycle hend hframe _, fun _ => rfl, fun h => absurd hahead h, hlost, hnone, hpeer, hbears,
          fun h => absurd h hnotAfter, fun _ => ?_, hup, hdown.trans ?_⟩
        · exact hfar.trans (by simp [farFed])
        · exact farDown_ahead hahead (fun hpresent => hpresent rfl) hnotAfter
      | deadlineFirst =>
        have hnotAhead : ¬endsAhead := fun h => nomatch h.2
        have hafter : endsAfter := ⟨hends, rfl⟩
        obtain ⟨hlost, hnone, hpeer, hbears⟩ := farRows_of_state s s.countedPeers (bears := bears)
          ⟨And.left, fun h => ⟨h, hnotAhead⟩⟩
        refine ⟨_, s.streams.farEnd, s.farTested s.countedPeers, farFed s s.countedPeers,
          execCycleEnd_due hcycle hend hframe _, fun h => absurd h hnotAhead, fun _ => rfl, hlost, hnone, hpeer, hbears,
          fun _ => hfar', fun h => absurd hafter h, hup', hdown'.trans ?_⟩
        exact farDown_after hnotAhead hafter
    · have hnotAhead : ¬endsAhead := fun h => hends h.1
      have hnotAfter : ¬endsAfter := fun h => hends h.1
      have hstays : s.jumpDue c = false ∨ s.bearer.state ≠ .ending := by
        cases hdue : s.jumpDue c with
        | false => exact .inl rfl
        | true => exact .inr fun hending => hends ⟨hdue, hending⟩
      obtain ⟨hfar, hup, hdown⟩ := State.endCycle_far (order := order) hfed c hrole hstays hlate
      obtain ⟨hlost, hnone, hpeer, hbears⟩ := farRows_of_state s s.countedPeers (bears := bears)
        ⟨And.left, fun h => ⟨h, hnotAhead⟩⟩
      refine ⟨_, s.streams.farEnd, s.farTested s.countedPeers, farFed s s.countedPeers,
        execCycleEnd_due hcycle hend hframe _, fun h => absurd h hnotAhead, fun _ => rfl, hlost, hnone, hpeer, hbears,
        fun h => absurd h hnotAfter, fun _ => hfar, hup, hdown.trans ?_⟩
      exact farDown_stays hnotAhead hnotAfter
  · obtain ⟨_, hfar⟩ := State.endCycle_silent (order := order) hsilent c
    obtain ⟨hrecord, hdown⟩ := hfar hquiet
    exact ⟨_, execCycleEnd_due hcycle hend hframe order, hrecord, hdown⟩

end Sys2Proof.Proofs.WearerRecords
end

section
/-! PROOFS. The speaker frame and the uplink frame of a cycle end. -/

namespace Sys2Proof.Proofs.Mixing

open Sys2Proof Sys2Proof.Machine Sys2Proof.Proofs.SizesKept Sys2Proof.Proofs.NextCycle

/-! ### Gains and saturation (R132 to R134) -/

theorem round14_eq (x : Int) : round14 x = (x + 8192) / 16384 := rfl

theorem saturate_toInt (x : Int) : (saturate x).toInt = max (-32768) (min 32767 x) := by
  rw [saturate, clampInt]
  exact BitVec.toInt_ofInt_eq_self (by decide) (by norm_num) (by norm_num)

theorem headroom_le (k : Nat) : headroom k ≤ 16384 := by
  rw [headroom]
  split_ifs <;> decide

theorem effectiveGain_eq (g : Gain) (k : Nat) :
    effectiveGain g k = ((g.toNat : Int) * headroom k + 8192) / 16384 := rfl

theorem effectiveGain_range (g : Gain) (k : Nat) : 0 ≤ effectiveGain g k ∧ effectiveGain g k ≤ 32767 := by
  have hgain : g.toNat ≤ 32767 := Nat.le_of_lt_succ g.isLt
  have hproduct : g.toNat * headroom k ≤ 32767 * 16384 := Nat.mul_le_mul hgain (headroom_le k)
  have hcast : ((g.toNat : Int) * headroom k) = ((g.toNat * headroom k : Nat) : Int) := by push_cast; rfl
  rw [effectiveGain_eq, hcast]
  omega

theorem effectiveGain_unity {g : Gain} (h : g.toNat = 16384) (k : Nat) : effectiveGain g k = headroom k := by
  rw [effectiveGain_eq, h]
  omega

theorem volumeSample_toInt (vol : Gain) (y : Sample) :
    (volumeSample vol y).toInt = max (-32768) (min 32767 ((y.toInt * vol.toNat + 8192) / 16384)) :=
  saturate_toInt _

theorem volumeSample_unity {vol : Gain} (h : vol.toNat = 16384) (y : Sample) : volumeSample vol y = y := by
  have hlow := BitVec.le_toInt y
  have hhigh := BitVec.toInt_lt (x := y)
  refine BitVec.eq_of_toInt_eq ?_
  rw [volumeSample_toInt, h]
  norm_num at hlow hhigh
  omega

theorem volumeSample_off {vol : Gain} (h : vol.toNat = 0) (y : Sample) : volumeSample vol y = 0 := by
  refine BitVec.eq_of_toInt_eq ?_
  rw [volumeSample_toInt, h]
  simp

/-! ### The sums (R131, R133, R136) -/

theorem getD_zipWith {α β γ : Type} (f : α → β → γ) {xs : List α} {ys : List β} {i : Nat} (hx : i < xs.length)
    (hy : i < ys.length) (a : α) (b : β) (d : γ) : (List.zipWith f xs ys).getD i d = f (xs.getD i a) (ys.getD i b) := by
  rw [List.getD_eq_getElem _ _ (by simp [hx, hy]), List.getD_eq_getElem _ _ hx, List.getD_eq_getElem _ _ hy,
    List.getElem_zipWith]

/-- One sample of a sum: what was there, and each source at its gain. -/
theorem getD_mixInto (e : Int) {rs : List StreamRec} (hrs : ∀ r ∈ rs, r.current.length = 160) {acc : List Int}
    (hacc : acc.length = 160) {i : Nat} (hi : i < 160) :
    (mixInto e rs acc).getD i 0 = acc.getD i 0 + (rs.map fun r => (r.current.getD i 0).toInt * e).sum := by
  induction rs generalizing acc with
  | nil => simp [mixInto]
  | cons r rs ih =>
    have hr := hrs r List.mem_cons_self
    have hadded : (addScaled e acc r).length = 160 := by simp [addScaled, hacc, hr]
    have hstep : (addScaled e acc r).getD i 0 = acc.getD i 0 + (r.current.getD i 0).toInt * e :=
      getD_zipWith _ (by omega) (by omega) 0 0 0
    have hrest := ih (fun q hq => hrs q (List.mem_cons_of_mem r hq)) hadded
    rw [List.map_cons, List.sum_cons, ← add_assoc, ← hstep]
    exact hrest

theorem getD_emptySum (i : Nat) : emptySum.getD i 0 = 0 := by
  rw [emptySum, List.getD_eq_getElem?_getD, List.getElem?_replicate]
  split <;> rfl

section
variable {s : State} (h : s.sizesOk = true)
include h

theorem wearers_sized : ∀ r ∈ s.streams.wearers, r.current.length = 160 := fun r hr => by
  obtain ⟨-, -, ⟨-, hwearers, -, -⟩, -, -⟩ := (sizesOk_iff s).1 h
  exact ((framesOk_iff r).1 (hwearers r hr)).1

theorem farEnd_sized : s.streams.farEnd.current.length = 160 := by
  obtain ⟨-, -, ⟨-, -, hfar, -⟩, -, -⟩ := (sizesOk_iff s).1 h
  exact ((framesOk_iff _).1 hfar).1

theorem capture_sized : s.codec.capture.length = 160 := by
  obtain ⟨-, ⟨hcapture, -, -⟩, -, -, -⟩ := (sizesOk_iff s).1 h
  exact hcapture

/-- The speaker sum, sample by sample (R131, R133). -/
theorem getD_speakerSum {i : Nat} (hi : i < 160) :
    s.speakerSum.length = 160 ∧
    s.speakerSum.getD i 0 =
      (s.streams.farEnd.current.getD i 0).toInt * effectiveGain s.config.gFar s.speakerCount +
        (s.otherWearers.map fun r => (r.current.getD i 0).toInt * effectiveGain s.config.gVoice s.speakerCount).sum := by
  have hothers : ∀ r ∈ s.otherWearers, r.current.length = 160 := fun r hr =>
    wearers_sized h r (List.mem_of_mem_eraseIdx hr)
  have hfar : ∀ r ∈ [s.streams.farEnd], r.current.length = 160 := fun r hr => by
    rw [List.mem_singleton.1 hr]
    exact farEnd_sized h
  have hempty : emptySum.length = 160 := List.length_replicate
  have hinner := length_mixInto (effectiveGain s.config.gFar s.speakerCount) _ _ hempty hfar
  refine ⟨length_mixInto _ _ _ hinner hothers, ?_⟩
  rw [State.speakerSum, getD_mixInto _ hothers hinner hi, getD_mixInto _ hfar hempty hi, getD_emptySum]
  simp

/-- The uplink frame, sample by sample (R136). -/
theorem getD_uplinkFrame {i : Nat} (hi : i < 160) :
    (s.uplinkFrame.getD i 0).toInt = max (-32768) (min 32767
      (((s.streams.wearers.map fun r => (r.current.getD i 0).toInt *
        effectiveGain s.config.gUp (s.streams.wearers.filter StreamRec.active).length).sum + 8192) / 16384)) := by
  have hempty : emptySum.length = 160 := List.length_replicate
  have hlength := length_mixInto (effectiveGain s.config.gUp (s.streams.wearers.filter StreamRec.active).length) _ _ hempty
    (wearers_sized h)
  have hsum := getD_mixInto (effectiveGain s.config.gUp (s.streams.wearers.filter StreamRec.active).length)
    (wearers_sized h) hempty hi
  rw [getD_emptySum, zero_add] at hsum
  rw [← hsum, State.uplinkFrame, List.getD_eq_getElem _ _ (by rw [List.length_map, hlength]; exact hi),
    List.getElem_map,
    List.getD_eq_getElem _ _ (by rw [hlength]; exact hi)]
  exact saturate_toInt _

end

theorem endCycle_creds {s : State} (hlate : s.chan.late = []) (c : Cycle) (order : DeadlineOrder) :
    (s.endCycle c order).station.creds = s.station.creds := by
  obtain ⟨_, hstation, _⟩ := State.begun_frame (decided s c order) c
  obtain ⟨_, _, hcreds⟩ := deadlineWork_early (s.atDeadline c) order
  rw [State.endCycle_eq hlate, ← decided, hstation, decided, hcreds, (Session.atDeadline_station s c).1]

/-- Settles O52. -/
theorem speakerFrameIsMixed : Obligations.SpeakerFrameIsMixed := by
  refine ⟨⟨rfl, rfl, rfl, rfl, fun k hk => ?_⟩,
    fun g k => ⟨effectiveGain_eq g k, (effectiveGain_range g k).1, (effectiveGain_range g k).2, fun h =>
    effectiveGain_unity h k⟩,
    fun vol y => ⟨volumeSample_toInt vol y, fun h => volumeSample_unity h y, fun h => volumeSample_off h y⟩,
    fun c order s hcycle hend hframe hsizes hlate hrole => ?_⟩
  · rw [headroom, if_neg (by omega), if_neg (by omega), if_neg (by omega)]
  · have hplayout := State.endCycle_playout c order hlate hrole
    have hsizes' := endCycle_sizesOk hsizes c order
    have hcapture := capture_sized hsizes
    have hcreds : (s.endCycle c order).station.creds = s.station.creds := endCycle_creds hlate c order
    have hconfig : (s.endCycle c order).config = s.config := by simp
    have hlength : (s.endCycle c order).speakerSum.length = 160 := (getD_speakerSum hsizes' (i := 0) (by omega)).1
    refine ⟨_, execCycleEnd_due hcycle hend hframe order, ?_, ?_⟩
    · rw [hplayout]
      simp [hlength, hcapture]
    · intro others k clamp i hi x acc y z
      obtain ⟨_, hsum⟩ := getD_speakerSum hsizes' hi
      have hacc : (s.endCycle c order).speakerSum.getD i 0 = acc := by
        rw [hsum, hconfig]
        simp only [State.speakerCount, State.otherWearers, hcreds]
        rfl
      rw [hplayout, getD_zipWith _ (by omega) (by omega) 0 0 0, hacc]
      have hy : (mixedSample acc).toInt = y := saturate_toInt _
      have hz : (volumeSample s.config.vol (mixedSample acc)).toInt = z := by
        rw [volumeSample_toInt, hy]
      rw [speakerSample, saturate_toInt, hz]
      rfl

/-! ### The uplink queue (R153, R154) -/

theorem joinedQueue_eq {q j : List Sample} (h : j.length ≤ 640) :
    joinedQueue q j = (q ++ j).drop (q.length + j.length - 640) := by
  rw [joinedQueue, List.drop_append, Nat.sub_eq_zero_of_le (by omega : q.length + j.length - 640 ≤ q.length),
    List.drop_zero]

/-- Settles O53. -/
theorem uplinkFrameJoinsTheQueue : Obligations.UplinkFrameJoinsTheQueue := by
  intro c order s hcycle hend hframe hsizes hlate
  obtain ⟨hnone, hclaims, hending⟩ := State.endCycle_uplink c order hlate
  refine ⟨_, execCycleEnd_due hcycle hend hframe order, hnone, fun h => ?_, fun h => ?_⟩
  · obtain ⟨hflag, hqueue⟩ := hending h
    exact ⟨hflag, fun hok hjump => hqueue (State.roleMatches_of_claimsOk hok) hjump⟩
  · intro k fill
    have hsizes' := endCycle_sizesOk hsizes c order
    have hlength := length_uplinkFrame hsizes'
    obtain ⟨hqueue, hflag⟩ := hclaims ((Call.claims_iff _).2 h)
    have hconfig : (s.endCycle c order).config = s.config := by simp
    generalize hu : (s.endCycle c order).uplinkFrame = u at hqueue hflag hlength
    have hjoined := length_joinSamples s.bearer.uplink.length u
    refine ⟨u, joinSamples fill u, hlength, fun i hi => ?_, fun hlow => ?_, fun hlow hhigh => ?_,
      fun hhigh => ?_, ?_, ?_⟩
    · rw [← hu, getD_uplinkFrame hsizes' hi, hconfig]
      rfl
    · rw [joinSamples, if_neg (by omega), if_neg (by omega)]
      rfl
    · rw [joinSamples, if_neg (by omega), if_pos hlow]
    · rw [joinSamples, if_pos hhigh]
      rfl
    · rw [hqueue, joinedQueue_eq (by omega)]
    · rw [hflag]
      simp [fill]

end Sys2Proof.Proofs.Mixing
end
